-- ==== Sys2Proof/Word.lean ====
section
/-! DEFINITION. The widths and names of the Brajec 1208: octets, ports, pools, slots, ticks. -/

namespace Sys2Proof

/-- One octet of a frame. -/
abbrev Octet := BitVec 8

/-- A client port, 0 to 3 (spec 00). -/
abbrev Port := Fin 4

/-- A pool, 0 to 7 (spec 07, R114). -/
abbrev Pool := Fin 8

/-- A slot of the record table, 0 to 1023 (R1). -/
abbrev SlotIx := Fin 1024

/-- An absolute time or a remaining interval, 0 to time max (spec 02). -/
abbrev Tick := BitVec 56

/-- An interval or a period, 0 to 1,099,511,627,775 ticks (spec 00, Times). -/
abbrev Interval := BitVec 40

/-- A generation, 0 to 255, wrapping (R1, R3). -/
abbrev Generation := BitVec 8

/-- A sweep number, 1 to 255 (R127). -/
abbrev SweepNumber := BitVec 8

/-- A frame's sequence number, 0 to 15 (R161). -/
abbrev SeqNumber := BitVec 4

/-- The four ports in ascending number. -/
def allPorts : List Port := [0, 1, 2, 3]

/-- The eight pools in ascending number (R118). -/
def allPools : List Pool := [0, 1, 2, 3, 4, 5, 6, 7]

/-- Which block found a failed link of the deadline list (R148). -/
inductive Finder where
  | expiryEngine
  | placementUnit
  | scrubber
  deriving DecidableEq, Repr

end Sys2Proof
end

