-- ==== Sys2Proof/Syntax.lean ====
section
/-! DEFINITION. The commands of the block: one constructor per row of spec/opcode_table.json.
A request row names the port whose taken request is applied (R164): the request's own fields are
octets of the payload that the port's request list holds. A frame row carries the octets received
after the start octet (R152, log 16). -/

namespace Sys2Proof

/-- One event of the part, or the application of one taken request. -/
inductive Instr where
  /-- Assertion of the reset pin, or power-up (R151). -/
  | deviceReset
  /-- The tick phase reaches the prescaler in force (R22). -/
  | tick
  /-- The scrubber visits the slot at its cursor (R142). -/
  | scrubVisit
  /-- A deadline-list link read by a block fails its check (R148). -/
  | listFault (finder : Finder)
  /-- The placement unit takes the head of its queue (R57). -/
  | placementTake
  /-- The placement in flight ends (R59). -/
  | placementEnd
  /-- The expiry engine fires a due head (R71). -/
  | firing
  /-- The companion search considers the next member of its window (R84). -/
  | companionFiring
  /-- A marked head is removed without firing (R86). -/
  | markedHeadRemoval
  /-- The idle sweep unit takes its next sweep (R130). -/
  | sweepStart
  /-- The walk visits the slot at its cursor (R132). -/
  | sweepVisit
  /-- The TAG sweep in progress ends (R134). -/
  | tagSweepEnd
  /-- The PORT sweep in progress ends (R135). -/
  | portSweepEnd
  /-- The TOTAL sweep in progress ends (R136). -/
  | totalSweepEnd
  /-- A begun frame is cut off (R152). -/
  | frameCutOff (port : Port)
  /-- A bad frame's last octet arrives (R153). -/
  | badFrame (port : Port) (octets : List Octet)
  /-- A good LINK-OPEN frame's last octet arrives (R157). -/
  | linkOpen (port : Port) (octets : List Octet)
  /-- A good LINK-CLOSE frame's last octet arrives (R156). -/
  | linkClose (port : Port) (octets : List Octet)
  /-- A good REQUEST frame's last octet arrives (R161). -/
  | requestFrame (port : Port) (octets : List Octet)
  /-- The sending of a frame ends (R155). -/
  | frameSent (port : Port)
  /-- The head request of the port is an OPEN and is applied (R7). -/
  | openRecord (port : Port)
  /-- CLOSE is applied (R14). -/
  | closeRecord (port : Port)
  /-- READ is applied (R9). -/
  | readRecord (port : Port)
  /-- SET is applied (R11). -/
  | setRecord (port : Port)
  /-- ARM is applied (R34). -/
  | arm (port : Port)
  /-- CANCEL is applied (R40). -/
  | cancel (port : Port)
  /-- PAUSE is applied (R43). -/
  | pause (port : Port)
  /-- RESUME is applied (R45). -/
  | resume (port : Port)
  /-- TAKE is applied (R99). -/
  | take (port : Port)
  /-- ACK is applied (R104). -/
  | ack (port : Port)
  /-- RELEASE is applied (R107). -/
  | release (port : Port)
  /-- ATTENTION-SET is applied (R111). -/
  | attentionSet (port : Port)
  /-- POOL-SET is applied (R122). -/
  | poolSet (port : Port)
  /-- RETIRE-TAG is applied (R128). -/
  | retireTag (port : Port)
  /-- CLEAR-ALL is applied (R129). -/
  | clearAll (port : Port)
  /-- TIME-READ is applied (R25). -/
  | timeRead (port : Port)
  /-- TIME-SET is applied (R26). -/
  | timeSet (port : Port)
  /-- TIME-RUN is applied (R30). -/
  | timeRun (port : Port)
  /-- TIME-FREEZE is applied (R31). -/
  | timeFreeze (port : Port)
  /-- PRESCALE is applied (R32). -/
  | prescale (port : Port)
  /-- SCRUB-SET is applied (R141). -/
  | scrubSet (port : Port)
  /-- QUOTA-SET is applied (R170). -/
  | quotaSet (port : Port)
  /-- PORT-LIMIT-SET is applied (R171). -/
  | portLimitSet (port : Port)
  /-- PORT-DISABLE is applied (R172). -/
  | portDisable (port : Port)
  /-- PORT-ENABLE is applied (R172). -/
  | portEnable (port : Port)
  /-- HAND-OVER is applied (R169). -/
  | handOver (port : Port)
  /-- FORCE-CLOSE is applied (R173). -/
  | forceClose (port : Port)
  /-- STATUS is applied (R175). -/
  | status (port : Port)
  /-- ECHO is applied (R166). -/
  | echo (port : Port)
  /-- Bits are received between frames, and the first that form A5h begin a frame (R152). -/
  | frameStart (port : Port) (bits : List Bool)
  /-- A taken request whose payload is empty or whose code is unknown is applied (R178). -/
  | unknownRequestCode (port : Port)
  deriving DecidableEq, Repr

end Sys2Proof
end

