-- ==== Sys2Proof/Decode.lean ====
section
/-! DEFINITION. The table of the block gives no row any bits (spec/opcode_table.json: every row's
"fields" is empty and no row has a "fixed"), so no word spells a command (log 24). -/

namespace Sys2Proof

/-- The command that a word of `nbits` bits spells by the table: none, for every word. -/
def decodeTableWord (nbits w : Nat) : Option Instr :=
  match nbits, w with
  | _, _ => none

end Sys2Proof
end

