-- ==== Sys2Proof/Config.lean ====
section
/-! DEFINITION. What is fixed for the part (sizes and ranges of the spec), and the free values. -/

namespace Sys2Proof.Config

/-- The number of slots of the record table (R1). -/
def slotCount : Nat := 1024

/-- The largest time base value (spec 00, Table 0-2). -/
def timeMax : Nat := 72057594037927935

/-- The largest interval or period (spec 00, Times). -/
def intervalMax : Nat := 1099511627775

/-- General entries of the notice store (R90). -/
def generalEntries : Nat := 248

/-- Members of a companion window (R82). -/
def windowSize : Nat := 32

/-- Companions of one firing at most (R82). -/
def companionMax : Nat := 8

/-- Responses kept for replay (R163). -/
def historySize : Nat := 4

/-- Transmit places for frames other than responses to taken requests (R155). -/
def otherPlaces : Nat := 8

/-- Consecutive bad frames that take a port out of UP (R154). -/
def badRunLimit : Nat := 8

/-- Reference clock periods without a bit after which a begun frame is cut off (R152). -/
def cutOffPeriods : Nat := 65536

/-- The longest payload of a frame (R153, Table 12-1). -/
def payloadMax : Nat := 250

/-- The largest correction count (R138). -/
def correctionMax : Nat := 65535

/-- The quota of every port after device reset (R167). -/
def resetQuota : Nat := 256

/-- The notice limit of every port after device reset (R167). -/
def resetLimit : Nat := 64

/-- FREE VALUE (log 7). The overrun count read from a timing part that failed beyond repair in a
record whose identity is lost too: R143 uses that count only "when its own check holds" and states
none otherwise. Applied to the count of free values read so far. -/
opaque untrustworthyOverrun : Nat → BitVec 8

end Sys2Proof.Config
end

