-- ==== Sys2Proof/Machine/State.lean ====
section
/-! DEFINITION. The state of the block as plain data, block by block of Table 0-1, and the state right
after device reset. -/

namespace Sys2Proof.Machine

/-! ### Records (spec 01) -/

/-- Table 1-2. -/
inductive Sched where
  | free | idle | queued | placing | armed | paused | damaged
  deriving DecidableEq, Repr

/-- Table 1-3. -/
inductive NoticeState where
  | clear | waiting | pending | outstanding
  deriving DecidableEq, Repr

/-- The destination of a record's notices: a port or a pool (Table 1-1). -/
inductive Target where
  | port (p : Port)
  | pool (k : Pool)
  deriving DecidableEq, Repr

/-- The two classes of notice (Table 0-2). -/
inductive NoticeClass where
  | plain | held
  deriving DecidableEq, Repr

/-- How a periodic record's next deadline is chosen (R78, R79). -/
inductive Policy where
  | aligned | skip
  deriving DecidableEq, Repr

/-- Whether the record is retired once its notice is consumed (R19). -/
inductive Disposal where
  | keep | closeAfter
  deriving DecidableEq, Repr

/-- Which stored part failed (Table 1-1, R143). -/
inductive FaultPart where
  | timing | identity
  deriving DecidableEq, Repr

/-- What a read of a stored part finds when it checks its check code (R138, log 6). -/
inductive Check where
  | passing | correctable | uncorrectable
  deriving DecidableEq, Repr

/-- One slot of the record table: the identity part, the timing part, and the state of the check codes
of both identity copies and of the timing part (R2, Table 1-1, log 6). A slot whose schedule state is
FREE holds its generation alone; its other fields are blank (R2, log 1). -/
structure Record where
  /-- Identity part. -/
  generation : Generation
  /-- Identity part; none is "unknown" (R6), or no record. -/
  owner : Option Port
  /-- Identity part. -/
  tag : BitVec 16
  /-- Identity part. -/
  sched : Sched
  /-- Identity part: the sweep that is to retire the record. -/
  mark : Option SweepNumber
  /-- Timing part, from here on. -/
  target : Target
  cls : NoticeClass
  urgency : Fin 8
  cookie : BitVec 32
  slack : BitVec 16
  period : Option Interval
  policy : Policy
  disposal : Disposal
  deadline : Option Tick
  remaining : Option Tick
  overrun : BitVec 8
  notice : NoticeState
  holder : Option Port
  fault : Option FaultPart
  /-- The check of the first identity copy. -/
  copyA : Check
  /-- The check of the second identity copy. -/
  copyB : Check
  /-- The check of the timing part. -/
  timingCheck : Check
  /-- The timing part failed and was written anew: its fields are not used again (R143 step 4). -/
  timingLost : Bool
  deriving DecidableEq, Repr

/-- The slot that holds no record and has generation 0 (R1). -/
def Record.blank : Record where
  generation := 0
  owner := none
  tag := 0
  sched := .free
  mark := none
  target := .port 0
  cls := .plain
  urgency := 0
  cookie := 0
  slack := 0
  period := none
  policy := .aligned
  disposal := .keep
  deadline := none
  remaining := none
  overrun := 0
  notice := .clear
  holder := none
  fault := none
  copyA := .passing
  copyB := .passing
  timingCheck := .passing
  timingLost := false

/-- The record table (R1, R6, R139). `cells` lists the slots that are not blank, in ascending slot
order (log 9); `occupied` is the complement of the set of FREE slots, kept apart from the identity
parts (R139); `owned` holds, for each port, the slots counted in its owned count (R143). -/
structure RecordTable where
  cells : List (SlotIx × Record)
  occupied : List SlotIx
  owned : Vector (List SlotIx) 4
  deriving DecidableEq, Repr

/-! ### The time base (spec 02) -/

/-- Table 2-1. -/
inductive TimeMode where
  | frozen | running | exhausted
  deriving DecidableEq, Repr

/-- The time base: "now", its state, the prescalers and the tick phase (R21). -/
structure TimeBase where
  now : Tick
  mode : TimeMode
  prescaler : Nat
  pendingPrescaler : Option Nat
  phase : Nat
  deriving DecidableEq, Repr

/-! ### Placement (spec 04) -/

/-- The record the placement unit carries (R57): slot and generation, whether it was taken from the
rebuild part, and whether a list fault has overtaken it (R61). -/
structure Carried where
  slot : SlotIx
  generation : Generation
  rebuildMember : Bool
  overtaken : Bool
  deriving DecidableEq, Repr

/-- The placement queue, head first, the length of its rebuild part, and the carried record (R53). -/
structure PlacementUnit where
  queue : List SlotIx
  rebuildPart : Nat
  carried : Option Carried
  deriving DecidableEq, Repr

/-! ### The deadline list and the expiry engine (spec 05) -/

/-- A member of the deadline list, and whether its link to the member behind it still passes its
check (spec 09, CHECKED STORAGE). The tail has one too, by the model's choice (log 34). -/
structure Member where
  slot : SlotIx
  linkHolds : Bool
  deriving DecidableEq, Repr

/-- R69. -/
inductive ListState where
  | normal | rebuilding | failed
  deriving DecidableEq, Repr

/-- The firing whose companion search has not ended (R82): the record fired, the target it had, the
members of the window not yet considered and still in the list, and the companions fired. -/
structure Firing where
  slot : SlotIx
  generation : Generation
  target : Target
  window : List SlotIx
  companions : Nat
  deriving DecidableEq, Repr

/-- The deadline list, head first, and the expiry engine's own state (R66, R69). -/
structure Expiry where
  list : List Member
  listState : ListState
  restarts : Nat
  firing : Option Firing
  deriving DecidableEq, Repr

/-! ### Notices (spec 06) -/

/-- The kinds of notice (Table 6-1). -/
inductive NoticeKind where
  | expiry | fault | sweepDone
  deriving DecidableEq, Repr

/-- An entry of the notice store that is not FREE (Table 6-1). Its entry state is the collection that
holds it: a holding queue, a port queue or an outstanding set (R91). `number` is its place in the
store (R90, log 8). A field absent for the kind is none or its zero. -/
structure Entry where
  number : Nat
  kind : NoticeKind
  slot : Option SlotIx
  generation : Generation
  cls : NoticeClass
  urgency : Fin 8
  cookie : BitVec 32
  firedDeadline : Option Tick
  firedAt : Option Tick
  overrun : BitVec 8
  late : Bool
  early : Bool
  delayed : Bool
  rangeEnd : Bool
  destination : Target
  assigned : Option Port
  deliveries : BitVec 8
  stamp : Nat
  sweepNumber : Option SweepNumber
  retired : Nat
  abandoned : Bool
  faultPart : Option FaultPart
  deriving DecidableEq, Repr

/-- What the notice unit keeps with a place on the blocked list (R95): the values of a firing, or the
fault part of a damage. -/
inductive Kept where
  | firing (firedDeadline firedAt : Tick) (late rangeEnd : Bool)
  | damage (part : FaultPart)
  deriving DecidableEq, Repr

/-- A place on the blocked list (R95). -/
structure BlockedPlace where
  slot : SlotIx
  kept : Kept
  deriving DecidableEq, Repr

/-- The notice unit (R90): the entries in the four port queues, the four outstanding sets and the eight
holding queues, the blocked list, the stamp counter and the attention thresholds. -/
structure NoticeUnit where
  queues : Vector (List Entry) 4
  outstanding : Vector (List Entry) 4
  holding : Vector (List Entry) 8
  blocked : List BlockedPlace
  stamp : Nat
  thresholds : Vector (Fin 8) 4
  deriving DecidableEq, Repr

/-! ### Sweeps (spec 08) -/

/-- The kind of a sweep with its match and its requesting port (R125). -/
inductive SweepKind where
  | tag (owner : Port) (tag : BitVec 16) (requester : Port)
  | port (p : Port)
  | total
  deriving DecidableEq, Repr

/-- A sweep in a place (R126, R127). -/
structure Sweep where
  number : SweepNumber
  kind : SweepKind
  deriving DecidableEq, Repr

/-- The sweep in progress (R130, R132). -/
structure SweepRun where
  sweep : Sweep
  retired : Nat
  cursor : Nat
  deriving DecidableEq, Repr

/-- The sweep unit (R124). `places` holds the TAG and PORT sweeps queued or in progress, in the order of
their queuing: the 8 tag places and the 4 port places (R126, log 21). -/
structure SweepUnit where
  places : List Sweep
  total : Option Sweep
  current : Option SweepRun
  nextNumber : SweepNumber
  deriving DecidableEq, Repr

/-! ### The scrubber (spec 09) -/

/-- The scrubber (R138, R140). `visitsDue` counts the visits that ticks have caused and that are not
made yet (log 11). -/
structure Scrubber where
  interval : Nat
  ticks : Nat
  cursor : SlotIx
  corrections : Nat
  visitsDue : Nat
  deriving DecidableEq, Repr

/-! ### The client ports (spec 10) -/

/-- Table 10-2. -/
inductive LinkState where
  | disabled | down | recovering | up
  deriving DecidableEq, Repr

/-- The condition of a taken request (R162); a held one waits for the placement of the slot it names
(R63). -/
inductive Condition where
  | waiting
  | held (slot : SlotIx)
  | answered
  deriving DecidableEq, Repr

/-- A request taken and not yet ended (R162). -/
structure TakenRequest where
  seq : SeqNumber
  payload : List Octet
  condition : Condition
  deriving DecidableEq, Repr

/-- Table 12-2. -/
inductive FrameKind where
  | request | response | linkOpen | linkAccept | linkWait | linkClose | reject
  deriving DecidableEq, Repr

/-- A frame without its start octet, length and check (Table 12-1). -/
structure Frame where
  kind : FrameKind
  seq : SeqNumber
  payload : List Octet
  deriving DecidableEq, Repr

/-- Which of the transmit queue's places a frame holds (R155). -/
inductive TransmitPlace where
  | response
  | other
  deriving DecidableEq, Repr

/-- A frame formed and not yet sent; the head of the queue is the one being sent (R155, log 15). -/
structure Outgoing where
  frame : Frame
  place : TransmitPlace
  deriving DecidableEq, Repr

/-- A stored response with the sequence number of its request (R163). -/
structure StoredReply where
  seq : SeqNumber
  payload : List Octet
  deriving DecidableEq, Repr

/-- The receiver of a port (R152): searching for the start octet, with the last bits seen (at most
seven), or receiving a begun frame, with the bits received after the start octet and the reference
clock periods since the last of them. -/
inductive Receiver where
  | searching (window : List Bool)
  | receiving (bits : List Bool) (quiet : Nat)
  deriving DecidableEq, Repr

/-- A client port (spec 10, the table of port state) and its attention line (R110). -/
structure Link where
  state : LinkState
  expected : SeqNumber
  window : Nat
  pendingWindow : Option Nat
  requests : List TakenRequest
  history : List StoredReply
  badRun : Nat
  transmit : List Outgoing
  receiver : Receiver
  attention : Bool
  deriving DecidableEq, Repr

/-- R151: a port after device reset. -/
def Link.reset : Link where
  state := .down
  expected := 0
  window := 1
  pendingWindow := none
  requests := []
  history := []
  badRun := 0
  transmit := []
  receiver := .searching []
  attention := false

/-! ### The port table (spec 11) -/

/-- The holder of the supervisor right and the limits of each port (R167). -/
structure PortTable where
  supervisor : Port
  quota : Vector Nat 4
  limit : Vector Nat 4
  enabled : Vector Bool 4
  deriving DecidableEq, Repr

/-! ### Inputs from outside -/

/-- A storage error that strikes a stored part or a link (spec 09, CHECKED STORAGE; log 5). -/
inductive Upset where
  | identityCopy (slot : SlotIx) (first : Bool) (found : Check)
  | timing (slot : SlotIx) (found : Check)
  | link (slot : SlotIx)
  deriving DecidableEq, Repr

/-- The whole block. The last three fields are the model's own: the commands that are waiting, the
storage errors still to strike (log 5) and the count of free values read (log 7). -/
structure State where
  timeBase : TimeBase
  table : RecordTable
  placement : PlacementUnit
  expiry : Expiry
  notices : NoticeUnit
  pools : Vector (List Port) 8
  sweeps : SweepUnit
  scrubber : Scrubber
  portTable : PortTable
  links : Vector Link 4
  pending : List Instr
  upsets : List Upset
  freeValues : Nat
  deriving DecidableEq, Repr

/-- Why the block stops with a fault: it never does. Every event of the spec has an effect, and a
storage error, a list fault or a bad frame is an effect, not a stop (R138, R148, R153). -/
inductive Fault where
  deriving DecidableEq, Repr

/-- Why a command has no meaning. -/
inductive Refusal where
  /-- Raised by `exec` for a row that has no meaning yet; safe: the model stops. No row is left so. -/
  | notModelled (mnemonic : String)
  deriving DecidableEq, Repr

/-- The state after device reset (R1, R21, R53, R66, R69, R90, R114, R124, R138, R140, R151, R167). -/
def State.reset : State where
  timeBase := { now := 0, mode := .frozen, prescaler := 1, pendingPrescaler := none, phase := 0 }
  table := { cells := [], occupied := [], owned := Vector.replicate 4 [] }
  placement := { queue := [], rebuildPart := 0, carried := none }
  expiry := { list := [], listState := .normal, restarts := 0, firing := none }
  notices := { queues := Vector.replicate 4 [], outstanding := Vector.replicate 4 [],
               holding := Vector.replicate 8 [], blocked := [], stamp := 0,
               thresholds := Vector.replicate 4 0 }
  pools := Vector.replicate 8 []
  sweeps := { places := [], total := none, current := none, nextNumber := 1 }
  scrubber := { interval := 0, ticks := 0, cursor := 0, corrections := 0, visitsDue := 0 }
  portTable := { supervisor := 0, quota := Vector.replicate 4 Config.resetQuota,
                 limit := Vector.replicate 4 Config.resetLimit, enabled := Vector.replicate 4 true }
  links := Vector.replicate 4 Link.reset
  pending := []
  upsets := []
  freeValues := 0

end Sys2Proof.Machine
end

