-- ==== Sys2Proof/Machine/Operands.lean ====
section
/-! DEFINITION. The fields of request payloads: octet order, the field encodings of Table 12-3 and the
request layouts of Table 12-4. Each `parse` answers none exactly when the request is refused with
FORMAT (R177, R178). -/

namespace Sys2Proof.Machine

/-! ### Octets, most significant first (spec 12) -/

/-- Octet `k` of a payload as a number; 0 beyond its end. -/
def octetAt (payload : List Octet) (k : Nat) : Nat := (payload.getD k 0).toNat

/-- The number that `n` octets from octet `k` spell, most significant first. -/
def fieldAt (payload : List Octet) (k n : Nat) : Nat :=
  ((payload.drop k).take n).foldl (fun acc o => acc * 256 + o.toNat) 0

/-- A number as `n` octets, most significant first. -/
def octetsOf : Nat → Nat → List Octet
  | 0, _ => []
  | n + 1, v => BitVec.ofNat 8 (v / 256 ^ n) :: octetsOf n v

/-- One octet. -/
def octet (v : Nat) : Octet := BitVec.ofNat 8 v

/-! ### Request codes (Table 12-4) -/

/-- The requests of Table 12-4. -/
inductive RequestCode where
  | openRecord | closeRecord | readRecord | setRecord | arm | cancel | pause | resume
  | take | ack | release | attentionSet | poolSet | retireTag | clearAll
  | timeRead | timeSet | timeRun | timeFreeze | prescale | scrubSet
  | quotaSet | portLimitSet | portDisable | portEnable | handOver | forceClose | status | echo
  deriving DecidableEq, Repr

/-- The request that a code octet names (Table 12-4). -/
def requestCode (o : Octet) : Option RequestCode :=
  match o.toNat with
  | 0x01 => some .openRecord
  | 0x02 => some .closeRecord
  | 0x03 => some .readRecord
  | 0x04 => some .setRecord
  | 0x05 => some .arm
  | 0x06 => some .cancel
  | 0x07 => some .pause
  | 0x08 => some .resume
  | 0x10 => some .take
  | 0x11 => some .ack
  | 0x12 => some .release
  | 0x13 => some .attentionSet
  | 0x18 => some .poolSet
  | 0x20 => some .retireTag
  | 0x21 => some .clearAll
  | 0x28 => some .timeRead
  | 0x29 => some .timeSet
  | 0x2A => some .timeRun
  | 0x2B => some .timeFreeze
  | 0x2C => some .prescale
  | 0x30 => some .scrubSet
  | 0x38 => some .quotaSet
  | 0x39 => some .portLimitSet
  | 0x3A => some .portDisable
  | 0x3B => some .portEnable
  | 0x3C => some .handOver
  | 0x3D => some .forceClose
  | 0x3E => some .status
  | 0x3F => some .echo
  | _ => none

/-- The request a payload asks for: none when it is empty or its code is unknown (R178). -/
def requestOf (payload : List Octet) : Option RequestCode := payload.head?.bind requestCode

/-! ### Common fields (Table 12-3) -/

/-- The slot field of the handle at octet `k`: bits 14 to 0 of its first two octets. -/
def slotField (payload : List Octet) (k : Nat) : Nat := fieldAt payload k 2 % 32768

/-- The slot a number names, if it is one. -/
def slotOf (v : Nat) : Option SlotIx := if h : v < 1024 then some ⟨v, h⟩ else none

/-- A handle (spec 01, HANDLES). -/
structure Handle where
  slot : SlotIx
  generation : Generation
  deriving DecidableEq, Repr

/-- The handle at octet `k`. FORMAT: the slot is above 1023 (bits 14 to 10 are not 0), or bit 15 is set
(R177). -/
def parseHandle (payload : List Octet) (k : Nat) : Option Handle :=
  if fieldAt payload k 2 < 32768 then
    (slotOf (slotField payload k)).map fun i => ⟨i, octet (octetAt payload (k + 2))⟩
  else none

/-- A port octet. FORMAT above 3. -/
def parsePort (v : Nat) : Option Port := if h : v < 4 then some ⟨v, h⟩ else none

/-- A pool octet. FORMAT above 7. -/
def parsePool (v : Nat) : Option Pool := if h : v < 8 then some ⟨v, h⟩ else none

/-- An urgency or a threshold. FORMAT above 7. -/
def parseUrgency (v : Nat) : Option (Fin 8) := if h : v < 8 then some ⟨v, h⟩ else none

/-- A target octet: bit 3 tells a pool from a port, bits 2 to 0 number it, bits 7 to 4 are 0. -/
def parseTarget (v : Nat) : Option Target :=
  if v < 8 then (parsePort v).map .port
  else if v < 16 then (parsePool (v - 8)).map .pool
  else none

/-- A class octet. -/
def parseClass (v : Nat) : Option NoticeClass :=
  if v = 0 then some .plain else if v = 1 then some .held else none

/-- A policy octet. -/
def parsePolicy (v : Nat) : Option Policy :=
  if v = 0 then some .aligned else if v = 1 then some .skip else none

/-- A disposal octet. -/
def parseDisposal (v : Nat) : Option Disposal :=
  if v = 0 then some .keep else if v = 1 then some .closeAfter else none

/-- An option or flag octet. -/
def parseOption (v : Nat) : Option Bool :=
  if v = 0 then some false else if v = 1 then some true else none

/-- A time value. FORMAT above time max. -/
def parseTime (v : Nat) : Option Tick := if v ≤ Config.timeMax then some (BitVec.ofNat 56 v) else none

/-- An interval. FORMAT above 1,099,511,627,775. -/
def parseInterval (v : Nat) : Option Interval :=
  if v ≤ Config.intervalMax then some (BitVec.ofNat 40 v) else none

/-- A value in a range of a request's own row. -/
def parseRange (low high v : Nat) : Option Nat := if low ≤ v ∧ v ≤ high then some v else none

/-- A field that is read only when it is given: FORMAT only when it is given and breaks its encoding
(R178). -/
def parseGiven {α : Type} (given : Bool) (field : Option α) : Option (Option α) :=
  if given then field.map some else some none

/-! ### Requests (Table 12-4) -/

/-- The fields of an OPEN; an omitted one is none (R7). -/
structure OpenFields where
  tag : BitVec 16
  target : Target
  cls : NoticeClass
  urgency : Fin 8
  cookie : Option (BitVec 32)
  slack : Option (BitVec 16)
  period : Option Interval
  policy : Option Policy
  disposal : Option Disposal
  deriving DecidableEq, Repr

/-- OPEN, 21 octets. Presence bits 5 to 7 are 0; a period that is given is not 0 (R4, R178). -/
def parseOpen (pl : List Octet) : Option OpenFields :=
  if pl.length = 21 ∧ octetAt pl 6 < 32 then do
    let given := fun b => (octetAt pl 6).testBit b
    let target ← parseTarget (octetAt pl 3)
    let cls ← parseClass (octetAt pl 4)
    let urgency ← parseUrgency (octetAt pl 5)
    let period ← parseGiven (given 2)
      (if fieldAt pl 13 6 = 0 then none else parseInterval (fieldAt pl 13 6))
    let policy ← parseGiven (given 3) (parsePolicy (octetAt pl 19))
    let disposal ← parseGiven (given 4) (parseDisposal (octetAt pl 20))
    some { tag := BitVec.ofNat 16 (fieldAt pl 1 2), target := target, cls := cls, urgency := urgency,
           cookie := if given 0 then some (BitVec.ofNat 32 (fieldAt pl 7 4)) else none,
           slack := if given 1 then some (BitVec.ofNat 16 (fieldAt pl 11 2)) else none,
           period := period, policy := policy, disposal := disposal }
  else none

/-- The fields of a SET; one that is not selected is none. A selected period is `some none` when it is
to become absent (R11, R178). -/
structure SetFields where
  handle : Handle
  cookie : Option (BitVec 32)
  urgency : Option (Fin 8)
  slack : Option (BitVec 16)
  target : Option Target
  cls : Option NoticeClass
  period : Option (Option Interval)
  policy : Option Policy
  disposal : Option Disposal
  deriving DecidableEq, Repr

/-- SET, 22 octets. -/
def parseSet (pl : List Octet) : Option SetFields :=
  if pl.length = 22 then do
    let selected := fun b => (octetAt pl 4).testBit b
    let handle ← parseHandle pl 1
    let urgency ← parseGiven (selected 1) (parseUrgency (octetAt pl 9))
    let target ← parseGiven (selected 3) (parseTarget (octetAt pl 12))
    let cls ← parseGiven (selected 4) (parseClass (octetAt pl 13))
    let period ← parseGiven (selected 5) ((parseInterval (fieldAt pl 14 6)).map
      fun v => if v = 0 then none else some v)
    let policy ← parseGiven (selected 6) (parsePolicy (octetAt pl 20))
    let disposal ← parseGiven (selected 7) (parseDisposal (octetAt pl 21))
    some { handle := handle,
           cookie := if selected 0 then some (BitVec.ofNat 32 (fieldAt pl 5 4)) else none,
           urgency := urgency,
           slack := if selected 2 then some (BitVec.ofNat 16 (fieldAt pl 10 2)) else none,
           target := target, cls := cls, period := period, policy := policy, disposal := disposal }
  else none

/-- A deadline in one of its two forms (R34). -/
inductive DeadlineForm where
  | absolute (deadline : Tick)
  | relative (interval : Interval)
  deriving DecidableEq, Repr

/-- ARM, 13 octets: an absolute time value, or an interval in the low six of the eight value octets. -/
def parseArm (pl : List Octet) : Option (Handle × DeadlineForm) :=
  if pl.length = 13 then do
    let handle ← parseHandle pl 1
    let form ←
      if octetAt pl 4 = 0 then (parseTime (fieldAt pl 5 8)).map .absolute
      else if octetAt pl 4 = 1 then (parseInterval (fieldAt pl 5 8)).map .relative
      else none
    some (handle, form)
  else none

/-- A request of four octets that carries a handle alone: CLOSE, READ, PAUSE, RESUME, RELEASE,
FORCE-CLOSE. -/
def parseHandleOnly (pl : List Octet) : Option Handle :=
  if pl.length = 4 then parseHandle pl 1 else none

/-- CANCEL, 5 octets: handle and withdraw option. -/
def parseCancel (pl : List Octet) : Option (Handle × Bool) :=
  if pl.length = 5 then do
    let handle ← parseHandle pl 1
    let withdraw ← parseOption (octetAt pl 4)
    some (handle, withdraw)
  else none

/-- TAKE, 2 octets: a count from 1 to 8 (R99). -/
def parseTake (pl : List Octet) : Option Nat :=
  if pl.length = 2 then parseRange 1 8 (octetAt pl 1) else none

/-- ACK, 11 octets: handle and, when the rearm option is 1, the rearm interval (R103). -/
def parseAck (pl : List Octet) : Option (Handle × Option Interval) :=
  if pl.length = 11 then do
    let handle ← parseHandle pl 1
    let rearm ← parseOption (octetAt pl 4)
    let interval ← parseGiven rearm (parseInterval (fieldAt pl 5 6))
    some (handle, interval)
  else none

/-- ATTENTION-SET, 2 octets. -/
def parseThreshold (pl : List Octet) : Option (Fin 8) :=
  if pl.length = 2 then parseUrgency (octetAt pl 1) else none

/-- Port octets, each 0 to 3. -/
def parsePorts : List Octet → Option (List Port)
  | [] => some []
  | o :: rest => do
    let p ← parsePort o.toNat
    let ps ← parsePorts rest
    some (p :: ps)

/-- POOL-SET, 2 to 6 octets: a pool and up to four ports, none twice (R122). -/
def parsePoolSet (pl : List Octet) : Option (Pool × List Port) :=
  if 2 ≤ pl.length ∧ pl.length ≤ 6 then do
    let pool ← parsePool (octetAt pl 1)
    let ports ← parsePorts (pl.drop 2)
    if ports.Nodup then some (pool, ports) else none
  else none

/-- RETIRE-TAG, 4 octets: owner port and tag (R128). -/
def parseRetireTag (pl : List Octet) : Option (Port × BitVec 16) :=
  if pl.length = 4 then (parsePort (octetAt pl 1)).map fun p => (p, BitVec.ofNat 16 (fieldAt pl 2 2))
  else none

/-- A request that carries nothing after its code: CLEAR-ALL, TIME-READ, TIME-RUN, TIME-FREEZE, STATUS. -/
def parseNothing (pl : List Octet) : Option Unit := if pl.length = 1 then some () else none

/-- TIME-SET, 9 octets. -/
def parseTimeSet (pl : List Octet) : Option Tick :=
  if pl.length = 9 then parseTime (fieldAt pl 1 8) else none

/-- PRESCALE, 3 octets: 1 to 4096 (R32). -/
def parsePrescale (pl : List Octet) : Option Nat :=
  if pl.length = 3 then parseRange 1 4096 (fieldAt pl 1 2) else none

/-- SCRUB-SET, 3 octets: 0 to 65,535 (R141). -/
def parseScrubSet (pl : List Octet) : Option Nat :=
  if pl.length = 3 then some (fieldAt pl 1 2) else none

/-- QUOTA-SET, 4 octets: port and quota 0 to 1024 (R170). -/
def parseQuotaSet (pl : List Octet) : Option (Port × Nat) :=
  if pl.length = 4 then do
    let p ← parsePort (octetAt pl 1)
    let quota ← parseRange 0 1024 (fieldAt pl 2 2)
    some (p, quota)
  else none

/-- PORT-LIMIT-SET, 3 octets: port and limit 1 to 248 (R171). -/
def parsePortLimitSet (pl : List Octet) : Option (Port × Nat) :=
  if pl.length = 3 then do
    let p ← parsePort (octetAt pl 1)
    let limit ← parseRange 1 248 (octetAt pl 2)
    some (p, limit)
  else none

/-- A request of two octets that carries a port: PORT-DISABLE, PORT-ENABLE, HAND-OVER. -/
def parsePortOnly (pl : List Octet) : Option Port :=
  if pl.length = 2 then parsePort (octetAt pl 1) else none

/-- ECHO: the octets after the code, up to 249 (R166). -/
def parseEcho (pl : List Octet) : Option (List Octet) :=
  if 1 ≤ pl.length ∧ pl.length ≤ 250 then some pl.tail else none

/-- The slot a request of the six interlocked kinds names (R63): the handle stands at octet 1. None when
the payload is too short to name one. -/
def namedSlotField (pl : List Octet) : Option Nat :=
  if 3 ≤ pl.length then some (slotField pl 1) else none

end Sys2Proof.Machine
end

