-- ==== Sys2Proof/Machine/Flags.lean ====
section
/-! DEFINITION. What the controller reports: result codes (R179), the states octet (Table 12-3), notice
descriptors (Table 12-5), and the reports of READ and STATUS (Table 12-6). -/

namespace Sys2Proof.Machine

/-- The result codes of R179. -/
inductive Result where
  | ok | stale | notOwner | notHolder | state | range | quota | full | retiring | damaged | denied
  | busy | listFailed | sequence | windowFull | format
  deriving DecidableEq, Repr

/-- The octet of a result code (R179). -/
def Result.code : Result → Octet
  | .ok => 0x00
  | .stale => 0x01
  | .notOwner => 0x02
  | .notHolder => 0x03
  | .state => 0x04
  | .range => 0x05
  | .quota => 0x06
  | .full => 0x07
  | .retiring => 0x08
  | .damaged => 0x09
  | .denied => 0x0A
  | .busy => 0x0B
  | .listFailed => 0x0C
  | .sequence => 0x0D
  | .windowFull => 0x0E
  | .format => 0x0F

/-- The reasons a REJECT frame reports (Table 12-2). -/
inductive RejectReason where
  | cut | length | check | kind | content | disabled
  deriving DecidableEq, Repr

/-- The octet of a REJECT reason (Table 12-2). -/
def RejectReason.code : RejectReason → Octet
  | .cut => 1
  | .length => 2
  | .check => 3
  | .kind => 4
  | .content => 5
  | .disabled => 6

/-- Schedule state codes (Table 12-3). -/
def Sched.code : Sched → Nat
  | .free => 0
  | .idle => 1
  | .queued => 2
  | .placing => 3
  | .armed => 4
  | .paused => 5
  | .damaged => 6

/-- Notice state codes (Table 12-3). -/
def NoticeState.code : NoticeState → Nat
  | .clear => 0
  | .waiting => 1
  | .pending => 2
  | .outstanding => 3

/-- The states octet: schedule state in bits 7 to 4, notice state in bits 3 to 0 (Table 12-3). -/
def statesOctet (sched : Sched) (notice : NoticeState) : Octet := octet (sched.code * 16 + notice.code)

/-- The states octet of a record as it stands (R20). -/
def Record.states (r : Record) : Octet := statesOctet r.sched r.notice

/-- Class codes (Table 12-3). -/
def NoticeClass.code : NoticeClass → Nat
  | .plain => 0
  | .held => 1

/-- Policy codes (Table 12-3). -/
def Policy.code : Policy → Nat
  | .aligned => 0
  | .skip => 1

/-- Disposal codes (Table 12-3). -/
def Disposal.code : Disposal → Nat
  | .keep => 0
  | .closeAfter => 1

/-- The target octet (Table 12-3). -/
def Target.code : Target → Nat
  | .port p => p.val
  | .pool k => 8 + k.val

/-- Time base state codes (Table 12-4). -/
def TimeMode.code : TimeMode → Octet
  | .frozen => 0
  | .running => 1
  | .exhausted => 2

/-- Link state codes (Table 12-4). -/
def LinkState.code : LinkState → Octet
  | .disabled => 0
  | .down => 1
  | .recovering => 2
  | .up => 3

/-- List state codes (Table 12-6). -/
def ListState.code : ListState → Octet
  | .normal => 0
  | .rebuilding => 1
  | .failed => 2

/-- Sweep kind codes (Table 12-6). -/
def SweepKind.code : SweepKind → Octet
  | .tag _ _ _ => 1
  | .port _ => 2
  | .total => 3

/-- Notice kind codes (Table 12-5). -/
def NoticeKind.code : NoticeKind → Octet
  | .expiry => 1
  | .fault => 2
  | .sweepDone => 3

/-- Fault part codes; 0 is absent (Table 12-6). -/
def faultPartCode : Option FaultPart → Octet
  | none => 0
  | some .timing => 1
  | some .identity => 2

/-- The octets of a handle; an unknown generation is sent as 0 with bit 15 set (R177). -/
def handleOctets (slot : SlotIx) (generation : Generation) (unknown : Bool) : List Octet :=
  if unknown then octetsOf 2 (slot.val + 32768) ++ [0] else octetsOf 2 slot.val ++ [generation]

/-- A flag's weight in a flags octet. -/
def flagBit (b : Bool) (weight : Nat) : Nat := if b then weight else 0

/-- A time as eight octets, absent as zero octets. -/
def tickOctets : Option Tick → List Octet
  | none => octetsOf 8 0
  | some t => octetsOf 8 t.toNat

/-- A port octet, absent or unknown as FFh (Table 12-6). -/
def portOctet : Option Port → Octet
  | none => 0xFF
  | some p => octet p.val

/-- The flags octet of a descriptor (Table 12-5). -/
def Entry.flagsOctet (e : Entry) : Octet :=
  octet (flagBit e.late 1 + flagBit e.early 2 + flagBit e.delayed 4 + flagBit e.rangeEnd 8
    + flagBit e.abandoned 16 + flagBit (decide (e.faultPart = some .identity)) 32)

/-- Octets 9 to 16 of a descriptor: the fired deadline of an EXPIRY, the sweep number and retired count
of a SWEEP-DONE, zero octets otherwise (Table 12-5). -/
def Entry.resultOctets (e : Entry) : List Octet :=
  match e.kind with
  | .expiry => tickOctets e.firedDeadline
  | .fault => octetsOf 8 0
  | .sweepDone => (e.sweepNumber.getD 0) :: (octetsOf 2 e.retired ++ octetsOf 5 0)

/-- The handle octets of a descriptor; a SWEEP-DONE has none and sends zero octets (R179). -/
def Entry.handleOctets (e : Entry) : List Octet :=
  match e.slot with
  | none => octetsOf 3 0
  | some i => Sys2Proof.Machine.handleOctets i e.generation (decide (e.faultPart = some .identity))

/-- The 30 octets of a notice descriptor (Table 12-5). -/
def Entry.descriptor (e : Entry) : List Octet :=
  [e.kind.code, octet (e.cls.code * 128 + e.urgency.val)] ++ e.handleOctets
    ++ octetsOf 4 e.cookie.toNat ++ e.resultOctets ++ tickOctets e.firedAt
    ++ [e.overrun, e.flagsOctet, octet e.destination.code,
        octet ((e.assigned.map Fin.val).getD 0), e.deliveries]

/-- The timing part is reported untrustworthy: it failed and was written anew, or its own check no
longer holds (R10). -/
def Record.timingUntrustworthy (r : Record) : Bool :=
  r.timingLost || decide (r.timingCheck = .uncorrectable)

/-- A record's overrun count, notice state and holder are lost: its identity failed and so did the timing part
that holds them, which was not written anew (R143 step 4, logs 7 and 31). -/
def Record.overrunLost (r : Record) : Bool :=
  decide (r.fault = some .identity) && !r.timingLost && decide (r.timingCheck = .uncorrectable)

/-- The record report of READ, 45 octets (R9, R10, Table 12-6). A timing part reported untrustworthy is sent as zero
octets, and that the report octet's bits 0 and 1 are clear for it is the model's choice (log 29). The notice state and
holder are sent as re-established, but for a record whose identity and timing part failed with no new timing part
written: theirs are zero octets too, which is read from the spec by inference (log 31). -/
def Record.report (r : Record) (slot : SlotIx) : List Octet :=
  let unknown := decide (r.fault = some .identity)
  let lost := decide (r.sched = .damaged) && r.timingUntrustworthy
  let noticeLost := decide (r.sched = .damaged) && r.overrunLost
  let timing := fun (os : List Octet) => if lost then os.map fun _ => (0 : Octet) else os
  handleOctets slot r.generation unknown
    ++ [portOctet r.owner]
    ++ octetsOf 2 (if unknown then 0 else r.tag.toNat)
    ++ timing ([octet r.target.code, octet r.cls.code, octet r.urgency.val]
        ++ octetsOf 4 r.cookie.toNat ++ octetsOf 2 r.slack.toNat
        ++ octetsOf 6 ((r.period.map BitVec.toNat).getD 0)
        ++ [octet r.policy.code, octet r.disposal.code]
        ++ tickOctets r.deadline ++ tickOctets r.remaining ++ [r.overrun])
    ++ (if noticeLost then [statesOctet r.sched .clear, 0] else [r.states, portOctet r.holder])
    ++ [r.mark.getD 0, faultPartCode r.fault,
        octet (flagBit (r.deadline.isSome && !lost) 1 + flagBit (r.remaining.isSome && !lost) 2
          + flagBit lost 4 + flagBit unknown 8)]

end Sys2Proof.Machine
end

