-- ==== Sys2Proof/Machine/Frames.lean ====
section
/-! DEFINITION. Frames on the link: the check code, the envelope, the search for the start octet and the
judgement of a received frame (R152, R153, R176). -/

namespace Sys2Proof.Machine

/-- The start octet A5h as bits, most significant first (R152). -/
def startBits : List Bool := [true, false, true, false, false, true, false, true]

/-- An octet's bits, most significant first (R152). -/
def bitsOfOctet (o : Octet) : List Bool :=
  [o.getMsbD 0, o.getMsbD 1, o.getMsbD 2, o.getMsbD 3, o.getMsbD 4, o.getMsbD 5, o.getMsbD 6, o.getMsbD 7]

/-- The bits of octets in order. -/
def bitsOfOctets (os : List Octet) : List Bool := os.flatMap bitsOfOctet

/-- The octet that eight bits make, most significant first. -/
def octetOfBits (bits : List Bool) : Octet :=
  BitVec.ofNat 8 (bits.foldl (fun acc b => 2 * acc + b.toNat) 0)

/-- The whole octets at the front of a bit string. -/
def wholeOctets : List Bool → List Octet
  | b7 :: b6 :: b5 :: b4 :: b3 :: b2 :: b1 :: b0 :: rest =>
    octetOfBits [b7, b6, b5, b4, b3, b2, b1, b0] :: wholeOctets rest
  | _ => []

/-- The search for the start octet at any bit position; bits before it are discarded, and what follows
it belongs to the frame (R152). `window` holds the last seven bits at most. -/
def hunt : List Bool → List Bool → Receiver
  | window, [] => .searching window
  | window, b :: bits =>
    if window ++ [b] = startBits then .receiving bits 0
    else hunt ((window ++ [b]).drop (window.length - 6)) bits

/-- One bit of the check code: polynomial 1021h, most significant bit first (R153). -/
def crcShift (crc : BitVec 16) : BitVec 16 :=
  if crc.msb then (crc <<< 1) ^^^ 0x1021 else crc <<< 1

/-- One octet of the check code (R153). -/
def crcOctet (crc : BitVec 16) (o : Octet) : BitVec 16 :=
  let c0 := crc ^^^ (o.zeroExtend 16 <<< 8)
  crcShift (crcShift (crcShift (crcShift (crcShift (crcShift (crcShift (crcShift c0)))))))

/-- The CRC-16 of R153: initial value FFFFh, no final inversion. -/
def crc16 (os : List Octet) : BitVec 16 := os.foldl crcOctet 0xFFFF

/-- The code of a frame kind (Table 12-2). -/
def FrameKind.code : FrameKind → Nat
  | .request => 1
  | .response => 2
  | .linkOpen => 3
  | .linkAccept => 4
  | .linkWait => 5
  | .linkClose => 6
  | .reject => 7

/-- The header octet: sequence number in bits 7 to 4, kind in bits 3 to 0 (Table 12-1). -/
def Frame.header (f : Frame) : Octet := octet (f.seq.toNat * 16 + f.kind.code)

/-- The octets that the check code covers: header, length and payload (R153). -/
def Frame.checked (f : Frame) : List Octet := f.header :: octet f.payload.length :: f.payload

/-- A frame's octets after its start octet (Table 12-1). -/
def Frame.afterStart (f : Frame) : List Octet := f.checked ++ octetsOf 2 (crc16 f.checked).toNat

/-- A whole frame as it crosses the link (Table 12-1). -/
def Frame.octets (f : Frame) : List Octet := 0xA5 :: f.afterStart

/-- What a received frame turns out to be (Table 10-1, Table 10-3). -/
inductive Verdict where
  | bad (reason : RejectReason)
  | linkOpen (window : Nat)
  | linkClose
  | request (seq : SeqNumber) (payload : List Octet)
  deriving DecidableEq, Repr

/-- The judgement of a frame that was received whole: CHECK, then KIND, then CONTENT (Table 10-1). -/
def judge (header length : Octet) (payload check : List Octet) : Verdict :=
  if octetsOf 2 (crc16 (header :: length :: payload)).toNat ≠ check then .bad .check
  else
    match header.toNat % 16 with
    | 1 => .request (BitVec.ofNat 4 (header.toNat / 16)) payload
    | 3 =>
      match payload with
      | [w] => if 1 ≤ w.toNat ∧ w.toNat ≤ 4 then .linkOpen w.toNat else .bad .content
      | _ => .bad .content
    | 6 => if payload = [] then .linkClose else .bad .content
    | _ => .bad .kind

/-- The frame at the front of the bits received after a start octet, when it has ended: its judgement
and the bits behind it. A length octet above 250 ends the frame at that octet (Table 10-1). -/
def takeFrame (bits : List Bool) : Option (Verdict × List Bool) :=
  match wholeOctets bits with
  | header :: length :: rest =>
    if length.toNat > Config.payloadMax then some (.bad .length, bits.drop 16)
    else if rest.length < length.toNat + 2 then none
    else some (judge header length (rest.take length.toNat) ((rest.drop length.toNat).take 2),
      bits.drop (8 * (length.toNat + 4)))
  | _ => none

/-- The bits a port has received since its start octet: none before one (R152). -/
def Receiver.held : Receiver → List Bool
  | .searching _ => []
  | .receiving bits _ => bits

/-- A frame row's octets reach a port: the judgement of the frame they end, and the receiver after it,
which searches again (R152). None when they end no frame. A port that has not begun a frame takes the
row to bring the start octet too (log 16). -/
def Receiver.finish (r : Receiver) (os : List Octet) : Option (Verdict × Receiver) :=
  (takeFrame (r.held ++ bitsOfOctets os)).map fun x => (x.1, hunt [] x.2)

end Sys2Proof.Machine
end

