-- ==== Sys2Proof/Machine/Ops.lean ====
section
/-! DEFINITION. The named operations over the record table, the placement queue, the deadline list, the
notice store, the pools and the links. Every command's meaning is made of these. -/

namespace Sys2Proof.Machine

/-! ### Whole blocks -/

/-- The state with a changed time base. -/
def State.withTimeBase (s : State) (b : TimeBase) : State := { s with timeBase := b }

/-- The state with a changed placement unit. -/
def State.withPlacement (s : State) (b : PlacementUnit) : State := { s with placement := b }

/-- The state with a changed deadline list or expiry engine. -/
def State.withExpiry (s : State) (b : Expiry) : State := { s with expiry := b }

/-- The state with a changed notice unit. -/
def State.withNotices (s : State) (b : NoticeUnit) : State := { s with notices := b }

/-- The state with a changed pool table. -/
def State.withPools (s : State) (b : Vector (List Port) 8) : State := { s with pools := b }

/-- The state with a changed sweep unit. -/
def State.withSweeps (s : State) (b : SweepUnit) : State := { s with sweeps := b }

/-- The state with a changed scrubber. -/
def State.withScrubber (s : State) (b : Scrubber) : State := { s with scrubber := b }

/-- The state with a changed port table. -/
def State.withPortTable (s : State) (b : PortTable) : State := { s with portTable := b }

/-! ### The record table (spec 01) -/

/-- The record that a sparse table holds for a slot; an unlisted slot is blank (log 9). -/
def lookupCell : List (SlotIx × Record) → SlotIx → Record
  | [], _ => Record.blank
  | (j, r) :: rest, i => if j = i then r else lookupCell rest i

/-- A cell takes its place among cells in ascending slot order. -/
def insertCell (c : SlotIx × Record) : List (SlotIx × Record) → List (SlotIx × Record)
  | [] => [c]
  | d :: rest => if c.1 < d.1 then c :: d :: rest else d :: insertCell c rest

/-- A sparse table after a slot is written: the slot's cell is replaced, or left out when the record is
blank, and the canonical form is kept (log 9). -/
def storeCell (cells : List (SlotIx × Record)) (i : SlotIx) (r : Record) : List (SlotIx × Record) :=
  let others := cells.filter fun c => decide (c.1 ≠ i)
  if r = Record.blank then others else insertCell (i, r) others

/-- The record of a slot (R1). -/
def State.record (s : State) (i : SlotIx) : Record := lookupCell s.table.cells i

/-- The state after a slot's record is written, both identity copies in the same event (R2). -/
def State.setRecord (s : State) (i : SlotIx) (r : Record) : State :=
  { s with table := { s.table with cells := storeCell s.table.cells i r } }

/-- The state after a slot's record is changed. -/
def State.modify (s : State) (i : SlotIx) (f : Record → Record) : State := s.setRecord i (f (s.record i))

/-- A set of slots, ascending, with one more. -/
def insertSlot (i : SlotIx) : List SlotIx → List SlotIx
  | [] => [i]
  | j :: rest => if i < j then i :: j :: rest else if i = j then j :: rest else j :: insertSlot i rest

/-- The least number from `n` that an ascending list of slots does not hold. -/
def leastFrom : Nat → List SlotIx → Nat
  | n, [] => n
  | n, j :: rest => if j.val = n then leastFrom (n + 1) rest else n

/-- The lowest slot of the set of FREE slots, which is kept apart (R7, R139). -/
def State.lowestFree (s : State) : Option SlotIx := slotOf (leastFrom 0 s.table.occupied)

/-- The size of the set of FREE slots (R1, R139). -/
def State.freeSlots (s : State) : Nat := Config.slotCount - s.table.occupied.length

/-- A port's owned count: the number of slots counted toward it (R6). -/
def State.ownedCount (s : State) (p : Port) : Nat := s.table.owned[p].length

/-- The slots that the table lists, in ascending order: every non-FREE slot is one of them. -/
def State.listedSlots (s : State) : List SlotIx := s.table.cells.map Prod.fst

/-- The slot leaves or joins the set of FREE slots. -/
def State.setOccupied (s : State) (occupied : List SlotIx) : State :=
  { s with table := { s.table with occupied := occupied } }

/-- The slots counted toward a port's owned count are changed. -/
def State.modifyOwned (s : State) (p : Port) (f : List SlotIx → List SlotIx) : State :=
  { s with table := { s.table with owned := s.table.owned.set p.val (f s.table.owned[p]) p.isLt } }

/-- The slot is dropped from the owned count of the port it is counted toward, if any (R6, R143). -/
def State.dropOwned (s : State) (owner : Option Port) (i : SlotIx) : State :=
  match owner with
  | none => s
  | some p => s.modifyOwned p (·.erase i)

/-- A count held at 255 (R76). -/
def saturate8 (a : BitVec 8) (n : Nat) : BitVec 8 := BitVec.ofNat 8 (min 255 (a.toNat + n))

/-- The overrun count of a record rises (R76). -/
def State.raiseOverrun (s : State) (i : SlotIx) (n : Nat) : State :=
  s.modify i fun r => { r with overrun := saturate8 r.overrun n }

/-- A record's notice state and holder are set; holder is present exactly in OUTSTANDING (R93). -/
def State.setNotice (s : State) (i : SlotIx) (n : NoticeState) (holder : Option Port) : State :=
  s.modify i fun r => { r with notice := n, holder := holder }

/-- A record's schedule state is set. -/
def State.setSched (s : State) (i : SlotIx) (st : Sched) : State :=
  s.modify i fun r => { r with sched := st }

/-- A record's deadline as a number (Table 1-1); an absent deadline counts as 0. -/
def Record.due (r : Record) : Nat := (r.deadline.map BitVec.toNat).getD 0

/-- "Now" as a number (R21). -/
def State.now (s : State) : Nat := s.timeBase.now.toNat

/-! ### The placement queue (spec 04) -/

/-- The end of a rebuild, when the last rebuild record has been placed: the rebuild part is empty and no
rebuild member is carried. In list states other than REBUILDING the report changes nothing (R55,
R149). -/
def State.reportRebuild (s : State) : State :=
  if s.expiry.listState = .rebuilding ∧ s.placement.rebuildPart = 0
      ∧ (s.placement.carried.map Carried.rebuildMember).getD false = false then
    s.withExpiry { s.expiry with listState := .normal, restarts := 0 }
  else s

/-- A record joins the tail of the placement queue and becomes QUEUED (R54). -/
def State.enqueue (s : State) (i : SlotIx) : State :=
  (s.withPlacement { s.placement with queue := s.placement.queue ++ [i] }).setSched i .queued

/-- A slot leaves the placement queue from whatever position it holds; the rebuild part shrinks when it
was in it (R56). No report is made. -/
def State.removeQueued (s : State) (i : SlotIx) : State :=
  s.withPlacement { s.placement with
    queue := s.placement.queue.erase i
    rebuildPart := if i ∈ s.placement.queue.take s.placement.rebuildPart
      then s.placement.rebuildPart - 1 else s.placement.rebuildPart }

/-- A slot leaves the placement queue, with the report of R55 (R56). -/
def State.unqueue (s : State) (i : SlotIx) : State := (s.removeQueued i).reportRebuild

/-! ### The deadline list (spec 05) -/

/-- The list without a member; the link around it is rewritten with a fresh check (R148). That a removal by the
expiry engine itself, of a companion behind another member, rewrites that link too is the model's choice (log 32). -/
def unlink (i : SlotIx) : List Member → List Member
  | [] => []
  | m :: rest =>
    if m.slot = i then rest
    else if (rest.head?.map Member.slot) = some i then { m with linkHolds := true } :: unlink i rest
    else m :: unlink i rest

/-- The companion window after a member has left the list: it is passed over, and the search ends when
no member is left to consider (R82). -/
def passOver (i : SlotIx) : Option Firing → Option Firing
  | none => none
  | some f => if f.window.erase i = [] then none else some { f with window := f.window.erase i }

/-- A record leaves the deadline list from whatever position it holds (R68). -/
def State.unlist (s : State) (i : SlotIx) : State :=
  s.withExpiry { s.expiry with
    list := unlink i s.expiry.list
    firing := passOver i s.expiry.firing }

/-- The list with a new member: behind every member whose deadline is lower or equal, ahead of every
member whose deadline is higher (R60, R67). -/
def insertMember (due : SlotIx → Nat) (i : SlotIx) : List Member → List Member
  | [] => [⟨i, true⟩]
  | m :: rest => if due i < due m.slot then ⟨i, true⟩ :: m :: rest else m :: insertMember due i rest

/-- A record leaves the placement queue or the deadline list, whichever its schedule state says holds it
(R15, R143 step 2). -/
def State.leaveTiming (s : State) (i : SlotIx) : State :=
  match (s.record i).sched with
  | .queued => s.unqueue i
  | .armed => s.unlist i
  | _ => s

/-! ### Links and the frames formed for them (spec 10) -/

/-- A port's link is changed. -/
def State.modifyLink (s : State) (p : Port) (f : Link → Link) : State :=
  { s with links := s.links.set p.val (f s.links[p]) p.isLt }

/-- A port's link is UP (Table 10-2). -/
def State.isUp (s : State) (p : Port) : Bool := decide (s.links[p].state = .up)

/-- A transmit queue with one more frame in one of its eight other places; none formed when they are full
(R155). -/
def formOther (f : Frame) (queue : List Outgoing) : List Outgoing :=
  if (queue.filter fun o => decide (o.place = .other)).length < Config.otherPlaces then
    queue ++ [⟨f, .other⟩]
  else queue

/-- A frame other than a response to a taken request is formed for a port (R155). -/
def State.form (s : State) (p : Port) (f : Frame) : State :=
  s.modifyLink p fun l => { l with transmit := formOther f l.transmit }

/-- The REJECT frame (Table 12-2). -/
def rejectFrame (reason : RejectReason) : Frame := ⟨.reject, 0, [reason.code]⟩

/-- The LINK-CLOSE frame (Table 12-2). -/
def linkCloseFrame : Frame := ⟨.linkClose, 0, []⟩

/-- The LINK-WAIT frame (Table 12-2). -/
def linkWaitFrame : Frame := ⟨.linkWait, 0, []⟩

/-- The LINK-ACCEPT frame: port number, granted window, supervisor right held or not (Table 12-2). -/
def linkAcceptFrame (p : Port) (window : Nat) (supervisor : Bool) : Frame :=
  ⟨.linkAccept, 0, [octet p.val, octet window, octet supervisor.toNat]⟩

/-- The octets on a port's PnTXD from the frame being sent: 00h while there is none (R152). -/
def Link.wire (l : Link) : List Octet :=
  match l.transmit with
  | [] => [0]
  | o :: _ => o.frame.octets

/-! ### Answering requests (R164, R165) -/

/-- A request in the list that is not answered. -/
def TakenRequest.unanswered (q : TakenRequest) : Bool := decide (q.condition ≠ .answered)

/-- The next request of a port to be applied: the first that is not answered, so that every request ahead
of it is (R164). -/
def State.nextRequest (s : State) (p : Port) : Option TakenRequest :=
  s.links[p].requests.find? TakenRequest.unanswered

/-- A request list after its first unanswered request takes a condition. -/
def setNextCondition (c : Condition) : List TakenRequest → List TakenRequest
  | [] => []
  | q :: rest =>
    if q.unanswered then { q with condition := c } :: rest else q :: setNextCondition c rest

/-- The reply history with one more response; the oldest of four is removed (R163). -/
def remember (r : StoredReply) (history : List StoredReply) : List StoredReply :=
  (if history.length < Config.historySize then history else history.drop 1) ++ [r]

/-- The link after its next request has been answered: the response is formed in a response place and
stored for replay, and the request is answered (R163, R164). -/
def Link.answer (l : Link) (q : TakenRequest) (payload : List Octet) : Link :=
  { l with
    requests := setNextCondition .answered l.requests
    history := remember ⟨q.seq, payload⟩ l.history
    transmit := l.transmit ++ [⟨⟨.response, q.seq, payload⟩, .response⟩] }

/-- The response of a port's next request is formed (R164). -/
def State.respond (s : State) (p : Port) (result : Result) (body : List Octet) : State :=
  match s.nextRequest p with
  | none => s
  | some q => s.modifyLink p fun l => l.answer q (result.code :: body)

/-- A refused request is answered with its result code alone (R165, R179). -/
def State.refuse (s : State) (p : Port) (result : Result) : State := s.respond p result []

/-- An accepted request is answered with OK and the body of Table 12-4. -/
def State.accept (s : State) (p : Port) (body : List Octet) : State := s.respond p .ok body

/-- The application of a port's next request, when it is waiting and is the request named; otherwise the
event does not take place (R164, log 4). -/
def State.applying (s : State) (p : Port) (c : RequestCode) (f : List Octet → State) :
    Host.Outcome State Fault Refusal :=
  match s.nextRequest p with
  | none => .next s
  | some q => if q.condition = .waiting ∧ requestOf q.payload = some c then .next (f q.payload) else .next s

/-- The request is held at its port until the placement of the slot ends (R63). -/
def State.hold (s : State) (p : Port) (i : SlotIx) : State :=
  s.modifyLink p fun l => { l with requests := setNextCondition (.held i) l.requests }

/-- A request that needs the supervisor right (R168). -/
def State.supervised (s : State) (p : Port) (f : State) : State :=
  if s.portTable.supervisor = p then f else s.refuse p .denied

/-! ### Notice entries (spec 06) -/

/-- Where an entry lies: its entry state and the collection that holds it (R91). -/
inductive EntryPlace where
  | queued (p : Port)
  | outstanding (p : Port)
  | holding (k : Pool)
  deriving DecidableEq, Repr

/-- A port's notice queue is changed. -/
def State.modifyQueue (s : State) (p : Port) (f : List Entry → List Entry) : State :=
  s.withNotices { s.notices with
    queues := s.notices.queues.set p.val (f s.notices.queues[p]) p.isLt }

/-- A port's outstanding set is changed. -/
def State.modifyOutstanding (s : State) (p : Port) (f : List Entry → List Entry) : State :=
  s.withNotices { s.notices with
    outstanding := s.notices.outstanding.set p.val (f s.notices.outstanding[p]) p.isLt }

/-- A pool's holding queue is changed. -/
def State.modifyHolding (s : State) (k : Pool) (f : List Entry → List Entry) : State :=
  s.withNotices { s.notices with
    holding := s.notices.holding.set k.val (f s.notices.holding[k]) k.isLt }

/-- Every entry that is not FREE. -/
def State.entries (s : State) : List Entry :=
  s.notices.queues.toList.flatten ++ s.notices.outstanding.toList.flatten
    ++ s.notices.holding.toList.flatten

/-- The lowest FREE entry number among `count` from `low` (R90, log 8). -/
def State.freeNumber (s : State) (low count : Nat) : Option Nat :=
  let used := s.entries.map Entry.number
  (List.range' low count).find? fun n => decide (n ∉ used)

/-- A FREE entry of the general pool (R90). -/
def State.freeGeneral (s : State) : Option Nat := s.freeNumber 0 Config.generalEntries

/-- A FREE entry of a port's reserve: 248 and 249 for port 0, and so on (R90). -/
def State.freeReserve (s : State) (p : Port) : Option Nat :=
  s.freeNumber (Config.generalEntries + 2 * p.val) 2

/-- The number of FREE general entries (R90). -/
def State.freeGeneralCount (s : State) : Nat :=
  Config.generalEntries
    - (s.entries.filter fun e => decide (e.number < Config.generalEntries)).length

/-- A queue with one more entry, at the position its urgency and stamp determine: highest urgency first,
and among equal urgency lowest stamp first (R92). -/
def insertEntry (e : Entry) : List Entry → List Entry
  | [] => [e]
  | x :: rest =>
    if x.urgency < e.urgency ∨ (x.urgency = e.urgency ∧ e.stamp < x.stamp) then e :: x :: rest
    else x :: insertEntry e rest

/-- The entry is QUEUED in a port's notice queue (R91, R92). -/
def State.joinQueue (s : State) (p : Port) (e : Entry) : State :=
  s.modifyQueue p (insertEntry { e with assigned := some p })

/-- The entry is HOLDING in a pool's holding queue, with no assigned port (R116, R117). -/
def State.joinHolding (s : State) (k : Pool) (e : Entry) : State :=
  s.modifyHolding k (insertEntry { e with assigned := none })

/-- The entry leaves the collection that holds it. -/
def State.dropEntry (s : State) (place : EntryPlace) (e : Entry) : State :=
  match place with
  | .queued p => s.modifyQueue p (·.erase e)
  | .outstanding p => s.modifyOutstanding p (·.erase e)
  | .holding k => s.modifyHolding k (·.erase e)

/-- The entry names the slot's record. -/
def Entry.names (e : Entry) (i : SlotIx) : Bool := decide (e.slot = some i)

/-- The entry that names a slot's record, and where it lies (R93). -/
def State.entryOf (s : State) (i : SlotIx) : Option (EntryPlace × Entry) :=
  (allPorts.findSome? fun p => (s.notices.queues[p].find? (·.names i)).map fun e => (.queued p, e)).or
  ((allPorts.findSome? fun p =>
      (s.notices.outstanding[p].find? (·.names i)).map fun e => (.outstanding p, e)).or
    (allPools.findSome? fun k => (s.notices.holding[k].find? (·.names i)).map fun e => (.holding k, e)))

/-- The entry's record carries a sweep mark (R98). -/
def State.marked (s : State) (e : Entry) : Bool :=
  match e.slot with
  | none => false
  | some i => (s.record i).mark.isSome

/-- An entry in a port's queue is deliverable unless it names a record that carries a mark (R98). -/
def State.deliverable (s : State) (e : Entry) : Bool := !s.marked e

/-- The condition under which a port's attention line is asserted (R110). -/
def State.attentionDue (s : State) (p : Port) : Bool :=
  s.notices.queues[p].any fun e => s.deliverable e && decide (s.notices.thresholds[p] ≤ e.urgency)

/-- One port's attention line is driven by its condition (R110). -/
def State.driveLine (s : State) (p : Port) : State :=
  s.modifyLink p fun l => { l with attention := s.attentionDue p }

/-- Every attention line is re-evaluated at the end of an event (R110). -/
def State.driveLines (s : State) : State := allPorts.foldl State.driveLine s

/-! ### Pools (spec 07) -/

/-- The entries that count for the accepting test (R115). -/
def State.noticeCount (s : State) (p : Port) : Nat :=
  s.notices.queues[p].length + s.notices.outstanding[p].length

/-- The accepting test (R115). -/
def State.accepting (s : State) (p : Port) : Bool :=
  s.isUp p && decide (s.noticeCount p < s.portTable.limit[p])

/-- A pool's rotation order is changed. -/
def State.setPool (s : State) (k : Pool) (order : List Port) : State :=
  s.withPools (s.pools.set k.val order k.isLt)

/-- The entry is assigned to a member, which moves to the end of the rotation order (R116). -/
def State.assign (s : State) (k : Pool) (p : Port) (e : Entry) : State :=
  (s.setPool k (s.pools[k].erase p ++ [p])).joinQueue p e

/-- The service of one pool's holding queue from its head: entries of marked records are passed over,
each other is offered, and the walk ends when no member is accepting (R118). -/
def servePoolFrom (k : Pool) : List Entry → State → State
  | [], s => s
  | e :: rest, s =>
    if s.marked e then servePoolFrom k rest s
    else
      match s.pools[k].find? s.accepting with
      | none => s
      | some p => servePoolFrom k rest ((s.dropEntry (.holding k) e).assign k p e)

/-- One pool is served (R118). -/
def State.servePool (s : State) (k : Pool) : State := servePoolFrom k s.notices.holding[k] s

/-- The holding queues are served in ascending pool number (R118). -/
def State.serveHolding (s : State) : State := allPools.foldl State.servePool s

/-- An entry aimed at a pool is offered (R116, Table 7-1): the entry of a marked record is held, an entry
behind held ones joins them and the pool is served, and any other goes to the first accepting member or
is held. -/
def State.offer (s : State) (k : Pool) (e : Entry) : State :=
  if s.marked e then s.joinHolding k e
  else if s.notices.holding[k] ≠ [] then (s.joinHolding k e).servePool k
  else
    match s.pools[k].find? s.accepting with
    | none => s.joinHolding k e
    | some p => s.assign k p e

/-- An entry is placed by its destination: its port's queue (R94), or the pool table (R116). -/
def State.place (s : State) (e : Entry) : State :=
  match e.destination with
  | .port p => s.joinQueue p e
  | .pool k => s.offer k e

/-- The stamp counter gives its next stamp (R92). -/
def State.advanceStamp (s : State) : State :=
  s.withNotices { s.notices with stamp := s.notices.stamp + 1 }

/-- An entry of the record in slot `i` is created with the store number `n`: it takes the next stamp and
the record's overrun count, which becomes 0, and the record's notice state becomes PENDING (R73, R92,
R93). -/
def State.create (s : State) (i : SlotIx) (n : Nat) (e : Entry) : State :=
  ((s.advanceStamp.modify i fun r =>
      { r with notice := .pending, holder := none, overrun := 0 }).place
    { e with number := n, stamp := s.notices.stamp })

/-- The EXPIRY entry of a record (R73): destination, class, urgency, cookie and overrun from the record,
the other values from its firing. -/
def expiryEntry (i : SlotIx) (r : Record) (firedDeadline firedAt : Tick)
    (late early delayed rangeEnd : Bool) : Entry where
  number := 0
  kind := .expiry
  slot := some i
  generation := r.generation
  cls := r.cls
  urgency := r.urgency
  cookie := r.cookie
  firedDeadline := some firedDeadline
  firedAt := some firedAt
  overrun := r.overrun
  late := late
  early := early
  delayed := delayed
  rangeEnd := rangeEnd
  destination := r.target
  assigned := none
  deliveries := 0
  stamp := 0
  sweepNumber := none
  retired := 0
  abandoned := false
  faultPart := none

/-- The port a record's FAULT notice goes to: its owner for fault part TIMING, the supervisor port for
fault part IDENTITY (R144, log 27). -/
def State.faultPort (s : State) (r : Record) : Port :=
  match r.fault, r.owner with
  | some .timing, some p => p
  | _, _ => s.portTable.supervisor

/-- The overrun count a FAULT notice carries: the record's, or a free value when it is lost (R144,
log 7). -/
def State.faultOverrun (s : State) (r : Record) : BitVec 8 :=
  if r.overrunLost then Config.untrustworthyOverrun s.freeValues else r.overrun

/-- The FAULT entry of a damaged record (R144). -/
def State.faultEntry (s : State) (i : SlotIx) (r : Record) (delayed : Bool) : Entry where
  number := 0
  kind := .fault
  slot := some i
  generation := r.generation
  cls := .plain
  urgency := 7
  cookie := if r.fault = some .identity ∧ r.timingUntrustworthy = false then r.cookie else 0
  firedDeadline := none
  firedAt := none
  overrun := s.faultOverrun r
  late := false
  early := false
  delayed := delayed
  rangeEnd := false
  destination := .port (s.faultPort r)
  assigned := none
  deliveries := 0
  stamp := 0
  sweepNumber := none
  retired := 0
  abandoned := false
  faultPart := r.fault

/-- The FAULT entry of the record in slot `i` is created with the store number `n` (R144); a free value
that was read is used up (log 7). -/
def State.createFault (s : State) (i : SlotIx) (n : Nat) (delayed : Bool) : State :=
  { s.create i n (s.faultEntry i (s.record i) delayed) with
    freeValues := s.freeValues + (s.record i).overrunLost.toNat }

/-- A record joins the tail of the blocked list as WAITING (R95). -/
def State.block (s : State) (i : SlotIx) (kept : Kept) : State :=
  (s.withNotices { s.notices with blocked := s.notices.blocked ++ [⟨i, kept⟩] }).setNotice i .waiting none

/-- A record's place on the blocked list is taken away (R42, R15). -/
def State.unblock (s : State) (i : SlotIx) : State :=
  s.withNotices { s.notices with
    blocked := s.notices.blocked.filter fun b => decide (b.slot ≠ i) }

/-- A SWEEP-DONE entry is created for a port: only when the port is UP and one of its two reserve entries
is FREE (R94). -/
def State.createSweepDone (s : State) (p : Port) (number : SweepNumber) (retired : Nat)
    (abandoned : Bool) : State :=
  if s.isUp p then
    match s.freeReserve p with
    | none => s
    | some n =>
      s.advanceStamp.joinQueue p
        { number := n, kind := .sweepDone, slot := none, generation := 0, cls := .plain, urgency := 0,
          cookie := 0, firedDeadline := none, firedAt := none, overrun := 0, late := false,
          early := false, delayed := false, rangeEnd := false, destination := .port p,
          assigned := none, deliveries := 0, stamp := s.notices.stamp, sweepNumber := some number,
          retired := retired, abandoned := abandoned, faultPart := none }
  else s

end Sys2Proof.Machine
end

