-- ==== Sys2Proof/Machine/Integrity.lean ====
section
/-! DEFINITION. Checked storage (spec 09): what a checked read finds and does, how a record becomes
DAMAGED, the FAULT notices, the service of the blocked list, and retirement (R15). -/

namespace Sys2Proof.Machine

/-! ### Repairs -/

/-- The correction count rises, holding at 65,535 (R138). -/
def State.addCorrections (s : State) (n : Nat) : State :=
  s.withScrubber { s.scrubber with
    corrections := min Config.correctionMax (s.scrubber.corrections + n) }

/-- 1 for a part that is repaired or rewritten, 0 for one that passes (R138). -/
def Check.repair : Check → Nat
  | .passing => 0
  | .correctable => 1
  | .uncorrectable => 1

/-- Both identity copies are uncorrectable (Table 9-1). -/
def Record.identityLost (r : Record) : Bool :=
  decide (r.copyA = .uncorrectable) && decide (r.copyB = .uncorrectable)

/-- The identity copies are repaired, or one rewritten from the other (Table 9-1). -/
def State.repairIdentity (s : State) (i : SlotIx) : State :=
  let r := s.record i
  if r.copyA = .passing ∧ r.copyB = .passing then s
  else
    (s.setRecord i { r with copyA := .passing, copyB := .passing }).addCorrections
      (r.copyA.repair + r.copyB.repair)

/-- A correctable error in the timing part is repaired in place (Table 9-1). -/
def State.repairTiming (s : State) (i : SlotIx) : State :=
  let r := s.record i
  if r.timingCheck = .correctable then
    (s.setRecord i { r with timingCheck := .passing }).addCorrections 1
  else s

/-- A FREE slot whose two identity copies are both uncorrectable is rewritten as FREE with generation 0
(R139). -/
def State.rewriteFree (s : State) (i : SlotIx) : State :=
  (s.setRecord i Record.blank).addCorrections 1

/-! ### Becoming DAMAGED (R143) -/

/-- The notice state that the notice unit's own collections give a slot, with its holder (R143
step 3). -/
def State.foundNotice (s : State) (i : SlotIx) : NoticeState × Option Port :=
  match s.entryOf i with
  | some (.outstanding p, _) => (.outstanding, some p)
  | some _ => (.pending, none)
  | none => if s.notices.blocked.any (fun b => decide (b.slot = i)) then (.waiting, none) else (.clear, none)

/-- The kept values of a slot's place on the blocked list are replaced by the fault part (R143 step 5). -/
def State.keepFault (s : State) (i : SlotIx) (part : FaultPart) : State :=
  s.withNotices { s.notices with
    blocked := s.notices.blocked.map fun b => if b.slot = i then { b with kept := .damage part } else b }

/-- The identity of a record is lost: generation, owner and tag become unknown, any sweep mark is
removed, and the slot is dropped from its owner's owned count (R143 step 1, R146). -/
def State.loseIdentity (s : State) (i : SlotIx) : State :=
  (s.dropOwned (s.record i).owner i).modify i fun r =>
    { r with generation := 0, owner := none, tag := 0, mark := none, fault := some .identity }

/-- The timing part is written anew with a fresh check, its other fields not to be used again, and the
overrun count restarted at 0 (R143 step 4). -/
def Record.loseTiming (r : Record) : Record :=
  { r with fault := some .timing, overrun := 0, timingCheck := .passing, timingLost := true }

/-- Steps 1 to 4 of R143, and the change of kept values of step 5: the record is DAMAGED, out of the
placement queue and the deadline list, and its notice state is re-established. -/
def State.declareDamaged (s : State) (i : SlotIx) (part : FaultPart) : State :=
  let s1 := s.leaveTiming i
  let s2 := match part with
    | .identity => s1.loseIdentity i
    | .timing => s1.modify i Record.loseTiming
  let found := s2.foundNotice i
  (s2.modify i fun r =>
    { r with sched := .damaged, remaining := none, notice := found.1, holder := found.2 }).keepFault i part

/-- A DAMAGED record's fault part TIMING becomes IDENTITY (R146), apart from its notice. -/
def State.declareIdentityLost (s : State) (i : SlotIx) : State := (s.loseIdentity i).keepFault i .identity

/-- The outcome of a checked read of a slot (R138, Table 9-1, Table 9-2), with what is to be done when it
damages the record or finds a DAMAGED record's identity lost. A read of a DAMAGED record does not check
its failed part again. That every other read covers the whole of what the slot holds, both identity copies and,
unless it is FREE, the timing part, whichever fields its event goes on to use, is the model's choice where no rule
names the parts (log 30). -/
def State.readWith (s : State) (i : SlotIx) (damage : State → FaultPart → State)
    (escalate : State → State) : State :=
  let r := s.record i
  match r.sched, r.fault with
  | .free, _ => if r.identityLost then s.rewriteFree i else s.repairIdentity i
  | .damaged, some .identity => if r.timingLost then s else s.repairTiming i
  | .damaged, _ => if r.identityLost then escalate s else s.repairIdentity i
  | _, _ =>
    if r.identityLost then damage (s.repairTiming i) .identity
    else if r.timingCheck = .uncorrectable then damage (s.repairIdentity i) .timing
    else (s.repairIdentity i).repairTiming i

/-! ### The blocked list (R96, R97) -/

/-- A record's firing or loss finds no room: its overrun count rises by 1 and its notice state is CLEAR
(R94). -/
def State.loseNotice (s : State) (i : SlotIx) : State := (s.raiseOverrun i 1).setNotice i .clear none

/-- The target can receive an EXPIRY notice: a pool, or a port that is UP (Table 5-2). -/
def State.reachable (s : State) (t : Target) : Bool :=
  match t with
  | .port p => s.isUp p
  | .pool _ => true

/-- The head of the blocked list is read and taken off the list (R97, log 25). -/
def State.takeBlocked (s : State) (i : SlotIx) : State :=
  let s1 := s.readWith i (fun t part => t.declareDamaged i part) (fun t => t.declareIdentityLost i)
  s1.withNotices { s1.notices with blocked := s1.notices.blocked.drop 1 }

/-- The service of the blocked list with the FREE general entry `n`: heads are decided by Table 6-3 until
one uses the entry or the list is empty. The first argument is the list still to serve. -/
def serveBlockedFrom (n : Nat) : List BlockedPlace → State → State
  | [], s => s
  | b :: rest, s0 =>
    let s := s0.takeBlocked b.slot
    let r := s.record b.slot
    if r.mark.isSome then serveBlockedFrom n rest (s.setNotice b.slot .clear none)
    else if r.sched = .damaged then
      if s.isUp (s.faultPort r) then s.createFault b.slot n true
      else serveBlockedFrom n rest (s.loseNotice b.slot)
    else if s.reachable r.target then
      match b.kept with
      | .firing d a late rangeEnd => s.create b.slot n (expiryEntry b.slot r d a late false true rangeEnd)
      | .damage _ => serveBlockedFrom n rest (s.setNotice b.slot .clear none)
    else serveBlockedFrom n rest (s.loseNotice b.slot)

/-- A general entry has become FREE: the head of the blocked list is served with it (R96). -/
def State.serveBlocked (s : State) : State :=
  match s.freeGeneral with
  | none => s
  | some n => serveBlockedFrom n s.notices.blocked s

/-! ### FAULT notices (R144 to R146) -/

/-- The FAULT notice of a damaged record with no notice is raised: lost when its destination port is not
UP, WAITING when no general entry is FREE, and created otherwise (R144). -/
def State.raiseFault (s : State) (i : SlotIx) : State :=
  let r := s.record i
  if s.isUp (s.faultPort r) then
    match s.freeGeneral with
    | none => s.block i (.damage (r.fault.getD .timing))
    | some n => s.createFault i n false
  else s.loseNotice i

/-- An entry as its record's damage leaves it (R145). -/
def Entry.converted (e : Entry) (part : FaultPart) (destination : Port) : Entry :=
  { e with kind := .fault, cls := .plain, urgency := 7, firedDeadline := none, firedAt := none,
           late := false, early := false, delayed := false, rangeEnd := false,
           destination := .port destination, faultPart := some part,
           generation := if part = .identity then 0 else e.generation }

/-- A FAULT entry whose record's fault part has become IDENTITY (R146). -/
def Entry.escalated (e : Entry) (destination : Port) : Entry :=
  { e with destination := .port destination, faultPart := some .identity, generation := 0 }

/-- An entry leaves where it lies and joins its FAULT destination's queue; when that port is not UP it is
freed, its record is CLEAR with its overrun count raised, and the blocked list is served (Table 9-3). -/
def State.moveToFaultPort (s : State) (i : SlotIx) (place : EntryPlace) (e e' : Entry) (p : Port) : State :=
  if s.isUp p then (s.dropEntry place e).joinQueue p e'
  else ((s.dropEntry place e).loseNotice i).serveBlocked

/-- Step 5 of R143: a CLEAR record gets its FAULT notice, a PENDING entry is converted, and a WAITING or
OUTSTANDING record keeps its place. -/
def State.treatNotice (s : State) (i : SlotIx) : State :=
  let r := s.record i
  match r.notice, s.entryOf i with
  | .clear, _ => s.raiseFault i
  | .pending, some (place, e) =>
    s.moveToFaultPort i place e (e.converted (r.fault.getD .timing) (s.faultPort r)) (s.faultPort r)
  | _, _ => s

/-- The holding queues are served and the attention lines re-evaluated at the end of an event that
touched notices (R118, R119, R110). -/
def State.settle (s : State) : State := s.serveHolding.driveLines

/-- The end of an event, begun in `s`, whose reads may have damaged records: when its reads made, moved or
freed a notice, the holding queues are served and the attention lines re-evaluated, after the event's other
effects on the notice unit (R143, R118, R119, R110). -/
def State.settleSince (t s : State) : State := if t.notices = s.notices then t else t.settle

/-- A record becomes DAMAGED in the event of the read that found the failure (R143). The holding queues are
left to the end of that event. -/
def State.damage (s : State) (i : SlotIx) (part : FaultPart) : State :=
  (s.declareDamaged i part).treatNotice i

/-- A DAMAGED record with fault part TIMING is found to have lost its identity too (R146). The holding queues
are left to the end of the event. -/
def State.escalate (s : State) (i : SlotIx) : State :=
  let s1 := s.declareIdentityLost i
  let r := s1.record i
  match r.notice, s1.entryOf i with
  | .clear, _ => s1.raiseFault i
  | .pending, some (place, e) =>
    s1.moveToFaultPort i place e (e.escalated (s1.faultPort r)) (s1.faultPort r)
  | _, _ => s1

/-- A checked read of a slot as one part of an event, with all its outcomes (R2, R138). -/
def State.readSlot (s : State) (i : SlotIx) : State :=
  s.readWith i (fun t part => t.damage i part) (fun t => t.escalate i)

/-- A checked read of a slot whose event has no other effect on the notice unit (R2, R138). -/
def State.checkedRead (s : State) (i : SlotIx) : State := (s.readSlot i).settleSince s

/-! ### Retirement (R15) -/

/-- The slot becomes FREE with the next generation, or generation 0 when the record's is unknown, and
every other field is discarded (R15, R5). -/
def State.freeSlot (s : State) (i : SlotIx) : State :=
  let r := s.record i
  ((s.dropOwned r.owner i).setOccupied (s.table.occupied.erase i)).setRecord i
    { Record.blank with generation := if r.fault = some .identity then 0 else r.generation + 1 }

/-- Retirement without the service of the holding queues: the record leaves every collection, its slot
becomes FREE, and a freed general entry serves the blocked list (R15, R96). A PLACING record is left with
the placement unit (R16). -/
def State.retireCore (s : State) (i : SlotIx) : State :=
  let s1 := (s.leaveTiming i).unblock i
  match s1.entryOf i with
  | none => s1.freeSlot i
  | some (place, e) => ((s1.dropEntry place e).freeSlot i).serveBlocked

/-- The retirement of R15 with the holding queues and the attention lines. -/
def State.retire (s : State) (i : SlotIx) : State := (s.retireCore i).settle

/-- The disposal test when a record's EXPIRY notice has been consumed: an IDLE one-shot CLOSE-AFTER
record is retired (R19). Its notice is gone already, so retirement frees no entry. -/
def State.dispose (s : State) (i : SlotIx) : State :=
  let r := s.record i
  if r.disposal = .closeAfter ∧ r.sched = .idle ∧ r.period = none then s.freeSlot i else s

end Sys2Proof.Machine
end

