-- ==== Sys2Proof/Machine/Placement.lean ====
section
/-! DEFINITION. List faults and the rebuild (spec 09, R148 to R150), and the placement unit (spec 04). -/

namespace Sys2Proof.Machine

/-! ### List faults -/

/-- The ARMED slots of the record table in ascending order: membership is taken from the schedule states
(R148 step 2). -/
def State.armedSlots (s : State) : List SlotIx :=
  s.listedSlots.filter fun i => decide ((s.record i).sched = .armed)

/-- Several slots are read in one event, each read checked (R2). -/
def State.readSlots (s : State) (slots : List SlotIx) : State := slots.foldl State.readSlot s

/-- Each record to be moved is read and checked, in ascending slot order (R148 step 2). -/
def State.readAll (s : State) (slots : List SlotIx) : State := (s.readSlots slots).settleSince s

/-- The list state and restart count after a list fault (R148, R150, Table 9-4). -/
def Expiry.afterFault (e : Expiry) : ListState × Nat :=
  match e.listState with
  | .normal => (.rebuilding, 0)
  | .rebuilding => if e.restarts + 1 < 3 then (.rebuilding, e.restarts + 1) else (.failed, 3)
  | .failed => (.failed, e.restarts)

/-- The records moved join the front of the placement queue, ahead of the rebuild records still waiting; the
list is empty, a companion search ends, and a carried record is overtaken and counted as a rebuild member
(R148, R150). -/
def State.startRebuild (s : State) (moved : List SlotIx) (after : ListState × Nat) : State :=
  (s.withExpiry
    { s.expiry with list := [], listState := after.1, restarts := after.2, firing := none }).withPlacement
    { s.placement with
      queue := moved ++ s.placement.queue
      rebuildPart := moved.length + s.placement.rebuildPart
      carried := s.placement.carried.map fun c => { c with overtaken := true, rebuildMember := true } }

/-- Slots whose records become QUEUED. -/
def State.queueAll (s : State) (slots : List SlotIx) : State :=
  slots.foldl (fun t i => t.setSched i .queued) s

/-- A list fault in list state NORMAL or REBUILDING: the list state changes, and every ARMED record that
reads well joins the front of the placement queue as the rebuild part (R148, R150). The rebuild ends in the
same event when nothing is moved or carried (R148). -/
def State.listFault (s : State) : State :=
  let s1 := s.readAll s.armedSlots
  (((s1.queueAll s1.armedSlots).startRebuild s1.armedSlots s.expiry.afterFault)).reportRebuild

/-- A link can be read and so found failed: the list has a member. In FAILED the list is empty (R150,
log 14). -/
def State.faultPossible (s : State) : Bool :=
  decide (s.expiry.list ≠ []) && decide (s.expiry.listState ≠ .failed)

/-! ### The end of a placement -/

/-- The record with this generation is still the one the unit carries (Table 4-1, first row). -/
def State.stillCarried (s : State) (c : Carried) : Bool :=
  decide ((s.record c.slot).sched = .placing) && decide ((s.record c.slot).generation = c.generation)

/-- The requests held on a slot are released (R64). -/
def releaseHeld (i : SlotIx) (requests : List TakenRequest) : List TakenRequest :=
  requests.map fun q => if q.condition = .held i then { q with condition := .waiting } else q

/-- The requests held on a slot are released at every port (R64). -/
def State.releaseHeldOn (s : State) (i : SlotIx) : State :=
  { s with links := s.links.map fun l => { l with requests := releaseHeld i l.requests } }

/-- A carried record that is overtaken returns to the queue: as the last member of the rebuild part while
REBUILDING or FAILED, at the head of the queue while NORMAL (R61). -/
def State.returnOvertaken (s : State) (i : SlotIx) : State :=
  let n := if s.expiry.listState = .normal then 0 else s.placement.rebuildPart
  (s.withPlacement { s.placement with
    queue := s.placement.queue.take n ++ i :: s.placement.queue.drop n
    rebuildPart := if s.expiry.listState = .normal then s.placement.rebuildPart
      else s.placement.rebuildPart + 1 }).setSched i .queued

/-- The record is inserted into the deadline list and becomes ARMED (R60). -/
def State.insertArmed (s : State) (i : SlotIx) : State :=
  (s.withExpiry { s.expiry with
    list := insertMember (fun j => (s.record j).due) i s.expiry.list }).setSched i .armed

/-- The unit no longer carries a record, and the requests held on it are released (R59, R64). -/
def State.putDown (s : State) (c : Carried) : State :=
  (s.withPlacement { s.placement with carried := none }).releaseHeldOn c.slot

/-- The outcome of a placement whose slot has been read: the first of Table 4-1 that holds (R59). -/
def State.endPlacement (s : State) (c : Carried) : State :=
  let s1 :=
    if s.stillCarried c then
      if (s.record c.slot).mark.isSome then s.setSched c.slot .idle
      else if c.overtaken then s.returnOvertaken c.slot
      else s.insertArmed c.slot
    else s
  (s1.putDown c).reportRebuild

/-- The link of a listed record passes its check (R148). That the tail, with no member behind it, has a link whose
check can fail is the model's choice (log 34). -/
def State.linkHolds (s : State) (i : SlotIx) : Bool :=
  !(s.expiry.list.any fun m => decide (m.slot = i) && !m.linkHolds)

/-- The unit's walk from the head of the list to the position that a deadline determines (R60, R148). It reads
each member it compares with, and a member that its read damages has left the list; behind a member whose
deadline is not higher it reads that member's link. Answers the state after the reads, and whether a link
failed. When a walk is made, and of which list, is the model's choice (log 35). -/
def walkFrom (due : Nat) : List SlotIx → State → State × Bool
  | [], s => (s, false)
  | j :: rest, s =>
    let s1 := s.readSlot j
    if (s1.record j).sched ≠ .armed then walkFrom due rest s1
    else if due < (s1.record j).due then (s1, false)
    else if s1.linkHolds j then walkFrom due rest s1
    else (s1, true)

/-- The carried record is one to insert: still PLACING, unmarked and not overtaken (Table 4-1, last row). -/
def State.insertable (s : State) (c : Carried) : Bool :=
  s.stillCarried c && (s.record c.slot).mark.isNone && !c.overtaken

/-- The reads at the end of a placement: the carried slot's, and, for a record to insert, those of the walk to
its position (R2, R59, R148). Answers the state after them, and whether a link failed.

DESIGN CHOICE (unsafe, log 35): the spec has the unit walk between the taking and the end, and does not say what the
walk has read when the record ends marked, overtaken or discarded; no walk reads then, and a record that is inserted
has its whole walk in this step. -/
def State.placementReads (s : State) (c : Carried) : State × Bool :=
  let s1 := s.readSlot c.slot
  if s1.insertable c then
    let w := walkFrom (s1.record c.slot).due (s1.expiry.list.map Member.slot) s1
    (w.1.settleSince s, w.2)
  else (s1.settleSince s, false)

/-- The end of the placement of the record carried now, if one is: its slot is read and the outcome decided
(R59). -/
def State.endCarried (s : State) : State :=
  match s.placement.carried with
  | none => s
  | some c => (s.checkedRead c.slot).endPlacement c

/-- PLACEMENT_END (R59): the placement in flight ends; a link that fails on the unit's walk is a list
fault, at which the placement ends at once (R61, log 14). The walk, the fault and the end then each serve the holding
queues for their own reads, which is the model's choice (log 33). -/
def execPlacementEnd (s : State) : Host.Outcome State Fault Refusal :=
  match s.placement.carried with
  | none => .next s
  | some c =>
    let w := s.placementReads c
    if w.2 then .next w.1.listFault.endCarried else .next (w.1.endPlacement c)

/-- LIST_FAULT (R148): a link read by the block named fails its check. When the placement unit found it,
its placement ends at once (R61), and the fault and the end each serve the holding queues for their own reads
(log 33). -/
def execListFault (finder : Finder) (s : State) : Host.Outcome State Fault Refusal :=
  if s.faultPossible then
    match finder with
    | .placementUnit =>
      match s.placement.carried with
      | none => .next s
      | some _ => .next s.listFault.endCarried
    | .expiryEngine => .next s.listFault
    | .scrubber => .next s.listFault
  else .next s

/-! ### Taking a record -/

/-- The head becomes PLACING and is carried (R57). -/
def State.carry (s : State) (i : SlotIx) : State :=
  ((s.removeQueued i).withPlacement { (s.removeQueued i).placement with
    carried := some ⟨i, (s.record i).generation, decide (0 < s.placement.rebuildPart), false⟩ }).setSched
    i .placing

/-- The taking of the head: the head is read; a marked one is made IDLE and not carried, one the read
damaged has left the queue already, and any other becomes PLACING (R57). -/
def State.takeHead (s : State) (i : SlotIx) : State :=
  let s1 := s.checkedRead i
  if (s1.record i).sched = .queued then
    if (s1.record i).mark.isSome then (s1.unqueue i).setSched i .idle else s1.carry i
  else s1

/-- PLACEMENT_TAKE (R57): the idle unit takes the head of its queue unless the list is FAILED. -/
def execPlacementTake (s : State) : Host.Outcome State Fault Refusal :=
  if s.placement.carried = none ∧ s.expiry.listState ≠ .failed then
    match s.placement.queue with
    | [] => .next s
    | i :: _ => .next (s.takeHead i)
  else .next s

end Sys2Proof.Machine
end

