-- ==== Sys2Proof/Machine/ExpiryEngine.lean ====
section
/-! DEFINITION. The expiry engine (spec 05): firing the head, companions, and marked heads. -/

namespace Sys2Proof.Machine

/-- The number of periods a SKIP record's next deadline lies after the fired one: the smallest k of 1 or
more for which that deadline lies above now (R79). -/
def skipCount (deadline period now : Nat) : Nat :=
  if now < deadline then 1 else (now - deadline) / period + 1

/-- The periods from the fired deadline to the next one, by the policy (R78, R79). -/
def Record.periodsAhead (r : Record) (period now : Nat) : Nat :=
  match r.policy with
  | .aligned => 1
  | .skip => skipCount r.due period now

/-- What a firing makes of the record's schedule: the next deadline of a periodic record with the overrun
it adds, none when it would exceed time max (RANGE-END, R80), and nothing for a one-shot record. -/
inductive Reschedule where
  | oneShot
  | next (deadline : Tick) (passed : Nat)
  | rangeEnd
  deriving DecidableEq, Repr

/-- The reschedule of a record that fires at `now` (R77 to R80). -/
def Record.reschedule (r : Record) (now : Nat) : Reschedule :=
  match r.period with
  | none => .oneShot
  | some period =>
    let k := r.periodsAhead period.toNat now
    if r.due + k * period.toNat ≤ Config.timeMax then
      .next (BitVec.ofNat 56 (r.due + k * period.toNat)) (k - 1)
    else .rangeEnd

/-- The schedule state is settled after the notice: a one-shot record, or one at its range end, becomes
IDLE, and a periodic one joins the placement queue with its next deadline (R71, R77 to R80). -/
def State.settleSchedule (s : State) (i : SlotIx) (plan : Reschedule) : State :=
  match plan with
  | .oneShot => s.setSched i .idle
  | .rangeEnd => s.setSched i .idle
  | .next d passed =>
    (s.modify i fun r => { r with deadline := some d, overrun := saturate8 r.overrun passed }).enqueue i

/-- The notice outcome of a firing (Table 5-2), with the EXPIRY values of the firing. -/
def State.fireNotice (s : State) (i : SlotIx) (r : Record) (early rangeEnd : Bool) : State :=
  let deadline := r.deadline.getD 0
  let late := decide (r.due < s.now)
  if r.notice = .clear then
    if s.reachable r.target then
      match s.freeGeneral with
      | some n => s.create i n (expiryEntry i r deadline s.timeBase.now late early false rangeEnd)
      | none => s.block i (.firing deadline s.timeBase.now late rangeEnd)
    else s.raiseOverrun i 1
  else s.raiseOverrun i 1

/-- One record is fired as one event: it leaves the list, its notice is decided, and its schedule state is
settled (R71, R84). -/
def State.fire (s : State) (i : SlotIx) (early : Bool) : State :=
  let r := s.record i
  let plan := r.reschedule s.now
  ((s.unlist i).fireNotice i r early (decide (plan = .rangeEnd))).settleSchedule i plan

/-- The companion search that a firing begins: the window is the first 32 members of the list as it stands
after the firing; with no member there is nothing to search (R82). -/
def State.beginSearch (s : State) (i : SlotIx) (r : Record) : State :=
  let window := (s.expiry.list.take Config.windowSize).map Member.slot
  s.withExpiry { s.expiry with
    firing := if window = [] then none else some ⟨i, r.generation, r.target, window, 0⟩ }

/-- The head may be fired: its read has left it in the list, it is due, and it carries no sweep mark (R24,
R70, R71). -/
def State.dueHead (s : State) (i : SlotIx) : Bool :=
  decide ((s.record i).sched = .armed) && decide ((s.record i).due ≤ s.now) && (s.record i).mark.isNone

/-- The head carries a sweep mark, and its read has left it in the list (R86). -/
def State.markedHead (s : State) (i : SlotIx) : Bool :=
  decide ((s.record i).sched = .armed) && (s.record i).mark.isSome

/-- The head is fired, and its companion search begins (R71, R82). -/
def State.fireHead (s : State) (i : SlotIx) : State :=
  ((s.fire i false).beginSearch i (s.record i)).driveLines

/-- The engine is free to look at the head: the list is NORMAL and no firing is in progress (R70, R86). -/
def State.engineReady (s : State) : Bool :=
  decide (s.expiry.listState = .normal) && s.expiry.firing.isNone

/-- FIRING (R70, R71): the engine tests the head, which it reads (R2), and fires it when it is due and
unmarked; a failed link it reads is a list fault and no firing is made (R89). -/
def execFiring (s : State) : Host.Outcome State Fault Refusal :=
  if s.engineReady then
    match s.expiry.list with
    | [] => .next s
    | m :: _ =>
      let s1 := s.checkedRead m.slot
      if s1.dueHead m.slot then
        if s1.linkHolds m.slot then .next (s1.fireHead m.slot) else .next s1.listFault
      else .next s1
  else .next s

/-- MARKED_HEAD_REMOVAL (R86): the engine tests the head, which it reads (R2), and a marked head leaves the
list without firing and becomes IDLE; a failed link the engine reads is a list fault and nothing is removed
(R89). -/
def execMarkedHeadRemoval (s : State) : Host.Outcome State Fault Refusal :=
  if s.engineReady then
    match s.expiry.list with
    | [] => .next s
    | m :: _ =>
      let s1 := s.checkedRead m.slot
      if s1.markedHead m.slot then
        if s1.linkHolds m.slot then .next ((s1.unlist m.slot).setSched m.slot .idle)
        else .next s1.listFault
      else .next s1
  else .next s

/-- The conditions of Table 5-4 for a member of the window (R83). -/
def State.isCompanion (s : State) (f : Firing) (i : SlotIx) : Bool :=
  let r := s.record i
  decide (r.sched = .armed) && decide (r.target = f.target) && decide (r.notice = .clear) && r.mark.isNone
    && decide (s.now < r.due) && decide (r.due - r.slack.toNat ≤ s.now)
    && s.freeGeneral.isSome && s.reachable r.target

/-- The search after the member `i` has been considered and, when fired, counted: it ends with its window, or
after 8 companions (R82). -/
def nextSearch (f : Firing) (i : SlotIx) (fired : Bool) : Option Firing :=
  let g := { f with window := f.window.erase i, companions := f.companions + fired.toNat }
  if g.window = [] ∨ g.companions = Config.companionMax then none else some g

/-- The search goes on, or ends (R82). -/
def State.setSearch (s : State) (f : Option Firing) : State :=
  s.withExpiry { s.expiry with firing := f }

/-- The member at the head of the window is considered: it is read, and fired early when it is a companion
(R83, R84). The search goes on from what that read has left of it: a member of the window that it damaged has
left the list and is passed over (R82). -/
def State.consider (s : State) (i : SlotIx) : State :=
  let s1 := s.checkedRead i
  match s1.expiry.firing with
  | none => s1
  | some f =>
    if s1.isCompanion f i then
      (((s1.setSearch none).fire i true).setSearch (nextSearch f i true)).driveLines
    else s1.setSearch (nextSearch f i false)

/-- COMPANION_FIRING (R82 to R85): the search in progress considers the next member of its window. -/
def execCompanionFiring (s : State) : Host.Outcome State Fault Refusal :=
  match s.expiry.firing with
  | none => .next s
  | some f =>
    match f.window with
    | [] => .next (s.setSearch none)
    | i :: _ => if s.linkHolds i then .next (s.consider i) else .next s.listFault

end Sys2Proof.Machine
end

