-- ==== Sys2Proof/Machine/Sweeps.lean ====
section
/-! DEFINITION. The sweep unit (spec 08), the scrubber's visits (R142), and the requests that start
sweeps. -/

namespace Sys2Proof.Machine

/-! ### Queuing and starting -/

/-- The sweep is the port's PORT sweep (R125). -/
def isPortSweep (p : Port) (w : Sweep) : Bool := decide (w.kind = .port p)

/-- The port's PORT sweep is queued or in progress (R126, R157). -/
def State.hasPortSweep (s : State) (p : Port) : Bool := s.sweeps.places.any (isPortSweep p)

/-- A TAG sweep requested by the port (R126). -/
def isTagSweepOf (p : Port) (w : Sweep) : Bool :=
  match w.kind with
  | .tag _ _ requester => decide (requester = p)
  | .port _ => false
  | .total => false

/-- A TAG sweep (R136 step 4). -/
def isTagSweep (w : Sweep) : Bool :=
  match w.kind with
  | .tag _ _ _ => true
  | .port _ => false
  | .total => false

/-- The sweep number after this one, from 255 to 1 (R127). -/
def nextSweepNumber (n : SweepNumber) : SweepNumber := if n = 255 then 1 else n + 1

/-- The record matches the sweep (Table 8-1). -/
def SweepKind.matchesRecord (k : SweepKind) (r : Record) : Bool :=
  decide (r.sched ≠ .free) &&
  match k with
  | .tag o t _ => decide (r.owner = some o) && decide (r.tag = t)
  | .port p => decide (r.owner = some p)
  | .total => true

/-- A record that the sweep matches is marked, unless its identity part failed (R125, R130). -/
def State.markOne (w : Sweep) (s : State) (i : SlotIx) : State :=
  if w.kind.matchesRecord (s.record i) && decide ((s.record i).fault ≠ some .identity) then
    s.modify i fun r => { r with mark := some w.number }
  else s

/-- The non-FREE slots in ascending order. -/
def State.liveSlots (s : State) : List SlotIx :=
  s.listedSlots.filter fun i => decide ((s.record i).sched ≠ .free)

/-- The start of a sweep: its retired count and cursor are 0, every record is read, and every record it
matches is marked, in one event (R130, log 20). The holding queues are served after the marks, when a read made,
moved or freed a notice (R118). -/
def State.startSweep (s : State) (w : Sweep) : State :=
  let s1 := s.readSlots s.liveSlots
  let s2 := s1.withSweeps { s1.sweeps with current := some ⟨w, 0, 0⟩ }
  ((s2.liveSlots.foldl (State.markOne w) s2).settleSince s).driveLines

/-- The idle sweep unit takes the TOTAL sweep if one is queued, and otherwise the TAG or PORT sweep queued
earliest (R126). -/
def State.takeSweep (s : State) : State :=
  if s.sweeps.current.isSome then s
  else
    match s.sweeps.total, s.sweeps.places with
    | some w, _ => (s.withSweeps { s.sweeps with total := none }).startSweep w
    | none, w :: _ => s.startSweep w
    | none, [] => s

/-- The next sweep number is given away (R127). -/
def SweepUnit.advanceNumber (u : SweepUnit) : SweepUnit :=
  { u with nextNumber := nextSweepNumber u.nextNumber }

/-- A TAG or PORT sweep takes a place; when the unit is idle a sweep starts in the same event (R126). -/
def State.queueSweep (s : State) (kind : SweepKind) : State :=
  (s.withSweeps { s.sweeps.advanceNumber with
    places := s.sweeps.places ++ [⟨s.sweeps.nextNumber, kind⟩] }).takeSweep

/-- A port's PORT sweep is queued, or merged into the one already queued or in progress (R126). -/
def State.queuePortSweep (s : State) (p : Port) : State :=
  if s.hasPortSweep p then s else s.queueSweep (.port p)

/-- SWEEP_START (R126, R130): the idle sweep unit takes the next queued sweep. -/
def execSweepStart (s : State) : Host.Outcome State Fault Refusal := .next s.takeSweep

/-! ### The walk -/

/-- The record at the visit is retired by this sweep: it carries its mark, or it is a DAMAGED record with
fault part IDENTITY and the sweep is TOTAL (R132). -/
def Sweep.retires (w : Sweep) (r : Record) : Bool :=
  decide (r.sched ≠ .free) &&
  (decide (r.mark = some w.number) || (decide (w.kind = .total) && decide (r.fault = some .identity)))

/-- The visit to a slot (R132): the slot is read, a record the sweep retires is retired and counted, and
the cursor advances. -/
def State.visit (s : State) (run : SweepRun) (i : SlotIx) : State :=
  let s1 := s.readSlot i
  let retires := run.sweep.retires (s1.record i)
  let s2 := if retires then s1.retire i else s1.settleSince s
  s2.withSweeps { s2.sweeps with
    current := some { run with retired := run.retired + retires.toNat, cursor := run.cursor + 1 } }

/-- SWEEP_VISIT (R132): the walk of the sweep in progress visits the slot at its cursor. -/
def execSweepVisit (s : State) : Host.Outcome State Fault Refusal :=
  match s.sweeps.current with
  | none => .next s
  | some run =>
    match slotOf run.cursor with
    | none => .next s
    | some i => .next (s.visit run i)

/-! ### The end of a sweep -/

/-- The sweep in progress has ended and its place is free (R126). -/
def State.freePlace (s : State) (w : Sweep) : State :=
  s.withSweeps { s.sweeps with
    places := s.sweeps.places.filter fun v => decide (v ≠ w)
    current := none }

/-- The walk is over: the last slot has been visited (R132). -/
def SweepRun.walked (run : SweepRun) : Bool := decide (Config.slotCount ≤ run.cursor)

/-- TAG_SWEEP_END (R134): the place is freed and a SWEEP-DONE notice created for the requesting port. -/
def execTagSweepEnd (s : State) : Host.Outcome State Fault Refusal :=
  match s.sweeps.current with
  | none => .next s
  | some run =>
    match run.sweep.kind with
    | .tag _ _ requester =>
      if run.walked then
        .next (((s.freePlace run.sweep).createSweepDone requester run.sweep.number run.retired
          false).driveLines)
      else .next s
    | .port _ => .next s
    | .total => .next s

/-- A port comes UP with the window given (R157, R158): LINK-ACCEPT is formed, the holding queues are
served and the attention lines evaluated. -/
def State.comeUp (s : State) (p : Port) (window : Nat) : State :=
  ((s.modifyLink p fun l =>
      { l with state := .up, window := window, pendingWindow := none, expected := 0, requests := [],
               history := [], badRun := 0 }).form p
    (linkAcceptFrame p window (decide (s.portTable.supervisor = p)))).settle

/-- The end of its PORT sweep makes a RECOVERING port UP with its pending window (R135, R158). -/
def State.recover (s : State) (p : Port) : State :=
  if s.links[p].state = .recovering then s.comeUp p (s.links[p].pendingWindow.getD 1) else s

/-- PORT_SWEEP_END (R135): the place is freed and the end is reported to the port. -/
def execPortSweepEnd (s : State) : Host.Outcome State Fault Refusal :=
  match s.sweeps.current with
  | none => .next s
  | some run =>
    match run.sweep.kind with
    | .port p => if run.walked then .next ((s.freePlace run.sweep).recover p) else .next s
    | .tag _ _ _ => .next s
    | .total => .next s

/-- Step 1 of R136: the blocked list is emptied and every record on it is CLEAR. -/
def State.emptyBlocked (s : State) : State :=
  let s1 := s.notices.blocked.foldl (fun t b => t.setNotice b.slot .clear none) s
  s1.withNotices { s1.notices with blocked := [] }

/-- The record an EXPIRY or FAULT entry names has its notice state made CLEAR (R136 step 2). -/
def State.clearNamed (s : State) (e : Entry) : State :=
  match e.slot with
  | none => s
  | some i => s.setNotice i .clear none

/-- A SWEEP-DONE entry (R136 step 2). -/
def isSweepDone (e : Entry) : Bool := decide (e.kind = .sweepDone)

/-- Step 2 of R136: every EXPIRY and FAULT entry is freed wherever it lies; SWEEP-DONE entries are kept. -/
def State.freeNotices (s : State) : State :=
  let s1 := s.entries.foldl State.clearNamed s
  s1.withNotices { s1.notices with
    queues := s1.notices.queues.map (·.filter isSweepDone)
    outstanding := s1.notices.outstanding.map (·.filter isSweepDone)
    holding := s1.notices.holding.map (·.filter isSweepDone) }

/-- Step 4 of R136 for one queued TAG sweep: a SWEEP-DONE notice with ABANDONED to its requesting port. -/
def State.abandon (s : State) (w : Sweep) : State :=
  match w.kind with
  | .tag _ _ requester => s.createSweepDone requester w.number 0 true
  | .port _ => s
  | .total => s

/-- Step 4 of R136: every TAG sweep still queued is removed, in the order of queuing. -/
def State.abandonTagSweeps (s : State) : State :=
  let s1 := (s.sweeps.places.filter isTagSweep).foldl State.abandon s
  s1.withSweeps { s1.sweeps with places := s1.sweeps.places.filter fun w => !isTagSweep w }

/-- Step 5 of R136: the list state is NORMAL, the restart count 0, the rebuild part empty, and a carried
record no rebuild member; its overtaken flag is kept. -/
def State.restoreList (s : State) : State :=
  (s.withExpiry { s.expiry with listState := .normal, restarts := 0 }).withPlacement
    { s.placement with
      rebuildPart := 0
      carried := s.placement.carried.map fun c => { c with rebuildMember := false } }

/-- The end of a TOTAL sweep, step by step (R136). -/
def State.endTotal (s : State) (run : SweepRun) : State :=
  let s2 := s.emptyBlocked.freeNotices
  let s3 := s2.withPools (s2.pools.map fun _ => [])
  let s5 := s3.abandonTagSweeps.restoreList
  let s6 := s5.createSweepDone s5.portTable.supervisor run.sweep.number run.retired false
  (s6.withSweeps { s6.sweeps with current := none }).driveLines

/-- TOTAL_SWEEP_END (R136). -/
def execTotalSweepEnd (s : State) : Host.Outcome State Fault Refusal :=
  match s.sweeps.current with
  | none => .next s
  | some run =>
    match run.sweep.kind with
    | .total => if run.walked then .next (s.endTotal run) else .next s
    | .tag _ _ _ => .next s
    | .port _ => .next s

/-! ### Requests that start sweeps -/

/-- RETIRE-TAG (R128): DENIED for another port without the supervisor right, BUSY with two TAG sweeps of
the requesting port queued or in progress. -/
def execRetireTag (p : Port) (s : State) : Host.Outcome State Fault Refusal :=
  s.applying p .retireTag fun pl =>
    match parseRetireTag pl with
    | none => s.refuse p .format
    | some (owner, tag) =>
      if owner ≠ p ∧ s.portTable.supervisor ≠ p then s.refuse p .denied
      else if 2 ≤ (s.sweeps.places.filter (isTagSweepOf p)).length then s.refuse p .busy
      else (s.queueSweep (.tag owner tag p)).accept p [s.sweeps.nextNumber]

/-- CLEAR-ALL (R129): BUSY when a TOTAL sweep holds the TOTAL place; when the unit is idle the sweep starts
in the same event. -/
def execClearAll (p : Port) (s : State) : Host.Outcome State Fault Refusal :=
  s.applying p .clearAll fun pl =>
    match parseNothing pl with
    | none => s.refuse p .format
    | some _ => s.supervised p
        (if s.sweeps.total.isSome then s.refuse p .busy
        else
          ((s.withSweeps { s.sweeps.advanceNumber with
            total := some ⟨s.sweeps.nextNumber, .total⟩ }).takeSweep).accept p
            [s.sweeps.nextNumber])

/-! ### The scrubber -/

/-- The link of an ARMED record to the member behind it fails its check (Table 9-2); the tail's too (log 34). -/
def State.linkFailed (s : State) (i : SlotIx) : Bool :=
  decide ((s.record i).sched = .armed)
    && s.expiry.list.any fun m => decide (m.slot = i) && !m.linkHolds

/-- A visit is made: the cursor advances by one, from 1023 to 0 (R140). -/
def Scrubber.visited (c : Scrubber) : Scrubber :=
  { c with cursor := c.cursor + 1, visitsDue := c.visitsDue - 1 }

/-- The visit of the slot at the cursor (R142): it is read, and a record still ARMED has its link checked;
a failed link is a list fault. -/
def State.scrub (s : State) : State :=
  let i := s.scrubber.cursor
  let s1 := (s.withScrubber s.scrubber.visited).checkedRead i
  if s1.linkFailed i && s1.faultPossible then s1.listFault else s1

/-- SCRUB_VISIT (R140, R142): a visit that a tick has caused is made (log 11). The scrubber makes none while the
time base is FROZEN or EXHAUSTED (R23, R31). -/
def execScrubVisit (s : State) : Host.Outcome State Fault Refusal :=
  if s.scrubber.visitsDue = 0 ∨ s.timeBase.mode ≠ .running then .next s else .next s.scrub

end Sys2Proof.Machine
end

