-- ==== Sys2Proof/Machine/ClientLink.lean ====
section
/-! DEFINITION. The client link (spec 10): received frames, link states, leaving UP, the request list,
replay, and the end of a frame's sending. -/

namespace Sys2Proof.Machine

/-! ### Leaving UP (R159, R112) -/

/-- What happens to one entry of a port that leaves UP, whose record has been read (Table 6-5). The entry has left
its collection, and `outstanding` tells which one it was. -/
def State.treatLeaving (s : State) (outstanding : Bool) (e : Entry) : State :=
  match e.slot with
  | none => s
  | some i =>
    let damaged := decide ((s.record i).sched = .damaged)
    match e.kind, e.destination with
    | .sweepDone, _ => s
    | .fault, _ => (s.loseNotice i).serveBlocked
    | .expiry, .pool k =>
      if damaged then ((s.loseNotice i).serveBlocked).raiseFault i
      else (s.setNotice i .pending none).offer k e
    | .expiry, .port _ =>
      if damaged && outstanding then ((s.loseNotice i).serveBlocked).raiseFault i
      else (s.loseNotice i).serveBlocked

/-- The record that an entry names, if any, is read (R2, log 12). -/
def State.readNamed (s : State) (e : Entry) : State :=
  match e.slot with
  | none => s
  | some i => s.readSlot i

/-- One entry of the leaving port's notice queue is treated: its record is read, and an entry that the read's
damage has converted has left the queue already (R145, log 12). -/
def State.leaveQueueEntry (p : Port) (s : State) (e : Entry) : State :=
  let s1 := s.readNamed e
  if e ∈ s1.notices.queues[p] then (s1.dropEntry (.queued p) e).treatLeaving false e else s1

/-- One entry of the leaving port's outstanding set is treated: its record is read, and keeps its place there
when the read damages it (R143 step 5, log 12). -/
def State.leaveOutstandingEntry (p : Port) (s : State) (e : Entry) : State :=
  let s1 := s.readNamed e
  if e ∈ s1.notices.outstanding[p] then (s1.dropEntry (.outstanding p) e).treatLeaving true e else s1

/-- The notice unit empties a leaving port's queue, in queue order, then its outstanding set, in delivery
order (R112). -/
def State.emptyPort (s : State) (p : Port) : State :=
  let s1 := s.notices.queues[p].foldl (State.leaveQueueEntry p) s
  s1.notices.outstanding[p].foldl (State.leaveOutstandingEntry p) s1

/-- The frame being sent holds one of the eight other places from now on (R159 step 3). -/
def Outgoing.orphan (o : Outgoing) : Outgoing := { o with place := .other }

/-- The link after steps 1 to 4 of R159: the frame being sent is completed, the frames given as kept stay,
and every other frame, the requests and the reply history are discarded. -/
def Link.leave (l : Link) (state : LinkState) (kept : List Outgoing) : Link :=
  { l with state := state, requests := [], history := [], badRun := 0, pendingWindow := none,
           transmit := (l.transmit.take 1).map Outgoing.orphan ++ kept }

/-- A port leaves UP (R159, steps 1 to 6). The holding queues and the attention lines are settled at the end of
the event, after the marks of a sweep that starts in it (R118, R110). -/
def State.leaveUp (s : State) (p : Port) (state : LinkState) (kept : List Outgoing) : State :=
  (((s.modifyLink p (·.leave state kept)).emptyPort p).queuePortSweep p).settle

/-! ### Bad frames (R153, R154) -/

/-- The REJECT of the eighth bad frame, when it finds a place (R155, R159 step 3). -/
def keptReject (l : Link) (reason : RejectReason) : List Outgoing :=
  if (l.transmit.filter fun o => decide (o.place = .other)).length < Config.otherPlaces then
    [⟨rejectFrame reason, .other⟩]
  else []

/-- A bad frame (R153, R154): not answered in DISABLED, answered with REJECT otherwise; in UP it is counted,
and the eighth in a row takes the port out of UP. -/
def State.receiveBad (s : State) (p : Port) (reason : RejectReason) : State :=
  match s.links[p].state with
  | .disabled => s
  | .down => s.form p (rejectFrame reason)
  | .recovering => s.form p (rejectFrame reason)
  | .up =>
    if s.links[p].badRun + 1 < Config.badRunLimit then
      (s.modifyLink p fun l => { l with badRun := l.badRun + 1 }).form p (rejectFrame reason)
    else (s.leaveUp p .down (keptReject s.links[p] reason)).form p linkCloseFrame

/-- A port's receiver is set. -/
def State.setReceiver (s : State) (p : Port) (r : Receiver) : State :=
  s.modifyLink p fun l => { l with receiver := r }

/-- BAD_FRAME (R153): the frame these octets end at the port is bad. -/
def execBadFrame (p : Port) (octets : List Octet) (s : State) : Host.Outcome State Fault Refusal :=
  match s.links[p].receiver.finish octets with
  | some (.bad reason, r) => .next ((s.setReceiver p r).receiveBad p reason)
  | some (.linkOpen _, _) => .next s
  | some (.linkClose, _) => .next s
  | some (.request _ _, _) => .next s
  | none => .next s

/-- A begun frame that has not ended is cut off: it is a bad frame with reason CUT, and the port searches
again (R152). -/
def State.cutOff (s : State) (p : Port) : State := (s.setReceiver p (.searching [])).receiveBad p .cut

/-- The port has begun a frame and its end has not arrived (R152). -/
def Receiver.begun (r : Receiver) : Bool :=
  match r with
  | .searching _ => false
  | .receiving bits _ => (takeFrame bits).isNone

/-- FRAME_CUT_OFF (R152): 65,536 periods of the reference clock have passed without a further bit
(log 17). -/
def execFrameCutOff (p : Port) (s : State) : Host.Outcome State Fault Refusal :=
  if s.links[p].receiver.begun then .next (s.cutOff p) else .next s

/-- The receiver after further bits: between frames they are searched for A5h at any bit position, and in a
begun frame they join its bits, from which the periods without a bit are counted anew (R152). -/
def Receiver.further (r : Receiver) (bits : List Bool) : Receiver :=
  match r with
  | .searching window => hunt window bits
  | .receiving held quiet => .receiving (held ++ bits) (if bits = [] then quiet else 0)

/-- FRAME_START (R152): bits are received. Between frames they are searched for the start octet that begins a
frame; behind it they are further bits of the begun frame, whose end the rows of frames judge (log 16). -/
def execFrameStart (p : Port) (bits : List Bool) (s : State) : Host.Outcome State Fault Refusal :=
  .next (s.setReceiver p (s.links[p].receiver.further bits))

/-! ### Good frames by link state (Table 10-3) -/

/-- A LINK-OPEN answered as from DOWN (R157). -/
def State.openFromDown (s : State) (p : Port) (window : Nat) : State :=
  if s.hasPortSweep p then
    (s.modifyLink p fun l =>
      { l with state := .recovering, pendingWindow := some window }).form p linkWaitFrame
  else s.comeUp p window

/-- A good LINK-OPEN (R156, R157). -/
def State.receiveLinkOpen (s : State) (p : Port) (window : Nat) : State :=
  match s.links[p].state with
  | .disabled => s.form p (rejectFrame .disabled)
  | .down => s.openFromDown p window
  | .recovering => (s.modifyLink p fun l => { l with pendingWindow := some window }).form p linkWaitFrame
  | .up => (s.leaveUp p .down []).openFromDown p window

/-- LINK_OPEN (R157): the frame these octets end at the port is a good LINK-OPEN. -/
def execLinkOpen (p : Port) (octets : List Octet) (s : State) : Host.Outcome State Fault Refusal :=
  match s.links[p].receiver.finish octets with
  | some (.linkOpen window, r) => .next ((s.setReceiver p r).receiveLinkOpen p window)
  | some (.bad _, _) => .next s
  | some (.linkClose, _) => .next s
  | some (.request _ _, _) => .next s
  | none => .next s

/-- A good LINK-CLOSE (R156, R158). -/
def State.receiveLinkClose (s : State) (p : Port) : State :=
  match s.links[p].state with
  | .disabled => s
  | .down => s.form p linkCloseFrame
  | .recovering =>
    (s.modifyLink p fun l => { l with state := .down, pendingWindow := none }).form p linkCloseFrame
  | .up => (s.leaveUp p .down []).form p linkCloseFrame

/-- LINK_CLOSE (R156): the frame these octets end at the port is a good LINK-CLOSE. -/
def execLinkClose (p : Port) (octets : List Octet) (s : State) : Host.Outcome State Fault Refusal :=
  match s.links[p].receiver.finish octets with
  | some (.linkClose, r) => .next ((s.setReceiver p r).receiveLinkClose p)
  | some (.bad _, _) => .next s
  | some (.linkOpen _, _) => .next s
  | some (.request _ _, _) => .next s
  | none => .next s

/-! ### REQUEST frames (R161 to R163) -/

/-- A RESPONSE formed in one of the eight other places (R161, R163). -/
def State.formResponse (s : State) (p : Port) (seq : SeqNumber) (payload : List Octet) : State :=
  s.form p ⟨.response, seq, payload⟩

/-- A request is taken (Table 10-4): it joins the tail of the request list as waiting, and the expected
number advances. -/
def Link.takeRequest (l : Link) (payload : List Octet) : Link :=
  { l with requests := l.requests ++ [⟨l.expected, payload, .waiting⟩], expected := l.expected + 1 }

/-- A good REQUEST frame in UP (Table 10-4). -/
def State.sequenceRequest (s : State) (p : Port) (seq : SeqNumber) (payload : List Octet) : State :=
  match s.links[p].history.find? fun h => decide (h.seq = seq) with
  | some h => s.formResponse p seq h.payload
  | none =>
    if seq = s.links[p].expected then
      if s.links[p].requests.length < s.links[p].window then s.modifyLink p (·.takeRequest payload)
      else s.formResponse p seq [Result.windowFull.code]
    else s.formResponse p seq [Result.sequence.code, octet s.links[p].expected.toNat]

/-- A good REQUEST (R156, R161); in UP it ends the run of bad frames (R154). -/
def State.receiveRequest (s : State) (p : Port) (seq : SeqNumber) (payload : List Octet) : State :=
  match s.links[p].state with
  | .disabled => s
  | .down => s.form p linkCloseFrame
  | .recovering => s.form p linkWaitFrame
  | .up => (s.modifyLink p fun l => { l with badRun := 0 }).sequenceRequest p seq payload

/-- REQUEST_FRAME (R161): the frame these octets end at the port is a good REQUEST. -/
def execRequestFrame (p : Port) (octets : List Octet) (s : State) : Host.Outcome State Fault Refusal :=
  match s.links[p].receiver.finish octets with
  | some (.request seq payload, r) => .next ((s.setReceiver p r).receiveRequest p seq payload)
  | some (.bad _, _) => .next s
  | some (.linkOpen _, _) => .next s
  | some (.linkClose, _) => .next s
  | none => .next s

/-! ### The end of a sending (R155) -/

/-- The link after the frame being sent has ended: its place is free, and a response to a taken request
removes its request from the head of the list (R155, R162). -/
def Link.sent (l : Link) : Link :=
  match l.transmit with
  | [] => l
  | o :: rest =>
    match o.place with
    | .response => { l with transmit := rest, requests := l.requests.drop 1 }
    | .other => { l with transmit := rest }

/-- FRAME_SENT (R155). -/
def execFrameSent (p : Port) (s : State) : Host.Outcome State Fault Refusal :=
  .next (s.modifyLink p Link.sent)

/-! ### Requests that concern the link alone -/

/-- ECHO (R166): the payload's octets after the code come back. -/
def execEcho (p : Port) (s : State) : Host.Outcome State Fault Refusal :=
  s.applying p .echo fun pl =>
    match parseEcho pl with
    | none => s.refuse p .format
    | some body => s.accept p body

/-- UNKNOWN_REQUEST_CODE (R178): a taken request with an empty payload or an unknown code is refused with
FORMAT in its turn. -/
def execUnknownRequestCode (p : Port) (s : State) : Host.Outcome State Fault Refusal :=
  match s.nextRequest p with
  | none => .next s
  | some q =>
    if q.condition = .waiting ∧ requestOf q.payload = none then .next (s.refuse p .format) else .next s

/-- DEVICE_RESET (R151): every block returns to its reset values. The commands that wait at the model's
queue, the storage errors still to strike and the count of free values are not the block's (log 23). -/
def execDeviceReset (s : State) : Host.Outcome State Fault Refusal :=
  .next { State.reset with pending := s.pending, upsets := s.upsets, freeValues := s.freeValues }

end Sys2Proof.Machine
end

