-- ==== Sys2Proof/Machine/Records.lean ====
section
/-! DEFINITION. The record requests (spec 01): OPEN, READ, SET, CLOSE, and FORCE-CLOSE (R173), with the
checks that requests naming a record share (R165). -/

namespace Sys2Proof.Machine

/-! ### Checks 3 to 6 of the order of checks (Table 10-5) -/

/-- The handle is stale: its slot is FREE, or its generation differs from the slot's, which is not compared
when it is unknown (R3, R5). -/
def Record.staleFor (r : Record) (h : Handle) : Bool :=
  decide (r.sched = .free)
    || (decide (r.fault ≠ some .identity) && decide (r.generation ≠ h.generation))

/-- STALE, RETIRING, then DAMAGED and NOT-OWNER where they are made (Table 10-5): the first that fails. -/
def Record.refusal (r : Record) (p : Port) (h : Handle) (damagedMade ownerMade : Bool) : Option Result :=
  if r.staleFor h then some .stale
  else if r.mark.isSome then some .retiring
  else if damagedMade && decide (r.sched = .damaged) then some .damaged
  else if ownerMade && decide (r.owner ≠ some p) then some .notOwner
  else none

/-- The placement interlock (R63): a slot above 1023 is refused with FORMAT at once, a request naming a
slot whose record is PLACING is held, and any other is applied. The slot is read for the test (R2); a request
that is applied is checked on that same read (log 12). -/
def State.interlocked (s : State) (p : Port) (pl : List Octet) (f : State) : State :=
  match namedSlotField pl with
  | none => f
  | some v =>
    match slotOf v with
    | none => s.refuse p .format
    | some i => if ((s.checkedRead i).record i).sched = .placing then (s.checkedRead i).hold p i else f

/-- The state after the interlock's test: the slot that the payload names, if any, has been read (R63, R2). -/
def State.tested (s : State) (pl : List Octet) : State :=
  match (namedSlotField pl).bind slotOf with
  | none => s
  | some i => s.checkedRead i

/-- A request that names a record: the slot is read and checked (R2, log 12), checks 3 to 6 are made, and
the request is carried out on the record as it then stands. A request that is carried out on a record which its
own read has damaged settles the notices itself, after its other effects on them (R118). -/
def State.onRecord (s : State) (p : Port) (h : Handle) (damagedMade ownerMade : Bool)
    (f : State → Record → State) : State :=
  let s1 := s.readSlot h.slot
  match (s1.record h.slot).refusal p h damagedMade ownerMade with
  | some result => (s1.settleSince s).refuse p result
  | none => f s1 (s1.record h.slot)

/-! ### OPEN (R7, R8) -/

/-- The record that OPEN creates (R8, Table 1-1). -/
def OpenFields.record (f : OpenFields) (p : Port) (generation : Generation) : Record :=
  { Record.blank with
    generation := generation, owner := some p, tag := f.tag, sched := .idle, target := f.target,
    cls := f.cls, urgency := f.urgency, cookie := f.cookie.getD 0, slack := f.slack.getD 0,
    period := f.period, policy := f.policy.getD .aligned, disposal := f.disposal.getD .keep }

/-- The record is created in a FREE slot, which leaves the set of FREE slots and counts toward the port
(R6, R7, R8). -/
def State.createRecord (s : State) (p : Port) (i : SlotIx) (f : OpenFields) : State :=
  ((s.setRecord i (f.record p (s.record i).generation)).setOccupied
    (insertSlot i s.table.occupied)).modifyOwned p (insertSlot i)

/-- OPEN (R7): QUOTA, then FULL, then the lowest FREE slot, whose identity part is read (R139). -/
def execOpen (p : Port) (s : State) : Host.Outcome State Fault Refusal :=
  s.applying p .openRecord fun pl =>
    match parseOpen pl with
    | none => s.refuse p .format
    | some f =>
      if s.portTable.quota[p] ≤ s.ownedCount p then s.refuse p .quota
      else
        match s.lowestFree with
        | none => s.refuse p .full
        | some i =>
          let s1 := s.checkedRead i
          (s1.createRecord p i f).accept p
            (handleOctets i (s1.record i).generation false ++ [statesOctet .free .clear])

/-! ### READ (R9, R10) -/

/-- READ (R9): answered at once, for any UP port. -/
def execRead (p : Port) (s : State) : Host.Outcome State Fault Refusal :=
  s.applying p .readRecord fun pl =>
    match parseHandleOnly pl with
    | none => s.refuse p .format
    | some h =>
      let s1 := s.checkedRead h.slot
      let r := s1.record h.slot
      if r.staleFor h then s1.refuse p .stale else s1.accept p (r.report h.slot)

/-! ### SET (R11, R12) -/

/-- The record with every selected field written (R11). -/
def SetFields.apply (f : SetFields) (r : Record) : Record :=
  { r with
    cookie := f.cookie.getD r.cookie
    urgency := f.urgency.getD r.urgency
    slack := f.slack.getD r.slack
    target := f.target.getD r.target
    cls := f.cls.getD r.cls
    period := f.period.getD r.period
    policy := f.policy.getD r.policy
    disposal := f.disposal.getD r.disposal }

/-- SET (R11): STATE when the class is selected and the record has a notice. -/
def execSet (p : Port) (s : State) : Host.Outcome State Fault Refusal :=
  s.applying p .setRecord fun pl => s.interlocked p pl
    (match parseSet pl with
    | none => (s.tested pl).refuse p .format
    | some f => s.onRecord p f.handle true true fun t r =>
        if f.cls.isSome ∧ r.notice ≠ .clear then t.refuse p .state
        else (t.setRecord f.handle.slot (f.apply r)).accept p [r.states])

/-! ### CLOSE and FORCE-CLOSE (R14, R173) -/

/-- CLOSE (R14): the owner retires the record. -/
def execClose (p : Port) (s : State) : Host.Outcome State Fault Refusal :=
  s.applying p .closeRecord fun pl => s.interlocked p pl
    (match parseHandleOnly pl with
    | none => (s.tested pl).refuse p .format
    | some h => s.onRecord p h false true fun t r => (t.retire h.slot).accept p [r.states])

/-- FORCE-CLOSE (R173): the supervisor retires any record; it is not held by the interlock. -/
def execForceClose (p : Port) (s : State) : Host.Outcome State Fault Refusal :=
  s.applying p .forceClose fun pl =>
    match parseHandleOnly pl with
    | none => s.refuse p .format
    | some h => s.supervised p
        (s.onRecord p h false false fun t r => (t.retire h.slot).accept p [r.states])

end Sys2Proof.Machine
end

