-- ==== Sys2Proof/Machine/Arming.lean ====
section
/-! DEFINITION. ARM, CANCEL, PAUSE and RESUME (spec 03). -/

namespace Sys2Proof.Machine

/-- The deadline that a form gives at `now`; none when it would exceed time max, which is RANGE (R33). -/
def DeadlineForm.deadline (f : DeadlineForm) (now : Nat) : Option Tick :=
  match f with
  | .absolute d => some d
  | .relative n =>
    if now + n.toNat ≤ Config.timeMax then some (BitVec.ofNat 56 (now + n.toNat)) else none

/-- A record takes a deadline, and loses the remaining interval of a pause (R34, R35). -/
def State.setDeadline (s : State) (i : SlotIx) (d : Tick) : State :=
  s.modify i fun r => { r with deadline := some d, remaining := none }

/-- The record reached by ARM with its new deadline (Table 3-1): a QUEUED record keeps its place (R36), an
ARMED one leaves the list and joins the tail of the queue (R37), any other joins the tail (R35). -/
def State.armRecord (s : State) (i : SlotIx) (d : Tick) : State :=
  match (s.record i).sched with
  | .queued => s.setDeadline i d
  | .armed => ((s.unlist i).setDeadline i d).enqueue i
  | _ => (s.setDeadline i d).enqueue i

/-- ARM (R34): LIST-FAILED, then RANGE. -/
def execArm (p : Port) (s : State) : Host.Outcome State Fault Refusal :=
  s.applying p .arm fun pl => s.interlocked p pl
    (match parseArm pl with
    | none => (s.tested pl).refuse p .format
    | some (h, form) => s.onRecord p h true true fun t r =>
        if t.expiry.listState = .failed then t.refuse p .listFailed
        else
          match form.deadline t.now with
          | none => t.refuse p .range
          | some d => (t.armRecord h.slot d).accept p [r.states])

/-- A record leaves the timing path and becomes IDLE; its deadline field keeps its value (R40). -/
def State.disarm (s : State) (i : SlotIx) : State :=
  (s.leaveTiming i).modify i fun r => { r with sched := .idle, remaining := none }

/-- The withdrawal of a notice that has not been delivered (R42). -/
def State.withdraw (s : State) (i : SlotIx) : State :=
  match (s.record i).notice with
  | .clear => s
  | .outstanding => s
  | .waiting => (s.unblock i).setNotice i .clear none
  | .pending =>
    match s.entryOf i with
    | none => s
    | some (place, e) => (((s.dropEntry place e).setNotice i .clear none).serveBlocked).settle

/-- CANCEL (R40, R42). -/
def execCancel (p : Port) (s : State) : Host.Outcome State Fault Refusal :=
  s.applying p .cancel fun pl => s.interlocked p pl
    (match parseCancel pl with
    | none => (s.tested pl).refuse p .format
    | some (h, option) => s.onRecord p h true true fun t r =>
        (if option then (t.disarm h.slot).withdraw h.slot else t.disarm h.slot).accept p [r.states])

/-- The interval left before a record's deadline, 0 when it has passed (R43). -/
def Record.left (r : Record) (now : Nat) : Tick := BitVec.ofNat 56 (r.due - now)

/-- PAUSE (R43): STATE unless the record is ARMED or QUEUED. -/
def execPause (p : Port) (s : State) : Host.Outcome State Fault Refusal :=
  s.applying p .pause fun pl => s.interlocked p pl
    (match parseHandleOnly pl with
    | none => (s.tested pl).refuse p .format
    | some h => s.onRecord p h true true fun t r =>
        if r.sched = .armed ∨ r.sched = .queued then
          ((t.leaveTiming h.slot).modify h.slot fun q =>
            { q with sched := .paused, remaining := some (r.left t.now) }).accept p [r.states]
        else t.refuse p .state)

/-- RESUME (R45): STATE, then LIST-FAILED, then RANGE. -/
def execResume (p : Port) (s : State) : Host.Outcome State Fault Refusal :=
  s.applying p .resume fun pl => s.interlocked p pl
    (match parseHandleOnly pl with
    | none => (s.tested pl).refuse p .format
    | some h => s.onRecord p h true true fun t r =>
        if r.sched ≠ .paused then t.refuse p .state
        else if t.expiry.listState = .failed then t.refuse p .listFailed
        else if Config.timeMax < t.now + (r.remaining.getD 0).toNat then t.refuse p .range
        else
          ((t.setDeadline h.slot (BitVec.ofNat 56 (t.now + (r.remaining.getD 0).toNat))).enqueue
            h.slot).accept p [r.states])

end Sys2Proof.Machine
end

