-- ==== Sys2Proof/Machine/Delivery.lean ====
section
/-! DEFINITION. The delivery requests (spec 06): TAKE, ACK, RELEASE, ATTENTION-SET. -/

namespace Sys2Proof.Machine

/-! ### TAKE (R99, R100) -/

/-- An entry as its delivery leaves it: the deliveries count is raised, holding at 255 (R100). -/
def Entry.delivered (e : Entry) : Entry := { e with deliveries := saturate8 e.deliveries 1 }

/-- One deliverable entry is delivered to the port (the table of R100). -/
def State.deliver (p : Port) (s : State) (e : Entry) : State :=
  let s1 := s.dropEntry (.queued p) e
  match e.kind, e.slot with
  | .sweepDone, _ => s1
  | _, none => s1
  | .fault, some i => (s1.setNotice i .clear none).serveBlocked
  | .expiry, some i =>
    match e.cls with
    | .plain => ((s1.setNotice i .clear none).dispose i).serveBlocked
    | .held => (s1.modifyOutstanding p (· ++ [e.delivered])).setNotice i .outstanding (some p)

/-- The entry is freed by its delivery, so that room appears at its port (R118). -/
def Entry.freedByTake (e : Entry) : Bool := decide (e.cls = .plain)

/-- The records named in a port's notice queue, in queue order: the ones a TAKE reads (log 12). -/
def State.queuedSlots (s : State) (p : Port) : List SlotIx :=
  s.notices.queues[p].filterMap Entry.slot

/-- The entry is one of those given, by its stamp, which it keeps through conversion (R92, R145). -/
def Entry.among (e : Entry) (l : List Entry) : Bool := l.any fun x => decide (x.stamp = e.stamp)

/-- The entries that a TAKE of up to `n` delivers: those of the queue that stood in it before the event, so that
one that joins in the event waits for the next TAKE (R99). -/
def State.takeable (s : State) (p : Port) (n : Nat) (before : List Entry) : List Entry :=
  (s.notices.queues[p].filter fun e => e.among before && s.deliverable e).take n

/-- The state after the delivery of entries, with the holding queues served when room appeared, by a delivery or
by damage that the event's reads found, and the attention lines (R100, R118). -/
def State.deliverAll (s : State) (p : Port) (es : List Entry) (damaged : Bool) : State :=
  let s1 := es.foldl (State.deliver p) s
  if es.any Entry.freedByTake || damaged then s1.settle else s1.driveLines

/-- The body of a TAKE response: how many, the *more* flag, and the descriptors (R179). -/
def takeBody (es : List Entry) (more : Bool) : List Octet :=
  [octet es.length, octet more.toNat] ++ es.flatMap fun e => e.delivered.descriptor

/-- The *more* flag: the port's queue holds a deliverable entry (R99). -/
def State.more (s : State) (p : Port) : Bool := s.notices.queues[p].any s.deliverable

/-- TAKE (R99). -/
def execTake (p : Port) (s : State) : Host.Outcome State Fault Refusal :=
  s.applying p .take fun pl =>
    match parseTake pl with
    | none => s.refuse p .format
    | some n =>
      let s1 := s.readSlots (s.queuedSlots p)
      let es := s1.takeable p n s.notices.queues[p]
      let s2 := s1.deliverAll p es (decide (s1.notices ≠ s.notices))
      s2.accept p (takeBody es (s2.more p))

/-! ### ACK (R103 to R106) -/

/-- NOT-HOLDER, then STATE (Table 6-4). -/
def Record.holderRefusal (r : Record) (p : Port) : Option Result :=
  if r.notice = .outstanding then
    if r.holder = some p then none else some .notHolder
  else some .state

/-- LIST-FAILED, then RANGE, when a rearm interval is given (Table 6-4). -/
def State.rearmRefusal (s : State) (rearm : Option Interval) : Option Result :=
  match rearm with
  | none => none
  | some n =>
    if s.expiry.listState = .failed then some .listFailed
    else if Config.timeMax < s.now + n.toNat then some .range
    else none

/-- The record's OUTSTANDING entry leaves the holder's set and is freed, and the record is CLEAR (R104). -/
def State.consume (s : State) (p : Port) (i : SlotIx) : State :=
  match s.notices.outstanding[p].find? (·.names i) with
  | none => s.setNotice i .clear none
  | some e => (s.dropEntry (.outstanding p) e).setNotice i .clear none

/-- The rearm applies: an interval is given, and the record is IDLE and one-shot (R105). -/
def Record.rearms (r : Record) (rearm : Option Interval) : Bool :=
  rearm.isSome && decide (r.sched = .idle) && r.period.isNone

/-- The rearm, or the disposal test, of an accepted ACK (R104, R105). -/
def State.rearmOrDispose (s : State) (i : SlotIx) (rearm : Option Interval) : State :=
  if (s.record i).rearms rearm then
    (s.setDeadline i (BitVec.ofNat 56 (s.now + (rearm.getD 0).toNat))).enqueue i
  else s.dispose i

/-- The effects of an accepted ACK in their order (R104); for a DAMAGED record the blocked list is served
and then its FAULT notice raised (R106). -/
def State.acknowledge (s : State) (p : Port) (i : SlotIx) (rearm : Option Interval) : State :=
  let s1 := s.consume p i
  (if (s.record i).sched = .damaged then s1.serveBlocked.raiseFault i
    else (s1.rearmOrDispose i rearm).serveBlocked).settle

/-- ACK (R103, R104). It is not held by the interlock. -/
def execAck (p : Port) (s : State) : Host.Outcome State Fault Refusal :=
  s.applying p .ack fun pl =>
    match parseAck pl with
    | none => s.refuse p .format
    | some (h, rearm) => s.onRecord p h false false fun t r =>
        match (r.holderRefusal p).or (t.rearmRefusal rearm) with
        | some result => (t.settleSince s).refuse p result
        | none => (t.acknowledge p h.slot rearm).accept p [r.states, octet (r.rearms rearm).toNat]

/-! ### RELEASE (R107, R108, R120) -/

/-- The member a released pool entry goes to: the first accepting one other than the releasing port, else
the releasing port when it is a member and accepting (R120). -/
def State.releaseMember (s : State) (k : Pool) (p : Port) : Option Port :=
  (s.pools[k].find? fun q => decide (q ≠ p) && s.accepting q).or
    (s.pools[k].find? fun q => decide (q = p) && s.accepting q)

/-- A released pool entry is offered again (R120): behind held entries it joins them and the pool is
served. -/
def State.reoffer (s : State) (k : Pool) (p : Port) (e : Entry) : State :=
  if s.notices.holding[k] ≠ [] then (s.joinHolding k e).servePool k
  else
    match s.releaseMember k p with
    | none => s.joinHolding k e
    | some q => s.assign k q e

/-- The effect of an accepted RELEASE: the entry leaves the outstanding set and rejoins its port's queue
(R107) or is offered to its pool (R108), and the record is PENDING. The holding queues are served after a
pool entry's reassignment (R118, R120). -/
def State.giveBack (s : State) (p : Port) (i : SlotIx) : State :=
  match s.notices.outstanding[p].find? (·.names i) with
  | none => s
  | some e =>
    let s1 := (s.dropEntry (.outstanding p) e).setNotice i .pending none
    match e.destination with
    | .port q => (s1.joinQueue q e).driveLines
    | .pool k => (s1.reoffer k p e).settle

/-- RELEASE (R107). It is not held by the interlock. -/
def execRelease (p : Port) (s : State) : Host.Outcome State Fault Refusal :=
  s.applying p .release fun pl =>
    match parseHandleOnly pl with
    | none => s.refuse p .format
    | some h => s.onRecord p h true false fun t r =>
        match r.holderRefusal p with
        | some result => t.refuse p result
        | none => (t.giveBack p h.slot).accept p [r.states]

/-! ### ATTENTION-SET (R111) -/

/-- A port's attention threshold is written and its line re-evaluated (R111). -/
def State.setThreshold (s : State) (p : Port) (v : Fin 8) : State :=
  (s.withNotices { s.notices with
    thresholds := s.notices.thresholds.set p.val v p.isLt }).driveLine p

/-- ATTENTION-SET (R111). -/
def execAttentionSet (p : Port) (s : State) : Host.Outcome State Fault Refusal :=
  s.applying p .attentionSet fun pl =>
    match parseThreshold pl with
    | none => s.refuse p .format
    | some v => (s.setThreshold p v).accept p [octet s.notices.thresholds[p].val]

end Sys2Proof.Machine
end

