-- ==== Sys2Proof/Machine/Supervision.lean ====
section
/-! DEFINITION. Pools (R122), supervision (spec 11) and STATUS (R175). -/

namespace Sys2Proof.Machine

/-- POOL-SET (R122): the rotation order is replaced and the holding queues served. -/
def execPoolSet (p : Port) (s : State) : Host.Outcome State Fault Refusal :=
  s.applying p .poolSet fun pl =>
    match parsePoolSet pl with
    | none => s.refuse p .format
    | some (k, ports) => s.supervised p
        ((s.setPool k ports).settle.accept p
          (octet s.pools[k].length :: s.pools[k].map fun q => octet q.val))

/-- QUOTA-SET (R170). -/
def execQuotaSet (p : Port) (s : State) : Host.Outcome State Fault Refusal :=
  s.applying p .quotaSet fun pl =>
    match parseQuotaSet pl with
    | none => s.refuse p .format
    | some (q, v) => s.supervised p
        ((s.withPortTable { s.portTable with
          quota := s.portTable.quota.set q.val v q.isLt }).accept p (octetsOf 2 s.portTable.quota[q]))

/-- A port's notice limit is written; a raised one makes room, and the holding queues are served (R171). -/
def State.setLimit (s : State) (q : Port) (v : Nat) : State :=
  let s1 := s.withPortTable { s.portTable with limit := s.portTable.limit.set q.val v q.isLt }
  if s.portTable.limit[q] < v then s1.settle else s1

/-- PORT-LIMIT-SET (R171). -/
def execPortLimitSet (p : Port) (s : State) : Host.Outcome State Fault Refusal :=
  s.applying p .portLimitSet fun pl =>
    match parsePortLimitSet pl with
    | none => s.refuse p .format
    | some (q, v) => s.supervised p ((s.setLimit q v).accept p [octet s.portTable.limit[q]])

/-- A port's enabled state is written (R167). -/
def State.setEnabled (s : State) (q : Port) (b : Bool) : State :=
  s.withPortTable { s.portTable with enabled := s.portTable.enabled.set q.val b q.isLt }

/-- A port is disabled (R160): from UP it leaves UP with LINK-CLOSE, from RECOVERING its pending window
becomes absent, and its PORT sweep is queued or merged; a disabled port does not change. -/
def State.disable (s : State) (q : Port) : State :=
  match s.links[q].state with
  | .disabled => s
  | .up => ((s.setEnabled q false).leaveUp q .disabled []).form q linkCloseFrame
  | .recovering | .down =>
    ((s.setEnabled q false).modifyLink q fun l =>
      { l with state := .disabled, pendingWindow := none }).queuePortSweep q

/-- PORT-DISABLE (R172): STATE for the requesting port itself. -/
def execPortDisable (p : Port) (s : State) : Host.Outcome State Fault Refusal :=
  s.applying p .portDisable fun pl =>
    match parsePortOnly pl with
    | none => s.refuse p .format
    | some q => s.supervised p
        (if q = p then s.refuse p .state else (s.disable q).accept p [s.links[q].state.code])

/-- A DISABLED port becomes enabled and DOWN; any other port does not change (R160). -/
def State.enable (s : State) (q : Port) : State :=
  match s.links[q].state with
  | .disabled => (s.setEnabled q true).modifyLink q fun l => { l with state := .down }
  | .down => s
  | .recovering => s
  | .up => s

/-- PORT-ENABLE (R172). -/
def execPortEnable (p : Port) (s : State) : Host.Outcome State Fault Refusal :=
  s.applying p .portEnable fun pl =>
    match parsePortOnly pl with
    | none => s.refuse p .format
    | some q => s.supervised p ((s.enable q).accept p [s.links[q].state.code])

/-- HAND-OVER (R169): STATE when the named port is not UP. -/
def execHandOver (p : Port) (s : State) : Host.Outcome State Fault Refusal :=
  s.applying p .handOver fun pl =>
    match parsePortOnly pl with
    | none => s.refuse p .format
    | some q => s.supervised p
        (if s.isUp q then
          (s.withPortTable { s.portTable with supervisor := q }).accept p
            [octet s.portTable.supervisor.val]
        else s.refuse p .state)

/-- The sweep items of STATUS: kind, number and cursor, all 0 when no sweep is in progress (Table 12-6). -/
def SweepUnit.report (u : SweepUnit) : List Octet :=
  match u.current with
  | none => octetsOf 4 0
  | some run => [run.sweep.kind.code, run.sweep.number] ++ octetsOf 2 run.cursor

/-- The status report, 24 octets (R175, Table 11-1, Table 12-6). -/
def State.statusReport (s : State) (p : Port) : List Octet :=
  octetsOf 2 s.freeSlots ++ octetsOf 2 (s.ownedCount p) ++ octetsOf 2 s.portTable.quota[p]
    ++ [octet s.portTable.limit[p], octet s.freeGeneralCount]
    ++ octetsOf 2 s.notices.blocked.length ++ octetsOf 2 s.placement.queue.length
    ++ octetsOf 2 s.expiry.list.length ++ [s.expiry.listState.code] ++ s.sweeps.report
    ++ [s.timeBase.mode.code] ++ octetsOf 2 s.scrubber.corrections
    ++ [octet s.portTable.supervisor.val, 0]

/-- STATUS (R175). -/
def execStatus (p : Port) (s : State) : Host.Outcome State Fault Refusal :=
  s.applying p .status fun pl =>
    match parseNothing pl with
    | none => s.refuse p .format
    | some _ => s.accept p (s.statusReport p)

end Sys2Proof.Machine
end

