-- ==== Sys2Proof/Machine/TimeBase.lean ====
section
/-! DEFINITION. The time base (spec 02) and the scrubber's pacing (R140). -/

namespace Sys2Proof.Machine

/-- The start of a new tick interval: phase 0, and a pending prescaler takes effect (R22, R26, R32). -/
def TimeBase.newInterval (t : TimeBase) : TimeBase :=
  { t with phase := 0, prescaler := t.pendingPrescaler.getD t.prescaler, pendingPrescaler := none }

/-- The tick of a RUNNING time base: the time rises by one and a new interval begins (R22); at time max the
time base is EXHAUSTED in the same event (R23, log 10). -/
def TimeBase.advance (t : TimeBase) : TimeBase :=
  { t.newInterval with
    now := t.now + 1
    mode := if t.now.toNat + 1 = Config.timeMax then .exhausted else .running }

/-- A tick counted by the scrubber: at the interval the count returns to 0 and a visit is due (R140). -/
def Scrubber.countTick (c : Scrubber) : Scrubber :=
  if c.interval = 0 then c
  else if c.ticks + 1 < c.interval then { c with ticks := c.ticks + 1 }
  else { c with ticks := 0, visitsDue := c.visitsDue + 1 }

/-- The tick as one event: the time base advances and the scrubber counts it, while RUNNING (R22,
R140). -/
def State.tickEvent (s : State) : State :=
  if s.timeBase.mode = .running then
    (s.withTimeBase s.timeBase.advance).withScrubber s.scrubber.countTick
  else s

/-- One period of the reference clock at the time base: the phase rises by one, and the time base ticks
when it reaches the prescaler in force (R22). FROZEN and EXHAUSTED it changes nothing. -/
def State.clockTimeBase (s : State) : State :=
  if s.timeBase.mode = .running then
    if s.timeBase.phase + 1 < s.timeBase.prescaler then
      s.withTimeBase { s.timeBase with phase := s.timeBase.phase + 1 }
    else s.tickEvent
  else s

/-- TICK (R22): the tick interval in progress is completed and the time base ticks (log 3). -/
def execTick (s : State) : Host.Outcome State Fault Refusal := .next s.tickEvent

/-- The time and the time base state just before a request, as TIME-SET, TIME-RUN and TIME-FREEZE report
them (Table 12-4). -/
def TimeBase.prior (t : TimeBase) : List Octet := octetsOf 8 t.now.toNat ++ [t.mode.code]

/-- The body of TIME-READ (Table 12-4): a pending prescaler that is absent is sent as 0. -/
def TimeBase.report (t : TimeBase) : List Octet :=
  octetsOf 8 t.now.toNat ++ [t.mode.code] ++ octetsOf 2 t.prescaler
    ++ octetsOf 2 (t.pendingPrescaler.getD 0)

/-- TIME-READ (R25). -/
def execTimeRead (p : Port) (s : State) : Host.Outcome State Fault Refusal :=
  s.applying p .timeRead fun pl =>
    match parseNothing pl with
    | none => s.refuse p .format
    | some _ => s.accept p s.timeBase.report

/-- The time base after a TIME-SET (R26, Table 2-2). -/
def TimeBase.set (t : TimeBase) (v : Tick) : TimeBase :=
  { t.newInterval with
    now := v
    mode := if t.mode = .frozen then .frozen
      else if v.toNat = Config.timeMax then .exhausted else .running }

/-- TIME-SET (R26). -/
def execTimeSet (p : Port) (s : State) : Host.Outcome State Fault Refusal :=
  s.applying p .timeSet fun pl =>
    match parseTimeSet pl with
    | none => s.refuse p .format
    | some v => s.supervised p ((s.withTimeBase (s.timeBase.set v)).accept p s.timeBase.prior)

/-- The time base after a TIME-RUN (R30, Table 2-2). -/
def TimeBase.run (t : TimeBase) : TimeBase :=
  if t.mode = .frozen then
    if t.now.toNat = Config.timeMax then { t with mode := .exhausted, phase := 0 }
    else { t with mode := .running }
  else t

/-- TIME-RUN (R30). -/
def execTimeRun (p : Port) (s : State) : Host.Outcome State Fault Refusal :=
  s.applying p .timeRun fun pl =>
    match parseNothing pl with
    | none => s.refuse p .format
    | some _ => s.supervised p ((s.withTimeBase s.timeBase.run).accept p s.timeBase.prior)

/-- The time base after a TIME-FREEZE (R31, Table 2-2). -/
def TimeBase.freeze (t : TimeBase) : TimeBase :=
  match t.mode with
  | .running => { t with mode := .frozen }
  | .exhausted => { t with mode := .frozen, phase := 0 }
  | .frozen => t

/-- TIME-FREEZE (R31). -/
def execTimeFreeze (p : Port) (s : State) : Host.Outcome State Fault Refusal :=
  s.applying p .timeFreeze fun pl =>
    match parseNothing pl with
    | none => s.refuse p .format
    | some _ => s.supervised p ((s.withTimeBase s.timeBase.freeze).accept p s.timeBase.prior)

/-- PRESCALE (R32): the value becomes the pending prescaler. -/
def execPrescale (p : Port) (s : State) : Host.Outcome State Fault Refusal :=
  s.applying p .prescale fun pl =>
    match parsePrescale pl with
    | none => s.refuse p .format
    | some v => s.supervised p
        ((s.withTimeBase { s.timeBase with pendingPrescaler := some v }).accept p
          (octetsOf 2 s.timeBase.prescaler))

/-- SCRUB-SET (R141): the interval is written and the tick count set to 0; the cursor keeps its value. -/
def execScrubSet (p : Port) (s : State) : Host.Outcome State Fault Refusal :=
  s.applying p .scrubSet fun pl =>
    match parseScrubSet pl with
    | none => s.refuse p .format
    | some v => s.supervised p
        ((s.withScrubber { s.scrubber with interval := v, ticks := 0 }).accept p
          (octetsOf 2 s.scrubber.interval))

end Sys2Proof.Machine
end

