-- ==== Sys2Proof/Machine/Dispatch.lean ====
section
/-! DEFINITION. One arm per command, each a direct call of its meaning. -/

namespace Sys2Proof.Machine

def exec (i : Instr) (s : State) : Host.Outcome State Fault Refusal :=
  match i with
  | .deviceReset => Sys2Proof.Machine.execDeviceReset s
  | .tick => Sys2Proof.Machine.execTick s
  | .scrubVisit => Sys2Proof.Machine.execScrubVisit s
  | .listFault finder => Sys2Proof.Machine.execListFault finder s
  | .placementTake => Sys2Proof.Machine.execPlacementTake s
  | .placementEnd => Sys2Proof.Machine.execPlacementEnd s
  | .firing => Sys2Proof.Machine.execFiring s
  | .companionFiring => Sys2Proof.Machine.execCompanionFiring s
  | .markedHeadRemoval => Sys2Proof.Machine.execMarkedHeadRemoval s
  | .sweepStart => Sys2Proof.Machine.execSweepStart s
  | .sweepVisit => Sys2Proof.Machine.execSweepVisit s
  | .tagSweepEnd => Sys2Proof.Machine.execTagSweepEnd s
  | .portSweepEnd => Sys2Proof.Machine.execPortSweepEnd s
  | .totalSweepEnd => Sys2Proof.Machine.execTotalSweepEnd s
  | .frameCutOff p => Sys2Proof.Machine.execFrameCutOff p s
  | .badFrame p os => Sys2Proof.Machine.execBadFrame p os s
  | .linkOpen p os => Sys2Proof.Machine.execLinkOpen p os s
  | .linkClose p os => Sys2Proof.Machine.execLinkClose p os s
  | .requestFrame p os => Sys2Proof.Machine.execRequestFrame p os s
  | .frameSent p => Sys2Proof.Machine.execFrameSent p s
  | .openRecord p => Sys2Proof.Machine.execOpen p s
  | .closeRecord p => Sys2Proof.Machine.execClose p s
  | .readRecord p => Sys2Proof.Machine.execRead p s
  | .setRecord p => Sys2Proof.Machine.execSet p s
  | .arm p => Sys2Proof.Machine.execArm p s
  | .cancel p => Sys2Proof.Machine.execCancel p s
  | .pause p => Sys2Proof.Machine.execPause p s
  | .resume p => Sys2Proof.Machine.execResume p s
  | .take p => Sys2Proof.Machine.execTake p s
  | .ack p => Sys2Proof.Machine.execAck p s
  | .release p => Sys2Proof.Machine.execRelease p s
  | .attentionSet p => Sys2Proof.Machine.execAttentionSet p s
  | .poolSet p => Sys2Proof.Machine.execPoolSet p s
  | .retireTag p => Sys2Proof.Machine.execRetireTag p s
  | .clearAll p => Sys2Proof.Machine.execClearAll p s
  | .timeRead p => Sys2Proof.Machine.execTimeRead p s
  | .timeSet p => Sys2Proof.Machine.execTimeSet p s
  | .timeRun p => Sys2Proof.Machine.execTimeRun p s
  | .timeFreeze p => Sys2Proof.Machine.execTimeFreeze p s
  | .prescale p => Sys2Proof.Machine.execPrescale p s
  | .scrubSet p => Sys2Proof.Machine.execScrubSet p s
  | .quotaSet p => Sys2Proof.Machine.execQuotaSet p s
  | .portLimitSet p => Sys2Proof.Machine.execPortLimitSet p s
  | .portDisable p => Sys2Proof.Machine.execPortDisable p s
  | .portEnable p => Sys2Proof.Machine.execPortEnable p s
  | .handOver p => Sys2Proof.Machine.execHandOver p s
  | .forceClose p => Sys2Proof.Machine.execForceClose p s
  | .status p => Sys2Proof.Machine.execStatus p s
  | .echo p => Sys2Proof.Machine.execEcho p s
  | .frameStart p bits => Sys2Proof.Machine.execFrameStart p bits s
  | .unknownRequestCode p => Sys2Proof.Machine.execUnknownRequestCode p s

end Sys2Proof.Machine
end

