-- ==== Sys2Proof/Machine/Clock.lean ====
section
/-! DEFINITION. One period of the reference clock: a storage error may strike (log 5), the time base counts
(R22) and each port with a begun frame counts the periods without a bit (R152). -/

namespace Sys2Proof.Machine

/-- The condition of a part after an error: never better than before (log 5). -/
def Check.worsen : Check → Check → Check
  | .uncorrectable, _ => .uncorrectable
  | .correctable, .uncorrectable => .uncorrectable
  | .correctable, _ => .correctable
  | .passing, found => found

/-- A storage error strikes (spec 09, CHECKED STORAGE; log 5). That the tail of the list, or its sole member, has a
link to strike too is the model's choice (log 34). -/
def State.strike (s : State) : Upset → State
  | .identityCopy i true found => s.modify i fun r => { r with copyA := r.copyA.worsen found }
  | .identityCopy i false found => s.modify i fun r => { r with copyB := r.copyB.worsen found }
  | .timing i found => s.modify i fun r => { r with timingCheck := r.timingCheck.worsen found }
  | .link i =>
    { s with expiry := { s.expiry with
        list := s.expiry.list.map fun m => if m.slot = i then { m with linkHolds := false } else m } }

/-- The next storage error of the input, if any, strikes (log 5). -/
def State.takeUpset (s : State) : State :=
  match s.upsets with
  | [] => s
  | u :: rest => ({ s with upsets := rest } : State).strike u

/-- One period of the reference clock at a port that has begun a frame: at 65,536 without a bit the frame is
cut off (R152). -/
def State.clockPort (s : State) (p : Port) : State :=
  match s.links[p].receiver with
  | .searching _ => s
  | .receiving bits quiet =>
    if (takeFrame bits).isSome then s
    else if quiet + 1 < Config.cutOffPeriods then s.setReceiver p (.receiving bits (quiet + 1))
    else s.cutOff p

/-- One period of the reference clock (log 2): a storage error, then the time base, then the ports 0 to 3; that order
is the model's choice (log 2). -/
def State.clockPeriod (s : State) : State := allPorts.foldl State.clockPort s.takeUpset.clockTimeBase

end Sys2Proof.Machine
end

