-- ==== Sys2Proof/Machine/Step.lean ====
section
/-! DEFINITION. One step: the command at the front of the queue, or a reference clock period when none
waits (log 2). -/

namespace Sys2Proof.Machine

/-- The command at the front of the queue is run on the state with the queue's rest; on an empty queue one
period of the reference clock passes. -/
def step (s : State) : Host.Outcome State Fault Refusal :=
  match s.pending with
  | [] => .next s.clockPeriod
  | c :: rest => exec c { s with pending := rest }

/-- The command that a word spells is put at the front of the queue; no word spells one (log 24). -/
def State.withFetchWord (s : State) (nbits w : Nat) : State :=
  match decodeTableWord nbits w with
  | none => s
  | some c => { s with pending := c :: s.pending }

end Sys2Proof.Machine
end

