-- ==== Sys2Proof/Safety.lean ====
section
/-! DEFINITION. What a state of the block must be like, whatever events reach it, and the words the
statements use: a request that is about to be applied, and a slot that reads well. -/

namespace Sys2Proof.Machine

/-! ### Invariants of the block -/

/-- The record table is in its canonical form: slots strictly rising, no blank cell, and the slots that are
not FREE and the slots counted toward each port strictly rising too (log 9). -/
abbrev RecordTable.wf (t : RecordTable) : Prop :=
  t.cells.Pairwise (fun c d => c.1 < d.1) ∧ (∀ c ∈ t.cells, c.2 ≠ Record.blank)
    ∧ t.occupied.Pairwise (· < ·) ∧ ∀ p : Port, t.owned[p].Pairwise (· < ·)

/-- The ranges of the time base: the prescaler and a pending one are 1 to 4096, the phase is below the
prescaler in force (spec 02), RUNNING means below time max, and EXHAUSTED means at time max with phase 0
(R23). -/
abbrev TimeBase.Sound (t : TimeBase) : Prop :=
  t.phase < t.prescaler ∧ t.prescaler ≤ 4096
    ∧ (∀ v ∈ t.pendingPrescaler, 1 ≤ v ∧ v ≤ 4096)
    ∧ (t.mode = .running → t.now.toNat < Config.timeMax)
    ∧ (t.mode = .exhausted → t.now.toNat = Config.timeMax ∧ t.phase = 0)

/-- A port is enabled exactly when its link is not DISABLED (R167), and the supervisor port's link is not
DISABLED (R168). -/
abbrev State.PortsAgree (s : State) : Prop :=
  (∀ p : Port, s.portTable.enabled[p] = true ↔ s.links[p].state ≠ .disabled)
    ∧ s.links[s.portTable.supervisor].state ≠ .disabled

/-- A port's own items: out of UP it has no requests, no reply history and no run of bad frames (R159);
a pending window is present exactly in RECOVERING (R157); the window is 1 to 4 and is not overrun (R161);
the history keeps four at most (R163); the run is below 8 (R154); the eight other places are not overrun
(R155). -/
abbrev Link.Sound (l : Link) : Prop :=
  (l.state ≠ .up → l.requests = [] ∧ l.history = [] ∧ l.badRun = 0)
    ∧ (l.pendingWindow.isSome = true ↔ l.state = .recovering)
    ∧ (∀ w ∈ l.pendingWindow, 1 ≤ w ∧ w ≤ 4)
    ∧ (1 ≤ l.window ∧ l.window ≤ 4)
    ∧ l.requests.length ≤ l.window
    ∧ l.history.length ≤ Config.historySize
    ∧ l.badRun < Config.badRunLimit
    ∧ (l.transmit.filter fun o => decide (o.place = .other)).length ≤ Config.otherPlaces

/-- Every port's own items are in order. -/
abbrev State.LinksSound (s : State) : Prop := ∀ p : Port, s.links[p].Sound

/-- The slots of the deadline list, head first. -/
abbrev State.listOrder (s : State) : List SlotIx := s.expiry.list.map Member.slot

/-- The placement queue holds the QUEUED records, each once (R53, R54, R56), its rebuild part is a front part of it
(R53), and a PLACING record is the one that the placement unit carries (R57). -/
abbrev State.QueueTied (s : State) : Prop :=
  s.placement.queue.Nodup ∧ (∀ i, i ∈ s.placement.queue ↔ (s.record i).sched = .queued)
    ∧ s.placement.rebuildPart ≤ s.placement.queue.length
    ∧ ∀ i, (s.record i).sched = .placing →
      ∃ c, s.placement.carried = some c ∧ c.slot = i ∧ c.generation = (s.record i).generation

/-- The deadline list holds the ARMED records, each once, with no deadline below that of a member ahead of it
(R66, R67); in list state FAILED it is empty and a carried record is overtaken (R61, R150); and a companion search
has members of the list left to consider, and has fired fewer than 8 (R82). -/
abbrev State.ListTied (s : State) : Prop :=
  s.listOrder.Nodup ∧ (∀ i, i ∈ s.listOrder ↔ (s.record i).sched = .armed)
    ∧ s.listOrder.Pairwise (fun i j => (s.record i).due ≤ (s.record j).due)
    ∧ (s.expiry.listState = .failed →
        s.expiry.list = [] ∧ ∀ c, s.placement.carried = some c → c.overtaken = true)
    ∧ ∀ f, s.expiry.firing = some f →
        f.window ≠ [] ∧ f.window.Nodup ∧ (∀ i ∈ f.window, i ∈ s.listOrder) ∧ f.companions < 8

/-- The set of FREE slots and the owned counts follow the records, and a FREE slot has no owner and no mark (R2, R6,
R15, R139). -/
abbrev State.SlotsTied (s : State) : Prop :=
  (∀ i, i ∈ s.table.occupied ↔ (s.record i).sched ≠ .free)
    ∧ (∀ (p : Port) i, i ∈ s.table.owned[p] ↔ (s.record i).owner = some p)
    ∧ ∀ i, (s.record i).sched = .free → (s.record i).owner = none ∧ (s.record i).mark = none

/-- The notice store and the blocked list follow the records (R91, R93, R95): a WAITING record, and no other, has
its one place on the blocked list; a PENDING record, and no other, is named by an entry in a queue or a holding
queue; an OUTSTANDING record, and no other, has a holder and is named by an entry in that port's outstanding set.
No record is named by two entries and no number is given to two (R90); a SWEEP-DONE entry, and no other, names no
record; an outstanding set holds EXPIRY entries alone (R100); a FAULT entry names a DAMAGED record and its fault
part, and a DAMAGED record has no EXPIRY entry in a queue or a holding queue (R144 to R146); a FREE slot has no
notice. -/
abbrev State.NoticesTied (s : State) : Prop :=
  (s.notices.blocked.map BlockedPlace.slot).Nodup
    ∧ (∀ i, i ∈ s.notices.blocked.map BlockedPlace.slot ↔ (s.record i).notice = .waiting)
    ∧ (s.entries.map Entry.number).Nodup ∧ (s.entries.filterMap Entry.slot).Nodup
    ∧ (∀ i, (s.record i).notice = .pending ↔
        (∃ p : Port, ∃ e ∈ s.notices.queues[p], e.slot = some i)
          ∨ ∃ k : Pool, ∃ e ∈ s.notices.holding[k], e.slot = some i)
    ∧ (∀ i (p : Port), (∃ e ∈ s.notices.outstanding[p], e.slot = some i) ↔
        (s.record i).notice = .outstanding ∧ (s.record i).holder = some p)
    ∧ (∀ i, (s.record i).notice = .outstanding ↔ (s.record i).holder ≠ none)
    ∧ (∀ e ∈ s.entries, e.slot = none ↔ e.kind = .sweepDone)
    ∧ (∀ p : Port, ∀ e ∈ s.notices.outstanding[p], e.kind = .expiry)
    ∧ (∀ e ∈ s.entries, ∀ i, e.kind = .fault → e.slot = some i →
        (s.record i).sched = .damaged ∧ e.faultPart = (s.record i).fault)
    ∧ (∀ i, (s.record i).sched = .damaged →
        (∀ p : Port, ∀ e ∈ s.notices.queues[p], e.slot = some i → e.kind = .fault)
          ∧ ∀ k : Pool, ∀ e ∈ s.notices.holding[k], e.slot = some i → e.kind = .fault)
    ∧ ∀ i, (s.record i).sched = .free → (s.record i).notice = .clear

/-- An entry with a port as destination lies with that port, a port that is not UP has no entries (R94, R112), and
every attention line is asserted exactly while its port's queue holds a deliverable entry at or above the
threshold (R110). -/
abbrev State.LinesTied (s : State) : Prop :=
  (∀ p : Port, ∀ e ∈ s.notices.queues[p] ++ s.notices.outstanding[p],
      s.links[p].state = .up ∧ ∀ q, e.destination = .port q → q = p)
    ∧ (∀ k : Pool, ∀ e ∈ s.notices.holding[k], e.destination = .pool k)
    ∧ ∀ p : Port, s.links[p].attention = true ↔
        ∃ e ∈ s.notices.queues[p], s.marked e = false ∧ s.notices.thresholds[p] ≤ e.urgency

/-! ### Words of the statements -/

/-- The next request of port `p` waits to be applied and has this payload (R162, R164). -/
def State.Asks (s : State) (p : Port) (payload : List Octet) : Prop :=
  ∃ q, s.nextRequest p = some q ∧ q.condition = .waiting ∧ q.payload = payload

/-- Every part of the slot passes its check (Table 9-1, first row). -/
abbrev Record.ChecksPass (r : Record) : Prop :=
  r.copyA = .passing ∧ r.copyB = .passing ∧ r.timingCheck = .passing

/-- The request row of the table that a command is, with its port. -/
def requestRow : Instr → Option (Port × RequestCode)
  | .openRecord p => some (p, .openRecord)
  | .closeRecord p => some (p, .closeRecord)
  | .readRecord p => some (p, .readRecord)
  | .setRecord p => some (p, .setRecord)
  | .arm p => some (p, .arm)
  | .cancel p => some (p, .cancel)
  | .pause p => some (p, .pause)
  | .resume p => some (p, .resume)
  | .take p => some (p, .take)
  | .ack p => some (p, .ack)
  | .release p => some (p, .release)
  | .attentionSet p => some (p, .attentionSet)
  | .poolSet p => some (p, .poolSet)
  | .retireTag p => some (p, .retireTag)
  | .clearAll p => some (p, .clearAll)
  | .timeRead p => some (p, .timeRead)
  | .timeSet p => some (p, .timeSet)
  | .timeRun p => some (p, .timeRun)
  | .timeFreeze p => some (p, .timeFreeze)
  | .prescale p => some (p, .prescale)
  | .scrubSet p => some (p, .scrubSet)
  | .quotaSet p => some (p, .quotaSet)
  | .portLimitSet p => some (p, .portLimitSet)
  | .portDisable p => some (p, .portDisable)
  | .portEnable p => some (p, .portEnable)
  | .handOver p => some (p, .handOver)
  | .forceClose p => some (p, .forceClose)
  | .status p => some (p, .status)
  | .echo p => some (p, .echo)
  | _ => none

/-- The payload has the length and the field values that Table 12-4 gives for the request (R178). -/
def RequestCode.formatHolds (c : RequestCode) (pl : List Octet) : Bool :=
  match c with
  | .openRecord => (parseOpen pl).isSome
  | .setRecord => (parseSet pl).isSome
  | .arm => (parseArm pl).isSome
  | .cancel => (parseCancel pl).isSome
  | .take => (parseTake pl).isSome
  | .ack => (parseAck pl).isSome
  | .attentionSet => (parseThreshold pl).isSome
  | .poolSet => (parsePoolSet pl).isSome
  | .retireTag => (parseRetireTag pl).isSome
  | .timeSet => (parseTimeSet pl).isSome
  | .prescale => (parsePrescale pl).isSome
  | .scrubSet => (parseScrubSet pl).isSome
  | .quotaSet => (parseQuotaSet pl).isSome
  | .portLimitSet => (parsePortLimitSet pl).isSome
  | .portDisable | .portEnable | .handOver => (parsePortOnly pl).isSome
  | .clearAll | .timeRead | .timeRun | .timeFreeze | .status => (parseNothing pl).isSome
  | .closeRecord | .readRecord | .pause | .resume | .release | .forceClose =>
    (parseHandleOnly pl).isSome
  | .echo => (parseEcho pl).isSome

/-- The requests that need the supervisor right whatever they name (R168). -/
def RequestCode.needsRight : RequestCode → Bool
  | .timeSet | .timeRun | .timeFreeze | .prescale | .scrubSet | .poolSet | .clearAll => true
  | .quotaSet | .portLimitSet | .portDisable | .portEnable | .handOver | .forceClose => true
  | _ => false

/-- The requests that the placement interlock holds (R63). -/
def RequestCode.interlocked : RequestCode → Bool
  | .arm | .cancel | .pause | .resume | .setRecord | .closeRecord => true
  | _ => false

/-- The requests that name a record by handle and are refused with RETIRING when it is marked (R131). -/
def RequestCode.changesRecord : RequestCode → Bool
  | .setRecord | .closeRecord | .arm | .cancel | .pause | .resume | .ack | .release | .forceClose => true
  | _ => false

/-- The record that a payload of six interlocked kinds names is PLACING, as the read of its slot finds it (R63,
R2). -/
def State.interlockHolds (s : State) (pl : List Octet) : Bool :=
  match (namedSlotField pl).bind slotOf with
  | none => false
  | some i => decide (((s.checkedRead i).record i).sched = .placing)

/-- The placement interlock lets a request of this kind through (R63). -/
abbrev State.LetsThrough (s : State) (c : RequestCode) (pl : List Octet) : Prop :=
  (c.interlocked && s.interlockHolds pl) = false

/-- The requests that name a record and are refused with DAMAGED when it is DAMAGED (Tables 1-4, 3-2, 6-4). -/
def RequestCode.checksDamage : RequestCode → Bool
  | .setRecord | .arm | .cancel | .pause | .resume | .release => true
  | _ => false

/-- The requests that name a record and are refused with NOT-OWNER on another port's record (Tables 1-4,
3-2). -/
def RequestCode.checksOwner : RequestCode → Bool
  | .setRecord | .closeRecord | .arm | .cancel | .pause | .resume => true
  | _ => false

/-- The next request of port `p` has been answered in `t` with this result and body, in the event that found
it in `s`; no other port's link differs but for its attention line (R164). -/
def State.Answered (s t : State) (p : Port) (result : Result) (body : List Octet) : Prop :=
  ∃ q, s.nextRequest p = some q
    ∧ t.links[p] = { s.links[p].answer q (result.code :: body) with attention := t.links[p].attention }
    ∧ ∀ r : Port, r ≠ p → t.links[r] = { s.links[r] with attention := t.links[r].attention }

/-- The requesting port may change the record its handle names: the handle is not stale, the record carries
no mark and is not DAMAGED, and the port owns it (Table 10-5, checks 3 to 6). -/
abbrev Record.OpenTo (r : Record) (p : Port) (h : Handle) : Prop :=
  r.sched ≠ .free ∧ r.sched ≠ .damaged ∧ r.generation = h.generation ∧ r.mark = none ∧ r.owner = some p

/-- Every record but the one in slot `i` is the same in both states. -/
abbrev State.SameBut (s t : State) (i : SlotIx) : Prop := ∀ j, j ≠ i → t.record j = s.record j

/-- Every record but those on the blocked list of `s`, and the one in slot `i`, is the same in `t`: a general
entry that an event frees serves the blocked list (R96), which reads and changes the records on it. -/
abbrev State.SameUnblocked (s t : State) (i : SlotIx) : Prop :=
  ∀ j, j ≠ i → (∀ b ∈ s.notices.blocked, b.slot ≠ j) → t.record j = s.record j

/-- An entry apart from the port it is assigned to. -/
def Entry.unassigned (e : Entry) : Entry := { e with assigned := none }

/-- The notice store holds these entries, in whatever collections and assigned to whatever ports. -/
def State.HasEntries (s : State) (l : List Entry) : Prop :=
  (s.entries.map Entry.unassigned).Perm (l.map Entry.unassigned)

/-- No record but the one in slot `i` is on the blocked list, so that an entry freed by an event on slot `i`
serves no other record (R96). -/
abbrev State.NoOtherBlocked (s : State) (i : SlotIx) : Prop := ∀ b ∈ s.notices.blocked, b.slot = i

/-- What an event at the records or the notices leaves alone: the time base, the sweep unit and the port
table. -/
abbrev State.Apart (s t : State) : Prop :=
  t.timeBase = s.timeBase ∧ t.sweeps = s.sweeps ∧ t.portTable = s.portTable

/-- The rebuild part and the list state after the record in slot `i` has left the placement queue, if it was QUEUED:
the part shrinks when the record was in it, and when it is then empty with no rebuild member carried a REBUILDING
list becomes NORMAL with restart count 0; otherwise they stand (R55, R56, R149). -/
abbrev State.RebuildFollows (s t : State) (i : SlotIx) : Prop :=
  t.placement.rebuildPart = (if (s.record i).sched = .queued
      ∧ i ∈ s.placement.queue.take s.placement.rebuildPart then s.placement.rebuildPart - 1
      else s.placement.rebuildPart)
  ∧ ((s.record i).sched = .queued → s.expiry.listState = .rebuilding → t.placement.rebuildPart = 0 →
      (∀ c, s.placement.carried = some c → c.rebuildMember = false) →
      t.expiry.listState = .normal ∧ t.expiry.restarts = 0)
  ∧ ((s.record i).sched ≠ .queued ∨ s.expiry.listState ≠ .rebuilding ∨ t.placement.rebuildPart ≠ 0
      ∨ (∃ c, s.placement.carried = some c ∧ c.rebuildMember = true) →
      t.expiry.listState = s.expiry.listState ∧ t.expiry.restarts = s.expiry.restarts)

/-- The holding queues have been served: no pool holds an entry that may be assigned while a member is accepting
(R118). -/
abbrev State.PoolsServed (s : State) : Prop :=
  ∀ (k : Pool), ∀ e ∈ s.notices.holding[k], s.marked e = false → ∀ q ∈ s.pools[k], s.accepting q = false

end Sys2Proof.Machine
end

