-- ==== Sys2Proof/Certificates/Slice0/Obligations.lean ====
section
/-! DEFINITION. The statements about the block, for the provers. A statement names the rules it rests on;
where it also rests on a choice of the model, it names the log entry. -/

open Sys2Proof Sys2Proof.Machine

/-! ### Steps and invariants -/

/-- A step runs the command at the front of the queue on the state with the queue's rest (log 24). -/
def Obligations.StepRunsFront : Prop :=
  ∀ (c : Instr) (rest : List Instr) (s : State),
    step { s with pending := c :: rest } = exec c { s with pending := rest }

/-- On an empty queue a step is one period of the reference clock (log 2): a storage error of the input strikes (log 5), then
the time base counts, then the ports in ascending order. FROZEN or EXHAUSTED the period changes nothing at the time
base; RUNNING it raises the tick phase, and when that reaches the prescaler in force the time base ticks: the time
rises by one, the phase returns to 0, a pending prescaler comes into force, and at time max the time base is EXHAUSTED
(R22, R23, R32; the prescaler at that last tick is log 10). The tick of the clock is that of the row TICK, the
scrubber's count of it among the rest (R140), and without a tick the scrubber's items stand still. With no storage error
to strike and no frame begun nothing else happens. At each port a begun frame that gets no bit counts the period, and at
65,536 it is cut off and the port searches again (R152); a port that searches, or whose frame has ended, counts
nothing. A frame that is cut off alone is cut off as FRAME_CUT_OFF does. A storage error changes no time base, no
scrubber and no port. -/
def Obligations.IdleStepIsClockPeriod : Prop :=
  ∀ (s w : State) (ticks : Prop), s.pending = [] → w = s.takeUpset →
    (ticks ↔ s.timeBase.mode = .running ∧ s.timeBase.prescaler ≤ s.timeBase.phase + 1) →
    (s.upsets = [] → w = s)
    ∧ (∀ e rest, s.upsets = e :: rest → w = State.strike { s with upsets := rest } e)
    ∧ (w.timeBase = s.timeBase ∧ w.scrubber = s.scrubber ∧ w.links = s.links)
    ∧ ∃ u t : State, step s = .next t
      ∧ (ticks → exec .tick w = .next u)
      ∧ (¬ ticks → u = { w with timeBase := u.timeBase })
      ∧ t = [(0 : Port), 1, 2, 3].foldl State.clockPort u
      ∧ t.timeBase = u.timeBase
      ∧ (s.timeBase.mode ≠ .running → t.timeBase = s.timeBase)
      ∧ (s.timeBase.mode = .running → s.timeBase.phase + 1 < s.timeBase.prescaler →
          t.timeBase = { s.timeBase with phase := s.timeBase.phase + 1 })
      ∧ (ticks → t.timeBase =
          { now := s.timeBase.now + 1
            mode := if s.timeBase.now.toNat + 1 = Config.timeMax then .exhausted else .running
            prescaler := match s.timeBase.pendingPrescaler with | none => s.timeBase.prescaler | some v => v
            pendingPrescaler := none
            phase := 0 })
      ∧ ((∀ p : Port, ∃ v, s.links[p].receiver = .searching v) → t = u
          ∧ (s.upsets = [] → ¬ ticks → t = { s with timeBase := t.timeBase } ∧ t.scrubber = s.scrubber)
          ∧ (s.upsets = [] → ticks → exec .tick s = .next t))
      ∧ (∀ (p : Port) (v : List Bool), s.links[p].receiver = .searching v → t.links[p].receiver = .searching v)
      ∧ ∀ (p : Port) (bits : List Bool) (quiet : Nat), s.links[p].receiver = .receiving bits quiet →
          (takeFrame bits ≠ none → t.links[p].receiver = .receiving bits quiet)
          ∧ (takeFrame bits = none → quiet + 1 < 65536 → t.links[p].receiver = .receiving bits (quiet + 1))
          ∧ (takeFrame bits = none → 65536 ≤ quiet + 1 → t.links[p].receiver = .searching []
              ∧ ((∀ q : Port, q ≠ p → ∃ v, s.links[q].receiver = .searching v) →
                exec (.frameCutOff p) u = .next t))

/-- Every command answers a next state: no event of the spec stops the block. A row whose event does not take place
in a state answers that state (log 4), DEVICE_RESET keeps the queue of commands (log 23), and the queue itself, which
none but the sender changes, is the model's (log 24). -/
def Obligations.EveryCommandCompletes : Prop :=
  ∀ (c : Instr) (s : State), ∃ t, exec c s = .next t ∧ t.pending = s.pending

/-- Every step keeps the record table's canonical form (log 9). And it keeps the blocks' collections tied to the
records: the placement queue holds the QUEUED records, each once, with the rebuild part in front (R53, R54, R56,
R57); the deadline list holds the ARMED records in deadline order (R66, R67) and is empty in FAILED (R61, R150), and
a companion search has members of it left to consider (R82); and the set of FREE slots and the owned counts are
those of the records (R6, R139). -/
def Obligations.TableStaysCanonical : Prop :=
  (∀ s t : State, s.table.wf → step s = .next t → t.table.wf)
  ∧ ∀ s t : State, s.table.wf → s.QueueTied → s.ListTied → s.SlotsTied → step s = .next t →
      t.QueueTied ∧ t.ListTied ∧ t.SlotsTied

/-- Every step keeps the ranges of the time base (R21 to R23, R32). -/
def Obligations.TimeBaseStaysInRange : Prop :=
  ∀ s t : State, s.timeBase.Sound → step s = .next t → t.timeBase.Sound

/-- Every step keeps a port's enabled state and its link state in agreement, and the supervisor port's link
out of DISABLED (R167, R172). -/
def Obligations.PortsStayInAgreement : Prop :=
  ∀ s t : State, s.PortsAgree → step s = .next t → t.PortsAgree

/-- Every step keeps each port's items in their ranges (R154, R155, R157, R159, R161, R163). And in a state whose
slots follow the records it keeps the notice store and the blocked list tied to the records (R90, R91, R93, R95), each
entry with a port that is UP and is its destination (R94, R112), and every attention line equal to its condition
(R110). -/
def Obligations.LinksStayInRange : Prop :=
  (∀ s t : State, s.LinksSound → step s = .next t → t.LinksSound)
  ∧ ∀ s t : State, s.table.wf → s.QueueTied → s.ListTied → s.SlotsTied → s.NoticesTied → s.LinesTied →
      step s = .next t → t.NoticesTied ∧ t.LinesTied

/-- The state after device reset meets every invariant. -/
def Obligations.ResetMeetsInvariants : Prop :=
  State.reset.table.wf ∧ State.reset.timeBase.Sound ∧ State.reset.PortsAgree ∧ State.reset.LinksSound
    ∧ State.reset.QueueTied ∧ State.reset.ListTied ∧ State.reset.SlotsTied ∧ State.reset.NoticesTied
    ∧ State.reset.LinesTied

/-- DEVICE_RESET puts every block at its reset values, whatever the state before: the time base (R21), the
record table (R1), placement (R53), the list (R66, R69), the notice unit (R90), the pools (R114), the sweep
unit (R124), the scrubber (R138, R140), the port table (R167) and every port (R151). The commands that wait,
the storage errors still to strike and the count of free values are not the block's (log 23). -/
def Obligations.DeviceResetClearsEverything : Prop :=
  ∀ s : State, ∃ t, exec .deviceReset s = .next t
    ∧ t.timeBase = { now := 0, mode := .frozen, prescaler := 1, pendingPrescaler := none, phase := 0 }
    ∧ (∀ i, t.record i = Record.blank) ∧ t.freeSlots = 1024 ∧ (∀ p, t.ownedCount p = 0)
    ∧ t.placement = { queue := [], rebuildPart := 0, carried := none }
    ∧ t.expiry = { list := [], listState := .normal, restarts := 0, firing := none }
    ∧ t.entries = [] ∧ t.notices.blocked = [] ∧ t.notices.stamp = 0
    ∧ (∀ p : Port, t.notices.thresholds[p] = 0) ∧ (∀ k : Pool, t.pools[k] = [])
    ∧ t.sweeps = { places := [], total := none, current := none, nextNumber := 1 }
    ∧ t.scrubber = { interval := 0, ticks := 0, cursor := 0, corrections := 0, visitsDue := 0 }
    ∧ t.portTable.supervisor = 0
    ∧ (∀ p : Port, t.portTable.quota[p] = 256 ∧ t.portTable.limit[p] = 64 ∧ t.portTable.enabled[p] = true)
    ∧ (∀ p : Port, t.links[p] =
        { state := .down, expected := 0, window := 1, pendingWindow := none, requests := [], history := [],
          badRun := 0, transmit := [], receiver := .searching [], attention := false })
    ∧ t.pending = s.pending ∧ t.upsets = s.upsets ∧ t.freeValues = s.freeValues

/-! ### Frames -/

/-- What the controller's envelope writes, its receiver reads: after the octets of a good REQUEST, LINK-OPEN
or LINK-CLOSE frame the judgement is that frame, with its sequence number, payload or window, and the bits
behind it are left (R152, R153, R176); and the start octet is found in the bits that lead up to it. -/
def Obligations.FramesReadBack : Prop :=
  (∀ (seq : SeqNumber) (payload : List Octet) (rest : List Bool), payload.length ≤ 250 →
      takeFrame (bitsOfOctets (Frame.afterStart ⟨.request, seq, payload⟩) ++ rest)
        = some (.request seq payload, rest))
    ∧ (∀ (seq : SeqNumber) (w : Octet) (rest : List Bool), 1 ≤ w.toNat → w.toNat ≤ 4 →
      takeFrame (bitsOfOctets (Frame.afterStart ⟨.linkOpen, seq, [w]⟩) ++ rest)
        = some (.linkOpen w.toNat, rest))
    ∧ (∀ (seq : SeqNumber) (rest : List Bool),
      takeFrame (bitsOfOctets (Frame.afterStart ⟨.linkClose, seq, []⟩) ++ rest) = some (.linkClose, rest))
    ∧ (∀ (f : Frame) (rest : List Bool),
      hunt [] (bitsOfOctets f.octets ++ rest) = .receiving (bitsOfOctets f.afterStart ++ rest) 0)

/-! ### Requests in general -/

/-- The answer to a port's next request: the response carries the request's sequence number, the result code
and the body, and joins the transmit queue in a response place; it is stored in the reply history, from which
the oldest of four is removed; the request becomes answered; and nothing else changes (R163, R164, R179). -/
def Obligations.ResponseIsFormedAndStored : Prop :=
  ∀ (s : State) (p : Port) (q : TakenRequest) (result : Result) (body : List Octet),
    s.nextRequest p = some q →
    ∃ t, t = s.respond p result body ∧ t = { s with links := t.links }
      ∧ (∀ r : Port, r ≠ p → t.links[r] = s.links[r])
      ∧ t.links[p].transmit
          = s.links[p].transmit ++ [⟨⟨.response, q.seq, result.code :: body⟩, .response⟩]
      ∧ (s.links[p].history.length < 4 →
          t.links[p].history = s.links[p].history ++ [⟨q.seq, result.code :: body⟩])
      ∧ (4 ≤ s.links[p].history.length →
          t.links[p].history = s.links[p].history.drop 1 ++ [⟨q.seq, result.code :: body⟩])
      ∧ (∃ front back, s.links[p].requests = front ++ q :: back
          ∧ (∀ x ∈ front, x.condition = .answered)
          ∧ t.links[p].requests = front ++ { q with condition := .answered } :: back)
      ∧ t.links[p] = { s.links[p] with
          requests := t.links[p].requests, history := t.links[p].history, transmit := t.links[p].transmit }

/-- A request is applied only in its turn: a row of a request that is not the port's first unanswered one, or
that the interlock holds, changes nothing (R164; that such an event leaves the state alone is log 4). -/
def Obligations.RequestsWaitTheirTurn : Prop :=
  ∀ (c : Instr) (s : State) (p : Port) (k : RequestCode), requestRow c = some (p, k) →
    (∀ q, s.nextRequest p = some q → q.condition ≠ .waiting ∨ requestOf q.payload ≠ some k) →
    exec c s = .next s

/-- A payload that has not the length and field values of Table 12-4 is refused with FORMAT, and nothing else
changes (R165, R178), but for what the placement interlock's read of a slot that the payload names has found (R63, R2,
log 12). A request of six kinds whose payload is long enough to name a PLACING record is held first (log 13). A request that needs the supervisor right is refused with DENIED at any other port, after FORMAT and
before every other check, and nothing else changes; so is a RETIRE-TAG for another port (R165, R168).
UNKNOWN_REQUEST_CODE: a taken request with an empty payload or an unknown code is refused with FORMAT in its
turn, and nothing else changes (R178). -/
def Obligations.FormatThenRight : Prop :=
  (∀ (c : Instr) (s : State) (p : Port) (k : RequestCode) (pl : List Octet), requestRow c = some (p, k) →
      s.Asks p pl → requestOf pl = some k → s.LetsThrough k pl → k.formatHolds pl = false →
      ∃ t, exec c s = .next t ∧ s.Answered t p .format []
        ∧ (k.interlocked = false ∨ (namedSlotField pl).bind slotOf = none → t = { s with links := t.links })
        ∧ ∀ i, k.interlocked = true → (namedSlotField pl).bind slotOf = some i →
            t = { s.checkedRead i with links := t.links })
  ∧ (∀ (c : Instr) (s : State) (p : Port) (k : RequestCode) (pl : List Octet), requestRow c = some (p, k) →
      s.Asks p pl → requestOf pl = some k → k.formatHolds pl = true → s.portTable.supervisor ≠ p →
      (k.needsRight = true ∨ ∃ owner tag, c = .retireTag p ∧ parseRetireTag pl = some (owner, tag) ∧ owner ≠ p) →
      ∃ t, exec c s = .next t ∧ t = { s with links := t.links } ∧ s.Answered t p .denied [])
  ∧ ∀ (s : State) (p : Port) (pl : List Octet), s.Asks p pl → requestOf pl = none →
      ∃ t, exec (.unknownRequestCode p) s = .next t ∧ t = { s with links := t.links }
        ∧ s.Answered t p .format []

/-- A request of six kinds that names a PLACING record is held, whatever its handle's generation and whatever stands
behind its slot field (log 13): it takes the condition held, nothing changes but what the read of the slot repaired
(log 12), and no request behind it is applied while it is held (R63). -/
def Obligations.InterlockHoldsRequests : Prop :=
  ∀ (c : Instr) (s s1 : State) (p : Port) (k : RequestCode) (pl : List Octet) (i : SlotIx),
    requestRow c = some (p, k) → s.Asks p pl → requestOf pl = some k → k.interlocked = true →
    (namedSlotField pl).bind slotOf = some i → s1 = s.checkedRead i → (s1.record i).sched = .placing →
    ∃ t, exec c s = .next t ∧ t = { s1 with links := t.links }
      ∧ (∀ r : Port, r ≠ p → t.links[r] = s.links[r])
      ∧ t.links[p] = { s.links[p] with requests := t.links[p].requests }
      ∧ (∃ q, t.nextRequest p = some q ∧ q.payload = pl ∧ q.condition = .held i)
      ∧ ∀ (d : Instr) (m : RequestCode), requestRow d = some (p, m) → exec d t = .next t

/-- Checks 3 to 6 of Table 10-5 on a request that names a record by handle: STALE when the slot is FREE or holds
another generation, which is not compared for a record whose identity failed; then RETIRING for a marked record;
then DAMAGED and NOT-OWNER where they are made. A refused request changes nothing but what its read of the slot
found, which may be in any part of the slot (log 30) (R2, R3, R5, R131, R165, Tables 1-4, 3-2, 6-4). READ makes the
STALE check alone (R9, Table 1-4). -/
def Obligations.RecordChecksInOrder : Prop :=
  (∀ (c : Instr) (s : State) (p : Port) (k : RequestCode) (pl : List Octet) (h : Handle) (r : Record),
      requestRow c = some (p, k) → s.Asks p pl → requestOf pl = some k → k.formatHolds pl = true →
      s.LetsThrough k pl → k.changesRecord = true → (k.needsRight = true → s.portTable.supervisor = p) →
      parseHandle pl 1 = some h → r = (s.checkedRead h.slot).record h.slot →
      ((r.sched = .free ∨ (r.fault ≠ some .identity ∧ r.generation ≠ h.generation)) →
          exec c s = .next ((s.checkedRead h.slot).refuse p .stale))
        ∧ (r.sched ≠ .free → (r.fault = some .identity ∨ r.generation = h.generation) →
          (r.mark ≠ none → exec c s = .next ((s.checkedRead h.slot).refuse p .retiring))
          ∧ (r.mark = none →
            (k.checksDamage = true → r.sched = .damaged →
              exec c s = .next ((s.checkedRead h.slot).refuse p .damaged))
            ∧ (k.checksOwner = true → (k.checksDamage = true → r.sched ≠ .damaged) → r.owner ≠ some p →
              exec c s = .next ((s.checkedRead h.slot).refuse p .notOwner)))))
  ∧ ∀ (s : State) (p : Port) (pl : List Octet) (h : Handle) (r : Record), s.Asks p pl →
      requestOf pl = some .readRecord → parseHandleOnly pl = some h →
      r = (s.checkedRead h.slot).record h.slot →
      (r.sched = .free ∨ (r.fault ≠ some .identity ∧ r.generation ≠ h.generation)) →
      exec (.readRecord p) s = .next ((s.checkedRead h.slot).refuse p .stale)

/-! ### Checked storage -/

/-- A read of a slot whose parts all pass their checks changes nothing (Table 9-1, first row). A read that finds
correctable errors, or one identity copy beyond repair, leaves every part of a record passing and raises the
correction count by 1 for each part repaired or rewritten, holding at 65,535; nothing else of the block changes
(R138, Table 9-1, second and third rows). In a FREE slot, and in a DAMAGED record with fault part TIMING, the identity
copies alone are read, and they are repaired in the same way; in one with fault part IDENTITY the timing part alone,
which is repaired when correctable, and not read when it failed before the identity did (log 19). A FREE slot whose identity copies both fail is rewritten as FREE with
generation 0 and one correction; no other record changes and no notice is raised (R139, R142, Table 9-2). That a read covers every part
of its slot is log 30. -/
def Obligations.ReadRepairs : Prop :=
  (∀ (s : State) (i : SlotIx), (s.record i).ChecksPass → s.checkedRead i = s)
  ∧ (∀ (s : State) (i : SlotIx) (r : Record), r = s.record i → r.sched ≠ .free → r.sched ≠ .damaged →
      ¬ (r.copyA = .uncorrectable ∧ r.copyB = .uncorrectable) → r.timingCheck ≠ .uncorrectable →
      ∃ t, t = s.checkedRead i ∧ s.SameBut t i
        ∧ t.record i = { r with copyA := .passing, copyB := .passing, timingCheck := .passing }
        ∧ t.scrubber = { s.scrubber with corrections := t.scrubber.corrections }
        ∧ (s.scrubber.corrections ≤ 65535 → t.scrubber.corrections = min 65535 (s.scrubber.corrections
            + (if r.copyA = .passing then 0 else 1) + (if r.copyB = .passing then 0 else 1)
            + (if r.timingCheck = .passing then 0 else 1)))
        ∧ t = { s with table := t.table, scrubber := t.scrubber })
  ∧ (∀ (s : State) (i : SlotIx), (s.record i).sched = .free → (s.record i).copyA = .uncorrectable →
      (s.record i).copyB = .uncorrectable →
      ∃ t, t = s.checkedRead i ∧ t.record i = Record.blank ∧ s.SameBut t i
        ∧ (s.scrubber.corrections < 65535 → t.scrubber.corrections = s.scrubber.corrections + 1)
        ∧ t = { s with table := t.table, scrubber := t.scrubber })
  ∧ (∀ (s : State) (i : SlotIx) (r : Record), r = s.record i →
      r.sched = .free ∨ (r.sched = .damaged ∧ r.fault = some .timing) →
      ¬ (r.copyA = .uncorrectable ∧ r.copyB = .uncorrectable) →
      ∃ t, t = s.checkedRead i ∧ s.SameBut t i ∧ t.record i = { r with copyA := .passing, copyB := .passing }
        ∧ t.scrubber = { s.scrubber with corrections := t.scrubber.corrections }
        ∧ (s.scrubber.corrections ≤ 65535 → t.scrubber.corrections = min 65535 (s.scrubber.corrections
            + (if r.copyA = .passing then 0 else 1) + (if r.copyB = .passing then 0 else 1)))
        ∧ t = { s with table := t.table, scrubber := t.scrubber })
  ∧ ∀ (s : State) (i : SlotIx) (r : Record), r = s.record i → r.sched = .damaged → r.fault = some .identity →
      (r.timingLost = true ∨ r.timingCheck ≠ .correctable → s.checkedRead i = s)
      ∧ (r.timingLost = false → r.timingCheck = .correctable →
        ∃ t, t = s.checkedRead i ∧ s.SameBut t i ∧ t.record i = { r with timingCheck := .passing }
          ∧ t.scrubber = { s.scrubber with corrections := min 65535 (s.scrubber.corrections + 1) }
          ∧ t = { s with table := t.table, scrubber := t.scrubber })

/-- A read that finds the timing part beyond repair, in a record that is not DAMAGED, makes it DAMAGED with fault
part TIMING: generation, owner, tag and mark are kept and the remaining interval is discarded. With no notice
and no place on the blocked list, the FAULT notice goes to the owner: it is lost when the owner is not UP, it
waits when no general entry is FREE, and otherwise it is created with urgency 7, cookie 0 and overrun 0; and the
slot leaves the placement queue, and the rebuild part with it, or the deadline list, whichever its schedule state says
holds it (R55, R56, R143, R144).
The notice of a record that becomes DAMAGED with fault part TIMING while its entry lies in a queue is that
entry, converted: it keeps its number, stamp, deliveries, cookie and overrun, takes kind FAULT, class PLAIN and
urgency 7, leaves its place and joins the owner's queue; with the owner not UP it is freed, the record is CLEAR and
its overrun count is 1 (R145, Table 9-3). A freed entry may serve the blocked list, so which entries are left is said
for an empty one. That a read covers every part of its slot is log 30. -/
def Obligations.TimingDamage : Prop :=
  (∀ (s : State) (i : SlotIx) (r : Record) (p : Port), r = s.record i → r.sched ≠ .free → r.sched ≠ .damaged →
      r.copyA ≠ .uncorrectable ∨ r.copyB ≠ .uncorrectable → r.timingCheck = .uncorrectable →
      r.owner = some p →
      ∃ t, t = s.checkedRead i
        ∧ (t.record i).sched = .damaged ∧ (t.record i).fault = some .timing
        ∧ (t.record i).generation = r.generation ∧ (t.record i).owner = some p ∧ (t.record i).tag = r.tag
        ∧ (t.record i).mark = r.mark ∧ (t.record i).remaining = none
        ∧ s.SameUnblocked t i ∧ t.timeBase = s.timeBase ∧ t.portTable = s.portTable ∧ t.sweeps = s.sweeps
        ∧ (s.entryOf i = none → (∀ b ∈ s.notices.blocked, b.slot ≠ i) →
            (t.record i).timingCheck = .passing ∧ s.RebuildFollows t i
            ∧ t.placement.queue = (if r.sched = .queued then s.placement.queue.erase i else s.placement.queue)
            ∧ t.expiry.list = (if r.sched = .armed then unlink i s.expiry.list else s.expiry.list)
            ∧ (s.isUp p = false → (t.record i).notice = .clear ∧ (t.record i).overrun = 1)
            ∧ (s.isUp p = true → s.freeGeneral = none → (t.record i).notice = .waiting
                ∧ t.notices.blocked = s.notices.blocked ++ [⟨i, .damage .timing⟩])
            ∧ (s.isUp p = true → ∀ n, s.freeGeneral = some n → (t.record i).notice = .pending
                ∧ ∃ e ∈ t.notices.queues[p], e.kind = .fault ∧ e.slot = some i ∧ e.number = n
                  ∧ e.cls = .plain ∧ e.urgency = 7 ∧ e.cookie = 0 ∧ e.overrun = 0
                  ∧ e.generation = r.generation ∧ e.faultPart = some .timing
                  ∧ e.stamp = s.notices.stamp ∧ e.destination = .port p)))
  ∧ ∀ (s : State) (i : SlotIx) (r : Record) (p : Port) (place : EntryPlace) (e : Entry), r = s.record i →
      r.sched ≠ .free → r.sched ≠ .damaged → r.copyA ≠ .uncorrectable ∨ r.copyB ≠ .uncorrectable →
      r.timingCheck = .uncorrectable → r.owner = some p → s.entryOf i = some (place, e) →
      (∀ q, place ≠ .outstanding q) → (∀ b ∈ s.notices.blocked, b.slot ≠ i) →
      ∃ t, t = s.checkedRead i ∧ (t.record i).sched = .damaged
        ∧ (s.isUp p = true → (t.record i).notice = .pending ∧ ∃ e' ∈ t.notices.queues[p],
            e' = { e with kind := .fault, cls := .plain, urgency := 7, firedDeadline := none, firedAt := none,
                          late := false, early := false, delayed := false, rangeEnd := false,
                          destination := .port p, assigned := some p, faultPart := some .timing }
            ∧ t.HasEntries (e' :: s.entries.erase e))
        ∧ (s.isUp p = false → (t.record i).notice = .clear ∧ (t.record i).overrun = 1
            ∧ (s.notices.blocked = [] → t.HasEntries (s.entries.erase e)))

/-- A read that finds both identity copies beyond repair, in a record that is not DAMAGED, makes it DAMAGED
with fault part IDENTITY: generation, owner and tag are unknown, the mark is gone and the slot no longer
counts toward its owner. With no notice and no place on the blocked list, the FAULT notice goes to the
supervisor port (R143, R144). An entry that lies in a queue is converted, with the generation unknown, and moves to
the supervisor port's queue, or is freed when that port is not UP (R145, Table 9-3). A record on the blocked list, or
with an OUTSTANDING notice, keeps its place or its holder, whichever part failed (R143 step 5). A record DAMAGED with
fault part TIMING whose identity fails too takes fault part IDENTITY: its FAULT entry moves to the supervisor port, a
CLEAR record's is raised there, and a WAITING or OUTSTANDING record keeps its place (R146). That a read covers every
part of its slot is log 30. -/
def Obligations.IdentityDamage : Prop :=
  (∀ (s : State) (i : SlotIx) (r : Record) (p : Port), r = s.record i → r.sched ≠ .free → r.sched ≠ .damaged →
    r.copyA = .uncorrectable → r.copyB = .uncorrectable → r.owner = some p →
    ∃ t, t = s.checkedRead i
      ∧ (t.record i).sched = .damaged ∧ (t.record i).fault = some .identity
      ∧ (t.record i).owner = none ∧ (t.record i).mark = none ∧ (t.record i).remaining = none
      ∧ s.SameUnblocked t i ∧ t.timeBase = s.timeBase ∧ t.portTable = s.portTable ∧ t.sweeps = s.sweeps
      ∧ (s.entryOf i = none → (∀ b ∈ s.notices.blocked, b.slot ≠ i) →
          t.table.owned[p] = s.table.owned[p].erase i
          ∧ (s.isUp s.portTable.supervisor = false → (t.record i).notice = .clear)
          ∧ (s.isUp s.portTable.supervisor = true → s.freeGeneral = none → (t.record i).notice = .waiting
              ∧ t.notices.blocked = s.notices.blocked ++ [⟨i, .damage .identity⟩])
          ∧ (s.isUp s.portTable.supervisor = true → ∀ n, s.freeGeneral = some n →
              (t.record i).notice = .pending
              ∧ ∃ e ∈ t.notices.queues[s.portTable.supervisor], e.kind = .fault ∧ e.slot = some i
                ∧ e.number = n ∧ e.cls = .plain ∧ e.urgency = 7 ∧ e.faultPart = some .identity
                ∧ (r.timingCheck ≠ .uncorrectable → r.timingLost = false → e.cookie = r.cookie
                    ∧ e.overrun = r.overrun)))
      ∧ ∀ place e, s.entryOf i = some (place, e) → (∀ q, place ≠ .outstanding q) →
          (∀ b ∈ s.notices.blocked, b.slot ≠ i) →
          (s.isUp s.portTable.supervisor = true → (t.record i).notice = .pending
            ∧ ∃ e' ∈ t.notices.queues[s.portTable.supervisor],
              e' = { e with kind := .fault, cls := .plain, urgency := 7, firedDeadline := none, firedAt := none,
                            late := false, early := false, delayed := false, rangeEnd := false, generation := 0,
                            destination := .port s.portTable.supervisor,
                            assigned := some s.portTable.supervisor, faultPart := some .identity }
              ∧ t.HasEntries (e' :: s.entries.erase e))
          ∧ (s.isUp s.portTable.supervisor = false → (t.record i).notice = .clear
            ∧ (t.record i).overrun = saturate8 r.overrun 1
            ∧ (s.notices.blocked = [] → t.HasEntries (s.entries.erase e))))
  ∧ (∀ (s : State) (i : SlotIx) (r : Record) (part : FaultPart), r = s.record i → r.sched ≠ .free →
      r.sched ≠ .damaged →
      (part = .identity ∧ r.copyA = .uncorrectable ∧ r.copyB = .uncorrectable)
        ∨ (part = .timing ∧ (r.copyA ≠ .uncorrectable ∨ r.copyB ≠ .uncorrectable)
          ∧ r.timingCheck = .uncorrectable) →
      ∃ t, t = s.checkedRead i ∧ (t.record i).sched = .damaged ∧ (t.record i).fault = some part
        ∧ (s.entryOf i = none → (∃ b ∈ s.notices.blocked, b.slot = i) →
            (t.record i).notice = .waiting ∧ s.SameBut t i
            ∧ t.notices.blocked
              = s.notices.blocked.map (fun b => if b.slot = i then { b with kept := .damage part } else b)
            ∧ t.notices.outstanding = s.notices.outstanding ∧ t.HasEntries s.entries)
        ∧ ∀ q e, s.entryOf i = some (.outstanding q, e) →
            (t.record i).notice = .outstanding ∧ (t.record i).holder = some q ∧ s.SameBut t i
            ∧ t.notices.outstanding = s.notices.outstanding ∧ t.HasEntries s.entries)
  ∧ ∀ (s : State) (i : SlotIx) (r : Record) (q : Port), r = s.record i → q = s.portTable.supervisor →
      r.sched = .damaged → r.fault = some .timing → r.copyA = .uncorrectable → r.copyB = .uncorrectable →
      ∃ t, t = s.checkedRead i
        ∧ (t.record i).sched = .damaged ∧ (t.record i).fault = some .identity
        ∧ (t.record i).owner = none ∧ (t.record i).mark = none
        ∧ s.SameUnblocked t i ∧ t.timeBase = s.timeBase ∧ t.portTable = s.portTable ∧ t.sweeps = s.sweeps
        ∧ (∀ p, r.owner = some p → s.notices.blocked = [] → t.table.owned[p] = s.table.owned[p].erase i)
        ∧ (r.notice = .pending → ∀ place e, s.entryOf i = some (place, e) →
            (∀ b ∈ s.notices.blocked, b.slot ≠ i) →
            (s.isUp q = true → (t.record i).notice = .pending ∧ ∃ e' ∈ t.notices.queues[q],
              e' = { e with generation := 0, destination := .port q, assigned := some q,
                            faultPart := some .identity }
              ∧ t.HasEntries (e' :: s.entries.erase e))
            ∧ (s.isUp q = false → (t.record i).notice = .clear
              ∧ (t.record i).overrun = saturate8 r.overrun 1
              ∧ (s.notices.blocked = [] → t.HasEntries (s.entries.erase e))))
        ∧ (r.notice = .clear → (∀ b ∈ s.notices.blocked, b.slot ≠ i) →
            (s.isUp q = false → (t.record i).notice = .clear ∧ (t.record i).overrun = saturate8 r.overrun 1)
            ∧ (s.isUp q = true → s.freeGeneral = none → (t.record i).notice = .waiting
                ∧ t.notices.blocked = s.notices.blocked ++ [⟨i, .damage .identity⟩])
            ∧ (s.isUp q = true → ∀ n, s.freeGeneral = some n → (t.record i).notice = .pending
                ∧ ∃ e ∈ t.notices.queues[q], e.kind = .fault ∧ e.slot = some i ∧ e.number = n
                  ∧ e.faultPart = some .identity ∧ e.destination = .port q))
        ∧ (r.notice = .waiting ∨ r.notice = .outstanding →
            (t.record i).notice = r.notice ∧ (t.record i).holder = r.holder ∧ s.SameBut t i
            ∧ t.notices.outstanding = s.notices.outstanding ∧ t.HasEntries s.entries
            ∧ t.notices.blocked = s.notices.blocked.map fun b =>
                if b.slot = i then { b with kept := .damage .identity } else b)

/-! ### Record requests -/

/-- OPEN below the quota and with a FREE slot creates a record in the lowest FREE slot: the slot's generation
unchanged, the requesting port as owner, the fields given or their defaults, schedule state IDLE, notice state
CLEAR and nothing else; the owned count rises and the FREE count falls by one (R6, R7, R8). OPEN at the quota is
refused with QUOTA, whether or not a slot is FREE; below it, with no FREE slot, with FULL (R7). In a table in
canonical form the slot OPEN takes is the lowest one that is not occupied (R7, R139). -/
def Obligations.OpenCreatesRecord : Prop :=
  (∀ (s s1 : State) (p : Port) (pl : List Octet) (f : OpenFields) (i : SlotIx), s.Asks p pl →
      requestOf pl = some .openRecord → parseOpen pl = some f → s.ownedCount p < s.portTable.quota[p] →
      s.lowestFree = some i → s1 = s.checkedRead i →
      ∃ t, exec (.openRecord p) s = .next t
        ∧ s.Answered t p .ok (octetsOf 2 i.val ++ [(s1.record i).generation, 0x00])
        ∧ t.record i =
            { generation := (s1.record i).generation, owner := some p, tag := f.tag, sched := .idle, mark := none,
              target := f.target, cls := f.cls, urgency := f.urgency, cookie := f.cookie.getD 0,
              slack := f.slack.getD 0, period := f.period, policy := f.policy.getD .aligned,
              disposal := f.disposal.getD .keep, deadline := none, remaining := none, overrun := 0,
              notice := .clear, holder := none, fault := none, copyA := .passing, copyB := .passing,
              timingCheck := .passing, timingLost := false }
        ∧ s1.SameBut t i
        ∧ (i ∉ s1.table.owned[p] → t.ownedCount p = s1.ownedCount p + 1)
        ∧ (∀ q : Port, q ≠ p → t.ownedCount q = s1.ownedCount q)
        ∧ (i ∉ s1.table.occupied → t.freeSlots = s1.freeSlots - 1)
        ∧ t = { s1 with table := t.table, links := t.links })
  ∧ (∀ (s : State) (p : Port) (pl : List Octet), s.Asks p pl → requestOf pl = some .openRecord →
      (parseOpen pl).isSome = true →
      (s.portTable.quota[p] ≤ s.ownedCount p → exec (.openRecord p) s = .next (s.refuse p .quota))
      ∧ (s.ownedCount p < s.portTable.quota[p] → s.lowestFree = none →
          exec (.openRecord p) s = .next (s.refuse p .full)))
  ∧ ∀ (s : State) (i : SlotIx), s.table.wf →
      (s.lowestFree = some i ↔ i ∉ s.table.occupied ∧ ∀ j, j < i → j ∈ s.table.occupied)

/-- READ answers any port with the 45 octets of the record as it stands. A timing part that failed is sent as
zero octets with bit 2 of the last octet set and the presence bits 0 and 1 clear (log 29); an identity that is lost as
a handle with bit 15 set and generation 0, the owner octet of the owner the record holds, which is FFh for the unknown
one (log 18), and tag 0, with bit 3 set. The notice state and the holder are sent as stored, and so for fault part TIMING
as re-established. A timing part lost before the identity is sent as zero octets too, with the notice state and holder of
the new timing part (logs 19 and 31); for one that failed with the identity, or later, the notice state and the holder
are zero octets as well (log 31). The record does not change (R9, R10, R20, Table 12-6). -/
def Obligations.ReadReportsRecord : Prop :=
  ∀ (s s1 : State) (p : Port) (pl : List Octet) (h : Handle) (r : Record) (timing : List Octet), s.Asks p pl →
    requestOf pl = some .readRecord → parseHandleOnly pl = some h → s1 = s.checkedRead h.slot →
    r = s1.record h.slot → r.sched ≠ .free → (r.fault = some .identity ∨ r.generation = h.generation) →
    timing = [octet r.target.code, octet r.cls.code, octet r.urgency.val] ++ octetsOf 4 r.cookie.toNat
      ++ octetsOf 2 r.slack.toNat ++ octetsOf 6 ((r.period.map BitVec.toNat).getD 0)
      ++ [octet r.policy.code, octet r.disposal.code] ++ octetsOf 8 ((r.deadline.map BitVec.toNat).getD 0)
      ++ octetsOf 8 ((r.remaining.map BitVec.toNat).getD 0) ++ [r.overrun] →
    ∃ t body, exec (.readRecord p) s = .next t ∧ s.Answered t p .ok body
      ∧ t = { s1 with links := t.links } ∧ body.length = 45
      ∧ (r.sched ≠ .damaged → r.fault = none → body =
          octetsOf 2 h.slot.val ++ [r.generation, portOctet r.owner] ++ octetsOf 2 r.tag.toNat ++ timing
            ++ [statesOctet r.sched r.notice, portOctet r.holder, r.mark.getD 0, 0,
                octet (flagBit r.deadline.isSome 1 + flagBit r.remaining.isSome 2)])
      ∧ (r.sched = .damaged → r.fault = some .timing → r.timingLost = true → body =
          octetsOf 2 h.slot.val ++ [r.generation, portOctet r.owner] ++ octetsOf 2 r.tag.toNat
            ++ List.replicate 34 0
            ++ [statesOctet .damaged r.notice, portOctet r.holder, r.mark.getD 0, 1, 4])
      ∧ (r.sched = .damaged → r.fault = some .identity → r.timingLost = false → r.timingCheck = .passing →
          body = octetsOf 2 (h.slot.val + 32768) ++ [0, portOctet r.owner, 0, 0] ++ timing
            ++ [statesOctet .damaged r.notice, portOctet r.holder, r.mark.getD 0, 2,
                octet (flagBit r.deadline.isSome 1 + flagBit r.remaining.isSome 2 + 8)])
      ∧ (r.sched = .damaged → r.fault = some .identity → r.timingLost = true →
          body = octetsOf 2 (h.slot.val + 32768) ++ [0, portOctet r.owner, 0, 0] ++ List.replicate 34 0
            ++ [statesOctet .damaged r.notice, portOctet r.holder, r.mark.getD 0, 2, 12])
      ∧ (r.sched = .damaged → r.fault = some .identity → r.timingLost = false → r.timingCheck = .uncorrectable →
          body = octetsOf 2 (h.slot.val + 32768) ++ [0, portOctet r.owner, 0, 0] ++ List.replicate 34 0
            ++ [statesOctet .damaged .clear, 0, r.mark.getD 0, 2, 12])

/-- SET writes every selected field and no other; it is refused with STATE when it selects the class of a
record that has a notice. The response carries the states, which it does not change (R11, R20). -/
def Obligations.SetWritesSelectedFields : Prop :=
  ∀ (s s1 : State) (p : Port) (pl : List Octet) (f : SetFields) (r : Record), s.Asks p pl →
    requestOf pl = some .setRecord → parseSet pl = some f → s.LetsThrough .setRecord pl →
    s1 = s.checkedRead f.handle.slot → r = s1.record f.handle.slot → r.OpenTo p f.handle →
    (f.cls ≠ none → r.notice ≠ .clear → exec (.setRecord p) s = .next (s1.refuse p .state))
    ∧ (f.cls = none ∨ r.notice = .clear →
      ∃ t, exec (.setRecord p) s = .next t ∧ s.Answered t p .ok [statesOctet r.sched r.notice]
        ∧ t.record f.handle.slot = { r with
            cookie := (match f.cookie with | none => r.cookie | some v => v)
            urgency := (match f.urgency with | none => r.urgency | some v => v)
            slack := (match f.slack with | none => r.slack | some v => v)
            target := (match f.target with | none => r.target | some v => v)
            cls := (match f.cls with | none => r.cls | some v => v)
            period := (match f.period with | none => r.period | some v => v)
            policy := (match f.policy with | none => r.policy | some v => v)
            disposal := (match f.disposal with | none => r.disposal | some v => v) }
        ∧ s1.SameBut t f.handle.slot
        ∧ t = { s1 with table := { s1.table with cells := t.table.cells }, links := t.links })

/-- CLOSE by the owner, and FORCE-CLOSE by the supervisor port, retire the record: its slot becomes FREE with
the next generation, or 0 when the generation is unknown, and every other field is discarded; it leaves the
queue, and the rebuild part with it (R55, R56), the list and the blocked list, its notice entry is freed, and a placement in flight is left alone. The
response carries the states as they stood (R5, R6, R14, R15, R16, R173). A freed entry may serve other records
on the blocked list; what is exact without them is said for a state that has none. The holding queues are served once,
at the event's end, for the read and for the retirement (R118, log 22). -/
def Obligations.CloseRetiresRecord : Prop :=
  ∀ (c : Instr) (s s1 : State) (p : Port) (pl : List Octet) (h : Handle) (r : Record),
    s1 = s.readSlot h.slot → r = s1.record h.slot →
    ((c = .closeRecord p ∧ requestOf pl = some .closeRecord ∧ s.LetsThrough .closeRecord pl
        ∧ r.owner = some p)
      ∨ (c = .forceClose p ∧ requestOf pl = some .forceClose ∧ s.portTable.supervisor = p)) →
    s.Asks p pl → parseHandleOnly pl = some h → r.sched ≠ .free →
    (r.fault = some .identity ∨ r.generation = h.generation) → r.mark = none →
    ∃ t, exec c s = .next t ∧ s.Answered t p .ok [statesOctet r.sched r.notice]
      ∧ t.record h.slot = { Record.blank with
          generation := if r.fault = some .identity then 0 else r.generation + 1 }
      ∧ t.table.occupied = s1.table.occupied.erase h.slot
      ∧ (∀ b ∈ t.notices.blocked, b.slot ≠ h.slot)
      ∧ t.placement.carried = s1.placement.carried
      ∧ s1.SameUnblocked t h.slot ∧ s1.Apart t ∧ t.PoolsServed
      ∧ (s1.NoOtherBlocked h.slot →
          s1.RebuildFollows t h.slot
          ∧ t.placement.queue
            = (if r.sched = .queued then s1.placement.queue.erase h.slot else s1.placement.queue)
          ∧ t.listOrder = (if r.sched = .armed then s1.listOrder.erase h.slot else s1.listOrder)
          ∧ (∀ q, r.owner = some q → t.table.owned[q] = s1.table.owned[q].erase h.slot)
          ∧ (s1.entryOf h.slot = none → t.HasEntries s1.entries)
          ∧ (∀ place e, s1.entryOf h.slot = some (place, e) → t.HasEntries (s1.entries.erase e)))

/-! ### Arming -/

/-- ARM writes the deadline given, or now plus the interval, and the record is QUEUED: from IDLE and PAUSED at
the tail of the placement queue, from QUEUED in its place, from ARMED out of the list and at the tail. Nothing
but the deadline, the remaining interval and the schedule state of the record changes (R33 to R37). -/
def Obligations.ArmQueuesRecord : Prop :=
  ∀ (s s1 : State) (p : Port) (pl : List Octet) (h : Handle) (form : DeadlineForm) (r : Record) (d : Tick),
    s.Asks p pl → requestOf pl = some .arm → parseArm pl = some (h, form) → s.LetsThrough .arm pl →
    s1 = s.checkedRead h.slot → r = s1.record h.slot → r.OpenTo p h → s1.expiry.listState ≠ .failed →
    (form = .absolute d ∨ ∃ n : Interval, form = .relative n ∧ d.toNat = s.timeBase.now.toNat + n.toNat) →
    ∃ t, exec (.arm p) s = .next t ∧ s.Answered t p .ok [statesOctet r.sched r.notice]
      ∧ t.record h.slot = { r with deadline := some d, remaining := none, sched := .queued }
      ∧ t.placement = { s1.placement with queue := t.placement.queue }
      ∧ t.placement.queue
          = (if r.sched = .queued then s1.placement.queue else s1.placement.queue ++ [h.slot])
      ∧ t.listOrder = (if r.sched = .armed then s1.listOrder.erase h.slot else s1.listOrder)
      ∧ (r.sched ≠ .armed → t.expiry = s1.expiry)
      ∧ t.expiry = { s1.expiry with list := t.expiry.list, firing := t.expiry.firing }
      ∧ s1.SameBut t h.slot
      ∧ t = { s1 with table := { s1.table with cells := t.table.cells }, placement := t.placement,
                      expiry := t.expiry, links := t.links }

/-- The refusals that depend on the record's schedule state, the list state and the time: ARM with LIST-FAILED,
then RANGE; PAUSE with STATE; RESUME with STATE, then LIST-FAILED, then RANGE. They change nothing (R33, R34,
R43, R45, Table 3-2). -/
def Obligations.ArmingIsRefused : Prop :=
  ∀ (s s1 : State) (p : Port) (pl : List Octet) (h : Handle) (r : Record), s.Asks p pl →
    s1 = s.checkedRead h.slot → r = s1.record h.slot → r.OpenTo p h →
    (∀ form, requestOf pl = some .arm → parseArm pl = some (h, form) → s.LetsThrough .arm pl →
      (s1.expiry.listState = .failed → exec (.arm p) s = .next (s1.refuse p .listFailed))
      ∧ (s1.expiry.listState ≠ .failed →
        ∀ n : Interval, form = .relative n → Config.timeMax < s.timeBase.now.toNat + n.toNat →
          exec (.arm p) s = .next (s1.refuse p .range)))
    ∧ (requestOf pl = some .pause → parseHandleOnly pl = some h → s.LetsThrough .pause pl →
        r.sched ≠ .armed → r.sched ≠ .queued → exec (.pause p) s = .next (s1.refuse p .state))
    ∧ (requestOf pl = some .resume → parseHandleOnly pl = some h → s.LetsThrough .resume pl →
        (r.sched ≠ .paused → exec (.resume p) s = .next (s1.refuse p .state))
        ∧ (r.sched = .paused → s1.expiry.listState = .failed →
            exec (.resume p) s = .next (s1.refuse p .listFailed))
        ∧ (r.sched = .paused → s1.expiry.listState ≠ .failed →
            ∀ left : Tick, r.remaining = some left → Config.timeMax < s.timeBase.now.toNat + left.toNat →
            exec (.resume p) s = .next (s1.refuse p .range)))

/-- CANCEL makes the record IDLE: out of the queue, and of the rebuild part with it (R55, R56), or out of the list,
without a remaining interval, its deadline kept. Without the withdraw option its notice stays; with it, a WAITING record leaves the blocked list and a
PENDING record's entry is freed, and both become CLEAR, while a CLEAR or OUTSTANDING record keeps its notice
state (R40, R42). When an entry is withdrawn the holding queues are served at the event's end (R118). A freed entry may
serve other records on the blocked list; what is exact without them is said for a state that has none. -/
def Obligations.CancelMakesIdle : Prop :=
  ∀ (s s1 : State) (p : Port) (pl : List Octet) (h : Handle) (withdraw : Bool) (r : Record), s.Asks p pl →
    requestOf pl = some .cancel → parseCancel pl = some (h, withdraw) → s.LetsThrough .cancel pl →
    s1 = s.checkedRead h.slot → r = s1.record h.slot → r.OpenTo p h →
    ∃ t, exec (.cancel p) s = .next t ∧ s.Answered t p .ok [statesOctet r.sched r.notice]
      ∧ s1.SameUnblocked t h.slot ∧ s1.Apart t ∧ t.placement.carried = s1.placement.carried
      ∧ (withdraw = false ∨ r.notice = .clear ∨ r.notice = .outstanding →
          t.record h.slot = { r with sched := .idle, remaining := none }
          ∧ t.notices = s1.notices ∧ t.pools = s1.pools)
      ∧ (withdraw = true → r.notice = .waiting →
          t.record h.slot = { r with sched := .idle, remaining := none, notice := .clear, holder := none }
          ∧ t.notices
              = { s1.notices with blocked := s1.notices.blocked.filter fun b => decide (b.slot ≠ h.slot) }
          ∧ t.pools = s1.pools)
      ∧ (withdraw = true → r.notice = .pending → (∀ b ∈ s1.notices.blocked, b.slot ≠ h.slot) →
          ∀ place e, s1.entryOf h.slot = some (place, e) →
          t.record h.slot = { r with sched := .idle, remaining := none, notice := .clear, holder := none }
          ∧ t.PoolsServed ∧ (s1.notices.blocked = [] → t.HasEntries (s1.entries.erase e)))
      ∧ (withdraw = false ∨ r.notice ≠ .pending ∨ s1.notices.blocked = [] →
          s1.RebuildFollows t h.slot
          ∧ t.placement.queue
            = (if r.sched = .queued then s1.placement.queue.erase h.slot else s1.placement.queue)
          ∧ t.listOrder = (if r.sched = .armed then s1.listOrder.erase h.slot else s1.listOrder)
          ∧ s1.SameBut t h.slot)

/-- PAUSE takes an ARMED or QUEUED record out of the list, or out of the queue and of the rebuild part with it (R55,
R56), and keeps the interval left before its deadline, 0 when it has passed; nothing but the schedule state and the
remaining interval of the record changes (R43). RESUME gives a PAUSED record the deadline now plus its remaining interval and puts it at the tail of the
placement queue as QUEUED; nothing else of the record changes (R45). -/
def Obligations.PauseAndResumeKeepInterval : Prop :=
  (∀ (s s1 : State) (p : Port) (pl : List Octet) (h : Handle) (r : Record) (d : Tick), s.Asks p pl →
      requestOf pl = some .pause → parseHandleOnly pl = some h → s.LetsThrough .pause pl →
      s1 = s.checkedRead h.slot → r = s1.record h.slot → r.OpenTo p h → r.sched = .armed ∨ r.sched = .queued →
      r.deadline = some d →
      ∃ t left, exec (.pause p) s = .next t ∧ s.Answered t p .ok [statesOctet r.sched r.notice]
        ∧ t.record h.slot = { r with sched := .paused, remaining := some left }
        ∧ left.toNat = d.toNat - s.timeBase.now.toNat
        ∧ t.placement.queue
            = (if r.sched = .queued then s1.placement.queue.erase h.slot else s1.placement.queue)
        ∧ t.placement.carried = s1.placement.carried ∧ s1.RebuildFollows t h.slot
        ∧ t.listOrder = (if r.sched = .armed then s1.listOrder.erase h.slot else s1.listOrder)
        ∧ s1.SameBut t h.slot
        ∧ t = { s1 with table := { s1.table with cells := t.table.cells }, placement := t.placement,
                        expiry := t.expiry, links := t.links })
  ∧ ∀ (s s1 : State) (p : Port) (pl : List Octet) (h : Handle) (r : Record) (left : Tick), s.Asks p pl →
      requestOf pl = some .resume → parseHandleOnly pl = some h → s.LetsThrough .resume pl →
      s1 = s.checkedRead h.slot → r = s1.record h.slot → r.OpenTo p h → r.sched = .paused →
      r.remaining = some left → s1.expiry.listState ≠ .failed →
      s.timeBase.now.toNat + left.toNat ≤ Config.timeMax →
      ∃ t d, exec (.resume p) s = .next t ∧ s.Answered t p .ok [statesOctet .paused r.notice]
        ∧ t.record h.slot = { r with sched := .queued, deadline := some d, remaining := none }
        ∧ d.toNat = s.timeBase.now.toNat + left.toNat
        ∧ t.placement = { s1.placement with queue := s1.placement.queue ++ [h.slot] }
        ∧ s1.SameBut t h.slot
        ∧ t = { s1 with table := { s1.table with cells := t.table.cells }, placement := t.placement,
                        links := t.links }

/-! ### Notices -/

/-- An entry that joins a queue takes the position its urgency and stamp determine: a queue in order, highest
urgency first and among equal urgency lowest stamp first, stays in order, and gains that entry alone (R92). An
entry aimed at a pool with nothing held goes to the first accepting member in the rotation order, which moves to its
end; with none accepting, or for a marked record, it is held at its ordered position. Behind held entries it joins
them and the pool is served at once, from the head (R115, R116, Table 7-1). The service of a pool passes over the
entries of marked records and assigns the first other entry to the first accepting member, which moves to the end of
the rotation order, the members passed over in their order ahead of it; then it goes on in the same way, and it ends
when no entry is left to offer or no member is accepting (R118). The holding queues are served in ascending pool
number, 0 to 7, each pool from the state the one before leaves, and then the attention lines are re-evaluated (R110,
R118). When the service ends, no pool holds an entry that is not passed over while one of its members is accepting; and
the service neither adds nor loses an entry (R118). A free entry number is one that no entry has, of the 248 general ones or of the two of
a port's reserve, and none is found free only when entries have them all (R90). -/
def Obligations.EntriesJoinInOrder : Prop :=
  ((∀ (e : Entry) (l : List Entry),
      (insertEntry e l).Perm (e :: l)
      ∧ (l.Pairwise (fun x y => y.urgency < x.urgency ∨ (x.urgency = y.urgency ∧ x.stamp ≤ y.stamp)) →
          (insertEntry e l).Pairwise
            (fun x y => y.urgency < x.urgency ∨ (x.urgency = y.urgency ∧ x.stamp ≤ y.stamp))))
    ∧ ∀ (s t : State) (k : Pool) (e : Entry), t = s.offer k e →
      (∀ q : Port, s.accepting q = true ↔ s.links[q].state = .up
          ∧ s.notices.queues[q].length + s.notices.outstanding[q].length < s.portTable.limit[q])
      ∧ (∀ front q back, s.notices.holding[k] = [] → s.marked e = false → s.pools[k] = front ++ q :: back →
          (∀ m ∈ front, s.accepting m = false) → s.accepting q = true →
          t.pools[k] = front ++ back ++ [q] ∧ (∀ m : Pool, m ≠ k → t.pools[m] = s.pools[m])
          ∧ t.notices.queues[q] = insertEntry { e with assigned := some q } s.notices.queues[q]
          ∧ (∀ m : Port, m ≠ q → t.notices.queues[m] = s.notices.queues[m])
          ∧ t = { s with pools := t.pools, notices := { s.notices with queues := t.notices.queues } })
      ∧ (s.marked e = true ∨ (∀ m ∈ s.pools[k], s.accepting m = false) →
          t.notices.holding[k] = insertEntry { e with assigned := none } s.notices.holding[k]
          ∧ t = { s with notices := { s.notices with holding := t.notices.holding } })
      ∧ (s.notices.holding[k] ≠ [] → s.marked e = false →
          t.HasEntries (e :: s.entries)
          ∧ t.notices.holding[k].Sublist (insertEntry { e with assigned := none } s.notices.holding[k])
          ∧ (∀ x ∈ t.notices.holding[k], t.marked x = false → ∀ m ∈ t.pools[k], t.accepting m = false)
          ∧ t.pools[k].Perm s.pools[k]
          ∧ (∀ m : Pool, m ≠ k → t.pools[m] = s.pools[m] ∧ t.notices.holding[m] = s.notices.holding[m])
          ∧ t = { s with pools := t.pools, notices := { s.notices with
                  queues := t.notices.queues, holding := t.notices.holding } }))
  ∧ (∀ (s : State) (k : Pool),
      ((∀ x ∈ s.notices.holding[k], s.marked x = true) ∨ (∀ m ∈ s.pools[k], s.accepting m = false) →
        s.servePool k = s)
      ∧ (∀ front e back ahead q behind, s.notices.holding[k] = front ++ e :: back →
          (∀ x ∈ front, s.marked x = true) → s.marked e = false →
          s.pools[k] = ahead ++ q :: behind → (∀ m ∈ ahead, s.accepting m = false) → s.accepting q = true →
          ∃ u : State, s.servePool k = u.servePool k
            ∧ u.notices.holding[k] = front ++ back ∧ u.pools[k] = ahead ++ behind ++ [q]
            ∧ (∀ m : Pool, m ≠ k → u.notices.holding[m] = s.notices.holding[m] ∧ u.pools[m] = s.pools[m])
            ∧ u.notices.queues[q] = insertEntry { e with assigned := some q } s.notices.queues[q]
            ∧ (∀ m : Port, m ≠ q → u.notices.queues[m] = s.notices.queues[m])
            ∧ u = { s with pools := u.pools, notices := { s.notices with
                    queues := u.notices.queues, holding := u.notices.holding } })
      ∧ ∀ e : Entry, s.notices.holding[k] ≠ [] → s.marked e = false →
          ∃ u : State, s.offer k e = u.servePool k
            ∧ u.notices.holding[k] = insertEntry { e with assigned := none } s.notices.holding[k]
            ∧ (∀ m : Pool, m ≠ k → u.notices.holding[m] = s.notices.holding[m])
            ∧ u = { s with notices := { s.notices with holding := u.notices.holding } })
  ∧ ∀ (s t : State) (k : Pool) (e : Entry), t = s.settle →
      (∃ u : State, u = [(0 : Pool), 1, 2, 3, 4, 5, 6, 7].foldl State.servePool s ∧ t = { u with links := t.links }
        ∧ ∀ p : Port, t.links[p] = { u.links[p] with attention := t.links[p].attention }
          ∧ (t.links[p].attention = true ↔
              ∃ x ∈ u.notices.queues[p], u.marked x = false ∧ u.notices.thresholds[p] ≤ x.urgency))
      ∧ t.HasEntries s.entries
      ∧ (e ∈ t.notices.holding[k] → t.marked e = false → ∀ p ∈ t.pools[k], t.accepting p = false)
      ∧ (∀ n, s.freeGeneral = some n → n < 248 ∧ ∀ x ∈ s.entries, x.number ≠ n)
      ∧ (s.freeGeneral = none → ∀ n < 248, ∃ x ∈ s.entries, x.number = n)
      ∧ (∀ p : Port, ∀ n, s.freeReserve p = some n →
          (n = 248 + 2 * p.val ∨ n = 249 + 2 * p.val) ∧ ∀ x ∈ s.entries, x.number ≠ n)
      ∧ ∀ p : Port, s.freeReserve p = none →
          ∀ n, n = 248 + 2 * p.val ∨ n = 249 + 2 * p.val → ∃ x ∈ s.entries, x.number = n

/-- The head of the blocked list, when the read of it changes nothing, is served by the first condition of Table 6-3
that holds. The read changes nothing when every part passes its check, and of a DAMAGED record with fault part IDENTITY
when its timing part is lost or has nothing to repair (R138). A marked record is skipped; a DAMAGED record or a target
whose port is not UP loses its notice, with the overrun count raised by 1; in these the next head is served with the
same entry. A DAMAGED record's FAULT entry, to the supervisor port when the fault part is IDENTITY, and otherwise an
EXPIRY entry with the kept values, is created with DELAYED and uses the free entry (R75, R96, R97, R144). -/
def Obligations.BlockedHeadIsServed : Prop :=
  (∀ (s : State) (i : SlotIx),
    ((s.record i).ChecksPass → s.checkedRead i = s)
    ∧ ((s.record i).sched = .damaged → (s.record i).fault = some .identity →
        (s.record i).timingLost = true ∨ (s.record i).timingCheck ≠ .correctable → s.checkedRead i = s))
  ∧ (∀ (s : State) (r : Record), r.fault = some .identity → s.faultPort r = s.portTable.supervisor)
  ∧ ∀ (s t : State) (b : BlockedPlace) (rest : List BlockedPlace) (n : Nat) (r : Record),
    s.notices.blocked = b :: rest → s.freeGeneral = some n → r = s.record b.slot → s.checkedRead b.slot = s →
    r.sched ≠ .free → t = s.serveBlocked →
    (r.mark ≠ none → t =
        State.serveBlocked (State.setRecord { s with notices := { s.notices with blocked := rest } } b.slot
          { r with notice := .clear, holder := none }))
    ∧ (r.mark = none → r.sched = .damaged → s.isUp (s.faultPort r) = false → t =
        State.serveBlocked (State.setRecord { s with notices := { s.notices with blocked := rest } } b.slot
          { r with overrun := saturate8 r.overrun 1, notice := .clear, holder := none }))
    ∧ (r.mark = none → r.sched = .damaged → s.isUp (s.faultPort r) = true →
        t.notices.blocked = rest ∧ s.SameBut t b.slot
        ∧ t.record b.slot = { r with notice := .pending, holder := none, overrun := 0 }
        ∧ ∃ e ∈ t.notices.queues[s.faultPort r], e.kind = .fault ∧ e.slot = some b.slot ∧ e.number = n
          ∧ e.cls = .plain ∧ e.urgency = 7 ∧ e.delayed = true ∧ e.faultPart = r.fault
          ∧ e.stamp = s.notices.stamp ∧ t.notices.stamp = s.notices.stamp + 1)
    ∧ (r.mark = none → r.sched ≠ .damaged → (∀ p : Port, r.target = .port p → s.isUp p = false → t =
        State.serveBlocked (State.setRecord { s with notices := { s.notices with blocked := rest } } b.slot
          { r with overrun := saturate8 r.overrun 1, notice := .clear, holder := none })))
    ∧ (r.mark = none → r.sched ≠ .damaged → (∀ p : Port, r.target = .port p → s.isUp p = true) →
        ∀ d a late rangeEnd, b.kept = .firing d a late rangeEnd →
        t.notices.blocked = rest ∧ s.SameBut t b.slot
        ∧ t.record b.slot = { r with notice := .pending, holder := none, overrun := 0 }
        ∧ t.notices.stamp = s.notices.stamp + 1
        ∧ t.HasEntries
          ({ number := n, kind := .expiry, slot := some b.slot, generation := r.generation,
             cls := r.cls, urgency := r.urgency, cookie := r.cookie, firedDeadline := some d,
             firedAt := some a, overrun := r.overrun, late := late, early := false, delayed := true,
             rangeEnd := rangeEnd, destination := r.target, assigned := none, deliveries := 0,
             stamp := s.notices.stamp, sweepNumber := none, retired := 0, abandoned := false,
             faultPart := none } :: s.entries))

/-- TAKE of up to n delivers, in queue order, the first n deliverable entries of the port's queue that stood in it
before; the response carries their number, the *more* flag and a descriptor of each with its deliveries count raised.
With none to deliver it changes nothing but what its reads of the records named in the queue found (log 12). A HELD
EXPIRY entry joins the tail of the outstanding set, and its record is OUTSTANDING with this holder; any other entry, a
SWEEP-DONE among them, is freed, and its record is CLEAR, and retired when the disposal is CLOSE-AFTER and the record
an IDLE one-shot one. This holds of each of several entries. No entry that is not delivered leaves its queue, and no
record changes that none of them names and that is not on the blocked list (R19, R98 to R100, R179). When a PLAIN entry
is delivered, or damage that a read found touched a notice, the holding queues are served at the event's end (R118,
log 22). -/
def Obligations.TakeDelivers : Prop :=
  ∀ (s s1 : State) (p : Port) (pl : List Octet) (n : Nat) (es kept : List Entry), s.Asks p pl →
    requestOf pl = some .take → parseTake pl = some n → s1 = s.readSlots (s.queuedSlots p) →
    es = (s1.notices.queues[p].filter fun e =>
      s.notices.queues[p].any (fun x => decide (x.stamp = e.stamp)) && !s1.marked e).take n →
    kept = (es.filter fun e => decide (e.kind = .expiry ∧ e.cls = .held ∧ e.slot ≠ none)).map
      (fun e => { e with deliveries := saturate8 e.deliveries 1 }) →
    ∃ t, exec (.take p) s = .next t
      ∧ s.Answered t p .ok ([octet es.length,
            if t.notices.queues[p].any (fun e => !t.marked e) then 1 else 0]
          ++ es.flatMap fun e => ({ e with deliveries := saturate8 e.deliveries 1 } : Entry).descriptor)
      ∧ s1.Apart t
      ∧ (es = [] → s1.notices = s.notices → t = { s1 with links := t.links })
      ∧ ((∃ e ∈ es, e.cls = .plain) ∨ s1.notices ≠ s.notices → t.PoolsServed)
      ∧ t.notices.outstanding[p] = s1.notices.outstanding[p] ++ kept
      ∧ (∀ q : Port, q ≠ p → t.notices.outstanding[q] = s1.notices.outstanding[q])
      ∧ (∀ q : Port, ∀ e ∈ s1.notices.queues[q], q ≠ p ∨ e ∉ es → e ∈ t.notices.queues[q])
      ∧ (s1.notices.blocked = [] → t.HasEntries (s1.entries.diff es ++ kept))
      ∧ (∀ i, (∀ b ∈ s1.notices.blocked, b.slot ≠ i) → (∀ e ∈ es, e.slot ≠ some i) → t.record i = s1.record i)
      ∧ ∀ e i r, es.filter (fun x => decide (x.slot = some i)) = [e] → r = s1.record i →
          (∀ b ∈ s1.notices.blocked, b.slot ≠ i) →
          (e.kind = .expiry → e.cls = .held →
              t.record i = { r with notice := .outstanding, holder := some p })
          ∧ (e.kind = .fault → t.record i = { r with notice := .clear, holder := none })
          ∧ (e.kind = .expiry → e.cls = .plain →
            (¬ (r.disposal = .closeAfter ∧ r.sched = .idle ∧ r.period = none) →
              t.record i = { r with notice := .clear, holder := none })
            ∧ (r.disposal = .closeAfter → r.sched = .idle → r.period = none → r.fault = none →
              t.record i = { Record.blank with generation := r.generation + 1 }))

/-- The 30 octets of a notice descriptor (Table 12-5): of an EXPIRY notice with the fired deadline and its
flags, of a FAULT notice with its fault part, and of a SWEEP-DONE notice with the sweep number and retired
count in place of a handle and a deadline (R101, R179). -/
def Obligations.DescriptorLayout : Prop :=
  ∀ (e : Entry) (i : SlotIx) (d a : Tick),
    (e.kind = .expiry → e.slot = some i → e.firedDeadline = some d → e.firedAt = some a →
      e.abandoned = false → e.faultPart = none →
      e.descriptor = [1, octet (e.cls.code * 128 + e.urgency.val)] ++ octetsOf 2 i.val ++ [e.generation]
        ++ octetsOf 4 e.cookie.toNat ++ octetsOf 8 d.toNat ++ octetsOf 8 a.toNat
        ++ [e.overrun, octet ((if e.late then 1 else 0) + (if e.early then 2 else 0)
              + (if e.delayed then 4 else 0) + (if e.rangeEnd then 8 else 0)),
            octet e.destination.code, octet ((e.assigned.map Fin.val).getD 0), e.deliveries])
    ∧ (e.kind = .fault → e.slot = some i → e.firedDeadline = none → e.firedAt = none → e.late = false →
      e.early = false → e.rangeEnd = false → e.abandoned = false →
      (e.faultPart = some .timing →
        e.descriptor = [2, octet (e.cls.code * 128 + e.urgency.val)] ++ octetsOf 2 i.val ++ [e.generation]
          ++ octetsOf 4 e.cookie.toNat ++ List.replicate 16 0
          ++ [e.overrun, octet (if e.delayed then 4 else 0), octet e.destination.code,
              octet ((e.assigned.map Fin.val).getD 0), e.deliveries])
      ∧ (e.faultPart = some .identity →
        e.descriptor = [2, octet (e.cls.code * 128 + e.urgency.val)] ++ octetsOf 2 (i.val + 32768) ++ [0]
          ++ octetsOf 4 e.cookie.toNat ++ List.replicate 16 0
          ++ [e.overrun, octet ((if e.delayed then 4 else 0) + 32), octet e.destination.code,
              octet ((e.assigned.map Fin.val).getD 0), e.deliveries]))
    ∧ (∀ number, e.kind = .sweepDone → e.slot = none → e.sweepNumber = some number → e.firedAt = none →
      e.late = false → e.early = false → e.delayed = false → e.rangeEnd = false → e.faultPart = none →
      e.descriptor = [3, octet (e.cls.code * 128 + e.urgency.val), 0, 0, 0] ++ octetsOf 4 e.cookie.toNat
        ++ [number] ++ octetsOf 2 e.retired ++ List.replicate 13 0
        ++ [e.overrun, octet (if e.abandoned then 16 else 0), octet e.destination.code,
            octet ((e.assigned.map Fin.val).getD 0), e.deliveries])

/-- ACK of an OUTSTANDING notice by its holder, owner or not, frees the entry and makes the record CLEAR. Given
an interval it arms an IDLE one-shot record at now plus the interval; without one, such a record whose disposal
is CLOSE-AFTER is retired; any other record keeps its schedule. A DAMAGED record's FAULT notice is then raised.
The response carries the states and whether the rearm was applied. NOT-HOLDER, STATE, LIST-FAILED and RANGE
refuse it in that order (R103 to R106, Table 6-4). The holding queues are served once, at the event's end, for the
read and for the ACK (R118, log 22). -/
def Obligations.AckConsumesNotice : Prop :=
  ∀ (s s1 : State) (p : Port) (pl : List Octet) (h : Handle) (rearm : Option Interval) (r : Record),
    s.Asks p pl → requestOf pl = some .ack → parseAck pl = some (h, rearm) → s1 = s.readSlot h.slot →
    r = s1.record h.slot → r.sched ≠ .free → (r.fault = some .identity ∨ r.generation = h.generation) →
    r.mark = none →
    (r.notice ≠ .outstanding → exec (.ack p) s = .next ((s.checkedRead h.slot).refuse p .state))
    ∧ (r.notice = .outstanding → r.holder ≠ some p →
        exec (.ack p) s = .next ((s.checkedRead h.slot).refuse p .notHolder))
    ∧ (r.notice = .outstanding → r.holder = some p →
      (∀ n, rearm = some n →
        (s1.expiry.listState = .failed →
            exec (.ack p) s = .next ((s.checkedRead h.slot).refuse p .listFailed))
        ∧ (s1.expiry.listState ≠ .failed → Config.timeMax < s.timeBase.now.toNat + n.toNat →
            exec (.ack p) s = .next ((s.checkedRead h.slot).refuse p .range)))
      ∧ ∀ e, (∀ n, rearm = some n → s1.expiry.listState ≠ .failed
            ∧ s.timeBase.now.toNat + n.toNat ≤ Config.timeMax) →
          s1.notices.outstanding[p].find? (fun x => decide (x.slot = some h.slot)) = some e →
          (∀ b ∈ s1.notices.blocked, b.slot ≠ h.slot) →
        ∃ t, exec (.ack p) s = .next t
          ∧ s.Answered t p .ok [statesOctet r.sched .outstanding,
              if rearm ≠ none ∧ r.sched = .idle ∧ r.period = none then 1 else 0]
          ∧ s1.Apart t ∧ s1.SameUnblocked t h.slot ∧ t.PoolsServed
          ∧ t.notices.outstanding[p] = s1.notices.outstanding[p].erase e
          ∧ (∀ q : Port, q ≠ p → t.notices.outstanding[q] = s1.notices.outstanding[q])
          ∧ (s1.notices.blocked = [] → r.sched ≠ .damaged → t.HasEntries (s1.entries.erase e))
          ∧ (∀ n, rearm = some n → r.sched = .idle → r.period = none → ∃ d : Tick,
              d.toNat = s.timeBase.now.toNat + n.toNat
              ∧ t.record h.slot = { r with notice := .clear, holder := none, deadline := some d,
                                           remaining := none, sched := .queued }
              ∧ (s1.notices.blocked = [] →
                  t.placement = { s1.placement with queue := s1.placement.queue ++ [h.slot] }))
          ∧ (rearm = none → r.sched = .idle → r.period = none → r.disposal = .closeAfter → r.fault = none →
              t.record h.slot = { Record.blank with generation := r.generation + 1 })
          ∧ (r.sched ≠ .damaged → r.sched ≠ .idle ∨ r.period ≠ none ∨ (rearm = none ∧ r.disposal = .keep) →
              t.record h.slot = { r with notice := .clear, holder := none }
              ∧ (s1.notices.blocked = [] → t.placement = s1.placement))
          ∧ (r.sched = .damaged → s.isUp (s1.faultPort r) = false →
              t.record h.slot
                = { r with notice := .clear, holder := none, overrun := saturate8 r.overrun 1 })
          ∧ (r.sched = .damaged → s.isUp (s1.faultPort r) = true →
              (t.record h.slot).notice = .pending ∨ (t.record h.slot).notice = .waiting))

/-- RELEASE by the holder makes the record PENDING again. An entry for a port rejoins that port's queue by its
urgency and original stamp; an entry for a pool goes to the first accepting member other than the releasing
port, else back to the releasing port when it is an accepting member without the entry, else into the holding
queue; its contents do not change. Behind a pool entry the holding queues are served at the event's end (R118).
NOT-HOLDER and STATE refuse it (R107, R108, R120, Table 6-4). What is exact for a pool is said for a state whose holding
queues are empty, in which no other entry is reassigned. -/
def Obligations.ReleaseGivesBack : Prop :=
  ∀ (s s1 : State) (p : Port) (pl : List Octet) (h : Handle) (r : Record),
    s.Asks p pl → requestOf pl = some .release → parseHandleOnly pl = some h → s1 = s.checkedRead h.slot →
    r = s1.record h.slot → r.sched ≠ .free → r.sched ≠ .damaged → r.generation = h.generation →
    r.mark = none →
    (r.notice ≠ .outstanding → exec (.release p) s = .next (s1.refuse p .state))
    ∧ (r.notice = .outstanding → r.holder ≠ some p → exec (.release p) s = .next (s1.refuse p .notHolder))
    ∧ (r.notice = .outstanding → r.holder = some p → ∀ e,
        s1.notices.outstanding[p].find? (fun x => decide (x.slot = some h.slot)) = some e →
      ∃ t, exec (.release p) s = .next t ∧ s.Answered t p .ok [statesOctet r.sched .outstanding]
        ∧ t.record h.slot = { r with notice := .pending, holder := none }
        ∧ s1.SameBut t h.slot ∧ s1.Apart t ∧ t.placement = s1.placement ∧ t.expiry = s1.expiry
        ∧ t.notices.outstanding[p] = s1.notices.outstanding[p].erase e
        ∧ (∀ q : Port, q ≠ p → t.notices.outstanding[q] = s1.notices.outstanding[q])
        ∧ t.HasEntries s1.entries
        ∧ (∀ q, e.destination = .port q →
            t.notices.queues[q] = insertEntry { e with assigned := some q } s1.notices.queues[q]
            ∧ (∀ m : Port, m ≠ q → t.notices.queues[m] = s1.notices.queues[m])
            ∧ t.notices.holding = s1.notices.holding ∧ t.pools = s1.pools)
        ∧ (∀ k, e.destination = .pool k → t.PoolsServed ∧ ∀ m : Pool, t.pools[m].Perm s1.pools[m])
        ∧ (∀ k, e.destination = .pool k → (∀ m : Pool, s1.notices.holding[m] = []) →
          (∀ q, s1.pools[k].find? (fun m => decide (m ≠ p) && s1.accepting m) = some q →
            t.notices.queues[q] = insertEntry { e with assigned := some q } s1.notices.queues[q]
            ∧ t.pools[k] = s1.pools[k].erase q ++ [q] ∧ t.notices.holding = s1.notices.holding)
          ∧ (s1.pools[k].find? (fun m => decide (m ≠ p) && s1.accepting m) = none →
            (p ∈ s1.pools[k] → s.isUp p = true →
              s1.notices.queues[p].length + s1.notices.outstanding[p].length ≤ s1.portTable.limit[p] →
              t.notices.queues[p] = insertEntry { e with assigned := some p } s1.notices.queues[p]
              ∧ t.pools[k] = s1.pools[k].erase p ++ [p] ∧ t.notices.holding = s1.notices.holding)
            ∧ (p ∉ s1.pools[k] ∨ s.isUp p = false ∨ s1.portTable.limit[p]
                < s1.notices.queues[p].length + s1.notices.outstanding[p].length →
              t.notices.holding[k] = [{ e with assigned := none }] ∧ t.pools = s1.pools
              ∧ t.notices.queues = s1.notices.queues))))

/-- ATTENTION-SET writes the requesting port's own threshold and re-evaluates its line in the same event, and
answers with the threshold before; only a payload that breaks its format refuses it. Device reset sets every
threshold to 0, and no other command changes one (R111, with R110 for the line). -/
def Obligations.ThresholdIsSet : Prop :=
  (∀ (s : State) (p : Port) (pl : List Octet), s.Asks p pl → requestOf pl = some .attentionSet →
    (∀ v, parseThreshold pl = some v → ∃ t, exec (.attentionSet p) s = .next t
      ∧ (∃ q, s.nextRequest p = some q ∧ t.links[p] = { s.links[p].answer q
            [Result.ok.code, octet s.notices.thresholds[p].val] with
          attention := decide (∃ e ∈ s.notices.queues[p], s.marked e = false ∧ v ≤ e.urgency) })
      ∧ (∀ r : Port, r ≠ p → t.links[r] = s.links[r])
      ∧ t.notices.thresholds[p] = v
      ∧ (∀ r : Port, r ≠ p → t.notices.thresholds[r] = s.notices.thresholds[r])
      ∧ t = { s with notices := { s.notices with thresholds := t.notices.thresholds }, links := t.links })
    ∧ (parseThreshold pl = none → exec (.attentionSet p) s = .next (s.refuse p .format))
    ∧ (pl.length = 2 → 7 < octetAt pl 1 → parseThreshold pl = none))
  ∧ ∀ (c : Instr) (s t : State), exec c s = .next t →
    (c = .deviceReset → ∀ p : Port, t.notices.thresholds[p] = 0)
    ∧ (c ≠ .deviceReset → ∀ p : Port, c ≠ .attentionSet p →
        t.notices.thresholds[p] = s.notices.thresholds[p])

/-- POOL-SET replaces the pool's rotation order with the ports given, serves the holding queues, so that no pool holds
an entry that is not passed over while one of its members is accepting, and answers with the order before: its length
and its ports. With nothing held anywhere the pool is all that changes (R118, R122). -/
def Obligations.PoolIsSet : Prop :=
  ∀ (s : State) (p : Port) (pl : List Octet) (k : Pool) (ports : List Port), s.Asks p pl →
    requestOf pl = some .poolSet → parsePoolSet pl = some (k, ports) → s.portTable.supervisor = p →
    ∃ t, exec (.poolSet p) s = .next t
      ∧ s.Answered t p .ok (octet s.pools[k].length :: s.pools[k].map fun q => octet q.val)
      ∧ t.pools[k].Perm ports ∧ (∀ m : Pool, t.pools[m].Perm (if m = k then ports else s.pools[m]))
      ∧ ((∀ m : Pool, s.notices.holding[m] = []) → t.pools[k] = ports
          ∧ (∀ m : Pool, m ≠ k → t.pools[m] = s.pools[m])
          ∧ t = { s with pools := t.pools, links := t.links })
      ∧ (∀ (m : Pool), ∀ e ∈ t.notices.holding[m], t.marked e = false → ∀ r ∈ t.pools[m], t.accepting r = false)
      ∧ t.HasEntries s.entries
      ∧ t = { s with pools := t.pools, notices := { s.notices with
                queues := t.notices.queues, holding := t.notices.holding }, links := t.links }

/-! ### The time base and the scrubber -/

/-- TIME-READ, from any port, answers with the time base as it stands at its application: the current time, the
state, the prescaler in force, and the pending prescaler or 0 for its absence. It changes no state but the
port's own answer, and it waits behind the requests ahead of it. A payload of another length is refused with
FORMAT (R25). A tick applied before it is seen in the time it reads; that a TICK of the table comes at any phase is
log 3, and that it leaves no pending prescaler is log 10. -/
def Obligations.TimeReadReports : Prop :=
  ∀ (s : State) (p : Port),
    (∀ q, s.nextRequest p = some q → q.condition ≠ .waiting ∨ requestOf q.payload ≠ some .timeRead →
      exec (.timeRead p) s = .next s)
    ∧ ∀ pl : List Octet, s.Asks p pl → requestOf pl = some .timeRead →
      (pl.length ≠ 1 → exec (.timeRead p) s = .next (s.refuse p .format))
      ∧ (pl.length = 1 → ∃ t, exec (.timeRead p) s = .next t ∧ t = { s with links := t.links }
        ∧ ∃ q, s.nextRequest p = some q ∧ (∀ r : Port, r ≠ p → t.links[r] = s.links[r])
          ∧ t.links[p] = s.links[p].answer q ([Result.ok.code] ++ octetsOf 8 s.timeBase.now.toNat
            ++ [(match s.timeBase.mode with | .frozen => 0 | .running => 1 | .exhausted => 2 : Octet)]
            ++ octetsOf 2 s.timeBase.prescaler
            ++ octetsOf 2 (match s.timeBase.pendingPrescaler with | none => 0 | some v => v)))
      ∧ (s.timeBase.mode = .running → ∃ u, exec .tick s = .next u ∧ u.links = s.links
        ∧ u.timeBase.now = s.timeBase.now + 1 ∧ (pl.length = 1 → ∃ t, exec (.timeRead p) u = .next t
          ∧ ∃ q, s.nextRequest p = some q ∧ t.links[p] = s.links[p].answer q ([Result.ok.code]
            ++ octetsOf 8 (s.timeBase.now + 1).toNat
            ++ [(match u.timeBase.mode with | .frozen => 0 | .running => 1 | .exhausted => 2 : Octet)]
            ++ octetsOf 2 u.timeBase.prescaler ++ octetsOf 2 0)))

/-- TIME-RUN is refused with DENIED at a port without the supervisor right. From FROZEN it makes the time base
RUNNING, with the tick phase and the prescaler held, from which the reference clock counts on; with the time at
time max it makes it EXHAUSTED with phase 0; in RUNNING and EXHAUSTED it changes nothing. It answers with the
time and the state just before. Which records are due does not depend on it (R30). -/
def Obligations.TimeRunStartsTicks : Prop :=
  ∀ (s : State) (p : Port) (pl : List Octet), s.Asks p pl → requestOf pl = some .timeRun → pl.length = 1 →
    (s.portTable.supervisor ≠ p → exec (.timeRun p) s = .next (s.refuse p .denied))
    ∧ (s.portTable.supervisor = p → ∃ t, exec (.timeRun p) s = .next t
      ∧ s.Answered t p .ok (octetsOf 8 s.timeBase.now.toNat
          ++ [(match s.timeBase.mode with | .frozen => 0 | .running => 1 | .exhausted => 2 : Octet)])
      ∧ (s.timeBase.mode = .frozen → s.timeBase.now.toNat < Config.timeMax →
          t.timeBase = { s.timeBase with mode := .running }
          ∧ (s.timeBase.phase + 1 < s.timeBase.prescaler →
              t.clockTimeBase.timeBase.phase = s.timeBase.phase + 1 ∧ t.clockTimeBase.timeBase.now = t.timeBase.now)
          ∧ (s.timeBase.prescaler ≤ s.timeBase.phase + 1 →
              t.clockTimeBase.timeBase.phase = 0 ∧ t.clockTimeBase.timeBase.now = t.timeBase.now + 1))
      ∧ (s.timeBase.mode = .frozen → s.timeBase.now.toNat = Config.timeMax →
          t.timeBase = { s.timeBase with mode := .exhausted, phase := 0 })
      ∧ (s.timeBase.mode ≠ .frozen → t.timeBase = s.timeBase)
      ∧ (∀ i, t.dueHead i = s.dueHead i)
      ∧ t = { s with timeBase := t.timeBase, links := t.links })

/-- TIME-SET writes the current time and starts a new tick interval with phase 0 and a pending prescaler in
force; the state follows Table 2-2. TIME-FREEZE makes the time base FROZEN, holding time, phase and prescalers,
with phase 0 from EXHAUSTED. PRESCALE makes its value the pending prescaler. Each answers with what stood just
before, and changes nothing else (R26, R31, R32). -/
def Obligations.TimeBaseIsWritten : Prop :=
  ∀ (s : State) (p : Port) (pl : List Octet), s.Asks p pl → s.portTable.supervisor = p →
    (∀ v : Tick, requestOf pl = some .timeSet → pl.length = 9 → v.toNat = fieldAt pl 1 8 →
      ∃ t, exec (.timeSet p) s = .next t
        ∧ s.Answered t p .ok (octetsOf 8 s.timeBase.now.toNat ++ [s.timeBase.mode.code])
        ∧ t.timeBase.now = v ∧ t.timeBase.phase = 0 ∧ t.timeBase.pendingPrescaler = none
        ∧ t.timeBase.prescaler
            = (match s.timeBase.pendingPrescaler with | none => s.timeBase.prescaler | some w => w)
        ∧ (s.timeBase.mode = .frozen → t.timeBase.mode = .frozen)
        ∧ (s.timeBase.mode ≠ .frozen → v.toNat = Config.timeMax → t.timeBase.mode = .exhausted)
        ∧ (s.timeBase.mode ≠ .frozen → v.toNat < Config.timeMax → t.timeBase.mode = .running)
        ∧ t = { s with timeBase := t.timeBase, links := t.links })
    ∧ (requestOf pl = some .timeFreeze → pl.length = 1 →
      ∃ t, exec (.timeFreeze p) s = .next t
        ∧ s.Answered t p .ok (octetsOf 8 s.timeBase.now.toNat ++ [s.timeBase.mode.code])
        ∧ (s.timeBase.mode ≠ .exhausted → t.timeBase = { s.timeBase with mode := .frozen })
        ∧ (s.timeBase.mode = .exhausted → t.timeBase = { s.timeBase with mode := .frozen, phase := 0 })
        ∧ t = { s with timeBase := t.timeBase, links := t.links })
    ∧ (∀ v, requestOf pl = some .prescale → pl.length = 3 → v = fieldAt pl 1 2 → 1 ≤ v → v ≤ 4096 →
      ∃ t, exec (.prescale p) s = .next t ∧ s.Answered t p .ok (octetsOf 2 s.timeBase.prescaler)
        ∧ t = { s with timeBase := { s.timeBase with pendingPrescaler := some v }, links := t.links })

/-- A tick of a RUNNING time base below time max raises the current time by one, returns the phase to 0, puts a
pending prescaler in force, and at time max makes the time base EXHAUSTED (R22, R23; that the row TICK ticks from any
phase is log 3, and that the prescaler changes at that tick too is log 10). The scrubber counts it while its interval
is above 0, and at the interval a visit is due, which is counted until it is made, and the count returns to 0 (R140,
log 11). In FROZEN and EXHAUSTED there is no tick. -/
def Obligations.TickAdvancesTime : Prop :=
  ∀ s : State,
    (s.timeBase.mode ≠ .running → exec .tick s = .next s)
    ∧ (s.timeBase.mode = .running → s.timeBase.now.toNat < Config.timeMax → ∃ t, exec .tick s = .next t
      ∧ t.timeBase.now.toNat = s.timeBase.now.toNat + 1 ∧ t.timeBase.phase = 0
      ∧ t.timeBase.prescaler
          = (match s.timeBase.pendingPrescaler with | none => s.timeBase.prescaler | some w => w)
      ∧ t.timeBase.pendingPrescaler = none
      ∧ (t.timeBase.now.toNat = Config.timeMax → t.timeBase.mode = .exhausted)
      ∧ (t.timeBase.now.toNat < Config.timeMax → t.timeBase.mode = .running)
      ∧ (s.scrubber.interval = 0 → t.scrubber = s.scrubber)
      ∧ (s.scrubber.ticks + 1 < s.scrubber.interval →
          t.scrubber = { s.scrubber with ticks := s.scrubber.ticks + 1 })
      ∧ (0 < s.scrubber.interval → s.scrubber.interval ≤ s.scrubber.ticks + 1 →
          t.scrubber = { s.scrubber with ticks := 0, visitsDue := s.scrubber.visitsDue + 1 })
      ∧ t = { s with timeBase := t.timeBase, scrubber := t.scrubber })

/-- SCRUB-SET writes the interval and returns the tick count to 0, the cursor kept, and answers with the
interval before (R141). A visit that is due advances the cursor, from 1023 to 0, and reads the slot it stood at;
with a record still ARMED whose link fails it is a list fault, and otherwise the read is all it does (R140,
R142; visits are counted until they are made, log 11). FROZEN or EXHAUSTED the scrubber makes none (R23, R31). -/
def Obligations.ScrubberVisits : Prop :=
  ∀ s : State,
    (∀ (p : Port) (pl : List Octet), s.Asks p pl → requestOf pl = some .scrubSet → pl.length = 3 →
      s.portTable.supervisor = p → ∃ t, exec (.scrubSet p) s = .next t
        ∧ s.Answered t p .ok (octetsOf 2 s.scrubber.interval)
        ∧ t = { s with scrubber := { s.scrubber with interval := fieldAt pl 1 2, ticks := 0 }, links := t.links })
    ∧ (s.scrubber.visitsDue = 0 ∨ s.timeBase.mode ≠ .running → exec .scrubVisit s = .next s)
    ∧ ∀ (s0 s1 : State) (i : SlotIx), i = s.scrubber.cursor → 0 < s.scrubber.visitsDue →
      s.timeBase.mode = .running →
      s0 = { s with scrubber := { s.scrubber with
        cursor := if h : i.val + 1 < 1024 then ⟨i.val + 1, h⟩ else 0, visitsDue := s.scrubber.visitsDue - 1 } } →
      s1 = s0.checkedRead i →
      (((s1.record i).sched = .armed ∧ s1.expiry.listState ≠ .failed
          ∧ ∃ m ∈ s1.expiry.list, m.slot = i ∧ m.linkHolds = false) →
        exec .scrubVisit s = .next s1.listFault)
      ∧ (¬ ((s1.record i).sched = .armed ∧ s1.expiry.listState ≠ .failed
          ∧ ∃ m ∈ s1.expiry.list, m.slot = i ∧ m.linkHolds = false) →
        exec .scrubVisit s = .next s1)

/-! ### Placement and the deadline list -/

/-- The idle placement unit takes the head of its queue unless the list is FAILED. The head is read: one the
read damaged is not taken; a marked one leaves the queue and becomes IDLE; any other becomes PLACING and is
carried, counted as a rebuild member when it stood in the rebuild part (R55, R57). -/
def Obligations.PlacementTakesHead : Prop :=
  ∀ (s s1 : State) (i : SlotIx) (rest : List SlotIx) (r : Record),
    (s.placement.carried ≠ none ∨ s.expiry.listState = .failed ∨ s.placement.queue = [] →
      exec .placementTake s = .next s)
    ∧ (s.placement.carried = none → s.expiry.listState ≠ .failed → s.placement.queue = i :: rest →
      s1 = s.checkedRead i → r = s1.record i →
      (r.sched ≠ .queued → exec .placementTake s = .next s1)
      ∧ (r.sched = .queued → r.mark = none → ∃ t, exec .placementTake s = .next t
        ∧ t.record i = { r with sched := .placing } ∧ s1.SameBut t i
        ∧ t.placement = { queue := rest, rebuildPart := s.placement.rebuildPart - 1,
                          carried := some ⟨i, r.generation, decide (0 < s.placement.rebuildPart), false⟩ }
        ∧ t = { s1 with table := { s1.table with cells := t.table.cells }, placement := t.placement })
      ∧ (r.sched = .queued → r.mark ≠ none → ∃ t, exec .placementTake s = .next t
        ∧ t.record i = { r with sched := .idle } ∧ s1.SameBut t i
        ∧ t.placement = { queue := rest, rebuildPart := s.placement.rebuildPart - 1, carried := none }
        ∧ (s.expiry.listState = .rebuilding → s.placement.rebuildPart ≤ 1 →
            t.expiry = { s.expiry with listState := .normal, restarts := 0 })
        ∧ (s.expiry.listState ≠ .rebuilding ∨ 1 < s.placement.rebuildPart → t.expiry = s.expiry)
        ∧ t = { s1 with table := { s1.table with cells := t.table.cells }, placement := t.placement,
                        expiry := t.expiry }))

/-- The event that ends a placement reads the slot, releases the requests held on it at every port, and decides
by the first row of Table 4-1 that holds: a record retired or damaged meanwhile is discarded; a marked one
becomes IDLE; one overtaken by a list fault returns to the queue, at its head in NORMAL and as the last of the
rebuild part otherwise; and any other becomes ARMED, behind every member whose deadline is lower or equal and
ahead of the first whose deadline is higher. The last rebuild member's end makes a REBUILDING list NORMAL. A
link that fails on the way to the record's position is a list fault, which ends the placement too (R55, R59 to
R61, R64, R67, R148, R149; the walk's reads, its fault and the end are one step, logs 12 and 14). That
a record which is discarded, marked or overtaken has no walk read, and one to insert its whole walk at the end, is
the model's choice (log 35), and so is the service of the holding queues within the step (log 33). -/
def Obligations.PlacementEnds : Prop :=
  ∀ (s s0 s1 : State) (c : Carried) (i : SlotIx) (r : Record) (front : List Member) (failed : Bool),
    s.placement.carried = some c → i = c.slot → s0 = s.readSlot i → s.placementReads c = (s1, failed) →
    r = s1.record i → front = s1.expiry.list.takeWhile (fun m => decide ((s1.record m.slot).due ≤ r.due)) →
    ((s0.record i).sched ≠ .placing ∨ (s0.record i).generation ≠ c.generation ∨ (s0.record i).mark ≠ none
        ∨ c.overtaken = true → failed = false ∧ s1 = s.checkedRead i)
    ∧ (r.sched = .placing → r.generation = c.generation → r.mark = none → c.overtaken = false →
        s.listOrder.Nodup → (s.record i).ChecksPass →
        (∀ m ∈ s.expiry.list, (s.record m.slot).ChecksPass ∧ (s.record m.slot).sched = .armed) →
        s1 = s ∧ (failed = true ↔ ∃ m ∈ front, m.linkHolds = false))
    ∧ (failed = true → exec .placementEnd s = .next s1.listFault.endCarried)
    ∧ (failed = false → ∃ t, exec .placementEnd s = .next t
      ∧ t.placement.carried = none ∧ s1.SameBut t i
      ∧ (∀ q : Port, t.links[q] = { s1.links[q] with
          requests := s1.links[q].requests.map fun x =>
            if x.condition = .held i then { x with condition := .waiting } else x })
      ∧ (r.sched ≠ .placing ∨ r.generation ≠ c.generation → t.record i = r
          ∧ t.placement.queue = s1.placement.queue ∧ t.placement.rebuildPart = s1.placement.rebuildPart
          ∧ t.expiry.list = s1.expiry.list)
      ∧ (r.sched = .placing → r.generation = c.generation →
        (r.mark ≠ none → t.record i = { r with sched := .idle } ∧ t.placement.queue = s1.placement.queue
          ∧ t.placement.rebuildPart = s1.placement.rebuildPart ∧ t.expiry.list = s1.expiry.list)
        ∧ (r.mark = none → c.overtaken = true → t.record i = { r with sched := .queued }
          ∧ t.expiry.list = s1.expiry.list
          ∧ (s1.expiry.listState = .normal → t.placement.queue = i :: s1.placement.queue
              ∧ t.placement.rebuildPart = s1.placement.rebuildPart)
          ∧ (s1.expiry.listState ≠ .normal →
              t.placement.queue = s1.placement.queue.take s1.placement.rebuildPart
                ++ i :: s1.placement.queue.drop s1.placement.rebuildPart
              ∧ t.placement.rebuildPart = s1.placement.rebuildPart + 1))
        ∧ (r.mark = none → c.overtaken = false → t.record i = { r with sched := .armed }
          ∧ t.placement.queue = s1.placement.queue ∧ t.placement.rebuildPart = s1.placement.rebuildPart
          ∧ t.expiry.list = front ++ ⟨i, true⟩ :: s1.expiry.list.drop front.length))
      ∧ (s1.expiry.listState = .rebuilding → t.placement.rebuildPart = 0 →
          t.expiry.listState = .normal ∧ t.expiry.restarts = 0)
      ∧ (s1.expiry.listState ≠ .rebuilding ∨ t.placement.rebuildPart ≠ 0 →
          t.expiry.listState = s1.expiry.listState ∧ t.expiry.restarts = s1.expiry.restarts)
      ∧ t = { s1 with table := { s1.table with cells := t.table.cells }, placement := t.placement,
                      expiry := { t.expiry with firing := s1.expiry.firing }, links := t.links })

/-- A list fault empties the list and ends a companion search. Every record is found by its schedule state: each
ARMED one is read, and the ones that stay ARMED become QUEUED and join the front of the placement queue as its
rebuild part; a carried record is overtaken and counts as a rebuild member. The list is REBUILDING, and NORMAL
at once when nothing is moved, waiting in the rebuild part or carried; a fault in REBUILDING raises the restart
count, and the third makes the list FAILED. The placement unit's fault ends its placement too (R61, R148 to R150;
a link needs a member to be read, log 14). -/
def Obligations.ListFaultRebuilds : Prop :=
  ∀ (s s1 : State) (moved : List SlotIx), s1 = s.readAll s.armedSlots → moved = s1.armedSlots →
    (s.expiry.list = [] ∨ s.expiry.listState = .failed → ∀ finder, exec (.listFault finder) s = .next s)
    ∧ (s.expiry.list ≠ [] → s.expiry.listState ≠ .failed → ∃ t,
      exec (.listFault .expiryEngine) s = .next t ∧ exec (.listFault .scrubber) s = .next t
      ∧ (s.placement.carried = none → exec (.listFault .placementUnit) s = .next s)
      ∧ (s.placement.carried ≠ none → exec (.listFault .placementUnit) s = .next t.endCarried)
      ∧ (∀ i, i ∈ s.armedSlots ↔ (s.record i).sched = .armed)
      ∧ (∀ i, i ∈ moved ↔ (s1.record i).sched = .armed) ∧ (s1.table.wf → moved.Pairwise (· < ·))
      ∧ (∀ i ∈ moved, t.record i = { s1.record i with sched := .queued })
      ∧ (∀ i, i ∉ moved → t.record i = s1.record i)
      ∧ t.placement.queue = moved ++ s1.placement.queue
      ∧ t.placement.rebuildPart = moved.length + s1.placement.rebuildPart
      ∧ t.placement.carried
          = s1.placement.carried.map (fun c => { c with overtaken := true, rebuildMember := true })
      ∧ t.expiry.list = [] ∧ t.expiry.firing = none
      ∧ (s.expiry.listState = .rebuilding → 2 ≤ s.expiry.restarts →
          t.expiry.listState = .failed ∧ t.expiry.restarts = 3)
      ∧ (s.expiry.listState = .normal ∨ s.expiry.restarts < 2 →
        (moved = [] → s1.placement.rebuildPart = 0 → s1.placement.carried = none →
            t.expiry.listState = .normal ∧ t.expiry.restarts = 0)
        ∧ (moved ≠ [] ∨ s1.placement.rebuildPart ≠ 0 ∨ s1.placement.carried ≠ none →
            t.expiry.listState = .rebuilding
            ∧ t.expiry.restarts = (if s.expiry.listState = .normal then 0 else s.expiry.restarts + 1)))
      ∧ t = { s1 with table := { s1.table with cells := t.table.cells }, placement := t.placement,
                      expiry := t.expiry })

/-! ### Expiry -/

/-- The schedule of a record that fires: a one-shot record has no next deadline; an ALIGNED one's is the fired
deadline plus one period; a SKIP one's is the fired deadline plus the least number of periods, 1 or more, that
passes now, and one less than that number is added to the overrun count. A next deadline that would exceed time
max gives RANGE-END instead (R77 to R80). -/
def Obligations.NextDeadlineFollowsPolicy : Prop :=
  ∀ (r : Record) (now : Nat),
    (r.period = none → r.reschedule now = .oneShot)
    ∧ ∀ v : Interval, r.period = some v →
      (r.policy = .aligned →
        (∀ d : Tick, d.toNat = r.due + v.toNat → r.reschedule now = .next d 0)
        ∧ (Config.timeMax < r.due + v.toNat → r.reschedule now = .rangeEnd))
      ∧ (r.policy = .skip → v ≠ 0 → ∃ k, 1 ≤ k ∧ now < r.due + k * v.toNat
        ∧ (∀ j, 1 ≤ j → j < k → r.due + j * v.toNat ≤ now)
        ∧ (∀ d : Tick, d.toNat = r.due + k * v.toNat → r.reschedule now = .next d (k - 1))
        ∧ (Config.timeMax < r.due + k * v.toNat → r.reschedule now = .rangeEnd))

/-- While the list is NORMAL and no companion search is in progress, the engine reads the head, and fires it when it
is still ARMED, due and unmarked (log 12): it leaves the list; its notice is decided by Table 5-2, created when the
record is CLEAR, the target can be reached and a general entry is FREE, put on the blocked list when none is, and lost
to the overrun count otherwise; a one-shot record, or one at its range end, becomes IDLE with its deadline kept, and a
periodic one is QUEUED with its next deadline at the tail; and a search begins over the first 32 members left. A
failed link of the head, which is read after its record (log 14), is a list fault, and in every other state nothing
fires (R24, R70 to R82, R89, R95). -/
def Obligations.DueHeadFires : Prop :=
  ∀ (s s1 : State) (i : SlotIx) (holds : Bool) (rest : List Member) (r : Record) (late : Bool),
    (s.expiry.listState ≠ .normal ∨ s.expiry.firing ≠ none ∨ s.expiry.list = [] → exec .firing s = .next s)
    ∧ (s.expiry.listState = .normal → s.expiry.firing = none → s.expiry.list = ⟨i, holds⟩ :: rest →
      s1 = s.checkedRead i → r = s1.record i → late = decide (r.due < s.timeBase.now.toNat) →
      (r.sched ≠ .armed ∨ s.timeBase.now.toNat < r.due ∨ r.mark ≠ none → exec .firing s = .next s1)
      ∧ (r.sched = .armed → r.due ≤ s.timeBase.now.toNat → r.mark = none →
        ((∃ m ∈ s.expiry.list, m.slot = i ∧ m.linkHolds = false) → exec .firing s = .next s1.listFault)
        ∧ ((∀ m ∈ s.expiry.list, m.slot = i → m.linkHolds = true) → ∃ t r1, exec .firing s = .next t
        ∧ s1.SameBut t i ∧ s1.Apart t ∧ t.listOrder = s1.listOrder.erase i
        ∧ t.expiry.firing = (if s1.listOrder.erase i = [] then none
            else some ⟨i, r.generation, r.target, (s1.listOrder.erase i).take 32, 0⟩)
        ∧ (r.notice = .clear → (∀ p : Port, r.target = .port p → s.isUp p = true) →
          (∀ n, s1.freeGeneral = some n → r1 = { r with notice := .pending, holder := none, overrun := 0 }
            ∧ t.notices.stamp = s1.notices.stamp + 1 ∧ t.notices.blocked = s1.notices.blocked
            ∧ t.HasEntries
              ({ number := n, kind := .expiry, slot := some i, generation := r.generation, cls := r.cls,
                 urgency := r.urgency, cookie := r.cookie, firedDeadline := some (r.deadline.getD 0),
                 firedAt := some s.timeBase.now, overrun := r.overrun, late := late, early := false,
                 delayed := false, rangeEnd := decide (r.reschedule s.timeBase.now.toNat = .rangeEnd),
                 destination := r.target, assigned := none, deliveries := 0, stamp := s1.notices.stamp,
                 sweepNumber := none, retired := 0, abandoned := false, faultPart := none } :: s1.entries))
          ∧ (s1.freeGeneral = none → r1 = { r with notice := .waiting, holder := none }
            ∧ t.notices = { s1.notices with blocked := s1.notices.blocked ++ [⟨i, .firing (r.deadline.getD 0)
                s.timeBase.now late (decide (r.reschedule s.timeBase.now.toNat = .rangeEnd))⟩] }))
        ∧ (r.notice ≠ .clear ∨ (∃ p : Port, r.target = .port p ∧ s.isUp p = false) →
            r1 = { r with overrun := saturate8 r.overrun 1 } ∧ t.notices = s1.notices ∧ t.pools = s1.pools)
        ∧ (r.reschedule s.timeBase.now.toNat = .oneShot ∨ r.reschedule s.timeBase.now.toNat = .rangeEnd →
            t.record i = { r1 with sched := .idle } ∧ t.placement = s1.placement)
        ∧ (∀ d passed, r.reschedule s.timeBase.now.toNat = .next d passed →
            t.record i = { r1 with sched := .queued, deadline := some d, overrun := saturate8 r1.overrun passed }
            ∧ t.placement = { s1.placement with queue := s1.placement.queue ++ [i] }))))

/-- The companion search considers the members of its window in turn. One that meets every condition of Table
5-4 is fired at once with EARLY, as a head is; any other stays. Either way it leaves the window, and the search
ends with the window or after 8 companions; behind a member that its read has damaged it goes on from what that damage
has left of the window (log 12). A failed link of the member, which is read before its record (log 14), is a list fault
(R82 to R85, R89). -/
def Obligations.CompanionsFireEarly : Prop :=
  ∀ (s s1 : State) (f : Firing) (i : SlotIx) (rest : List SlotIx) (r : Record),
    (s.expiry.firing = none → exec .companionFiring s = .next s)
    ∧ (s.expiry.firing = some f → f.window = i :: rest → s1 = s.checkedRead i → r = s1.record i →
      ((∃ m ∈ s.expiry.list, m.slot = i ∧ m.linkHolds = false) → exec .companionFiring s = .next s.listFault)
      ∧ ((∀ m ∈ s.expiry.list, m.slot = i → m.linkHolds = true) →
        (r.sched ≠ .armed →
          (s1.expiry.firing = none → exec .companionFiring s = .next s1)
          ∧ ∀ g, s1.expiry.firing = some g → exec .companionFiring s = .next { s1 with
              expiry := { s1.expiry with
                firing := if g.window.erase i = [] ∨ g.companions = 8 then none
                  else some { g with window := g.window.erase i } } })
        ∧ (r.sched = .armed → r.target ≠ f.target ∨ r.notice ≠ .clear ∨ r.mark ≠ none
            ∨ r.due ≤ s.timeBase.now.toNat ∨ s.timeBase.now.toNat + r.slack.toNat < r.due
            ∨ s1.freeGeneral = none ∨ (∃ p : Port, r.target = .port p ∧ s.isUp p = false) →
          exec .companionFiring s = .next { s1 with
            expiry := { s1.expiry with
              firing := if rest = [] ∨ f.companions = 8 then none else some { f with window := rest } } })
        ∧ ∀ n, r.sched = .armed → r.target = f.target → r.notice = .clear → r.mark = none →
          s.timeBase.now.toNat < r.due → r.due ≤ s.timeBase.now.toNat + r.slack.toNat →
          s1.freeGeneral = some n → (∀ p : Port, r.target = .port p → s.isUp p = true) →
          ∃ t r1, exec .companionFiring s = .next t ∧ s1.SameBut t i ∧ s1.Apart t
            ∧ t.listOrder = s1.listOrder.erase i
            ∧ t.expiry.firing = (if rest = [] ∨ f.companions + 1 = 8 then none
                else some { f with window := rest, companions := f.companions + 1 })
            ∧ r1 = { r with notice := .pending, holder := none, overrun := 0 }
            ∧ t.notices.stamp = s1.notices.stamp + 1 ∧ t.notices.blocked = s1.notices.blocked
            ∧ t.HasEntries
              ({ number := n, kind := .expiry, slot := some i, generation := r.generation, cls := r.cls,
                 urgency := r.urgency, cookie := r.cookie, firedDeadline := some (r.deadline.getD 0),
                 firedAt := some s.timeBase.now, overrun := r.overrun, late := false, early := true,
                 delayed := false, rangeEnd := decide (r.reschedule s.timeBase.now.toNat = .rangeEnd),
                 destination := r.target, assigned := none, deliveries := 0, stamp := s1.notices.stamp,
                 sweepNumber := none, retired := 0, abandoned := false, faultPart := none } :: s1.entries)
            ∧ (r.reschedule s.timeBase.now.toNat = .oneShot ∨ r.reschedule s.timeBase.now.toNat = .rangeEnd →
                t.record i = { r1 with sched := .idle } ∧ t.placement = s1.placement)
            ∧ (∀ d passed, r.reschedule s.timeBase.now.toNat = .next d passed →
                t.record i = { r1 with sched := .queued, deadline := some d,
                                       overrun := saturate8 r1.overrun passed }
                ∧ t.placement = { s1.placement with queue := s1.placement.queue ++ [i] })))

/-- While the list is NORMAL and no companion search is in progress, the engine reads the head (log 12), and a head
still ARMED that is marked leaves the list without firing and becomes IDLE, its deadline and its notice kept; a failed
link of the head, which is read after its record (log 14), is a list fault (R86, R89). -/
def Obligations.MarkedHeadIsRemoved : Prop :=
  ∀ (s s1 : State) (i : SlotIx) (holds : Bool) (rest : List Member) (r : Record),
    (s.expiry.listState ≠ .normal ∨ s.expiry.firing ≠ none ∨ s.expiry.list = [] →
      exec .markedHeadRemoval s = .next s)
    ∧ (s.expiry.listState = .normal → s.expiry.firing = none → s.expiry.list = ⟨i, holds⟩ :: rest →
      s1 = s.checkedRead i → r = s1.record i →
      (r.sched ≠ .armed ∨ r.mark = none → exec .markedHeadRemoval s = .next s1)
      ∧ (r.sched = .armed → r.mark ≠ none →
        ((∃ m ∈ s.expiry.list, m.slot = i ∧ m.linkHolds = false) →
          exec .markedHeadRemoval s = .next s1.listFault)
        ∧ ((∀ m ∈ s.expiry.list, m.slot = i → m.linkHolds = true) → ∃ t, exec .markedHeadRemoval s = .next t
          ∧ t.record i = { r with sched := .idle } ∧ s1.SameBut t i ∧ t.listOrder = s1.listOrder.erase i
          ∧ t = { s1 with table := { s1.table with cells := t.table.cells },
                          expiry := { s1.expiry with list := t.expiry.list, firing := t.expiry.firing } })))

/-! ### Sweeps -/

/-- The idle sweep unit takes the TOTAL sweep if one is queued, else the TAG or PORT sweep queued earliest. Its
start reads every record, sets the retired count and the cursor to 0 and marks every record it matches, by owner
and tag, by owner, or all of them, but for one whose identity failed; nothing else of a record changes, and every
attention line is re-evaluated without the marked records' notices (R98, R110, R126, R130; the reads come before
the marks, log 20). When a read's damage touched a notice, the holding queues are served behind the marks, which adds
and loses no entry (R118, R143, log 22). -/
def Obligations.SweepStartMarks : Prop :=
  ∀ (s s0 s1 : State) (w : Sweep) (rest : List Sweep),
    (s.sweeps.current ≠ none ∨ (s.sweeps.total = none ∧ s.sweeps.places = []) → exec .sweepStart s = .next s)
    ∧ (s.sweeps.current = none →
      (s.sweeps.total = some w ∧ s0 = { s with sweeps := { s.sweeps with total := none } })
        ∨ (s.sweeps.total = none ∧ s.sweeps.places = w :: rest ∧ s0 = s) →
      s1 = s0.readSlots s0.liveSlots →
      ∃ t, exec .sweepStart s = .next t
        ∧ (∀ i, i ∈ s0.liveSlots ↔ (s.record i).sched ≠ .free)
        ∧ t.sweeps = { s0.sweeps with current := some ⟨w, 0, 0⟩ }
        ∧ (∀ (i : SlotIx) (r : Record), r = s1.record i →
          (r.sched ≠ .free → r.fault ≠ some .identity →
            (w.kind = .total ∨ (∃ p, w.kind = .port p ∧ r.owner = some p)
              ∨ ∃ o g q, w.kind = .tag o g q ∧ r.owner = some o ∧ r.tag = g) →
            t.record i = { r with mark := some w.number })
          ∧ (r.sched = .free ∨ r.fault = some .identity ∨ (∃ p, w.kind = .port p ∧ r.owner ≠ some p)
              ∨ (∃ o g q, w.kind = .tag o g q ∧ ¬ (r.owner = some o ∧ r.tag = g)) → t.record i = r))
        ∧ (∀ p : Port, t.links[p] = { s.links[p] with
            attention := decide (∃ e ∈ t.notices.queues[p], t.marked e = false
              ∧ t.notices.thresholds[p] ≤ e.urgency) })
        ∧ (s1.notices = s.notices → t.notices = s.notices ∧ t.pools = s1.pools)
        ∧ (s1.notices ≠ s.notices → ∀ (k : Pool), ∀ e ∈ t.notices.holding[k], t.marked e = false →
            ∀ q ∈ t.pools[k], t.accepting q = false)
        ∧ t.HasEntries s1.entries
        ∧ t = { s1 with
                table := { s1.table with cells := t.table.cells }, sweeps := t.sweeps, links := t.links
                pools := t.pools
                notices := { s1.notices with queues := t.notices.queues, holding := t.notices.holding } })

/-- RETIRE-TAG queues a TAG sweep and CLEAR-ALL the TOTAL sweep. Each takes the next sweep number, which it
answers with and which then advances, from 255 to 1; when the unit is idle the sweep unit starts a sweep in the
same event. RETIRE-TAG is refused with BUSY while two TAG sweeps of the port are queued or in progress, and
CLEAR-ALL while a TOTAL sweep is queued (R126 to R129). -/
def Obligations.SweepRequestsQueue : Prop :=
  ∀ (s u : State) (p : Port) (pl : List Octet) (next : SweepNumber), s.Asks p pl →
    next = (if s.sweeps.nextNumber = 255 then 1 else s.sweeps.nextNumber + 1) →
    (∀ (owner : Port) (tag : BitVec 16), requestOf pl = some .retireTag →
      parseRetireTag pl = some (owner, tag) → owner = p ∨ s.portTable.supervisor = p →
      u = { s with sweeps := { s.sweeps with
        nextNumber := next
        places := s.sweeps.places ++ [⟨s.sweeps.nextNumber, .tag owner tag p⟩] } } →
      (2 ≤ (s.sweeps.places.filter (isTagSweepOf p)).length →
        exec (.retireTag p) s = .next (s.refuse p .busy))
      ∧ ((s.sweeps.places.filter (isTagSweepOf p)).length < 2 →
        ∃ t v, exec (.retireTag p) s = .next t ∧ s.Answered t p .ok [s.sweeps.nextNumber]
          ∧ t = { v with links := t.links } ∧ exec .sweepStart u = .next v
          ∧ (s.sweeps.current ≠ none → v = u)))
    ∧ (requestOf pl = some .clearAll → pl.length = 1 → s.portTable.supervisor = p →
      u = { s with sweeps := { s.sweeps with
        nextNumber := next
        total := some ⟨s.sweeps.nextNumber, .total⟩ } } →
      (s.sweeps.total ≠ none → exec (.clearAll p) s = .next (s.refuse p .busy))
      ∧ (s.sweeps.total = none →
        ∃ t v, exec (.clearAll p) s = .next t ∧ s.Answered t p .ok [s.sweeps.nextNumber]
          ∧ t = { v with links := t.links } ∧ exec .sweepStart u = .next v
          ∧ (s.sweeps.current ≠ none → v = u)))

/-- The walk visits the slot at its cursor, which it reads, and advances the cursor. A record that carries the
sweep's mark, or in a TOTAL sweep one whose identity failed, is retired and counted; any other slot is left as
the read left it (R5, R15, R132). The holding queues are served once, at the event's end (R118, log 22). -/
def Obligations.SweepVisitRetires : Prop :=
  ∀ (s s1 : State) (run : SweepRun) (i : SlotIx) (r : Record),
    (s.sweeps.current = none → exec .sweepVisit s = .next s)
    ∧ (s.sweeps.current = some run → 1024 ≤ run.cursor → exec .sweepVisit s = .next s)
    ∧ (s.sweeps.current = some run → run.cursor = i.val → s1 = s.readSlot i → r = s1.record i →
      (r.sched = .free
          ∨ (r.mark ≠ some run.sweep.number ∧ (run.sweep.kind ≠ .total ∨ r.fault ≠ some .identity)) →
        exec .sweepVisit s = .next { s.checkedRead i with sweeps := { s.sweeps with
          current := some { run with cursor := run.cursor + 1 } } })
      ∧ (r.sched ≠ .free →
          r.mark = some run.sweep.number ∨ (run.sweep.kind = .total ∧ r.fault = some .identity) →
        ∃ t, exec .sweepVisit s = .next t
          ∧ t.sweeps = { s1.sweeps with
              current := some { run with retired := run.retired + 1, cursor := run.cursor + 1 } }
          ∧ t.record i = { Record.blank with
              generation := if r.fault = some .identity then 0 else r.generation + 1 }
          ∧ t.table.occupied = s1.table.occupied.erase i ∧ (∀ b ∈ t.notices.blocked, b.slot ≠ i)
          ∧ t.placement.carried = s1.placement.carried ∧ s1.SameUnblocked t i ∧ t.PoolsServed
          ∧ t.timeBase = s1.timeBase ∧ t.portTable = s1.portTable))

/-- The end of a TAG sweep frees its place and gives its requesting port a SWEEP-DONE notice of urgency 0 with
its number and its retired count, when that port is UP and a reserve entry of its own is FREE. The end of a PORT
sweep frees its place, creates no notice, and makes a RECOVERING port UP: LINK-ACCEPT is formed, the window is
the pending one, the port's other items start anew, and the holding queues are served, which adds and loses no
entry and no pool member; with nothing held no notice moves. Neither end comes before the walk has visited every
slot (R94, R118, R126, R132, R134, R135, R157, R158). -/
def Obligations.TagAndPortSweepsEnd : Prop :=
  ∀ (s : State) (run : SweepRun) (q : Port), s.sweeps.current = some run →
    (run.cursor < 1024 → exec .tagSweepEnd s = .next s ∧ exec .portSweepEnd s = .next s
      ∧ exec .totalSweepEnd s = .next s)
    ∧ (∀ o g, run.sweep.kind = .tag o g q → 1024 ≤ run.cursor → ∃ t, exec .tagSweepEnd s = .next t
      ∧ t.sweeps = { s.sweeps with
          places := s.sweeps.places.filter (fun w => decide (w ≠ run.sweep)), current := none }
      ∧ (s.isUp q = false ∨ s.freeReserve q = none → t.notices = s.notices)
      ∧ (s.isUp q = true → ∀ n, s.freeReserve q = some n → t.notices.stamp = s.notices.stamp + 1
        ∧ (∀ m : Port, m ≠ q → t.notices.queues[m] = s.notices.queues[m])
        ∧ ∃ e, t.notices.queues[q] = insertEntry e s.notices.queues[q] ∧ e.kind = .sweepDone ∧ e.number = n
          ∧ e.slot = none ∧ e.sweepNumber = some run.sweep.number ∧ e.retired = run.retired
          ∧ e.abandoned = false ∧ e.urgency = 0 ∧ e.cls = .plain ∧ e.destination = .port q
          ∧ e.stamp = s.notices.stamp ∧ e.assigned = some q)
      ∧ (∀ m : Port, t.links[m] = { s.links[m] with attention := t.links[m].attention })
      ∧ t = { s with sweeps := t.sweeps, links := t.links, notices := { s.notices with
              queues := t.notices.queues, stamp := t.notices.stamp } })
    ∧ (run.sweep.kind = .port q → 1024 ≤ run.cursor → ∃ t, exec .portSweepEnd s = .next t
      ∧ t.sweeps = { s.sweeps with
          places := s.sweeps.places.filter (fun w => decide (w ≠ run.sweep)), current := none }
      ∧ (s.links[q].state ≠ .recovering → t = { s with sweeps := t.sweeps })
      ∧ (∀ w, s.links[q].state = .recovering → s.links[q].pendingWindow = some w →
        t.links[q] = { s.links[q] with
          state := .up, window := w, pendingWindow := none, expected := 0, requests := [], history := [],
          badRun := 0, attention := t.links[q].attention,
          transmit := formOther
            ⟨.linkAccept, 0, [octet q.val, octet w, if s.portTable.supervisor = q then 1 else 0]⟩
            s.links[q].transmit }
        ∧ (∀ m : Port, m ≠ q → t.links[m] = { s.links[m] with attention := t.links[m].attention })
        ∧ t.HasEntries s.entries ∧ t.PoolsServed ∧ (∀ k : Pool, t.pools[k].Perm s.pools[k])
        ∧ ((∀ k : Pool, s.notices.holding[k] = []) → t = { s with sweeps := t.sweeps, links := t.links })
        ∧ t = { s with sweeps := t.sweeps, links := t.links, pools := t.pools, notices := { s.notices with
                queues := t.notices.queues, holding := t.notices.holding } }))

/-- The end of a TOTAL sweep: the blocked list is emptied, every EXPIRY and FAULT entry is freed, and the records
they name are CLEAR with their overrun counts kept; SWEEP-DONE entries stay; every pool is empty; every TAG sweep
still queued is removed with an ABANDONED notice of retired count 0 to its port; the list is NORMAL with an empty
rebuild part; the supervisor port is given the SWEEP-DONE notice; and PORT sweeps keep their places. A notice
needs its port UP and a FREE reserve entry: with one of the two FREE, the first of these notices to a port is
created, with both FREE the second too, and a port that is not UP, or whose two are in use, gets none: as many of
these notices are created for a port that is UP as it has reserve entries FREE (R90, R94, R126, R136). -/
def Obligations.TotalSweepEnds : Prop :=
  ∀ (s : State) (run : SweepRun), s.sweeps.current = some run → run.sweep.kind = .total → 1024 ≤ run.cursor →
    ∃ t, exec .totalSweepEnd s = .next t
      ∧ t.sweeps = { s.sweeps with
          current := none
          places := s.sweeps.places.filter fun w => !isTagSweep w }
      ∧ t.notices.blocked = [] ∧ (∀ k : Pool, t.pools[k] = [])
      ∧ (∀ e ∈ t.entries, e.kind = .sweepDone)
      ∧ (∀ p : Port, ∀ e ∈ s.notices.queues[p], e.kind = .sweepDone → e ∈ t.notices.queues[p])
      ∧ (∀ i, ((∃ b ∈ s.notices.blocked, b.slot = i) ∨ ∃ e ∈ s.entries, e.slot = some i) →
          t.record i = { s.record i with notice := .clear, holder := none })
      ∧ (∀ i, (∀ b ∈ s.notices.blocked, b.slot ≠ i) → (∀ e ∈ s.entries, e.slot ≠ some i) →
          t.record i = s.record i)
      ∧ t.expiry = { s.expiry with listState := .normal, restarts := 0 }
      ∧ t.placement = { s.placement with
          rebuildPart := 0
          carried := s.placement.carried.map fun c => { c with rebuildMember := false } }
      ∧ (∀ q w more, s.sweeps.places.filter (isTagSweepOf q) = w :: more →
          s.isUp q = true → s.freeReserve q ≠ none →
          ∃ e ∈ t.notices.queues[q], e.kind = .sweepDone ∧ e.sweepNumber = some w.number ∧ e.abandoned = true
            ∧ e.retired = 0 ∧ e.urgency = 0)
      ∧ (∀ q w v more, s.sweeps.places.filter (isTagSweepOf q) = w :: v :: more → s.isUp q = true →
          (∀ e ∈ s.entries, e.number ≠ 248 + 2 * q.val ∧ e.number ≠ 249 + 2 * q.val) →
          ∃ e ∈ t.notices.queues[q], e.kind = .sweepDone ∧ e.sweepNumber = some v.number ∧ e.abandoned = true
            ∧ e.retired = 0 ∧ e.urgency = 0)
      ∧ (∀ p, s.portTable.supervisor = p → s.sweeps.places.filter (isTagSweepOf p) = [] →
          s.isUp p = true → s.freeReserve p ≠ none →
          ∃ e ∈ t.notices.queues[p], e.kind = .sweepDone ∧ e.sweepNumber = some run.sweep.number
            ∧ e.abandoned = false ∧ e.retired = run.retired ∧ e.urgency = 0)
      ∧ (∀ p w, s.portTable.supervisor = p → s.sweeps.places.filter (isTagSweepOf p) = [w] → s.isUp p = true →
          (∀ e ∈ s.entries, e.number ≠ 248 + 2 * p.val ∧ e.number ≠ 249 + 2 * p.val) →
          ∃ e ∈ t.notices.queues[p], e.kind = .sweepDone ∧ e.sweepNumber = some run.sweep.number
            ∧ e.abandoned = false ∧ e.retired = run.retired ∧ e.urgency = 0)
      ∧ (∀ q, s.isUp q = false →
          t.notices.queues[q] = s.notices.queues[q].filter fun e => decide (e.kind = .sweepDone))
      ∧ (∀ q : Port, (∀ n ∈ [248 + 2 * q.val, 249 + 2 * q.val],
            ∃ e ∈ s.entries, e.kind = .sweepDone ∧ e.number = n) →
          t.notices.queues[q] = s.notices.queues[q].filter fun e => decide (e.kind = .sweepDone))
      ∧ (∀ (q : Port) (left wanted : Nat), s.isUp q = true →
          left = ([248 + 2 * q.val, 249 + 2 * q.val].filter fun n =>
            s.entries.all fun e => decide (e.kind = .sweepDone → e.number ≠ n)).length →
          wanted = (s.sweeps.places.filter (isTagSweepOf q)).length
            + (if s.portTable.supervisor = q then 1 else 0) →
          t.notices.queues[q].length
            = (s.notices.queues[q].filter fun e => decide (e.kind = .sweepDone)).length + min left wanted)
      ∧ (∀ m : Port, t.links[m] = { s.links[m] with attention := t.links[m].attention })
      ∧ t.notices.thresholds = s.notices.thresholds
      ∧ t = { s with table := { s.table with cells := t.table.cells }, notices := t.notices, pools := t.pools,
                     sweeps := t.sweeps, expiry := t.expiry, placement := t.placement, links := t.links }

/-! ### The client link -/

/-- FRAME_START: between frames the bits received are searched for A5h at any bit position; the first A5h begins
a frame, to which the bits behind it belong, and bits without one are discarded but for the last seven. A begun
frame that gets no further bit is counted by the reference clock, and at 65,536 periods it is cut off, as
FRAME_CUT_OFF does; a port that has not begun a frame is not cut off (R152; that FRAME_CUT_OFF takes no effect
elsewhere is log 4). Further bits of a begun frame join it, and the periods are counted anew; that this row brings
them is log 16. -/
def Obligations.FramesBeginAndAreCutOff : Prop :=
  ∀ (s : State) (p : Port),
    (∀ (bits : List Bool) (found : List Bool) (quiet : Nat), s.links[p].receiver = .receiving found quiet →
      exec (.frameStart p bits) s = .next (s.modifyLink p fun l =>
        { l with receiver := .receiving (found ++ bits) (if bits = [] then quiet else 0) }))
    ∧ (∀ bits window : List Bool, s.links[p].receiver = .searching window → window.length ≤ 7 →
      ∃ t, exec (.frameStart p bits) s = .next t ∧ t = { s with links := t.links }
        ∧ (∀ q : Port, q ≠ p → t.links[q] = s.links[q])
        ∧ t.links[p] = { s.links[p] with receiver := t.links[p].receiver }
        ∧ (∀ front rest, window ++ bits = front ++ startBits ++ rest →
            (∀ f r, window ++ bits = f ++ startBits ++ r → front.length ≤ f.length) →
            t.links[p].receiver = .receiving rest 0)
        ∧ ((∀ f r, window ++ bits ≠ f ++ startBits ++ r) → t.links[p].receiver
            = .searching ((window ++ bits).drop ((window ++ bits).length - 7))))
    ∧ (∀ window, s.links[p].receiver = .searching window →
        s.clockPort p = s ∧ exec (.frameCutOff p) s = .next s)
    ∧ ∀ (bits : List Bool) (quiet : Nat), s.links[p].receiver = .receiving bits quiet →
      (∀ x, takeFrame bits = some x → s.clockPort p = s ∧ exec (.frameCutOff p) s = .next s)
      ∧ (takeFrame bits = none → quiet + 1 < 65536 →
          s.clockPort p = s.modifyLink p fun l => { l with receiver := .receiving bits (quiet + 1) })
      ∧ (takeFrame bits = none → 65536 ≤ quiet + 1 → exec (.frameCutOff p) s = .next (s.clockPort p))

/-- A bad frame, ended or cut off, is answered with a REJECT of sequence number 0 and its reason, but in DISABLED;
in UP it raises the bad-frame run, and the eighth in a row takes the port out of UP for DOWN, with the REJECT kept
ahead of LINK-CLOSE. Nothing else changes, and the port searches again. The first condition of Table 10-1 that a
whole frame meets gives the reason: CHECK, then KIND, then CONTENT; a length octet above 250 ends the frame there
with LENGTH (R152 to R155, R159; the octets of the row follow the start octet, log 16; the row FRAME_CUT_OFF cuts a
begun frame off at any count of periods, log 17). -/
def Obligations.BadFramesAreRejected : Prop :=
  (∀ (c : Instr) (s u : State) (p : Port) (octets : List Octet) (reason : RejectReason) (next : Receiver),
    ((c = .badFrame p octets ∧ ∃ left, takeFrame (s.links[p].receiver.held ++ bitsOfOctets octets)
          = some (.bad reason, left) ∧ next = hunt [] left)
      ∨ (c = .frameCutOff p ∧ reason = .cut ∧ next = .searching []
          ∧ ∃ bits quiet, s.links[p].receiver = .receiving bits quiet ∧ takeFrame bits = none)) →
    u = s.modifyLink p (fun l => { l with receiver := next }) →
    (s.links[p].state = .disabled → exec c s = .next u)
    ∧ (s.links[p].state = .down ∨ s.links[p].state = .recovering → exec c s = .next (u.modifyLink p fun l =>
        { l with transmit := formOther ⟨.reject, 0, [reason.code]⟩ l.transmit }))
    ∧ (s.links[p].state = .up → s.links[p].badRun < 7 → exec c s = .next (u.modifyLink p fun l =>
        { l with badRun := l.badRun + 1, transmit := formOther ⟨.reject, 0, [reason.code]⟩ l.transmit }))
    ∧ (s.links[p].state = .up → 7 ≤ s.links[p].badRun → ∃ kept, exec c s = .next ((u.leaveUp p .down kept).modifyLink
          p fun l => { l with transmit := formOther ⟨.linkClose, 0, []⟩ l.transmit })
        ∧ ((s.links[p].transmit.filter fun o => decide (o.place = .other)).length < 8 →
            kept = [⟨⟨.reject, 0, [reason.code]⟩, .other⟩])
        ∧ (8 ≤ (s.links[p].transmit.filter fun o => decide (o.place = .other)).length → kept = [])))
  ∧ (∀ (s : State) (p : Port) (octets : List Octet), (∀ reason left, takeFrame (s.links[p].receiver.held
      ++ bitsOfOctets octets) ≠ some (.bad reason, left)) → exec (.badFrame p octets) s = .next s)
  ∧ ∀ (header length : Octet) (payload check : List Octet),
    (octetsOf 2 (crc16 (header :: length :: payload)).toNat ≠ check →
      judge header length payload check = .bad .check)
    ∧ (octetsOf 2 (crc16 (header :: length :: payload)).toNat = check →
      (header.toNat % 16 ≠ 1 → header.toNat % 16 ≠ 3 → header.toNat % 16 ≠ 6 →
        judge header length payload check = .bad .kind)
      ∧ (header.toNat % 16 = 3 → (∀ w : Octet, payload = [w] → w.toNat = 0 ∨ 4 < w.toNat) →
        judge header length payload check = .bad .content)
      ∧ (header.toNat % 16 = 6 → payload ≠ [] → judge header length payload check = .bad .content))
    ∧ ∀ rest : List Bool, 250 < length.toNat →
      takeFrame (bitsOfOctets [header, length] ++ rest) = some (.bad .length, rest)

/-- A port that leaves UP: its requests, its reply history and its run are emptied, the frames not begun are
discarded but for the ones kept, and the frame being sent, which is the head of the transmit queue (log 15), holds one
of the eight other places; its notice queue and outstanding set are emptied and its attention line is deasserted; and
its PORT sweep is queued, unless it is there already. An entry for the port loses its notice to the overrun count, an
entry for a pool is offered again, and a DAMAGED record's FAULT notice is raised when its entry was OUTSTANDING; this
is exact for a port with one entry and no record on the blocked list, after the read of its record (log 12). The
holding queues are served at the event's end (R112, R118, R126, R159, Table 6-5). -/
def Obligations.LeavingUpEmptiesPort : Prop :=
  ∀ (s t : State) (p : Port) (x : LinkState) (kept : List Outgoing), x ≠ .up → t = s.leaveUp p x kept →
    t.notices.queues[p] = [] ∧ t.notices.outstanding[p] = [] ∧ t.links[p].attention = false
    ∧ (∀ (k : Pool), ∀ e ∈ t.notices.holding[k], t.marked e = false → ∀ q ∈ t.pools[k], t.accepting q = false)
    ∧ ∃ u : State,
      (s.hasPortSweep p = true → t = u.settle)
      ∧ (s.hasPortSweep p = false → ∃ v, exec .sweepStart { u with sweeps := { s.sweeps with
          places := s.sweeps.places ++ [⟨s.sweeps.nextNumber, .port p⟩]
          nextNumber := if s.sweeps.nextNumber = 255 then 1 else s.sweeps.nextNumber + 1 } } = .next v
        ∧ t = v.settle)
      ∧ u.links[p] = { s.links[p] with
          state := x, requests := [], history := [], badRun := 0, pendingWindow := none,
          transmit := (s.links[p].transmit.take 1).map (fun o => { o with place := .other }) ++ kept }
      ∧ (∀ q : Port, q ≠ p → u.links[q] = s.links[q])
      ∧ u.notices.queues[p] = [] ∧ u.notices.outstanding[p] = [] ∧ s.Apart u
      ∧ u.notices.thresholds = s.notices.thresholds
      ∧ (∀ i, (∀ b ∈ s.notices.blocked, b.slot ≠ i) → (∀ e ∈ s.notices.queues[p], e.slot ≠ some i) →
          (∀ e ∈ s.notices.outstanding[p], e.slot ≠ some i) → u.record i = s.record i)
      ∧ (s.notices.queues[p] = [] → s.notices.outstanding[p] = [] → ∀ i, u.record i = s.record i)
      ∧ ∀ (e : Entry) (i : SlotIx) (s1 : State) (r : Record), e.slot = some i →
        s1 = ({ s with links := u.links } : State).readSlot i → s1.notices.blocked = [] → r = s1.record i →
        (s.notices.queues[p] = [e] ∧ s.notices.outstanding[p] = [] ∧ e ∈ s1.notices.queues[p])
          ∨ (s.notices.queues[p] = [] ∧ s.notices.outstanding[p] = [e] ∧ e ∈ s1.notices.outstanding[p]) →
        (e.kind = .fault ∨ (e.kind = .expiry ∧ (∃ q, e.destination = .port q)
            ∧ (r.sched ≠ .damaged ∨ s.notices.outstanding[p] = [])) →
          u.record i = { r with notice := .clear, holder := none, overrun := saturate8 r.overrun 1 }
          ∧ u.HasEntries (s1.entries.erase e))
        ∧ (e.kind = .expiry → (∃ k, e.destination = .pool k) → r.sched ≠ .damaged →
          u.record i = { r with notice := .pending, holder := none } ∧ u.HasEntries s1.entries)
        ∧ (e.kind = .expiry → r.sched = .damaged →
            (∃ k, e.destination = .pool k) ∨ s.notices.outstanding[p] = [e] →
          (s1.isUp (s1.faultPort r) = false → u.record i = { r with
              notice := .clear, holder := none, overrun := saturate8 (saturate8 r.overrun 1) 1 }
            ∧ u.HasEntries (s1.entries.erase e))
          ∧ (s1.isUp (s1.faultPort r) = true →
              (u.record i).notice = .waiting ∨ ((u.record i).notice = .pending
                ∧ ∃ x ∈ u.notices.queues[s1.faultPort r], x.kind = .fault ∧ x.slot = some i)))

/-- LINK-OPEN and LINK-CLOSE by link state (Table 10-3). LINK-OPEN: REJECT with reason DISABLED; from DOWN,
LINK-ACCEPT and UP with the window asked for and every item new, and the holding queues served, which adds and loses
no entry and no pool member (R118), or LINK-WAIT and RECOVERING while the PORT sweep is there; in RECOVERING a new pending window and LINK-WAIT; in UP a restart, which leaves UP and then recovers.
LINK-CLOSE: ignored in DISABLED, answered with LINK-CLOSE elsewhere, from RECOVERING and UP for DOWN (R156 to R159).
Every other frame of these rows' octets changes nothing (log 4, log 16). -/
def Obligations.LinksOpenAndClose : Prop :=
  ∀ (s u : State) (p : Port) (octets : List Octet) (left : List Bool),
    u = s.modifyLink p (fun l => { l with receiver := hunt [] left }) →
    (∀ w, takeFrame (s.links[p].receiver.held ++ bitsOfOctets octets) = some (.linkOpen w, left) →
      (s.links[p].state = .disabled → exec (.linkOpen p octets) s = .next (u.modifyLink p fun l =>
        { l with transmit := formOther ⟨.reject, 0, [6]⟩ l.transmit }))
      ∧ (s.links[p].state = .recovering ∨ (s.links[p].state = .down ∧ s.hasPortSweep p = true) →
        exec (.linkOpen p octets) s = .next (u.modifyLink p fun l =>
          { l with
            state := .recovering, pendingWindow := some w
            transmit := formOther ⟨.linkWait, 0, []⟩ l.transmit }))
      ∧ (s.links[p].state = .down → s.hasPortSweep p = false → ∃ t, exec (.linkOpen p octets) s = .next t
        ∧ t.links[p] = { u.links[p] with
            state := .up, window := w, pendingWindow := none, expected := 0, requests := [], history := [],
            badRun := 0, attention := t.links[p].attention,
            transmit := formOther
              ⟨.linkAccept, 0, [octet p.val, octet w, if s.portTable.supervisor = p then 1 else 0]⟩
              s.links[p].transmit }
        ∧ (∀ q : Port, q ≠ p → t.links[q] = { s.links[q] with attention := t.links[q].attention })
        ∧ t.HasEntries s.entries ∧ t.PoolsServed ∧ (∀ k : Pool, t.pools[k].Perm s.pools[k])
        ∧ ((∀ k : Pool, s.notices.holding[k] = []) → t = { s with links := t.links })
        ∧ t = { s with links := t.links, pools := t.pools, notices := { s.notices with
                queues := t.notices.queues, holding := t.notices.holding } })
      ∧ (s.links[p].state = .up → exec (.linkOpen p octets) s
          = .next ((u.leaveUp p .down []).modifyLink p fun l =>
            { l with
              state := .recovering, pendingWindow := some w
              transmit := formOther ⟨.linkWait, 0, []⟩ l.transmit })))
    ∧ (takeFrame (s.links[p].receiver.held ++ bitsOfOctets octets) = some (.linkClose, left) →
      (s.links[p].state = .disabled → exec (.linkClose p octets) s = .next u)
      ∧ (s.links[p].state = .down ∨ s.links[p].state = .recovering →
        exec (.linkClose p octets) s = .next (u.modifyLink p fun l =>
          { l with
            state := .down
            pendingWindow := if s.links[p].state = .down then l.pendingWindow else none
            transmit := formOther ⟨.linkClose, 0, []⟩ l.transmit }))
      ∧ (s.links[p].state = .up → exec (.linkClose p octets) s = .next ((u.leaveUp p .down []).modifyLink p
          fun l => { l with transmit := formOther ⟨.linkClose, 0, []⟩ l.transmit })))
    ∧ ((∀ w rest, takeFrame (s.links[p].receiver.held ++ bitsOfOctets octets) ≠ some (.linkOpen w, rest)) →
        exec (.linkOpen p octets) s = .next s)
    ∧ ((∀ rest, takeFrame (s.links[p].receiver.held ++ bitsOfOctets octets) ≠ some (.linkClose, rest)) →
        exec (.linkClose p octets) s = .next s)

/-- A good REQUEST in UP ends the run of bad frames and is decided by the first row of Table 10-4 that holds: a
number in the reply history is answered by the stored response; the expected number is taken while the list holds
fewer requests than the window, and the expected number advances, from 15 to 0; with a full list it is answered
with WINDOW-FULL; and any other number with SEQUENCE and the expected number. These answers carry the number of
the REQUEST, take one of the eight other places, and are not stored. In DOWN a REQUEST is answered with LINK-CLOSE,
in RECOVERING with LINK-WAIT, and in DISABLED not at all (R154, R156, R161 to R163). The octets of the row follow the
start octet (log 16), and a row whose octets are judged otherwise changes nothing (log 4). -/
def Obligations.RequestFramesAreSequenced : Prop :=
  ∀ (s u : State) (p : Port) (octets : List Octet) (seq : SeqNumber) (payload : List Octet) (left : List Bool),
    u = s.modifyLink p (fun l => { l with receiver := hunt [] left }) →
    (takeFrame (s.links[p].receiver.held ++ bitsOfOctets octets) = some (.request seq payload, left) →
      (s.links[p].state = .disabled → exec (.requestFrame p octets) s = .next u)
      ∧ (s.links[p].state = .down → exec (.requestFrame p octets) s = .next (u.modifyLink p fun l =>
          { l with transmit := formOther ⟨.linkClose, 0, []⟩ l.transmit }))
      ∧ (s.links[p].state = .recovering → exec (.requestFrame p octets) s = .next (u.modifyLink p fun l =>
          { l with transmit := formOther ⟨.linkWait, 0, []⟩ l.transmit }))
      ∧ (s.links[p].state = .up →
        (∀ stored, s.links[p].history.find? (fun h => decide (h.seq = seq)) = some stored →
          exec (.requestFrame p octets) s = .next (u.modifyLink p fun l =>
            { l with badRun := 0, transmit := formOther ⟨.response, seq, stored.payload⟩ l.transmit }))
        ∧ ((∀ h ∈ s.links[p].history, h.seq ≠ seq) →
          (seq = s.links[p].expected → s.links[p].requests.length < s.links[p].window →
            exec (.requestFrame p octets) s = .next (u.modifyLink p fun l =>
              { l with
                badRun := 0, expected := seq + 1
                requests := l.requests ++ [⟨seq, payload, .waiting⟩] }))
          ∧ (seq = s.links[p].expected → s.links[p].window ≤ s.links[p].requests.length →
            exec (.requestFrame p octets) s = .next (u.modifyLink p fun l =>
              { l with badRun := 0, transmit := formOther ⟨.response, seq, [0x0E]⟩ l.transmit }))
          ∧ (seq ≠ s.links[p].expected →
            exec (.requestFrame p octets) s = .next (u.modifyLink p fun l =>
              { l with
                badRun := 0
                transmit := formOther ⟨.response, seq, [0x0D, octet s.links[p].expected.toNat]⟩
                  l.transmit })))))
    ∧ ((∀ n os rest, takeFrame (s.links[p].receiver.held ++ bitsOfOctets octets) ≠ some (.request n os, rest)) →
        exec (.requestFrame p octets) s = .next s)

/-- The end of a frame's sending frees its place, and for a response to a taken request removes the request at the
head of the list; a frame in one of the other places removes none (R155, R162). The frame at the head of the
transmit queue is the one being sent (log 15). -/
def Obligations.SendingEnds : Prop :=
  ∀ (s : State) (p : Port),
    (s.links[p].transmit = [] → exec (.frameSent p) s = .next s)
    ∧ ∀ (o : Outgoing) (rest : List Outgoing), s.links[p].transmit = o :: rest →
      (o.place = .response → exec (.frameSent p) s = .next (s.modifyLink p fun l =>
        { l with transmit := rest, requests := l.requests.drop 1 }))
      ∧ (o.place = .other → exec (.frameSent p) s = .next (s.modifyLink p fun l => { l with transmit := rest }))

/-! ### Supervision -/

/-- QUOTA-SET, PORT-LIMIT-SET and HAND-OVER of the supervisor port write one item of the port table and answer with
the value just before. A raised notice limit serves the holding queues in the same event, and a limit that is not
raised moves no entry. HAND-OVER is refused with STATE when the port named is not UP (R169 to R171). -/
def Obligations.PortTableIsWritten : Prop :=
  ∀ (s : State) (p q : Port) (payload : List Octet), s.Asks p payload → s.portTable.supervisor = p →
    (∀ v, requestOf payload = some .quotaSet → parseQuotaSet payload = some (q, v) →
      ∃ t, exec (.quotaSet p) s = .next t ∧ s.Answered t p .ok (octetsOf 2 s.portTable.quota[q])
        ∧ t = { s with
                links := t.links
                portTable := { s.portTable with quota := s.portTable.quota.set q.val v q.isLt } })
    ∧ (∀ v, requestOf payload = some .portLimitSet → parsePortLimitSet payload = some (q, v) →
      ∃ t, exec (.portLimitSet p) s = .next t ∧ s.Answered t p .ok [octet s.portTable.limit[q]]
        ∧ (v ≤ s.portTable.limit[q] → t.notices = s.notices ∧ t.pools = s.pools)
        ∧ (s.portTable.limit[q] < v → ∀ (k : Pool), ∀ e ∈ t.notices.holding[k], t.marked e = false →
            ∀ r ∈ t.pools[k], t.accepting r = false)
        ∧ t.HasEntries s.entries
        ∧ t = { s with
                links := t.links, pools := t.pools
                notices := { s.notices with queues := t.notices.queues, holding := t.notices.holding }
                portTable := { s.portTable with limit := s.portTable.limit.set q.val v q.isLt } })
    ∧ (requestOf payload = some .handOver → parsePortOnly payload = some q →
      (s.links[q].state ≠ .up → exec (.handOver p) s = .next (s.refuse p .state))
      ∧ (s.links[q].state = .up → ∃ t, exec (.handOver p) s = .next t ∧ s.Answered t p .ok [octet p.val]
        ∧ t = { s with links := t.links, portTable := { s.portTable with supervisor := q } }))

/-- PORT-DISABLE and PORT-ENABLE of the supervisor port answer with the named port's link state just before.
PORT-DISABLE is refused with STATE for the requesting port; a disabled port does not change; a port that is UP
leaves UP for DISABLED and LINK-CLOSE is formed; a port that is DOWN or RECOVERING becomes DISABLED without a
pending window, and its PORT sweep is queued unless it is there already. PORT-ENABLE makes a disabled port enabled
and DOWN and changes no other port. Enabled state and link state change together (R160, R167, R172). -/
def Obligations.PortsAreDisabledAndEnabled : Prop :=
  ∀ (s off : State) (p q : Port) (payload : List Octet), s.Asks p payload → s.portTable.supervisor = p →
    parsePortOnly payload = some q →
    off = { s with portTable := { s.portTable with enabled := s.portTable.enabled.set q.val false q.isLt } } →
    (requestOf payload = some .portDisable →
      (q = p → exec (.portDisable p) s = .next (s.refuse p .state))
      ∧ (q ≠ p → ∃ u t, exec (.portDisable p) s = .next t ∧ u.Answered t p .ok [(match s.links[q].state with
          | .disabled => 0 | .down => 1 | .recovering => 2 | .up => 3 : Octet)]
        ∧ t = { u with links := t.links }
        ∧ (s.links[q].state = .disabled → u = s)
        ∧ (s.links[q].state = .up → u = (off.leaveUp q .disabled []).modifyLink q fun l =>
            { l with transmit := formOther ⟨.linkClose, 0, []⟩ l.transmit })
        ∧ (s.links[q].state = .down ∨ s.links[q].state = .recovering →
          ∃ v : State, v = off.modifyLink q (fun l => { l with state := .disabled, pendingWindow := none })
            ∧ (s.hasPortSweep q = true → u = v)
            ∧ (s.hasPortSweep q = false → exec .sweepStart { v with sweeps := { s.sweeps with
                places := s.sweeps.places ++ [⟨s.sweeps.nextNumber, .port q⟩]
                nextNumber := if s.sweeps.nextNumber = 255 then 1 else s.sweeps.nextNumber + 1 } }
                = .next u))))
    ∧ (requestOf payload = some .portEnable →
      ∃ u t, exec (.portEnable p) s = .next t ∧ u.Answered t p .ok [(match s.links[q].state with
          | .disabled => 0 | .down => 1 | .recovering => 2 | .up => 3 : Octet)]
        ∧ t = { u with links := t.links }
        ∧ (s.links[q].state ≠ .disabled → u = s)
        ∧ (s.links[q].state = .disabled → u = ({ s with portTable := { s.portTable with
              enabled := s.portTable.enabled.set q.val true q.isLt } } : State).modifyLink q fun l =>
            { l with state := .down }))

/-- STATUS answers any port with the 24 octets of Table 12-6, each item as it stands at the one event of the
application, and ECHO with the octets behind its request code. Neither changes anything but the port's own answer
(R166, R175). -/
def Obligations.StatusAndEchoAnswer : Prop :=
  ∀ (s : State) (p : Port) (payload : List Octet), s.Asks p payload →
    (requestOf payload = some .status → payload.length = 1 →
      ∃ t, exec (.status p) s = .next t ∧ t = { s with links := t.links }
        ∧ s.Answered t p .ok (octetsOf 2 (1024 - s.table.occupied.length)
          ++ octetsOf 2 s.table.owned[p].length ++ octetsOf 2 s.portTable.quota[p]
          ++ [octet s.portTable.limit[p], octet (248 - (s.entries.filter fun e =>
              decide (e.number < 248)).length)]
          ++ octetsOf 2 s.notices.blocked.length ++ octetsOf 2 s.placement.queue.length
          ++ octetsOf 2 s.expiry.list.length
          ++ [(match s.expiry.listState with | .normal => 0 | .rebuilding => 1 | .failed => 2 : Octet)]
          ++ (match s.sweeps.current with
              | none => [0, 0, 0, 0]
              | some run => [(match run.sweep.kind with | .tag _ _ _ => 1 | .port _ => 2 | .total => 3 : Octet),
                  run.sweep.number] ++ octetsOf 2 run.cursor)
          ++ [(match s.timeBase.mode with | .frozen => 0 | .running => 1 | .exhausted => 2 : Octet)]
          ++ octetsOf 2 s.scrubber.corrections ++ [octet s.portTable.supervisor.val, 0]))
    ∧ (requestOf payload = some .echo → payload.length ≤ 250 →
      ∃ t, exec (.echo p) s = .next t ∧ t = { s with links := t.links }
        ∧ s.Answered t p .ok (payload.drop 1))
end

