-- ==== Sys2Proof/Laws/Dispatch.lean ====
section
/-! SUPPORT. The meaning that each command is dispatched to: one equation per command, so that no proof unfolds
`exec`. -/

namespace Sys2Proof.Machine

@[simp] theorem exec_deviceReset (s : State) : exec .deviceReset s = execDeviceReset s := rfl
@[simp] theorem exec_tick (s : State) : exec .tick s = execTick s := rfl
@[simp] theorem exec_scrubVisit (s : State) : exec .scrubVisit s = execScrubVisit s := rfl
@[simp] theorem exec_listFault (finder : Finder) (s : State) :
    exec (.listFault finder) s = execListFault finder s := rfl
@[simp] theorem exec_placementTake (s : State) : exec .placementTake s = execPlacementTake s := rfl
@[simp] theorem exec_placementEnd (s : State) : exec .placementEnd s = execPlacementEnd s := rfl
@[simp] theorem exec_firing (s : State) : exec .firing s = execFiring s := rfl
@[simp] theorem exec_companionFiring (s : State) : exec .companionFiring s = execCompanionFiring s := rfl
@[simp] theorem exec_markedHeadRemoval (s : State) :
    exec .markedHeadRemoval s = execMarkedHeadRemoval s := rfl
@[simp] theorem exec_sweepStart (s : State) : exec .sweepStart s = execSweepStart s := rfl
@[simp] theorem exec_sweepVisit (s : State) : exec .sweepVisit s = execSweepVisit s := rfl
@[simp] theorem exec_tagSweepEnd (s : State) : exec .tagSweepEnd s = execTagSweepEnd s := rfl
@[simp] theorem exec_portSweepEnd (s : State) : exec .portSweepEnd s = execPortSweepEnd s := rfl
@[simp] theorem exec_totalSweepEnd (s : State) : exec .totalSweepEnd s = execTotalSweepEnd s := rfl
@[simp] theorem exec_frameCutOff (p : Port) (s : State) : exec (.frameCutOff p) s = execFrameCutOff p s := rfl
@[simp] theorem exec_badFrame (p : Port) (os : List Octet) (s : State) :
    exec (.badFrame p os) s = execBadFrame p os s := rfl
@[simp] theorem exec_linkOpen (p : Port) (os : List Octet) (s : State) :
    exec (.linkOpen p os) s = execLinkOpen p os s := rfl
@[simp] theorem exec_linkClose (p : Port) (os : List Octet) (s : State) :
    exec (.linkClose p os) s = execLinkClose p os s := rfl
@[simp] theorem exec_requestFrame (p : Port) (os : List Octet) (s : State) :
    exec (.requestFrame p os) s = execRequestFrame p os s := rfl
@[simp] theorem exec_frameSent (p : Port) (s : State) : exec (.frameSent p) s = execFrameSent p s := rfl
@[simp] theorem exec_openRecord (p : Port) (s : State) : exec (.openRecord p) s = execOpen p s := rfl
@[simp] theorem exec_closeRecord (p : Port) (s : State) : exec (.closeRecord p) s = execClose p s := rfl
@[simp] theorem exec_readRecord (p : Port) (s : State) : exec (.readRecord p) s = execRead p s := rfl
@[simp] theorem exec_setRecord (p : Port) (s : State) : exec (.setRecord p) s = execSet p s := rfl
@[simp] theorem exec_arm (p : Port) (s : State) : exec (.arm p) s = execArm p s := rfl
@[simp] theorem exec_cancel (p : Port) (s : State) : exec (.cancel p) s = execCancel p s := rfl
@[simp] theorem exec_pause (p : Port) (s : State) : exec (.pause p) s = execPause p s := rfl
@[simp] theorem exec_resume (p : Port) (s : State) : exec (.resume p) s = execResume p s := rfl
@[simp] theorem exec_take (p : Port) (s : State) : exec (.take p) s = execTake p s := rfl
@[simp] theorem exec_ack (p : Port) (s : State) : exec (.ack p) s = execAck p s := rfl
@[simp] theorem exec_release (p : Port) (s : State) : exec (.release p) s = execRelease p s := rfl
@[simp] theorem exec_attentionSet (p : Port) (s : State) :
    exec (.attentionSet p) s = execAttentionSet p s := rfl
@[simp] theorem exec_poolSet (p : Port) (s : State) : exec (.poolSet p) s = execPoolSet p s := rfl
@[simp] theorem exec_retireTag (p : Port) (s : State) : exec (.retireTag p) s = execRetireTag p s := rfl
@[simp] theorem exec_clearAll (p : Port) (s : State) : exec (.clearAll p) s = execClearAll p s := rfl
@[simp] theorem exec_timeRead (p : Port) (s : State) : exec (.timeRead p) s = execTimeRead p s := rfl
@[simp] theorem exec_timeSet (p : Port) (s : State) : exec (.timeSet p) s = execTimeSet p s := rfl
@[simp] theorem exec_timeRun (p : Port) (s : State) : exec (.timeRun p) s = execTimeRun p s := rfl
@[simp] theorem exec_timeFreeze (p : Port) (s : State) : exec (.timeFreeze p) s = execTimeFreeze p s := rfl
@[simp] theorem exec_prescale (p : Port) (s : State) : exec (.prescale p) s = execPrescale p s := rfl
@[simp] theorem exec_scrubSet (p : Port) (s : State) : exec (.scrubSet p) s = execScrubSet p s := rfl
@[simp] theorem exec_quotaSet (p : Port) (s : State) : exec (.quotaSet p) s = execQuotaSet p s := rfl
@[simp] theorem exec_portLimitSet (p : Port) (s : State) :
    exec (.portLimitSet p) s = execPortLimitSet p s := rfl
@[simp] theorem exec_portDisable (p : Port) (s : State) : exec (.portDisable p) s = execPortDisable p s := rfl
@[simp] theorem exec_portEnable (p : Port) (s : State) : exec (.portEnable p) s = execPortEnable p s := rfl
@[simp] theorem exec_handOver (p : Port) (s : State) : exec (.handOver p) s = execHandOver p s := rfl
@[simp] theorem exec_forceClose (p : Port) (s : State) : exec (.forceClose p) s = execForceClose p s := rfl
@[simp] theorem exec_status (p : Port) (s : State) : exec (.status p) s = execStatus p s := rfl
@[simp] theorem exec_echo (p : Port) (s : State) : exec (.echo p) s = execEcho p s := rfl
@[simp] theorem exec_frameStart (p : Port) (bits : List Bool) (s : State) :
    exec (.frameStart p bits) s = execFrameStart p bits s := rfl
@[simp] theorem exec_unknownRequestCode (p : Port) (s : State) :
    exec (.unknownRequestCode p) s = execUnknownRequestCode p s := rfl

end Sys2Proof.Machine
end

