-- ==== Sys2Proof/Laws/State.lean ====
section
/-! SUPPORT. What each update of State makes of each field, true by definition. Lemmas about operations
cite these and no proof unfolds a record update. -/

namespace Sys2Proof.Machine

/-! ### withTimeBase -/

@[simp] theorem State.withTimeBase_timeBase (s : State) (b : TimeBase) :
    (s.withTimeBase b).timeBase = b := rfl
@[simp] theorem State.withTimeBase_table (s : State) (b : TimeBase) :
    (s.withTimeBase b).table = s.table := rfl
@[simp] theorem State.withTimeBase_placement (s : State) (b : TimeBase) :
    (s.withTimeBase b).placement = s.placement := rfl
@[simp] theorem State.withTimeBase_expiry (s : State) (b : TimeBase) :
    (s.withTimeBase b).expiry = s.expiry := rfl
@[simp] theorem State.withTimeBase_notices (s : State) (b : TimeBase) :
    (s.withTimeBase b).notices = s.notices := rfl
@[simp] theorem State.withTimeBase_pools (s : State) (b : TimeBase) :
    (s.withTimeBase b).pools = s.pools := rfl
@[simp] theorem State.withTimeBase_sweeps (s : State) (b : TimeBase) :
    (s.withTimeBase b).sweeps = s.sweeps := rfl
@[simp] theorem State.withTimeBase_scrubber (s : State) (b : TimeBase) :
    (s.withTimeBase b).scrubber = s.scrubber := rfl
@[simp] theorem State.withTimeBase_portTable (s : State) (b : TimeBase) :
    (s.withTimeBase b).portTable = s.portTable := rfl
@[simp] theorem State.withTimeBase_links (s : State) (b : TimeBase) :
    (s.withTimeBase b).links = s.links := rfl
@[simp] theorem State.withTimeBase_pending (s : State) (b : TimeBase) :
    (s.withTimeBase b).pending = s.pending := rfl
@[simp] theorem State.withTimeBase_upsets (s : State) (b : TimeBase) :
    (s.withTimeBase b).upsets = s.upsets := rfl
@[simp] theorem State.withTimeBase_freeValues (s : State) (b : TimeBase) :
    (s.withTimeBase b).freeValues = s.freeValues := rfl

/-! ### withPlacement -/

@[simp] theorem State.withPlacement_timeBase (s : State) (b : PlacementUnit) :
    (s.withPlacement b).timeBase = s.timeBase := rfl
@[simp] theorem State.withPlacement_table (s : State) (b : PlacementUnit) :
    (s.withPlacement b).table = s.table := rfl
@[simp] theorem State.withPlacement_placement (s : State) (b : PlacementUnit) :
    (s.withPlacement b).placement = b := rfl
@[simp] theorem State.withPlacement_expiry (s : State) (b : PlacementUnit) :
    (s.withPlacement b).expiry = s.expiry := rfl
@[simp] theorem State.withPlacement_notices (s : State) (b : PlacementUnit) :
    (s.withPlacement b).notices = s.notices := rfl
@[simp] theorem State.withPlacement_pools (s : State) (b : PlacementUnit) :
    (s.withPlacement b).pools = s.pools := rfl
@[simp] theorem State.withPlacement_sweeps (s : State) (b : PlacementUnit) :
    (s.withPlacement b).sweeps = s.sweeps := rfl
@[simp] theorem State.withPlacement_scrubber (s : State) (b : PlacementUnit) :
    (s.withPlacement b).scrubber = s.scrubber := rfl
@[simp] theorem State.withPlacement_portTable (s : State) (b : PlacementUnit) :
    (s.withPlacement b).portTable = s.portTable := rfl
@[simp] theorem State.withPlacement_links (s : State) (b : PlacementUnit) :
    (s.withPlacement b).links = s.links := rfl
@[simp] theorem State.withPlacement_pending (s : State) (b : PlacementUnit) :
    (s.withPlacement b).pending = s.pending := rfl
@[simp] theorem State.withPlacement_upsets (s : State) (b : PlacementUnit) :
    (s.withPlacement b).upsets = s.upsets := rfl
@[simp] theorem State.withPlacement_freeValues (s : State) (b : PlacementUnit) :
    (s.withPlacement b).freeValues = s.freeValues := rfl

/-! ### withExpiry -/

@[simp] theorem State.withExpiry_timeBase (s : State) (b : Expiry) :
    (s.withExpiry b).timeBase = s.timeBase := rfl
@[simp] theorem State.withExpiry_table (s : State) (b : Expiry) :
    (s.withExpiry b).table = s.table := rfl
@[simp] theorem State.withExpiry_placement (s : State) (b : Expiry) :
    (s.withExpiry b).placement = s.placement := rfl
@[simp] theorem State.withExpiry_expiry (s : State) (b : Expiry) :
    (s.withExpiry b).expiry = b := rfl
@[simp] theorem State.withExpiry_notices (s : State) (b : Expiry) :
    (s.withExpiry b).notices = s.notices := rfl
@[simp] theorem State.withExpiry_pools (s : State) (b : Expiry) :
    (s.withExpiry b).pools = s.pools := rfl
@[simp] theorem State.withExpiry_sweeps (s : State) (b : Expiry) :
    (s.withExpiry b).sweeps = s.sweeps := rfl
@[simp] theorem State.withExpiry_scrubber (s : State) (b : Expiry) :
    (s.withExpiry b).scrubber = s.scrubber := rfl
@[simp] theorem State.withExpiry_portTable (s : State) (b : Expiry) :
    (s.withExpiry b).portTable = s.portTable := rfl
@[simp] theorem State.withExpiry_links (s : State) (b : Expiry) :
    (s.withExpiry b).links = s.links := rfl
@[simp] theorem State.withExpiry_pending (s : State) (b : Expiry) :
    (s.withExpiry b).pending = s.pending := rfl
@[simp] theorem State.withExpiry_upsets (s : State) (b : Expiry) :
    (s.withExpiry b).upsets = s.upsets := rfl
@[simp] theorem State.withExpiry_freeValues (s : State) (b : Expiry) :
    (s.withExpiry b).freeValues = s.freeValues := rfl

/-! ### withNotices -/

@[simp] theorem State.withNotices_timeBase (s : State) (b : NoticeUnit) :
    (s.withNotices b).timeBase = s.timeBase := rfl
@[simp] theorem State.withNotices_table (s : State) (b : NoticeUnit) :
    (s.withNotices b).table = s.table := rfl
@[simp] theorem State.withNotices_placement (s : State) (b : NoticeUnit) :
    (s.withNotices b).placement = s.placement := rfl
@[simp] theorem State.withNotices_expiry (s : State) (b : NoticeUnit) :
    (s.withNotices b).expiry = s.expiry := rfl
@[simp] theorem State.withNotices_notices (s : State) (b : NoticeUnit) :
    (s.withNotices b).notices = b := rfl
@[simp] theorem State.withNotices_pools (s : State) (b : NoticeUnit) :
    (s.withNotices b).pools = s.pools := rfl
@[simp] theorem State.withNotices_sweeps (s : State) (b : NoticeUnit) :
    (s.withNotices b).sweeps = s.sweeps := rfl
@[simp] theorem State.withNotices_scrubber (s : State) (b : NoticeUnit) :
    (s.withNotices b).scrubber = s.scrubber := rfl
@[simp] theorem State.withNotices_portTable (s : State) (b : NoticeUnit) :
    (s.withNotices b).portTable = s.portTable := rfl
@[simp] theorem State.withNotices_links (s : State) (b : NoticeUnit) :
    (s.withNotices b).links = s.links := rfl
@[simp] theorem State.withNotices_pending (s : State) (b : NoticeUnit) :
    (s.withNotices b).pending = s.pending := rfl
@[simp] theorem State.withNotices_upsets (s : State) (b : NoticeUnit) :
    (s.withNotices b).upsets = s.upsets := rfl
@[simp] theorem State.withNotices_freeValues (s : State) (b : NoticeUnit) :
    (s.withNotices b).freeValues = s.freeValues := rfl

/-! ### withPools -/

@[simp] theorem State.withPools_timeBase (s : State) (b : Vector (List Port) 8) :
    (s.withPools b).timeBase = s.timeBase := rfl
@[simp] theorem State.withPools_table (s : State) (b : Vector (List Port) 8) :
    (s.withPools b).table = s.table := rfl
@[simp] theorem State.withPools_placement (s : State) (b : Vector (List Port) 8) :
    (s.withPools b).placement = s.placement := rfl
@[simp] theorem State.withPools_expiry (s : State) (b : Vector (List Port) 8) :
    (s.withPools b).expiry = s.expiry := rfl
@[simp] theorem State.withPools_notices (s : State) (b : Vector (List Port) 8) :
    (s.withPools b).notices = s.notices := rfl
@[simp] theorem State.withPools_pools (s : State) (b : Vector (List Port) 8) :
    (s.withPools b).pools = b := rfl
@[simp] theorem State.withPools_sweeps (s : State) (b : Vector (List Port) 8) :
    (s.withPools b).sweeps = s.sweeps := rfl
@[simp] theorem State.withPools_scrubber (s : State) (b : Vector (List Port) 8) :
    (s.withPools b).scrubber = s.scrubber := rfl
@[simp] theorem State.withPools_portTable (s : State) (b : Vector (List Port) 8) :
    (s.withPools b).portTable = s.portTable := rfl
@[simp] theorem State.withPools_links (s : State) (b : Vector (List Port) 8) :
    (s.withPools b).links = s.links := rfl
@[simp] theorem State.withPools_pending (s : State) (b : Vector (List Port) 8) :
    (s.withPools b).pending = s.pending := rfl
@[simp] theorem State.withPools_upsets (s : State) (b : Vector (List Port) 8) :
    (s.withPools b).upsets = s.upsets := rfl
@[simp] theorem State.withPools_freeValues (s : State) (b : Vector (List Port) 8) :
    (s.withPools b).freeValues = s.freeValues := rfl

/-! ### withSweeps -/

@[simp] theorem State.withSweeps_timeBase (s : State) (b : SweepUnit) :
    (s.withSweeps b).timeBase = s.timeBase := rfl
@[simp] theorem State.withSweeps_table (s : State) (b : SweepUnit) :
    (s.withSweeps b).table = s.table := rfl
@[simp] theorem State.withSweeps_placement (s : State) (b : SweepUnit) :
    (s.withSweeps b).placement = s.placement := rfl
@[simp] theorem State.withSweeps_expiry (s : State) (b : SweepUnit) :
    (s.withSweeps b).expiry = s.expiry := rfl
@[simp] theorem State.withSweeps_notices (s : State) (b : SweepUnit) :
    (s.withSweeps b).notices = s.notices := rfl
@[simp] theorem State.withSweeps_pools (s : State) (b : SweepUnit) :
    (s.withSweeps b).pools = s.pools := rfl
@[simp] theorem State.withSweeps_sweeps (s : State) (b : SweepUnit) :
    (s.withSweeps b).sweeps = b := rfl
@[simp] theorem State.withSweeps_scrubber (s : State) (b : SweepUnit) :
    (s.withSweeps b).scrubber = s.scrubber := rfl
@[simp] theorem State.withSweeps_portTable (s : State) (b : SweepUnit) :
    (s.withSweeps b).portTable = s.portTable := rfl
@[simp] theorem State.withSweeps_links (s : State) (b : SweepUnit) :
    (s.withSweeps b).links = s.links := rfl
@[simp] theorem State.withSweeps_pending (s : State) (b : SweepUnit) :
    (s.withSweeps b).pending = s.pending := rfl
@[simp] theorem State.withSweeps_upsets (s : State) (b : SweepUnit) :
    (s.withSweeps b).upsets = s.upsets := rfl
@[simp] theorem State.withSweeps_freeValues (s : State) (b : SweepUnit) :
    (s.withSweeps b).freeValues = s.freeValues := rfl

/-! ### withScrubber -/

@[simp] theorem State.withScrubber_timeBase (s : State) (b : Scrubber) :
    (s.withScrubber b).timeBase = s.timeBase := rfl
@[simp] theorem State.withScrubber_table (s : State) (b : Scrubber) :
    (s.withScrubber b).table = s.table := rfl
@[simp] theorem State.withScrubber_placement (s : State) (b : Scrubber) :
    (s.withScrubber b).placement = s.placement := rfl
@[simp] theorem State.withScrubber_expiry (s : State) (b : Scrubber) :
    (s.withScrubber b).expiry = s.expiry := rfl
@[simp] theorem State.withScrubber_notices (s : State) (b : Scrubber) :
    (s.withScrubber b).notices = s.notices := rfl
@[simp] theorem State.withScrubber_pools (s : State) (b : Scrubber) :
    (s.withScrubber b).pools = s.pools := rfl
@[simp] theorem State.withScrubber_sweeps (s : State) (b : Scrubber) :
    (s.withScrubber b).sweeps = s.sweeps := rfl
@[simp] theorem State.withScrubber_scrubber (s : State) (b : Scrubber) :
    (s.withScrubber b).scrubber = b := rfl
@[simp] theorem State.withScrubber_portTable (s : State) (b : Scrubber) :
    (s.withScrubber b).portTable = s.portTable := rfl
@[simp] theorem State.withScrubber_links (s : State) (b : Scrubber) :
    (s.withScrubber b).links = s.links := rfl
@[simp] theorem State.withScrubber_pending (s : State) (b : Scrubber) :
    (s.withScrubber b).pending = s.pending := rfl
@[simp] theorem State.withScrubber_upsets (s : State) (b : Scrubber) :
    (s.withScrubber b).upsets = s.upsets := rfl
@[simp] theorem State.withScrubber_freeValues (s : State) (b : Scrubber) :
    (s.withScrubber b).freeValues = s.freeValues := rfl

/-! ### withPortTable -/

@[simp] theorem State.withPortTable_timeBase (s : State) (b : PortTable) :
    (s.withPortTable b).timeBase = s.timeBase := rfl
@[simp] theorem State.withPortTable_table (s : State) (b : PortTable) :
    (s.withPortTable b).table = s.table := rfl
@[simp] theorem State.withPortTable_placement (s : State) (b : PortTable) :
    (s.withPortTable b).placement = s.placement := rfl
@[simp] theorem State.withPortTable_expiry (s : State) (b : PortTable) :
    (s.withPortTable b).expiry = s.expiry := rfl
@[simp] theorem State.withPortTable_notices (s : State) (b : PortTable) :
    (s.withPortTable b).notices = s.notices := rfl
@[simp] theorem State.withPortTable_pools (s : State) (b : PortTable) :
    (s.withPortTable b).pools = s.pools := rfl
@[simp] theorem State.withPortTable_sweeps (s : State) (b : PortTable) :
    (s.withPortTable b).sweeps = s.sweeps := rfl
@[simp] theorem State.withPortTable_scrubber (s : State) (b : PortTable) :
    (s.withPortTable b).scrubber = s.scrubber := rfl
@[simp] theorem State.withPortTable_portTable (s : State) (b : PortTable) :
    (s.withPortTable b).portTable = b := rfl
@[simp] theorem State.withPortTable_links (s : State) (b : PortTable) :
    (s.withPortTable b).links = s.links := rfl
@[simp] theorem State.withPortTable_pending (s : State) (b : PortTable) :
    (s.withPortTable b).pending = s.pending := rfl
@[simp] theorem State.withPortTable_upsets (s : State) (b : PortTable) :
    (s.withPortTable b).upsets = s.upsets := rfl
@[simp] theorem State.withPortTable_freeValues (s : State) (b : PortTable) :
    (s.withPortTable b).freeValues = s.freeValues := rfl

/-! ### setRecord -/

@[simp] theorem State.setRecord_timeBase (s : State) (i : SlotIx) (r : Record) :
    (s.setRecord i r).timeBase = s.timeBase := rfl
@[simp] theorem State.setRecord_table (s : State) (i : SlotIx) (r : Record) :
    (s.setRecord i r).table = { s.table with cells := storeCell s.table.cells i r } := rfl
@[simp] theorem State.setRecord_placement (s : State) (i : SlotIx) (r : Record) :
    (s.setRecord i r).placement = s.placement := rfl
@[simp] theorem State.setRecord_expiry (s : State) (i : SlotIx) (r : Record) :
    (s.setRecord i r).expiry = s.expiry := rfl
@[simp] theorem State.setRecord_notices (s : State) (i : SlotIx) (r : Record) :
    (s.setRecord i r).notices = s.notices := rfl
@[simp] theorem State.setRecord_pools (s : State) (i : SlotIx) (r : Record) :
    (s.setRecord i r).pools = s.pools := rfl
@[simp] theorem State.setRecord_sweeps (s : State) (i : SlotIx) (r : Record) :
    (s.setRecord i r).sweeps = s.sweeps := rfl
@[simp] theorem State.setRecord_scrubber (s : State) (i : SlotIx) (r : Record) :
    (s.setRecord i r).scrubber = s.scrubber := rfl
@[simp] theorem State.setRecord_portTable (s : State) (i : SlotIx) (r : Record) :
    (s.setRecord i r).portTable = s.portTable := rfl
@[simp] theorem State.setRecord_links (s : State) (i : SlotIx) (r : Record) :
    (s.setRecord i r).links = s.links := rfl
@[simp] theorem State.setRecord_pending (s : State) (i : SlotIx) (r : Record) :
    (s.setRecord i r).pending = s.pending := rfl
@[simp] theorem State.setRecord_upsets (s : State) (i : SlotIx) (r : Record) :
    (s.setRecord i r).upsets = s.upsets := rfl
@[simp] theorem State.setRecord_freeValues (s : State) (i : SlotIx) (r : Record) :
    (s.setRecord i r).freeValues = s.freeValues := rfl

/-! ### modify -/

@[simp] theorem State.modify_timeBase (s : State) (i : SlotIx) (f : Record → Record) :
    (s.modify i f).timeBase = s.timeBase := rfl
@[simp] theorem State.modify_table (s : State) (i : SlotIx) (f : Record → Record) :
    (s.modify i f).table = (s.setRecord i (f (s.record i))).table := rfl
@[simp] theorem State.modify_placement (s : State) (i : SlotIx) (f : Record → Record) :
    (s.modify i f).placement = s.placement := rfl
@[simp] theorem State.modify_expiry (s : State) (i : SlotIx) (f : Record → Record) :
    (s.modify i f).expiry = s.expiry := rfl
@[simp] theorem State.modify_notices (s : State) (i : SlotIx) (f : Record → Record) :
    (s.modify i f).notices = s.notices := rfl
@[simp] theorem State.modify_pools (s : State) (i : SlotIx) (f : Record → Record) :
    (s.modify i f).pools = s.pools := rfl
@[simp] theorem State.modify_sweeps (s : State) (i : SlotIx) (f : Record → Record) :
    (s.modify i f).sweeps = s.sweeps := rfl
@[simp] theorem State.modify_scrubber (s : State) (i : SlotIx) (f : Record → Record) :
    (s.modify i f).scrubber = s.scrubber := rfl
@[simp] theorem State.modify_portTable (s : State) (i : SlotIx) (f : Record → Record) :
    (s.modify i f).portTable = s.portTable := rfl
@[simp] theorem State.modify_links (s : State) (i : SlotIx) (f : Record → Record) :
    (s.modify i f).links = s.links := rfl
@[simp] theorem State.modify_pending (s : State) (i : SlotIx) (f : Record → Record) :
    (s.modify i f).pending = s.pending := rfl
@[simp] theorem State.modify_upsets (s : State) (i : SlotIx) (f : Record → Record) :
    (s.modify i f).upsets = s.upsets := rfl
@[simp] theorem State.modify_freeValues (s : State) (i : SlotIx) (f : Record → Record) :
    (s.modify i f).freeValues = s.freeValues := rfl

/-! ### setNotice -/

@[simp] theorem State.setNotice_timeBase (s : State) (i : SlotIx) (n : NoticeState) (h : Option Port) :
    (s.setNotice i n h).timeBase = s.timeBase := rfl
@[simp] theorem State.setNotice_placement (s : State) (i : SlotIx) (n : NoticeState) (h : Option Port) :
    (s.setNotice i n h).placement = s.placement := rfl
@[simp] theorem State.setNotice_expiry (s : State) (i : SlotIx) (n : NoticeState) (h : Option Port) :
    (s.setNotice i n h).expiry = s.expiry := rfl
@[simp] theorem State.setNotice_notices (s : State) (i : SlotIx) (n : NoticeState) (h : Option Port) :
    (s.setNotice i n h).notices = s.notices := rfl
@[simp] theorem State.setNotice_pools (s : State) (i : SlotIx) (n : NoticeState) (h : Option Port) :
    (s.setNotice i n h).pools = s.pools := rfl
@[simp] theorem State.setNotice_sweeps (s : State) (i : SlotIx) (n : NoticeState) (h : Option Port) :
    (s.setNotice i n h).sweeps = s.sweeps := rfl
@[simp] theorem State.setNotice_scrubber (s : State) (i : SlotIx) (n : NoticeState) (h : Option Port) :
    (s.setNotice i n h).scrubber = s.scrubber := rfl
@[simp] theorem State.setNotice_portTable (s : State) (i : SlotIx) (n : NoticeState) (h : Option Port) :
    (s.setNotice i n h).portTable = s.portTable := rfl
@[simp] theorem State.setNotice_links (s : State) (i : SlotIx) (n : NoticeState) (h : Option Port) :
    (s.setNotice i n h).links = s.links := rfl
@[simp] theorem State.setNotice_pending (s : State) (i : SlotIx) (n : NoticeState) (h : Option Port) :
    (s.setNotice i n h).pending = s.pending := rfl
@[simp] theorem State.setNotice_upsets (s : State) (i : SlotIx) (n : NoticeState) (h : Option Port) :
    (s.setNotice i n h).upsets = s.upsets := rfl
@[simp] theorem State.setNotice_freeValues (s : State) (i : SlotIx) (n : NoticeState) (h : Option Port) :
    (s.setNotice i n h).freeValues = s.freeValues := rfl

/-! ### setSched -/

@[simp] theorem State.setSched_timeBase (s : State) (i : SlotIx) (x : Sched) :
    (s.setSched i x).timeBase = s.timeBase := rfl
@[simp] theorem State.setSched_placement (s : State) (i : SlotIx) (x : Sched) :
    (s.setSched i x).placement = s.placement := rfl
@[simp] theorem State.setSched_expiry (s : State) (i : SlotIx) (x : Sched) :
    (s.setSched i x).expiry = s.expiry := rfl
@[simp] theorem State.setSched_notices (s : State) (i : SlotIx) (x : Sched) :
    (s.setSched i x).notices = s.notices := rfl
@[simp] theorem State.setSched_pools (s : State) (i : SlotIx) (x : Sched) :
    (s.setSched i x).pools = s.pools := rfl
@[simp] theorem State.setSched_sweeps (s : State) (i : SlotIx) (x : Sched) :
    (s.setSched i x).sweeps = s.sweeps := rfl
@[simp] theorem State.setSched_scrubber (s : State) (i : SlotIx) (x : Sched) :
    (s.setSched i x).scrubber = s.scrubber := rfl
@[simp] theorem State.setSched_portTable (s : State) (i : SlotIx) (x : Sched) :
    (s.setSched i x).portTable = s.portTable := rfl
@[simp] theorem State.setSched_links (s : State) (i : SlotIx) (x : Sched) :
    (s.setSched i x).links = s.links := rfl
@[simp] theorem State.setSched_pending (s : State) (i : SlotIx) (x : Sched) :
    (s.setSched i x).pending = s.pending := rfl
@[simp] theorem State.setSched_upsets (s : State) (i : SlotIx) (x : Sched) :
    (s.setSched i x).upsets = s.upsets := rfl
@[simp] theorem State.setSched_freeValues (s : State) (i : SlotIx) (x : Sched) :
    (s.setSched i x).freeValues = s.freeValues := rfl

/-! ### raiseOverrun -/

@[simp] theorem State.raiseOverrun_timeBase (s : State) (i : SlotIx) (n : Nat) :
    (s.raiseOverrun i n).timeBase = s.timeBase := rfl
@[simp] theorem State.raiseOverrun_placement (s : State) (i : SlotIx) (n : Nat) :
    (s.raiseOverrun i n).placement = s.placement := rfl
@[simp] theorem State.raiseOverrun_expiry (s : State) (i : SlotIx) (n : Nat) :
    (s.raiseOverrun i n).expiry = s.expiry := rfl
@[simp] theorem State.raiseOverrun_notices (s : State) (i : SlotIx) (n : Nat) :
    (s.raiseOverrun i n).notices = s.notices := rfl
@[simp] theorem State.raiseOverrun_pools (s : State) (i : SlotIx) (n : Nat) :
    (s.raiseOverrun i n).pools = s.pools := rfl
@[simp] theorem State.raiseOverrun_sweeps (s : State) (i : SlotIx) (n : Nat) :
    (s.raiseOverrun i n).sweeps = s.sweeps := rfl
@[simp] theorem State.raiseOverrun_scrubber (s : State) (i : SlotIx) (n : Nat) :
    (s.raiseOverrun i n).scrubber = s.scrubber := rfl
@[simp] theorem State.raiseOverrun_portTable (s : State) (i : SlotIx) (n : Nat) :
    (s.raiseOverrun i n).portTable = s.portTable := rfl
@[simp] theorem State.raiseOverrun_links (s : State) (i : SlotIx) (n : Nat) :
    (s.raiseOverrun i n).links = s.links := rfl
@[simp] theorem State.raiseOverrun_pending (s : State) (i : SlotIx) (n : Nat) :
    (s.raiseOverrun i n).pending = s.pending := rfl
@[simp] theorem State.raiseOverrun_upsets (s : State) (i : SlotIx) (n : Nat) :
    (s.raiseOverrun i n).upsets = s.upsets := rfl
@[simp] theorem State.raiseOverrun_freeValues (s : State) (i : SlotIx) (n : Nat) :
    (s.raiseOverrun i n).freeValues = s.freeValues := rfl

/-! ### setOccupied -/

@[simp] theorem State.setOccupied_timeBase (s : State) (o : List SlotIx) :
    (s.setOccupied o).timeBase = s.timeBase := rfl
@[simp] theorem State.setOccupied_table (s : State) (o : List SlotIx) :
    (s.setOccupied o).table = { s.table with occupied := o } := rfl
@[simp] theorem State.setOccupied_placement (s : State) (o : List SlotIx) :
    (s.setOccupied o).placement = s.placement := rfl
@[simp] theorem State.setOccupied_expiry (s : State) (o : List SlotIx) :
    (s.setOccupied o).expiry = s.expiry := rfl
@[simp] theorem State.setOccupied_notices (s : State) (o : List SlotIx) :
    (s.setOccupied o).notices = s.notices := rfl
@[simp] theorem State.setOccupied_pools (s : State) (o : List SlotIx) :
    (s.setOccupied o).pools = s.pools := rfl
@[simp] theorem State.setOccupied_sweeps (s : State) (o : List SlotIx) :
    (s.setOccupied o).sweeps = s.sweeps := rfl
@[simp] theorem State.setOccupied_scrubber (s : State) (o : List SlotIx) :
    (s.setOccupied o).scrubber = s.scrubber := rfl
@[simp] theorem State.setOccupied_portTable (s : State) (o : List SlotIx) :
    (s.setOccupied o).portTable = s.portTable := rfl
@[simp] theorem State.setOccupied_links (s : State) (o : List SlotIx) :
    (s.setOccupied o).links = s.links := rfl
@[simp] theorem State.setOccupied_pending (s : State) (o : List SlotIx) :
    (s.setOccupied o).pending = s.pending := rfl
@[simp] theorem State.setOccupied_upsets (s : State) (o : List SlotIx) :
    (s.setOccupied o).upsets = s.upsets := rfl
@[simp] theorem State.setOccupied_freeValues (s : State) (o : List SlotIx) :
    (s.setOccupied o).freeValues = s.freeValues := rfl

/-! ### modifyOwned -/

@[simp] theorem State.modifyOwned_timeBase (s : State) (p : Port) (f : List SlotIx → List SlotIx) :
    (s.modifyOwned p f).timeBase = s.timeBase := rfl
@[simp] theorem State.modifyOwned_table (s : State) (p : Port) (f : List SlotIx → List SlotIx) :
    (s.modifyOwned p f).table = { s.table with owned := s.table.owned.set p.val (f s.table.owned[p]) p.isLt } := rfl
@[simp] theorem State.modifyOwned_placement (s : State) (p : Port) (f : List SlotIx → List SlotIx) :
    (s.modifyOwned p f).placement = s.placement := rfl
@[simp] theorem State.modifyOwned_expiry (s : State) (p : Port) (f : List SlotIx → List SlotIx) :
    (s.modifyOwned p f).expiry = s.expiry := rfl
@[simp] theorem State.modifyOwned_notices (s : State) (p : Port) (f : List SlotIx → List SlotIx) :
    (s.modifyOwned p f).notices = s.notices := rfl
@[simp] theorem State.modifyOwned_pools (s : State) (p : Port) (f : List SlotIx → List SlotIx) :
    (s.modifyOwned p f).pools = s.pools := rfl
@[simp] theorem State.modifyOwned_sweeps (s : State) (p : Port) (f : List SlotIx → List SlotIx) :
    (s.modifyOwned p f).sweeps = s.sweeps := rfl
@[simp] theorem State.modifyOwned_scrubber (s : State) (p : Port) (f : List SlotIx → List SlotIx) :
    (s.modifyOwned p f).scrubber = s.scrubber := rfl
@[simp] theorem State.modifyOwned_portTable (s : State) (p : Port) (f : List SlotIx → List SlotIx) :
    (s.modifyOwned p f).portTable = s.portTable := rfl
@[simp] theorem State.modifyOwned_links (s : State) (p : Port) (f : List SlotIx → List SlotIx) :
    (s.modifyOwned p f).links = s.links := rfl
@[simp] theorem State.modifyOwned_pending (s : State) (p : Port) (f : List SlotIx → List SlotIx) :
    (s.modifyOwned p f).pending = s.pending := rfl
@[simp] theorem State.modifyOwned_upsets (s : State) (p : Port) (f : List SlotIx → List SlotIx) :
    (s.modifyOwned p f).upsets = s.upsets := rfl
@[simp] theorem State.modifyOwned_freeValues (s : State) (p : Port) (f : List SlotIx → List SlotIx) :
    (s.modifyOwned p f).freeValues = s.freeValues := rfl

/-! ### modifyLink -/

@[simp] theorem State.modifyLink_timeBase (s : State) (p : Port) (f : Link → Link) :
    (s.modifyLink p f).timeBase = s.timeBase := rfl
@[simp] theorem State.modifyLink_table (s : State) (p : Port) (f : Link → Link) :
    (s.modifyLink p f).table = s.table := rfl
@[simp] theorem State.modifyLink_placement (s : State) (p : Port) (f : Link → Link) :
    (s.modifyLink p f).placement = s.placement := rfl
@[simp] theorem State.modifyLink_expiry (s : State) (p : Port) (f : Link → Link) :
    (s.modifyLink p f).expiry = s.expiry := rfl
@[simp] theorem State.modifyLink_notices (s : State) (p : Port) (f : Link → Link) :
    (s.modifyLink p f).notices = s.notices := rfl
@[simp] theorem State.modifyLink_pools (s : State) (p : Port) (f : Link → Link) :
    (s.modifyLink p f).pools = s.pools := rfl
@[simp] theorem State.modifyLink_sweeps (s : State) (p : Port) (f : Link → Link) :
    (s.modifyLink p f).sweeps = s.sweeps := rfl
@[simp] theorem State.modifyLink_scrubber (s : State) (p : Port) (f : Link → Link) :
    (s.modifyLink p f).scrubber = s.scrubber := rfl
@[simp] theorem State.modifyLink_portTable (s : State) (p : Port) (f : Link → Link) :
    (s.modifyLink p f).portTable = s.portTable := rfl
@[simp] theorem State.modifyLink_links (s : State) (p : Port) (f : Link → Link) :
    (s.modifyLink p f).links = s.links.set p.val (f s.links[p]) p.isLt := rfl
@[simp] theorem State.modifyLink_pending (s : State) (p : Port) (f : Link → Link) :
    (s.modifyLink p f).pending = s.pending := rfl
@[simp] theorem State.modifyLink_upsets (s : State) (p : Port) (f : Link → Link) :
    (s.modifyLink p f).upsets = s.upsets := rfl
@[simp] theorem State.modifyLink_freeValues (s : State) (p : Port) (f : Link → Link) :
    (s.modifyLink p f).freeValues = s.freeValues := rfl

/-! ### form -/

@[simp] theorem State.form_timeBase (s : State) (p : Port) (f : Frame) :
    (s.form p f).timeBase = s.timeBase := rfl
@[simp] theorem State.form_table (s : State) (p : Port) (f : Frame) :
    (s.form p f).table = s.table := rfl
@[simp] theorem State.form_placement (s : State) (p : Port) (f : Frame) :
    (s.form p f).placement = s.placement := rfl
@[simp] theorem State.form_expiry (s : State) (p : Port) (f : Frame) :
    (s.form p f).expiry = s.expiry := rfl
@[simp] theorem State.form_notices (s : State) (p : Port) (f : Frame) :
    (s.form p f).notices = s.notices := rfl
@[simp] theorem State.form_pools (s : State) (p : Port) (f : Frame) :
    (s.form p f).pools = s.pools := rfl
@[simp] theorem State.form_sweeps (s : State) (p : Port) (f : Frame) :
    (s.form p f).sweeps = s.sweeps := rfl
@[simp] theorem State.form_scrubber (s : State) (p : Port) (f : Frame) :
    (s.form p f).scrubber = s.scrubber := rfl
@[simp] theorem State.form_portTable (s : State) (p : Port) (f : Frame) :
    (s.form p f).portTable = s.portTable := rfl
@[simp] theorem State.form_pending (s : State) (p : Port) (f : Frame) :
    (s.form p f).pending = s.pending := rfl
@[simp] theorem State.form_upsets (s : State) (p : Port) (f : Frame) :
    (s.form p f).upsets = s.upsets := rfl
@[simp] theorem State.form_freeValues (s : State) (p : Port) (f : Frame) :
    (s.form p f).freeValues = s.freeValues := rfl

/-! ### driveLine -/

@[simp] theorem State.driveLine_timeBase (s : State) (p : Port) :
    (s.driveLine p).timeBase = s.timeBase := rfl
@[simp] theorem State.driveLine_table (s : State) (p : Port) :
    (s.driveLine p).table = s.table := rfl
@[simp] theorem State.driveLine_placement (s : State) (p : Port) :
    (s.driveLine p).placement = s.placement := rfl
@[simp] theorem State.driveLine_expiry (s : State) (p : Port) :
    (s.driveLine p).expiry = s.expiry := rfl
@[simp] theorem State.driveLine_notices (s : State) (p : Port) :
    (s.driveLine p).notices = s.notices := rfl
@[simp] theorem State.driveLine_pools (s : State) (p : Port) :
    (s.driveLine p).pools = s.pools := rfl
@[simp] theorem State.driveLine_sweeps (s : State) (p : Port) :
    (s.driveLine p).sweeps = s.sweeps := rfl
@[simp] theorem State.driveLine_scrubber (s : State) (p : Port) :
    (s.driveLine p).scrubber = s.scrubber := rfl
@[simp] theorem State.driveLine_portTable (s : State) (p : Port) :
    (s.driveLine p).portTable = s.portTable := rfl
@[simp] theorem State.driveLine_pending (s : State) (p : Port) :
    (s.driveLine p).pending = s.pending := rfl
@[simp] theorem State.driveLine_upsets (s : State) (p : Port) :
    (s.driveLine p).upsets = s.upsets := rfl
@[simp] theorem State.driveLine_freeValues (s : State) (p : Port) :
    (s.driveLine p).freeValues = s.freeValues := rfl

/-! ### modifyQueue -/

@[simp] theorem State.modifyQueue_timeBase (s : State) (p : Port) (f : List Entry → List Entry) :
    (s.modifyQueue p f).timeBase = s.timeBase := rfl
@[simp] theorem State.modifyQueue_table (s : State) (p : Port) (f : List Entry → List Entry) :
    (s.modifyQueue p f).table = s.table := rfl
@[simp] theorem State.modifyQueue_placement (s : State) (p : Port) (f : List Entry → List Entry) :
    (s.modifyQueue p f).placement = s.placement := rfl
@[simp] theorem State.modifyQueue_expiry (s : State) (p : Port) (f : List Entry → List Entry) :
    (s.modifyQueue p f).expiry = s.expiry := rfl
@[simp] theorem State.modifyQueue_notices (s : State) (p : Port) (f : List Entry → List Entry) :
    (s.modifyQueue p f).notices = { s.notices with queues := s.notices.queues.set p.val (f s.notices.queues[p]) p.isLt } := rfl
@[simp] theorem State.modifyQueue_pools (s : State) (p : Port) (f : List Entry → List Entry) :
    (s.modifyQueue p f).pools = s.pools := rfl
@[simp] theorem State.modifyQueue_sweeps (s : State) (p : Port) (f : List Entry → List Entry) :
    (s.modifyQueue p f).sweeps = s.sweeps := rfl
@[simp] theorem State.modifyQueue_scrubber (s : State) (p : Port) (f : List Entry → List Entry) :
    (s.modifyQueue p f).scrubber = s.scrubber := rfl
@[simp] theorem State.modifyQueue_portTable (s : State) (p : Port) (f : List Entry → List Entry) :
    (s.modifyQueue p f).portTable = s.portTable := rfl
@[simp] theorem State.modifyQueue_links (s : State) (p : Port) (f : List Entry → List Entry) :
    (s.modifyQueue p f).links = s.links := rfl
@[simp] theorem State.modifyQueue_pending (s : State) (p : Port) (f : List Entry → List Entry) :
    (s.modifyQueue p f).pending = s.pending := rfl
@[simp] theorem State.modifyQueue_upsets (s : State) (p : Port) (f : List Entry → List Entry) :
    (s.modifyQueue p f).upsets = s.upsets := rfl
@[simp] theorem State.modifyQueue_freeValues (s : State) (p : Port) (f : List Entry → List Entry) :
    (s.modifyQueue p f).freeValues = s.freeValues := rfl

/-! ### modifyOutstanding -/

@[simp] theorem State.modifyOutstanding_timeBase (s : State) (p : Port) (f : List Entry → List Entry) :
    (s.modifyOutstanding p f).timeBase = s.timeBase := rfl
@[simp] theorem State.modifyOutstanding_table (s : State) (p : Port) (f : List Entry → List Entry) :
    (s.modifyOutstanding p f).table = s.table := rfl
@[simp] theorem State.modifyOutstanding_placement (s : State) (p : Port) (f : List Entry → List Entry) :
    (s.modifyOutstanding p f).placement = s.placement := rfl
@[simp] theorem State.modifyOutstanding_expiry (s : State) (p : Port) (f : List Entry → List Entry) :
    (s.modifyOutstanding p f).expiry = s.expiry := rfl
@[simp] theorem State.modifyOutstanding_notices (s : State) (p : Port) (f : List Entry → List Entry) :
    (s.modifyOutstanding p f).notices = { s.notices with outstanding := s.notices.outstanding.set p.val (f s.notices.outstanding[p]) p.isLt } := rfl
@[simp] theorem State.modifyOutstanding_pools (s : State) (p : Port) (f : List Entry → List Entry) :
    (s.modifyOutstanding p f).pools = s.pools := rfl
@[simp] theorem State.modifyOutstanding_sweeps (s : State) (p : Port) (f : List Entry → List Entry) :
    (s.modifyOutstanding p f).sweeps = s.sweeps := rfl
@[simp] theorem State.modifyOutstanding_scrubber (s : State) (p : Port) (f : List Entry → List Entry) :
    (s.modifyOutstanding p f).scrubber = s.scrubber := rfl
@[simp] theorem State.modifyOutstanding_portTable (s : State) (p : Port) (f : List Entry → List Entry) :
    (s.modifyOutstanding p f).portTable = s.portTable := rfl
@[simp] theorem State.modifyOutstanding_links (s : State) (p : Port) (f : List Entry → List Entry) :
    (s.modifyOutstanding p f).links = s.links := rfl
@[simp] theorem State.modifyOutstanding_pending (s : State) (p : Port) (f : List Entry → List Entry) :
    (s.modifyOutstanding p f).pending = s.pending := rfl
@[simp] theorem State.modifyOutstanding_upsets (s : State) (p : Port) (f : List Entry → List Entry) :
    (s.modifyOutstanding p f).upsets = s.upsets := rfl
@[simp] theorem State.modifyOutstanding_freeValues (s : State) (p : Port) (f : List Entry → List Entry) :
    (s.modifyOutstanding p f).freeValues = s.freeValues := rfl

/-! ### modifyHolding -/

@[simp] theorem State.modifyHolding_timeBase (s : State) (k : Pool) (f : List Entry → List Entry) :
    (s.modifyHolding k f).timeBase = s.timeBase := rfl
@[simp] theorem State.modifyHolding_table (s : State) (k : Pool) (f : List Entry → List Entry) :
    (s.modifyHolding k f).table = s.table := rfl
@[simp] theorem State.modifyHolding_placement (s : State) (k : Pool) (f : List Entry → List Entry) :
    (s.modifyHolding k f).placement = s.placement := rfl
@[simp] theorem State.modifyHolding_expiry (s : State) (k : Pool) (f : List Entry → List Entry) :
    (s.modifyHolding k f).expiry = s.expiry := rfl
@[simp] theorem State.modifyHolding_notices (s : State) (k : Pool) (f : List Entry → List Entry) :
    (s.modifyHolding k f).notices = { s.notices with holding := s.notices.holding.set k.val (f s.notices.holding[k]) k.isLt } := rfl
@[simp] theorem State.modifyHolding_pools (s : State) (k : Pool) (f : List Entry → List Entry) :
    (s.modifyHolding k f).pools = s.pools := rfl
@[simp] theorem State.modifyHolding_sweeps (s : State) (k : Pool) (f : List Entry → List Entry) :
    (s.modifyHolding k f).sweeps = s.sweeps := rfl
@[simp] theorem State.modifyHolding_scrubber (s : State) (k : Pool) (f : List Entry → List Entry) :
    (s.modifyHolding k f).scrubber = s.scrubber := rfl
@[simp] theorem State.modifyHolding_portTable (s : State) (k : Pool) (f : List Entry → List Entry) :
    (s.modifyHolding k f).portTable = s.portTable := rfl
@[simp] theorem State.modifyHolding_links (s : State) (k : Pool) (f : List Entry → List Entry) :
    (s.modifyHolding k f).links = s.links := rfl
@[simp] theorem State.modifyHolding_pending (s : State) (k : Pool) (f : List Entry → List Entry) :
    (s.modifyHolding k f).pending = s.pending := rfl
@[simp] theorem State.modifyHolding_upsets (s : State) (k : Pool) (f : List Entry → List Entry) :
    (s.modifyHolding k f).upsets = s.upsets := rfl
@[simp] theorem State.modifyHolding_freeValues (s : State) (k : Pool) (f : List Entry → List Entry) :
    (s.modifyHolding k f).freeValues = s.freeValues := rfl

/-! ### joinQueue -/

@[simp] theorem State.joinQueue_timeBase (s : State) (p : Port) (e : Entry) :
    (s.joinQueue p e).timeBase = s.timeBase := rfl
@[simp] theorem State.joinQueue_table (s : State) (p : Port) (e : Entry) :
    (s.joinQueue p e).table = s.table := rfl
@[simp] theorem State.joinQueue_placement (s : State) (p : Port) (e : Entry) :
    (s.joinQueue p e).placement = s.placement := rfl
@[simp] theorem State.joinQueue_expiry (s : State) (p : Port) (e : Entry) :
    (s.joinQueue p e).expiry = s.expiry := rfl
@[simp] theorem State.joinQueue_pools (s : State) (p : Port) (e : Entry) :
    (s.joinQueue p e).pools = s.pools := rfl
@[simp] theorem State.joinQueue_sweeps (s : State) (p : Port) (e : Entry) :
    (s.joinQueue p e).sweeps = s.sweeps := rfl
@[simp] theorem State.joinQueue_scrubber (s : State) (p : Port) (e : Entry) :
    (s.joinQueue p e).scrubber = s.scrubber := rfl
@[simp] theorem State.joinQueue_portTable (s : State) (p : Port) (e : Entry) :
    (s.joinQueue p e).portTable = s.portTable := rfl
@[simp] theorem State.joinQueue_links (s : State) (p : Port) (e : Entry) :
    (s.joinQueue p e).links = s.links := rfl
@[simp] theorem State.joinQueue_pending (s : State) (p : Port) (e : Entry) :
    (s.joinQueue p e).pending = s.pending := rfl
@[simp] theorem State.joinQueue_upsets (s : State) (p : Port) (e : Entry) :
    (s.joinQueue p e).upsets = s.upsets := rfl
@[simp] theorem State.joinQueue_freeValues (s : State) (p : Port) (e : Entry) :
    (s.joinQueue p e).freeValues = s.freeValues := rfl

/-! ### joinHolding -/

@[simp] theorem State.joinHolding_timeBase (s : State) (k : Pool) (e : Entry) :
    (s.joinHolding k e).timeBase = s.timeBase := rfl
@[simp] theorem State.joinHolding_table (s : State) (k : Pool) (e : Entry) :
    (s.joinHolding k e).table = s.table := rfl
@[simp] theorem State.joinHolding_placement (s : State) (k : Pool) (e : Entry) :
    (s.joinHolding k e).placement = s.placement := rfl
@[simp] theorem State.joinHolding_expiry (s : State) (k : Pool) (e : Entry) :
    (s.joinHolding k e).expiry = s.expiry := rfl
@[simp] theorem State.joinHolding_pools (s : State) (k : Pool) (e : Entry) :
    (s.joinHolding k e).pools = s.pools := rfl
@[simp] theorem State.joinHolding_sweeps (s : State) (k : Pool) (e : Entry) :
    (s.joinHolding k e).sweeps = s.sweeps := rfl
@[simp] theorem State.joinHolding_scrubber (s : State) (k : Pool) (e : Entry) :
    (s.joinHolding k e).scrubber = s.scrubber := rfl
@[simp] theorem State.joinHolding_portTable (s : State) (k : Pool) (e : Entry) :
    (s.joinHolding k e).portTable = s.portTable := rfl
@[simp] theorem State.joinHolding_links (s : State) (k : Pool) (e : Entry) :
    (s.joinHolding k e).links = s.links := rfl
@[simp] theorem State.joinHolding_pending (s : State) (k : Pool) (e : Entry) :
    (s.joinHolding k e).pending = s.pending := rfl
@[simp] theorem State.joinHolding_upsets (s : State) (k : Pool) (e : Entry) :
    (s.joinHolding k e).upsets = s.upsets := rfl
@[simp] theorem State.joinHolding_freeValues (s : State) (k : Pool) (e : Entry) :
    (s.joinHolding k e).freeValues = s.freeValues := rfl

/-! ### advanceStamp -/

@[simp] theorem State.advanceStamp_timeBase (s : State) :
    (s.advanceStamp).timeBase = s.timeBase := rfl
@[simp] theorem State.advanceStamp_table (s : State) :
    (s.advanceStamp).table = s.table := rfl
@[simp] theorem State.advanceStamp_placement (s : State) :
    (s.advanceStamp).placement = s.placement := rfl
@[simp] theorem State.advanceStamp_expiry (s : State) :
    (s.advanceStamp).expiry = s.expiry := rfl
@[simp] theorem State.advanceStamp_notices (s : State) :
    (s.advanceStamp).notices = { s.notices with stamp := s.notices.stamp + 1 } := rfl
@[simp] theorem State.advanceStamp_pools (s : State) :
    (s.advanceStamp).pools = s.pools := rfl
@[simp] theorem State.advanceStamp_sweeps (s : State) :
    (s.advanceStamp).sweeps = s.sweeps := rfl
@[simp] theorem State.advanceStamp_scrubber (s : State) :
    (s.advanceStamp).scrubber = s.scrubber := rfl
@[simp] theorem State.advanceStamp_portTable (s : State) :
    (s.advanceStamp).portTable = s.portTable := rfl
@[simp] theorem State.advanceStamp_links (s : State) :
    (s.advanceStamp).links = s.links := rfl
@[simp] theorem State.advanceStamp_pending (s : State) :
    (s.advanceStamp).pending = s.pending := rfl
@[simp] theorem State.advanceStamp_upsets (s : State) :
    (s.advanceStamp).upsets = s.upsets := rfl
@[simp] theorem State.advanceStamp_freeValues (s : State) :
    (s.advanceStamp).freeValues = s.freeValues := rfl

/-! ### unblock -/

@[simp] theorem State.unblock_timeBase (s : State) (i : SlotIx) :
    (s.unblock i).timeBase = s.timeBase := rfl
@[simp] theorem State.unblock_table (s : State) (i : SlotIx) :
    (s.unblock i).table = s.table := rfl
@[simp] theorem State.unblock_placement (s : State) (i : SlotIx) :
    (s.unblock i).placement = s.placement := rfl
@[simp] theorem State.unblock_expiry (s : State) (i : SlotIx) :
    (s.unblock i).expiry = s.expiry := rfl
@[simp] theorem State.unblock_notices (s : State) (i : SlotIx) :
    (s.unblock i).notices = { s.notices with blocked := s.notices.blocked.filter fun b => decide (b.slot ≠ i) } := rfl
@[simp] theorem State.unblock_pools (s : State) (i : SlotIx) :
    (s.unblock i).pools = s.pools := rfl
@[simp] theorem State.unblock_sweeps (s : State) (i : SlotIx) :
    (s.unblock i).sweeps = s.sweeps := rfl
@[simp] theorem State.unblock_scrubber (s : State) (i : SlotIx) :
    (s.unblock i).scrubber = s.scrubber := rfl
@[simp] theorem State.unblock_portTable (s : State) (i : SlotIx) :
    (s.unblock i).portTable = s.portTable := rfl
@[simp] theorem State.unblock_links (s : State) (i : SlotIx) :
    (s.unblock i).links = s.links := rfl
@[simp] theorem State.unblock_pending (s : State) (i : SlotIx) :
    (s.unblock i).pending = s.pending := rfl
@[simp] theorem State.unblock_upsets (s : State) (i : SlotIx) :
    (s.unblock i).upsets = s.upsets := rfl
@[simp] theorem State.unblock_freeValues (s : State) (i : SlotIx) :
    (s.unblock i).freeValues = s.freeValues := rfl

/-! ### setPool -/

@[simp] theorem State.setPool_timeBase (s : State) (k : Pool) (o : List Port) :
    (s.setPool k o).timeBase = s.timeBase := rfl
@[simp] theorem State.setPool_table (s : State) (k : Pool) (o : List Port) :
    (s.setPool k o).table = s.table := rfl
@[simp] theorem State.setPool_placement (s : State) (k : Pool) (o : List Port) :
    (s.setPool k o).placement = s.placement := rfl
@[simp] theorem State.setPool_expiry (s : State) (k : Pool) (o : List Port) :
    (s.setPool k o).expiry = s.expiry := rfl
@[simp] theorem State.setPool_notices (s : State) (k : Pool) (o : List Port) :
    (s.setPool k o).notices = s.notices := rfl
@[simp] theorem State.setPool_pools (s : State) (k : Pool) (o : List Port) :
    (s.setPool k o).pools = s.pools.set k.val o k.isLt := rfl
@[simp] theorem State.setPool_sweeps (s : State) (k : Pool) (o : List Port) :
    (s.setPool k o).sweeps = s.sweeps := rfl
@[simp] theorem State.setPool_scrubber (s : State) (k : Pool) (o : List Port) :
    (s.setPool k o).scrubber = s.scrubber := rfl
@[simp] theorem State.setPool_portTable (s : State) (k : Pool) (o : List Port) :
    (s.setPool k o).portTable = s.portTable := rfl
@[simp] theorem State.setPool_links (s : State) (k : Pool) (o : List Port) :
    (s.setPool k o).links = s.links := rfl
@[simp] theorem State.setPool_pending (s : State) (k : Pool) (o : List Port) :
    (s.setPool k o).pending = s.pending := rfl
@[simp] theorem State.setPool_upsets (s : State) (k : Pool) (o : List Port) :
    (s.setPool k o).upsets = s.upsets := rfl
@[simp] theorem State.setPool_freeValues (s : State) (k : Pool) (o : List Port) :
    (s.setPool k o).freeValues = s.freeValues := rfl

/-! ### enqueue -/

@[simp] theorem State.enqueue_timeBase (s : State) (i : SlotIx) :
    (s.enqueue i).timeBase = s.timeBase := rfl
@[simp] theorem State.enqueue_placement (s : State) (i : SlotIx) :
    (s.enqueue i).placement = { s.placement with queue := s.placement.queue ++ [i] } := rfl
@[simp] theorem State.enqueue_expiry (s : State) (i : SlotIx) :
    (s.enqueue i).expiry = s.expiry := rfl
@[simp] theorem State.enqueue_notices (s : State) (i : SlotIx) :
    (s.enqueue i).notices = s.notices := rfl
@[simp] theorem State.enqueue_pools (s : State) (i : SlotIx) :
    (s.enqueue i).pools = s.pools := rfl
@[simp] theorem State.enqueue_sweeps (s : State) (i : SlotIx) :
    (s.enqueue i).sweeps = s.sweeps := rfl
@[simp] theorem State.enqueue_scrubber (s : State) (i : SlotIx) :
    (s.enqueue i).scrubber = s.scrubber := rfl
@[simp] theorem State.enqueue_portTable (s : State) (i : SlotIx) :
    (s.enqueue i).portTable = s.portTable := rfl
@[simp] theorem State.enqueue_links (s : State) (i : SlotIx) :
    (s.enqueue i).links = s.links := rfl
@[simp] theorem State.enqueue_pending (s : State) (i : SlotIx) :
    (s.enqueue i).pending = s.pending := rfl
@[simp] theorem State.enqueue_upsets (s : State) (i : SlotIx) :
    (s.enqueue i).upsets = s.upsets := rfl
@[simp] theorem State.enqueue_freeValues (s : State) (i : SlotIx) :
    (s.enqueue i).freeValues = s.freeValues := rfl

/-! ### removeQueued -/

@[simp] theorem State.removeQueued_timeBase (s : State) (i : SlotIx) :
    (s.removeQueued i).timeBase = s.timeBase := rfl
@[simp] theorem State.removeQueued_table (s : State) (i : SlotIx) :
    (s.removeQueued i).table = s.table := rfl
@[simp] theorem State.removeQueued_expiry (s : State) (i : SlotIx) :
    (s.removeQueued i).expiry = s.expiry := rfl
@[simp] theorem State.removeQueued_notices (s : State) (i : SlotIx) :
    (s.removeQueued i).notices = s.notices := rfl
@[simp] theorem State.removeQueued_pools (s : State) (i : SlotIx) :
    (s.removeQueued i).pools = s.pools := rfl
@[simp] theorem State.removeQueued_sweeps (s : State) (i : SlotIx) :
    (s.removeQueued i).sweeps = s.sweeps := rfl
@[simp] theorem State.removeQueued_scrubber (s : State) (i : SlotIx) :
    (s.removeQueued i).scrubber = s.scrubber := rfl
@[simp] theorem State.removeQueued_portTable (s : State) (i : SlotIx) :
    (s.removeQueued i).portTable = s.portTable := rfl
@[simp] theorem State.removeQueued_links (s : State) (i : SlotIx) :
    (s.removeQueued i).links = s.links := rfl
@[simp] theorem State.removeQueued_pending (s : State) (i : SlotIx) :
    (s.removeQueued i).pending = s.pending := rfl
@[simp] theorem State.removeQueued_upsets (s : State) (i : SlotIx) :
    (s.removeQueued i).upsets = s.upsets := rfl
@[simp] theorem State.removeQueued_freeValues (s : State) (i : SlotIx) :
    (s.removeQueued i).freeValues = s.freeValues := rfl

/-! ### unlist -/

@[simp] theorem State.unlist_timeBase (s : State) (i : SlotIx) :
    (s.unlist i).timeBase = s.timeBase := rfl
@[simp] theorem State.unlist_table (s : State) (i : SlotIx) :
    (s.unlist i).table = s.table := rfl
@[simp] theorem State.unlist_placement (s : State) (i : SlotIx) :
    (s.unlist i).placement = s.placement := rfl
@[simp] theorem State.unlist_expiry (s : State) (i : SlotIx) :
    (s.unlist i).expiry = { s.expiry with list := unlink i s.expiry.list, firing := passOver i s.expiry.firing } := rfl
@[simp] theorem State.unlist_notices (s : State) (i : SlotIx) :
    (s.unlist i).notices = s.notices := rfl
@[simp] theorem State.unlist_pools (s : State) (i : SlotIx) :
    (s.unlist i).pools = s.pools := rfl
@[simp] theorem State.unlist_sweeps (s : State) (i : SlotIx) :
    (s.unlist i).sweeps = s.sweeps := rfl
@[simp] theorem State.unlist_scrubber (s : State) (i : SlotIx) :
    (s.unlist i).scrubber = s.scrubber := rfl
@[simp] theorem State.unlist_portTable (s : State) (i : SlotIx) :
    (s.unlist i).portTable = s.portTable := rfl
@[simp] theorem State.unlist_links (s : State) (i : SlotIx) :
    (s.unlist i).links = s.links := rfl
@[simp] theorem State.unlist_pending (s : State) (i : SlotIx) :
    (s.unlist i).pending = s.pending := rfl
@[simp] theorem State.unlist_upsets (s : State) (i : SlotIx) :
    (s.unlist i).upsets = s.upsets := rfl
@[simp] theorem State.unlist_freeValues (s : State) (i : SlotIx) :
    (s.unlist i).freeValues = s.freeValues := rfl

end Sys2Proof.Machine
end

