-- ==== Sys2Proof/Laws/Table.lean ====
section
/-! SUPPORT. The record table's laws: reading back what was written, the canonical form, and the
elements of a vector after one is set. -/

namespace Sys2Proof.Machine

/-! ### Vectors -/

theorem set_port_same {α : Type} (v : Vector α 4) (p : Port) (x : α) :
    (v.set p.val x p.isLt)[p] = x := by
  simp

theorem set_port_other {α : Type} (v : Vector α 4) (p q : Port) (x : α) (h : q ≠ p) :
    (v.set p.val x p.isLt)[q] = v[q] := by
  simp only [Fin.getElem_fin]
  exact Vector.getElem_set_ne _ _ (fun e => h (Fin.ext e.symm))

theorem set_pool_same {α : Type} (v : Vector α 8) (k : Pool) (x : α) :
    (v.set k.val x k.isLt)[k] = x := by
  simp

theorem set_pool_other {α : Type} (v : Vector α 8) (k m : Pool) (x : α) (h : m ≠ k) :
    (v.set k.val x k.isLt)[m] = v[m] := by
  simp only [Fin.getElem_fin]
  exact Vector.getElem_set_ne _ _ (fun e => h (Fin.ext e.symm))

@[simp] theorem State.modifyLink_self (s : State) (p : Port) (f : Link → Link) :
    (s.modifyLink p f).links[p] = f s.links[p] := set_port_same _ _ _

theorem State.modifyLink_other (s : State) (p q : Port) (f : Link → Link) (h : q ≠ p) :
    (s.modifyLink p f).links[q] = s.links[q] := set_port_other _ _ _ _ h

theorem State.modifyLink_get (s : State) (p q : Port) (f : Link → Link) :
    (s.modifyLink p f).links[q] = if q = p then f s.links[q] else s.links[q] := by
  by_cases h : q = p
  · subst h; rw [if_pos rfl]; exact s.modifyLink_self q f
  · rw [if_neg h]; exact s.modifyLink_other p q f h

/-! ### Cells -/

theorem lookupCell_filter_same (i : SlotIx) : ∀ cells : List (SlotIx × Record),
    lookupCell (cells.filter fun c => decide (c.1 ≠ i)) i = Record.blank
  | [] => rfl
  | (j, r) :: rest => by
    by_cases h : j = i
    · simpa [h] using lookupCell_filter_same i rest
    · simpa [h, lookupCell] using lookupCell_filter_same i rest

theorem lookupCell_filter_other (i j : SlotIx) (hne : j ≠ i) : ∀ cells : List (SlotIx × Record),
    lookupCell (cells.filter fun c => decide (c.1 ≠ i)) j = lookupCell cells j
  | [] => rfl
  | (k, r) :: rest => by
    by_cases h : k = i
    · have hk : k ≠ j := fun e => hne (e.symm.trans h)
      have := lookupCell_filter_other i j hne rest
      simp [h, lookupCell, hne.symm] at this ⊢
      exact this
    · by_cases hj : k = j
      · simp [lookupCell, hj, hne]
      · have := lookupCell_filter_other i j hne rest
        simp [h, lookupCell, hj] at this ⊢
        exact this

theorem lookupCell_insert_same (i : SlotIx) (r : Record) : ∀ cells : List (SlotIx × Record),
    lookupCell cells i = Record.blank → (∀ c ∈ cells, c.1 ≠ i) →
    lookupCell (insertCell (i, r) cells) i = r
  | [], _, _ => by simp [insertCell, lookupCell]
  | (j, q) :: rest, h, hne => by
    have hj : j ≠ i := hne (j, q) (by simp)
    by_cases hlt : i < j
    · simp [insertCell, lookupCell, hlt]
    · have := lookupCell_insert_same i r rest (by simpa [lookupCell, hj] using h)
        (fun c hc => hne c (by simp [hc]))
      simp [insertCell, lookupCell, hlt, hj, this]

theorem lookupCell_insert_other (i j : SlotIx) (r : Record) (hne : j ≠ i) :
    ∀ cells : List (SlotIx × Record), lookupCell (insertCell (i, r) cells) j = lookupCell cells j
  | [] => by simp [insertCell, lookupCell, hne.symm]
  | (k, q) :: rest => by
    by_cases hlt : i < k
    · simp [insertCell, lookupCell, hlt, hne.symm]
    · have := lookupCell_insert_other i j r hne rest
      simp [insertCell, lookupCell, hlt, this]

theorem lookupCell_store_same (cells : List (SlotIx × Record)) (i : SlotIx) (r : Record) :
    lookupCell (storeCell cells i r) i = r := by
  unfold storeCell
  by_cases h : r = Record.blank
  · simp only [h, if_true]; exact lookupCell_filter_same i cells
  · simp only [h, if_false]
    exact lookupCell_insert_same i r _ (lookupCell_filter_same i cells) (by simp)

theorem lookupCell_store_other (cells : List (SlotIx × Record)) (i j : SlotIx) (r : Record)
    (h : j ≠ i) : lookupCell (storeCell cells i r) j = lookupCell cells j := by
  unfold storeCell
  by_cases hb : r = Record.blank
  · simp only [hb, if_true]; exact lookupCell_filter_other i j h cells
  · simp only [hb, if_false]
    rw [lookupCell_insert_other i j r h]; exact lookupCell_filter_other i j h cells

/-! ### Records -/

@[simp] theorem State.record_setRecord_self (s : State) (i : SlotIx) (r : Record) :
    (s.setRecord i r).record i = r := lookupCell_store_same _ _ _

theorem State.record_setRecord_other (s : State) (i j : SlotIx) (r : Record) (h : j ≠ i) :
    (s.setRecord i r).record j = s.record j := lookupCell_store_other _ _ _ _ h

@[simp] theorem State.record_modify_self (s : State) (i : SlotIx) (f : Record → Record) :
    (s.modify i f).record i = f (s.record i) := s.record_setRecord_self i _

theorem State.record_modify_other (s : State) (i j : SlotIx) (f : Record → Record) (h : j ≠ i) :
    (s.modify i f).record j = s.record j := s.record_setRecord_other i j _ h

/-- Two states with one table have the same records. -/
theorem State.record_congr {s t : State} (h : t.table.cells = s.table.cells) (i : SlotIx) :
    t.record i = s.record i := by
  unfold State.record; rw [h]

/-! ### The canonical form -/

theorem filter_insertCell (i : SlotIx) (r : Record) : ∀ cells : List (SlotIx × Record),
    (insertCell (i, r) cells).filter (fun c => decide (c.1 ≠ i)) = cells.filter fun c => decide (c.1 ≠ i)
  | [] => by simp [insertCell]
  | d :: rest => by
    unfold insertCell
    split
    · rw [List.filter_cons_of_neg (by simp)]
    · simp only [List.filter_cons, filter_insertCell i r rest]

/-- A slot written twice holds what was written last, and the table is as if written once. -/
theorem State.setRecord_setRecord (s : State) (i : SlotIx) (a b : Record) :
    (s.setRecord i a).setRecord i b = s.setRecord i b := by
  have h : (storeCell s.table.cells i a).filter (fun c => decide (c.1 ≠ i))
      = s.table.cells.filter fun c => decide (c.1 ≠ i) := by
    unfold storeCell
    dsimp only
    split
    · rw [List.filter_filter]
      simp
    · rw [filter_insertCell, List.filter_filter]
      simp
  have hs : storeCell (storeCell s.table.cells i a) i b = storeCell s.table.cells i b := by
    unfold storeCell at h ⊢
    dsimp only at h ⊢
    rw [h]
  exact congrArg (fun c => { s with table := { s.table with cells := c } }) hs

theorem insertCell_mem {c d : SlotIx × Record} : ∀ {cells : List (SlotIx × Record)},
    d ∈ insertCell c cells → d = c ∨ d ∈ cells
  | [], h => by simpa [insertCell] using h
  | e :: rest, h => by
    unfold insertCell at h
    split at h
    · simpa using h
    · rcases List.mem_cons.mp h with h | h
      · exact Or.inr (by simp [h])
      · rcases insertCell_mem h with h | h
        · exact Or.inl h
        · exact Or.inr (by simp [h])

theorem insertCell_pairwise (c : SlotIx × Record) : ∀ cells : List (SlotIx × Record),
    cells.Pairwise (fun a b => a.1 < b.1) → (∀ d ∈ cells, d.1 ≠ c.1) →
    (insertCell c cells).Pairwise (fun a b => a.1 < b.1)
  | [], _, _ => by simp [insertCell]
  | e :: rest, hp, hne => by
    obtain ⟨he, hr⟩ := List.pairwise_cons.mp hp
    unfold insertCell
    split
    · rename_i hlt
      refine List.pairwise_cons.mpr ⟨?_, hp⟩
      intro d hd
      rcases List.mem_cons.mp hd with hd | hd
      · rw [hd]; exact hlt
      · exact lt_trans hlt (he d hd)
    · rename_i hlt
      refine List.pairwise_cons.mpr ⟨?_, insertCell_pairwise c rest hr fun d hd => hne d (by simp [hd])⟩
      intro d hd
      rcases insertCell_mem hd with hd | hd
      · rw [hd]; exact lt_of_le_of_ne (not_lt.mp hlt) (hne e (by simp))
      · exact he d hd

/-- Writing a slot keeps the canonical form (log 9). -/
theorem storeCell_wf (t : RecordTable) (i : SlotIx) (r : Record) (h : t.wf) :
    RecordTable.wf { t with cells := storeCell t.cells i r } := by
  obtain ⟨hp, hb, ho, hw⟩ := h
  have hf : (t.cells.filter fun c => decide (c.1 ≠ i)).Pairwise (fun a b => a.1 < b.1) :=
    hp.filter _
  unfold RecordTable.wf storeCell
  by_cases hr : r = Record.blank
  · simp only [hr, if_true]
    exact ⟨hf, fun c hc => hb c (List.mem_of_mem_filter hc), ho, hw⟩
  · simp only [hr, if_false]
    refine ⟨insertCell_pairwise _ _ hf (by simp), fun c hc => ?_, ho, hw⟩
    rcases insertCell_mem hc with hc | hc
    · rw [hc]; exact hr
    · exact hb c (List.mem_of_mem_filter hc)

/-! ### Sets of slots -/

theorem mem_insertSlot {i j : SlotIx} : ∀ {l : List SlotIx}, j ∈ insertSlot i l ↔ j = i ∨ j ∈ l
  | [] => by simp [insertSlot]
  | k :: rest => by
    unfold insertSlot
    split
    · simp
    · split
      · rename_i h; subst h; simp
      · simp only [List.mem_cons, mem_insertSlot (l := rest)]
        tauto

/-- A set of slots stays in ascending order when one is added. -/
theorem insertSlot_pairwise (i : SlotIx) : ∀ {l : List SlotIx}, l.Pairwise (· < ·) →
    (insertSlot i l).Pairwise (· < ·)
  | [], _ => by simp [insertSlot]
  | k :: rest, h => by
    obtain ⟨hk, hr⟩ := List.pairwise_cons.mp h
    unfold insertSlot
    split
    · rename_i hlt
      refine List.pairwise_cons.mpr ⟨fun d hd => ?_, h⟩
      rcases List.mem_cons.mp hd with hd | hd
      · rw [hd]; exact hlt
      · exact lt_trans hlt (hk d hd)
    · split
      · exact h
      · rename_i h1 h2
        refine List.pairwise_cons.mpr ⟨fun d hd => ?_, insertSlot_pairwise i hr⟩
        rcases mem_insertSlot.mp hd with hd | hd
        · rw [hd]; exact lt_of_le_of_ne (not_lt.mp h1) (Ne.symm h2)
        · exact hk d hd

/-- A set of slots stays in ascending order when one is taken out. -/
theorem erase_pairwise (i : SlotIx) {l : List SlotIx} (h : l.Pairwise (· < ·)) :
    (l.erase i).Pairwise (· < ·) := h.sublist List.erase_sublist

/-- The lowest number that an ascending list does not hold is below every number it leaves out. -/
theorem leastFrom_spec : ∀ (l : List SlotIx) (n : Nat), l.Pairwise (· < ·) → (∀ j ∈ l, n ≤ j.val) →
    n ≤ leastFrom n l ∧ (∀ j ∈ l, j.val ≠ leastFrom n l)
      ∧ ∀ m, n ≤ m → m < leastFrom n l → ∃ j ∈ l, j.val = m
  | [], n, _, _ => ⟨le_refl n, by simp, fun m h1 h2 => absurd h2 (by simp [leastFrom]; exact h1)⟩
  | k :: rest, n, h, hn => by
    obtain ⟨hk, hr⟩ := List.pairwise_cons.mp h
    unfold leastFrom
    split
    · rename_i he
      have hn' : ∀ j ∈ rest, n + 1 ≤ j.val := fun j hj => by
        have : k.val < j.val := hk j hj
        omega
      obtain ⟨a, b, c⟩ := leastFrom_spec rest (n + 1) hr hn'
      refine ⟨by omega, ?_, ?_⟩
      · intro j hj
        rcases List.mem_cons.mp hj with hj | hj
        · rw [hj]; omega
        · exact b j hj
      · intro m h1 h2
        by_cases hm : m = n
        · exact ⟨k, by simp, by omega⟩
        · obtain ⟨j, hj, e⟩ := c m (by omega) h2
          exact ⟨j, by simp [hj], e⟩
    · rename_i he
      have hk' := hn k (by simp)
      refine ⟨le_refl n, ?_, fun m h1 h2 => absurd h2 (by omega)⟩
      intro j hj
      rcases List.mem_cons.mp hj with hj | hj
      · rw [hj]; exact he
      · have : k.val < j.val := hk j hj
        omega

end Sys2Proof.Machine
end

