-- ==== Sys2Proof/Laws/Confined.lean ====
section
/-! SUPPORT. What the operations on records, notices, pools, the placement queue and the deadline list
leave alone: one lemma per operation, `confined_<operation>`. A proof about a command cites these instead of
unfolding the operation. -/

namespace Sys2Proof.Machine

/-- `t` came from `s` by an operation that reaches records, notices, pools, the placement queue and the
deadline list alone: the time base, the port table, the thresholds, the sweep unit, the scrubber's pace,
the model's own queue and inputs are unchanged, of the links only the attention lines may change, and the
table keeps its canonical form. -/
structure Confined (s t : State) : Prop where
  timeBase : t.timeBase = s.timeBase
  portTable : t.portTable = s.portTable
  thresholds : t.notices.thresholds = s.notices.thresholds
  sweeps : t.sweeps = s.sweeps
  pending : t.pending = s.pending
  upsets : t.upsets = s.upsets
  pace : { t.scrubber with corrections := s.scrubber.corrections } = s.scrubber
  links : ∀ p : Port, t.links[p] = { s.links[p] with attention := t.links[p].attention }
  table : s.table.wf → t.table.wf

namespace Confined

theorem refl (s : State) : Confined s s :=
  ⟨rfl, rfl, rfl, rfl, rfl, rfl, rfl, fun _ => rfl, id⟩

theorem trans {s t u : State} (a : Confined s t) (b : Confined t u) : Confined s u where
  timeBase := b.timeBase.trans a.timeBase
  portTable := b.portTable.trans a.portTable
  thresholds := b.thresholds.trans a.thresholds
  sweeps := b.sweeps.trans a.sweeps
  pending := b.pending.trans a.pending
  upsets := b.upsets.trans a.upsets
  pace := by
    have h := a.pace
    have g := b.pace
    rw [← h, ← g]
  links := fun p => by
    have h := a.links p
    have g := b.links p
    rw [h] at g
    exact g
  table := b.table ∘ a.table

/-- An operation that changes none of the blocks named above. -/
theorem of_eq {s t : State} (h1 : t.timeBase = s.timeBase) (h2 : t.portTable = s.portTable)
    (h3 : t.notices.thresholds = s.notices.thresholds) (h4 : t.sweeps = s.sweeps)
    (h5 : t.pending = s.pending) (h6 : t.upsets = s.upsets)
    (h7 : { t.scrubber with corrections := s.scrubber.corrections } = s.scrubber)
    (h8 : t.links = s.links) (h9 : s.table.wf → t.table.wf) : Confined s t :=
  ⟨h1, h2, h3, h4, h5, h6, h7, fun p => by rw [h8], h9⟩

theorem foldl {α : Type} (f : State → α → State) (h : ∀ s a, Confined s (f s a)) :
    ∀ (l : List α) (s : State), Confined s (l.foldl f s)
  | [], s => refl s
  | a :: l, s => (h s a).trans (foldl f h l (f s a))

theorem ite {c : Prop} [Decidable c] {s t u : State} (a : Confined s t) (b : Confined s u) :
    Confined s (if c then t else u) := by
  split
  · exact a
  · exact b

theorem linkState {s t : State} (h : Confined s t) (p : Port) : t.links[p].state = s.links[p].state := by
  rw [h.links p]

theorem requests {s t : State} (h : Confined s t) (p : Port) :
    t.links[p].requests = s.links[p].requests := by
  rw [h.links p]

theorem nextRequest {s t : State} (h : Confined s t) (p : Port) : t.nextRequest p = s.nextRequest p := by
  unfold State.nextRequest
  rw [h.requests p]

theorem isUp {s t : State} (h : Confined s t) (p : Port) : t.isUp p = s.isUp p := by
  unfold State.isUp
  rw [h.linkState p]

theorem now {s t : State} (h : Confined s t) : t.now = s.now := by
  unfold State.now
  rw [h.timeBase]

end Confined

/-! ### Single updates -/

theorem confined_setRecord (s : State) (i : SlotIx) (r : Record) : Confined s (s.setRecord i r) :=
  .of_eq rfl rfl rfl rfl rfl rfl rfl rfl (storeCell_wf s.table i r)

theorem confined_modify (s : State) (i : SlotIx) (f : Record → Record) : Confined s (s.modify i f) :=
  confined_setRecord s i _

theorem confined_setNotice (s : State) (i : SlotIx) (n : NoticeState) (h : Option Port) :
    Confined s (s.setNotice i n h) := confined_modify s i _

theorem confined_setSched (s : State) (i : SlotIx) (x : Sched) : Confined s (s.setSched i x) :=
  confined_modify s i _

theorem confined_raiseOverrun (s : State) (i : SlotIx) (n : Nat) : Confined s (s.raiseOverrun i n) :=
  confined_modify s i _

theorem confined_setDeadline (s : State) (i : SlotIx) (d : Tick) : Confined s (s.setDeadline i d) :=
  confined_modify s i _

theorem confined_setOccupied (s : State) (o : List SlotIx)
    (h : s.table.occupied.Pairwise (· < ·) → o.Pairwise (· < ·)) : Confined s (s.setOccupied o) :=
  .of_eq rfl rfl rfl rfl rfl rfl rfl rfl fun ⟨a, b, c, d⟩ => ⟨a, b, h c, d⟩

theorem confined_modifyOwned (s : State) (p : Port) (f : List SlotIx → List SlotIx)
    (h : ∀ l : List SlotIx, l.Pairwise (· < ·) → (f l).Pairwise (· < ·)) :
    Confined s (s.modifyOwned p f) :=
  .of_eq rfl rfl rfl rfl rfl rfl rfl rfl fun ⟨a, b, c, d⟩ => by
    refine ⟨a, b, c, fun q => ?_⟩
    by_cases e : q = p
    · subst e
      have : (s.modifyOwned q f).table.owned[q] = f s.table.owned[q] := set_port_same _ _ _
      rw [this]
      exact h _ (d q)
    · have : (s.modifyOwned p f).table.owned[q] = s.table.owned[q] := set_port_other _ _ _ _ e
      rw [this]
      exact d q

theorem confined_dropOwned (s : State) (o : Option Port) (i : SlotIx) : Confined s (s.dropOwned o i) := by
  cases o
  · exact .refl s
  · rename_i p
    exact confined_modifyOwned s p (·.erase i) fun _ => erase_pairwise i

theorem confined_modifyQueue (s : State) (p : Port) (f : List Entry → List Entry) :
    Confined s (s.modifyQueue p f) := .of_eq rfl rfl rfl rfl rfl rfl rfl rfl id

theorem confined_modifyOutstanding (s : State) (p : Port) (f : List Entry → List Entry) :
    Confined s (s.modifyOutstanding p f) := .of_eq rfl rfl rfl rfl rfl rfl rfl rfl id

theorem confined_modifyHolding (s : State) (k : Pool) (f : List Entry → List Entry) :
    Confined s (s.modifyHolding k f) := .of_eq rfl rfl rfl rfl rfl rfl rfl rfl id

theorem confined_joinQueue (s : State) (p : Port) (e : Entry) : Confined s (s.joinQueue p e) :=
  confined_modifyQueue s p _

theorem confined_joinHolding (s : State) (k : Pool) (e : Entry) : Confined s (s.joinHolding k e) :=
  confined_modifyHolding s k _

theorem confined_dropEntry (s : State) (place : EntryPlace) (e : Entry) : Confined s (s.dropEntry place e) := by
  cases place with
  | queued p => exact confined_modifyQueue s p (·.erase e)
  | outstanding p => exact confined_modifyOutstanding s p (·.erase e)
  | holding k => exact confined_modifyHolding s k (·.erase e)

theorem confined_advanceStamp (s : State) : Confined s s.advanceStamp :=
  .of_eq rfl rfl rfl rfl rfl rfl rfl rfl id

theorem confined_setPool (s : State) (k : Pool) (o : List Port) : Confined s (s.setPool k o) :=
  .of_eq rfl rfl rfl rfl rfl rfl rfl rfl id

theorem confined_unblock (s : State) (i : SlotIx) : Confined s (s.unblock i) :=
  .of_eq rfl rfl rfl rfl rfl rfl rfl rfl id

theorem confined_setSearch (s : State) (f : Option Firing) : Confined s (s.setSearch f) :=
  .of_eq rfl rfl rfl rfl rfl rfl rfl rfl id

theorem confined_keepFault (s : State) (i : SlotIx) (part : FaultPart) : Confined s (s.keepFault i part) :=
  .of_eq rfl rfl rfl rfl rfl rfl rfl rfl id

theorem confined_addCorrections (s : State) (n : Nat) : Confined s (s.addCorrections n) :=
  .of_eq rfl rfl rfl rfl rfl rfl rfl rfl id

theorem confined_driveLine (s : State) (p : Port) : Confined s (s.driveLine p) where
  timeBase := rfl
  portTable := rfl
  thresholds := rfl
  sweeps := rfl
  pending := rfl
  upsets := rfl
  pace := rfl
  links := fun q => by
    unfold State.driveLine
    rw [State.modifyLink_get]
    split <;> rfl
  table := id

theorem confined_driveLines (s : State) : Confined s s.driveLines := .foldl _ confined_driveLine _ _

/-! ### The placement queue and the deadline list -/

theorem confined_reportRebuild (s : State) : Confined s s.reportRebuild := by
  unfold State.reportRebuild
  split
  · exact .of_eq rfl rfl rfl rfl rfl rfl rfl rfl id
  · exact .refl s

theorem confined_enqueue (s : State) (i : SlotIx) : Confined s (s.enqueue i) :=
  .of_eq rfl rfl rfl rfl rfl rfl rfl rfl (storeCell_wf s.table i _)

theorem confined_removeQueued (s : State) (i : SlotIx) : Confined s (s.removeQueued i) :=
  .of_eq rfl rfl rfl rfl rfl rfl rfl rfl id

theorem confined_unqueue (s : State) (i : SlotIx) : Confined s (s.unqueue i) :=
  (confined_removeQueued s i).trans (confined_reportRebuild _)

theorem confined_unlist (s : State) (i : SlotIx) : Confined s (s.unlist i) :=
  .of_eq rfl rfl rfl rfl rfl rfl rfl rfl id

theorem confined_leaveTiming (s : State) (i : SlotIx) : Confined s (s.leaveTiming i) := by
  unfold State.leaveTiming
  split
  · exact confined_unqueue s i
  · exact confined_unlist s i
  · exact .refl s

/-! ### Entries and pools -/

theorem confined_assign (s : State) (k : Pool) (p : Port) (e : Entry) : Confined s (s.assign k p e) :=
  (confined_setPool s k _).trans (confined_joinQueue _ p e)

theorem confined_servePoolFrom (k : Pool) : ∀ (l : List Entry) (s : State), Confined s (servePoolFrom k l s)
  | [], s => .refl s
  | e :: rest, s => by
    unfold servePoolFrom
    split
    · exact confined_servePoolFrom k rest s
    · split
      · exact .refl s
      · exact ((confined_dropEntry s _ e).trans (confined_assign _ k _ e)).trans (confined_servePoolFrom k rest _)

theorem confined_servePool (s : State) (k : Pool) : Confined s (s.servePool k) := confined_servePoolFrom k _ s

theorem confined_serveHolding (s : State) : Confined s s.serveHolding := .foldl _ confined_servePool _ _

theorem confined_settle (s : State) : Confined s s.settle := (confined_serveHolding s).trans (confined_driveLines _)

theorem confined_offer (s : State) (k : Pool) (e : Entry) : Confined s (s.offer k e) := by
  unfold State.offer
  split
  · exact confined_joinHolding s k e
  · split
    · exact (confined_joinHolding s k e).trans (confined_servePool _ k)
    · split
      · exact confined_joinHolding s k e
      · exact confined_assign s k _ e

theorem confined_place (s : State) (e : Entry) : Confined s (s.place e) := by
  unfold State.place
  split
  · exact confined_joinQueue s _ e
  · exact confined_offer s _ e

theorem confined_create (s : State) (i : SlotIx) (n : Nat) (e : Entry) : Confined s (s.create i n e) :=
  ((confined_advanceStamp s).trans (confined_modify _ i _)).trans (confined_place _ _)

theorem confined_createFault (s : State) (i : SlotIx) (n : Nat) (delayed : Bool) :
    Confined s (s.createFault i n delayed) :=
  (confined_create s i n (s.faultEntry i (s.record i) delayed)).trans
    (.of_eq rfl rfl rfl rfl rfl rfl rfl rfl id)

theorem confined_block (s : State) (i : SlotIx) (kept : Kept) : Confined s (s.block i kept) :=
  .of_eq rfl rfl rfl rfl rfl rfl rfl rfl (storeCell_wf s.table i _)

/-! ### Checked storage -/

theorem confined_repairIdentity (s : State) (i : SlotIx) : Confined s (s.repairIdentity i) := by
  unfold State.repairIdentity
  dsimp only
  split
  · exact .refl s
  · exact (confined_setRecord s i _).trans (confined_addCorrections _ _)

theorem confined_repairTiming (s : State) (i : SlotIx) : Confined s (s.repairTiming i) := by
  unfold State.repairTiming
  dsimp only
  split
  · exact (confined_setRecord s i _).trans (confined_addCorrections _ _)
  · exact .refl s

theorem confined_rewriteFree (s : State) (i : SlotIx) : Confined s (s.rewriteFree i) :=
  (confined_setRecord s i _).trans (confined_addCorrections _ _)

theorem confined_loseIdentity (s : State) (i : SlotIx) : Confined s (s.loseIdentity i) :=
  (confined_dropOwned s _ i).trans (confined_modify _ i _)

theorem confined_declareDamaged (s : State) (i : SlotIx) (part : FaultPart) :
    Confined s (s.declareDamaged i part) := by
  unfold State.declareDamaged
  refine (confined_leaveTiming s i).trans ?_
  refine Confined.trans ?_ ((confined_modify _ i _).trans (confined_keepFault _ i part))
  cases part
  · exact confined_modify _ i _
  · exact confined_loseIdentity _ i

theorem confined_declareIdentityLost (s : State) (i : SlotIx) : Confined s (s.declareIdentityLost i) :=
  (confined_loseIdentity s i).trans (confined_keepFault _ i _)

/-- Every outcome of a checked read is confined when what it does to a failed record is. -/
theorem confined_readWith (s : State) (i : SlotIx) (damage : State → FaultPart → State)
    (escalate : State → State) (hd : ∀ t part, Confined t (damage t part))
    (he : ∀ t, Confined t (escalate t)) : Confined s (s.readWith i damage escalate) := by
  unfold State.readWith
  dsimp only
  split
  · exact .ite (confined_rewriteFree s i) (confined_repairIdentity s i)
  · exact .ite (.refl s) (confined_repairTiming s i)
  · exact .ite (he s) (confined_repairIdentity s i)
  · split
    · exact (confined_repairTiming s i).trans (hd _ _)
    · split
      · exact (confined_repairIdentity s i).trans (hd _ _)
      · exact (confined_repairIdentity s i).trans (confined_repairTiming _ i)

theorem confined_loseNotice (s : State) (i : SlotIx) : Confined s (s.loseNotice i) :=
  (confined_raiseOverrun s i 1).trans (confined_setNotice _ i _ _)

theorem confined_takeBlocked (s : State) (i : SlotIx) : Confined s (s.takeBlocked i) :=
  (confined_readWith s i _ _ (fun t part => confined_declareDamaged t i part)
    (fun t => confined_declareIdentityLost t i)).trans (.of_eq rfl rfl rfl rfl rfl rfl rfl rfl id)

theorem confined_serveBlockedFrom (n : Nat) : ∀ (l : List BlockedPlace) (s : State),
    Confined s (serveBlockedFrom n l s)
  | [], s => .refl s
  | b :: rest, s => by
    unfold serveBlockedFrom
    have h0 := confined_takeBlocked s b.slot
    have lost := (h0.trans (confined_loseNotice _ b.slot)).trans (confined_serveBlockedFrom n rest _)
    have skipped := (h0.trans (confined_setNotice _ b.slot .clear none)).trans
      (confined_serveBlockedFrom n rest _)
    dsimp only
    split
    · exact skipped
    · split
      · exact .ite (h0.trans (confined_createFault _ b.slot n true)) lost
      · split
        · split
          · exact h0.trans (confined_create _ b.slot n _)
          · exact skipped
        · exact lost

theorem confined_serveBlocked (s : State) : Confined s s.serveBlocked := by
  unfold State.serveBlocked
  split
  · exact .refl s
  · exact confined_serveBlockedFrom _ _ s

theorem confined_raiseFault (s : State) (i : SlotIx) : Confined s (s.raiseFault i) := by
  unfold State.raiseFault
  dsimp only
  split
  · split
    · exact confined_block s i _
    · exact confined_createFault s i _ false
  · exact confined_loseNotice s i

theorem confined_moveToFaultPort (s : State) (i : SlotIx) (place : EntryPlace) (e e' : Entry) (p : Port) :
    Confined s (s.moveToFaultPort i place e e' p) := by
  unfold State.moveToFaultPort
  refine .ite ?_ ?_
  · exact (confined_dropEntry s place e).trans (confined_joinQueue _ p e')
  · exact ((confined_dropEntry s place e).trans (confined_loseNotice _ i)).trans
      (confined_serveBlocked _)

theorem confined_treatNotice (s : State) (i : SlotIx) : Confined s (s.treatNotice i) := by
  unfold State.treatNotice
  dsimp only
  split
  · exact confined_raiseFault s i
  · exact confined_moveToFaultPort s i _ _ _ _
  · exact .refl s

theorem confined_settleSince (t s : State) : Confined t (t.settleSince s) := .ite (.refl t) (confined_settle t)

theorem confined_damage (s : State) (i : SlotIx) (part : FaultPart) : Confined s (s.damage i part) :=
  (confined_declareDamaged s i part).trans (confined_treatNotice _ i)

theorem confined_escalate (s : State) (i : SlotIx) : Confined s (s.escalate i) := by
  unfold State.escalate
  dsimp only
  refine (confined_declareIdentityLost s i).trans ?_
  split
  · exact confined_raiseFault _ i
  · exact confined_moveToFaultPort _ i _ _ _ _
  · exact .refl _

theorem confined_readSlot (s : State) (i : SlotIx) : Confined s (s.readSlot i) :=
  confined_readWith s i _ _ (fun t part => confined_damage t i part) (fun t => confined_escalate t i)

theorem confined_checkedRead (s : State) (i : SlotIx) : Confined s (s.checkedRead i) :=
  (confined_readSlot s i).trans (confined_settleSince _ s)

theorem confined_tested (s : State) (pl : List Octet) : Confined s (s.tested pl) := by
  unfold State.tested
  split
  · exact .refl s
  · exact confined_checkedRead s _

/-! ### Retirement -/

theorem confined_freeSlot (s : State) (i : SlotIx) : Confined s (s.freeSlot i) :=
  ((confined_dropOwned s _ i).trans (confined_setOccupied _ _ fun h => by
    refine erase_pairwise i ?_
    revert h
    unfold State.dropOwned
    split <;> exact id)).trans (confined_setRecord _ i _)

theorem confined_retireCore (s : State) (i : SlotIx) : Confined s (s.retireCore i) := by
  unfold State.retireCore
  dsimp only
  refine ((confined_leaveTiming s i).trans (confined_unblock _ i)).trans ?_
  split
  · exact confined_freeSlot _ i
  · exact ((confined_dropEntry _ _ _).trans (confined_freeSlot _ i)).trans (confined_serveBlocked _)

theorem confined_retire (s : State) (i : SlotIx) : Confined s (s.retire i) :=
  (confined_retireCore s i).trans (confined_settle _)

theorem confined_dispose (s : State) (i : SlotIx) : Confined s (s.dispose i) :=
  .ite (confined_freeSlot s i) (.refl s)

/-! ### Placement and list faults -/

theorem confined_readSlots (s : State) (l : List SlotIx) : Confined s (s.readSlots l) :=
  .foldl _ confined_readSlot l s

theorem confined_readAll (s : State) (l : List SlotIx) : Confined s (s.readAll l) :=
  (confined_readSlots s l).trans (confined_settleSince _ s)

theorem confined_walkFrom (due : Nat) : ∀ (l : List SlotIx) (s : State), Confined s (walkFrom due l s).1
  | [], s => .refl s
  | j :: rest, s => by
    have h := confined_readSlot s j
    have go := h.trans (confined_walkFrom due rest _)
    unfold walkFrom
    dsimp only
    split
    · exact go
    · split
      · exact h
      · split
        · exact go
        · exact h

theorem confined_placementReads (s : State) (c : Carried) : Confined s (s.placementReads c).1 := by
  unfold State.placementReads
  dsimp only
  split
  · exact ((confined_readSlot s _).trans (confined_walkFrom _ _ _)).trans (confined_settleSince _ s)
  · exact (confined_readSlot s _).trans (confined_settleSince _ s)

theorem confined_startRebuild (s : State) (moved : List SlotIx) (after : ListState × Nat) :
    Confined s (s.startRebuild moved after) := .of_eq rfl rfl rfl rfl rfl rfl rfl rfl id

theorem confined_queueAll (s : State) (l : List SlotIx) : Confined s (s.queueAll l) :=
  .foldl _ (fun t i => confined_setSched t i .queued) l s

theorem confined_listFault (s : State) : Confined s s.listFault :=
  (((confined_readAll s _).trans (confined_queueAll _ _)).trans (confined_startRebuild _ _ _)).trans
    (confined_reportRebuild _)

theorem confined_returnOvertaken (s : State) (i : SlotIx) : Confined s (s.returnOvertaken i) :=
  .of_eq rfl rfl rfl rfl rfl rfl rfl rfl (storeCell_wf s.table i _)

theorem confined_insertArmed (s : State) (i : SlotIx) : Confined s (s.insertArmed i) :=
  .of_eq rfl rfl rfl rfl rfl rfl rfl rfl (storeCell_wf s.table i _)

theorem confined_carry (s : State) (i : SlotIx) : Confined s (s.carry i) :=
  .of_eq rfl rfl rfl rfl rfl rfl rfl rfl (storeCell_wf s.table i _)

theorem confined_takeHead (s : State) (i : SlotIx) : Confined s (s.takeHead i) := by
  unfold State.takeHead
  dsimp only
  refine (confined_checkedRead s i).trans ?_
  refine .ite (.ite ?_ (confined_carry _ i)) (.refl _)
  exact (confined_unqueue _ i).trans (confined_setSched _ i .idle)

/-! ### Firing -/

theorem confined_settleSchedule (s : State) (i : SlotIx) (plan : Reschedule) :
    Confined s (s.settleSchedule i plan) := by
  cases plan
  · exact confined_setSched s i .idle
  · exact (confined_modify s i _).trans (confined_enqueue _ i)
  · exact confined_setSched s i .idle

theorem confined_fireNotice (s : State) (i : SlotIx) (r : Record) (early rangeEnd : Bool) :
    Confined s (s.fireNotice i r early rangeEnd) := by
  unfold State.fireNotice
  dsimp only
  refine .ite (.ite ?_ (confined_raiseOverrun s i 1)) (confined_raiseOverrun s i 1)
  split
  · exact confined_create s i _ _
  · exact confined_block s i _

theorem confined_fire (s : State) (i : SlotIx) (early : Bool) : Confined s (s.fire i early) :=
  ((confined_unlist s i).trans (confined_fireNotice _ i _ early _)).trans (confined_settleSchedule _ i _)

theorem confined_beginSearch (s : State) (i : SlotIx) (r : Record) : Confined s (s.beginSearch i r) :=
  .of_eq rfl rfl rfl rfl rfl rfl rfl rfl id

theorem confined_fireHead (s : State) (i : SlotIx) : Confined s (s.fireHead i) :=
  ((confined_fire s i false).trans (confined_beginSearch _ i _)).trans (confined_driveLines _)

theorem confined_consider (s : State) (i : SlotIx) : Confined s (s.consider i) := by
  unfold State.consider
  dsimp only
  refine (confined_checkedRead s i).trans ?_
  split
  · exact .refl _
  refine .ite ?_ (confined_setSearch _ _)
  exact (((confined_setSearch _ none).trans (confined_fire _ i true)).trans
    (confined_setSearch _ _)).trans (confined_driveLines _)

/-! ### Arming and delivery -/

theorem confined_armRecord (s : State) (i : SlotIx) (d : Tick) : Confined s (s.armRecord i d) := by
  unfold State.armRecord
  split
  · exact confined_setDeadline s i d
  · exact ((confined_unlist s i).trans (confined_setDeadline _ i d)).trans (confined_enqueue _ i)
  · exact (confined_setDeadline s i d).trans (confined_enqueue _ i)

theorem confined_disarm (s : State) (i : SlotIx) : Confined s (s.disarm i) :=
  (confined_leaveTiming s i).trans (confined_modify _ i _)

theorem confined_withdraw (s : State) (i : SlotIx) : Confined s (s.withdraw i) := by
  unfold State.withdraw
  split
  · exact .refl s
  · exact .refl s
  · exact (confined_unblock s i).trans (confined_setNotice _ i _ _)
  · split
    · exact .refl s
    · exact (((confined_dropEntry s _ _).trans (confined_setNotice _ i _ _)).trans
        (confined_serveBlocked _)).trans (confined_settle _)

theorem confined_deliver (p : Port) (s : State) (e : Entry) : Confined s (s.deliver p e) := by
  unfold State.deliver
  dsimp only
  refine (confined_dropEntry s (.queued p) e).trans ?_
  split
  · exact .refl _
  · exact .refl _
  · exact (confined_setNotice _ _ _ _).trans (confined_serveBlocked _)
  · split
    · exact ((confined_setNotice _ _ _ _).trans (confined_dispose _ _)).trans (confined_serveBlocked _)
    · exact (confined_modifyOutstanding _ p _).trans (confined_setNotice _ _ _ _)

theorem confined_deliverAll (s : State) (p : Port) (es : List Entry) (damaged : Bool) :
    Confined s (s.deliverAll p es damaged) := by
  unfold State.deliverAll
  dsimp only
  refine (Confined.foldl _ (confined_deliver p) es s).trans ?_
  exact .ite (confined_settle _) (confined_driveLines _)

theorem confined_consume (s : State) (p : Port) (i : SlotIx) : Confined s (s.consume p i) := by
  unfold State.consume
  split
  · exact confined_setNotice s i _ _
  · exact (confined_dropEntry s _ _).trans (confined_setNotice _ i _ _)

theorem confined_rearmOrDispose (s : State) (i : SlotIx) (rearm : Option Interval) :
    Confined s (s.rearmOrDispose i rearm) := by
  unfold State.rearmOrDispose
  exact .ite ((confined_setDeadline s i _).trans (confined_enqueue _ i)) (confined_dispose s i)

theorem confined_acknowledge (s : State) (p : Port) (i : SlotIx) (rearm : Option Interval) :
    Confined s (s.acknowledge p i rearm) := by
  unfold State.acknowledge
  dsimp only
  refine Confined.trans ?_ (confined_settle _)
  refine (confined_consume s p i).trans ?_
  refine .ite ?_ ?_
  · exact (confined_serveBlocked _).trans (confined_raiseFault _ i)
  · exact (confined_rearmOrDispose _ i rearm).trans (confined_serveBlocked _)

theorem confined_reoffer (s : State) (k : Pool) (p : Port) (e : Entry) : Confined s (s.reoffer k p e) := by
  unfold State.reoffer
  refine .ite ((confined_joinHolding s k e).trans (confined_servePool _ k)) ?_
  split
  · exact confined_joinHolding s k e
  · exact confined_assign s k _ e

theorem confined_giveBack (s : State) (p : Port) (i : SlotIx) : Confined s (s.giveBack p i) := by
  unfold State.giveBack
  split
  · exact .refl s
  · rename_i e _
    dsimp only
    refine ((confined_dropEntry s (.outstanding p) e).trans (confined_setNotice _ i .pending none)).trans ?_
    split
    · exact (confined_joinQueue _ _ _).trans (confined_driveLines _)
    · exact (confined_reoffer _ _ p _).trans (confined_settle _)

theorem confined_createRecord (s : State) (p : Port) (i : SlotIx) (f : OpenFields) :
    Confined s (s.createRecord p i f) :=
  ((confined_setRecord s i _).trans (confined_setOccupied _ _ (insertSlot_pairwise i))).trans
    (confined_modifyOwned _ p _ fun _ => insertSlot_pairwise i)

/-! ### Leaving UP and sweeps -/

theorem confined_treatLeaving (s : State) (outstanding : Bool) (e : Entry) :
    Confined s (s.treatLeaving outstanding e) := by
  have lost : ∀ (t : State) (i : SlotIx), Confined t ((t.loseNotice i).serveBlocked) := fun t i =>
    (confined_loseNotice t i).trans (confined_serveBlocked _)
  unfold State.treatLeaving
  split
  · exact .refl s
  · dsimp only
    split
    · exact .refl s
    · exact lost s _
    · exact .ite ((lost s _).trans (confined_raiseFault _ _))
        ((confined_setNotice s _ _ _).trans (confined_offer _ _ e))
    · exact .ite ((lost s _).trans (confined_raiseFault _ _)) (lost s _)

theorem confined_readNamed (s : State) (e : Entry) : Confined s (s.readNamed e) := by
  unfold State.readNamed
  split
  · exact .refl s
  · exact confined_readSlot s _

theorem confined_leaveQueueEntry (p : Port) (s : State) (e : Entry) : Confined s (s.leaveQueueEntry p e) :=
  (confined_readNamed s e).trans
    (.ite ((confined_dropEntry _ _ e).trans (confined_treatLeaving _ false e)) (.refl _))

theorem confined_leaveOutstandingEntry (p : Port) (s : State) (e : Entry) :
    Confined s (s.leaveOutstandingEntry p e) :=
  (confined_readNamed s e).trans
    (.ite ((confined_dropEntry _ _ e).trans (confined_treatLeaving _ true e)) (.refl _))

theorem confined_emptyPort (s : State) (p : Port) : Confined s (s.emptyPort p) :=
  (Confined.foldl _ (confined_leaveQueueEntry p) _ s).trans
    (Confined.foldl _ (confined_leaveOutstandingEntry p) _ _)

theorem confined_markOne (w : Sweep) (s : State) (i : SlotIx) : Confined s (s.markOne w i) :=
  .ite (confined_modify s i _) (.refl s)

theorem confined_createSweepDone (s : State) (p : Port) (number : SweepNumber) (retired : Nat)
    (abandoned : Bool) : Confined s (s.createSweepDone p number retired abandoned) := by
  unfold State.createSweepDone
  refine .ite ?_ (.refl s)
  split
  · exact .refl s
  · exact (confined_advanceStamp s).trans (confined_joinQueue _ p _)

theorem confined_emptyBlocked (s : State) : Confined s s.emptyBlocked :=
  (Confined.foldl (fun t (b : BlockedPlace) => t.setNotice b.slot .clear none)
    (fun t b => confined_setNotice t b.slot .clear none) _ s).trans
    (.of_eq rfl rfl rfl rfl rfl rfl rfl rfl id)

theorem confined_clearNamed (s : State) (e : Entry) : Confined s (s.clearNamed e) := by
  unfold State.clearNamed
  split
  · exact .refl s
  · exact confined_setNotice s _ _ _

theorem confined_freeNotices (s : State) : Confined s s.freeNotices :=
  (Confined.foldl _ confined_clearNamed _ s).trans (.of_eq rfl rfl rfl rfl rfl rfl rfl rfl id)

theorem confined_abandon (s : State) (w : Sweep) : Confined s (s.abandon w) := by
  unfold State.abandon
  split
  · exact confined_createSweepDone s _ _ _ _
  · exact .refl s
  · exact .refl s

theorem confined_restoreList (s : State) : Confined s s.restoreList :=
  .of_eq rfl rfl rfl rfl rfl rfl rfl rfl id

end Sys2Proof.Machine
end

