-- ==== Sys2Proof/Laws/Steady.lean ====
section
/-! SUPPORT. What forming frames, answering requests, sweeps and placements leave alone, and what every
operation leaves alone: one lemma per operation, `steady_<operation>` or `basic_<operation>`. -/

namespace Sys2Proof.Machine

/-- What every command but the time requests, ATTENTION-SET, a tick and a reset leaves alone. -/
structure Basic (s t : State) : Prop where
  timeBase : t.timeBase = s.timeBase
  thresholds : t.notices.thresholds = s.notices.thresholds
  pending : t.pending = s.pending
  upsets : t.upsets = s.upsets
  table : s.table.wf → t.table.wf

/-- `t` came from `s` by an operation that changes no link's state and not the port table, and leaves each
port's own items in order. -/
structure Steady (s t : State) : Prop extends Basic s t where
  portTable : t.portTable = s.portTable
  linkState : ∀ p : Port, t.links[p].state = s.links[p].state
  linkSound : ∀ p : Port, s.links[p].Sound → t.links[p].Sound

theorem Basic.refl (s : State) : Basic s s := ⟨rfl, rfl, rfl, rfl, id⟩

theorem Basic.trans {s t u : State} (a : Basic s t) (b : Basic t u) : Basic s u :=
  ⟨b.timeBase.trans a.timeBase, b.thresholds.trans a.thresholds, b.pending.trans a.pending,
    b.upsets.trans a.upsets, b.table ∘ a.table⟩

theorem Basic.ite {c : Prop} [Decidable c] {s t u : State} (a : Basic s t) (b : Basic s u) :
    Basic s (if c then t else u) := by
  split
  · exact a
  · exact b

theorem Basic.foldl {α : Type} (f : State → α → State) (h : ∀ s a, Basic s (f s a)) :
    ∀ (l : List α) (s : State), Basic s (l.foldl f s)
  | [], s => refl s
  | a :: l, s => (h s a).trans (foldl f h l (f s a))

namespace Steady

theorem refl (s : State) : Steady s s := ⟨Basic.refl s, rfl, fun _ => rfl, fun _ => id⟩

theorem trans {s t u : State} (a : Steady s t) (b : Steady t u) : Steady s u :=
  ⟨a.toBasic.trans b.toBasic, b.portTable.trans a.portTable,
    fun p => (b.linkState p).trans (a.linkState p), fun p => b.linkSound p ∘ a.linkSound p⟩

theorem ite {c : Prop} [Decidable c] {s t u : State} (a : Steady s t) (b : Steady s u) :
    Steady s (if c then t else u) := by
  split
  · exact a
  · exact b

theorem foldl {α : Type} (f : State → α → State) (h : ∀ s a, Steady s (f s a)) :
    ∀ (l : List α) (s : State), Steady s (l.foldl f s)
  | [], s => refl s
  | a :: l, s => (h s a).trans (foldl f h l (f s a))

/-- The port table and the links still agree (R167, R168). -/
theorem portsAgree {s t : State} (h : Steady s t) (a : s.PortsAgree) : t.PortsAgree := by
  obtain ⟨h1, h2⟩ := a
  have h3 := h.portTable
  refine ⟨fun p => ?_, ?_⟩
  · rw [h.linkState p, ← h1 p]
    simp only [h3]
  · rw [h.linkState]
    simpa only [h3] using h2

theorem linksSound {s t : State} (h : Steady s t) (a : s.LinksSound) : t.LinksSound :=
  fun p => h.linkSound p (a p)

/-- An operation that changes neither the links nor a block named in `Basic`. -/
theorem of_eq {s t : State} (h1 : t.timeBase = s.timeBase)
    (h2 : t.notices.thresholds = s.notices.thresholds) (h3 : t.pending = s.pending)
    (h4 : t.upsets = s.upsets) (h5 : t.portTable = s.portTable) (h6 : t.links = s.links)
    (h7 : s.table.wf → t.table.wf) : Steady s t :=
  ⟨⟨h1, h2, h3, h4, h7⟩, h5, fun p => by rw [h6], fun p => by rw [h6]; exact id⟩

end Steady

theorem Link.Sound.attention {l : Link} (h : l.Sound) (b : Bool) : ({ l with attention := b } : Link).Sound :=
  h

theorem Confined.steady {s t : State} (h : Confined s t) : Steady s t where
  timeBase := h.timeBase
  thresholds := h.thresholds
  pending := h.pending
  upsets := h.upsets
  table := h.table
  portTable := h.portTable
  linkState := h.linkState
  linkSound := fun p hs => by
    rw [h.links p]
    exact hs.attention _

/-! ### Links -/

/-- A change of one link that keeps its state and its order. -/
theorem steady_modifyLink (s : State) (p : Port) (f : Link → Link)
    (h1 : (f s.links[p]).state = s.links[p].state) (h2 : s.links[p].Sound → (f s.links[p]).Sound) :
    Steady s (s.modifyLink p f) where
  timeBase := rfl
  thresholds := rfl
  pending := rfl
  upsets := rfl
  table := id
  portTable := rfl
  linkState := fun q => by
    rw [State.modifyLink_get]
    split
    · rename_i h; subst h; exact h1
    · rfl
  linkSound := fun q => by
    rw [State.modifyLink_get]
    split
    · rename_i h; subst h; exact h2
    · exact id

theorem basic_modifyLink (s : State) (p : Port) (f : Link → Link) : Basic s (s.modifyLink p f) :=
  ⟨rfl, rfl, rfl, rfl, id⟩

/-- The eight other places are never overrun (R155). -/
theorem formOther_places (f : Frame) (queue : List Outgoing)
    (h : (queue.filter fun o => decide (o.place = .other)).length ≤ Config.otherPlaces) :
    ((formOther f queue).filter fun o => decide (o.place = .other)).length ≤ Config.otherPlaces := by
  unfold formOther
  split
  · rename_i hlt
    simp only [List.filter_append, List.length_append]
    simpa using hlt
  · exact h

theorem steady_form (s : State) (p : Port) (f : Frame) : Steady s (s.form p f) :=
  steady_modifyLink s p _ rfl fun ⟨h1, h2, h3, h4, h5, h6, h7, h8⟩ =>
    ⟨h1, h2, h3, h4, h5, h6, h7, formOther_places f _ h8⟩

theorem steady_setReceiver (s : State) (p : Port) (r : Receiver) : Steady s (s.setReceiver p r) :=
  steady_modifyLink s p _ rfl id

theorem length_setNextCondition (c : Condition) : ∀ l : List TakenRequest,
    (setNextCondition c l).length = l.length
  | [] => rfl
  | q :: rest => by
    unfold setNextCondition
    split
    · rfl
    · simp [length_setNextCondition c rest]

theorem setNextCondition_nil (c : Condition) : setNextCondition c [] = [] := rfl

theorem length_remember (r : StoredReply) (history : List StoredReply)
    (h : history.length ≤ Config.historySize) : (remember r history).length ≤ Config.historySize := by
  unfold remember
  split
  · rename_i hlt
    simp only [List.length_append, List.length_singleton]
    exact hlt
  · simp only [List.length_append, List.length_drop, List.length_singleton]
    unfold Config.historySize at *
    omega

/-- A port whose items are in order and that has a request to apply is UP. -/
theorem Link.Sound.up_of_requests {l : Link} (h : l.Sound) {q : TakenRequest}
    (hq : l.requests.find? TakenRequest.unanswered = some q) : l.state = .up := by
  by_contra hne
  rw [(h.1 hne).1] at hq
  simp at hq

theorem Link.Sound.answer {l : Link} (h : l.Sound) (hup : l.state = .up) (q : TakenRequest)
    (payload : List Octet) : (l.answer q payload).Sound := by
  obtain ⟨_, h2, h3, h4, h5, h6, h7, h8⟩ := h
  refine ⟨fun hne => absurd hup hne, h2, h3, h4, ?_, ?_, h7, ?_⟩
  · show (setNextCondition _ _).length ≤ _
    rw [length_setNextCondition]; exact h5
  · exact length_remember _ _ h6
  · show ((l.transmit ++ _).filter _).length ≤ _
    simpa using h8

theorem steady_respond (s : State) (p : Port) (result : Result) (body : List Octet) :
    Steady s (s.respond p result body) := by
  unfold State.respond
  split
  · exact .refl s
  · rename_i q hq
    exact steady_modifyLink s p _ rfl fun h => h.answer (h.up_of_requests hq) q _

theorem steady_refuse (s : State) (p : Port) (result : Result) : Steady s (s.refuse p result) :=
  steady_respond s p result []

theorem steady_accept (s : State) (p : Port) (body : List Octet) : Steady s (s.accept p body) :=
  steady_respond s p .ok body

theorem steady_hold (s : State) (p : Port) (i : SlotIx) : Steady s (s.hold p i) :=
  steady_modifyLink s p _ rfl fun ⟨h1, h2, h3, h4, h5, h6, h7, h8⟩ => by
    refine ⟨fun hne => ?_, h2, h3, h4, ?_, h6, h7, h8⟩
    · obtain ⟨a, b, c⟩ := h1 hne
      refine ⟨?_, b, c⟩
      show setNextCondition _ s.links[p].requests = []
      rw [a]; rfl
    · show (setNextCondition _ _).length ≤ _
      rw [length_setNextCondition]; exact h5

/-! ### Whole blocks -/

theorem steady_withPlacement (s : State) (b : PlacementUnit) : Steady s (s.withPlacement b) :=
  .of_eq rfl rfl rfl rfl rfl rfl id

theorem steady_withSweeps (s : State) (b : SweepUnit) : Steady s (s.withSweeps b) :=
  .of_eq rfl rfl rfl rfl rfl rfl id

theorem steady_withScrubber (s : State) (b : Scrubber) : Steady s (s.withScrubber b) :=
  .of_eq rfl rfl rfl rfl rfl rfl id

theorem steady_withPools (s : State) (b : Vector (List Port) 8) : Steady s (s.withPools b) :=
  .of_eq rfl rfl rfl rfl rfl rfl id

theorem basic_withPortTable (s : State) (b : PortTable) : Basic s (s.withPortTable b) :=
  ⟨rfl, rfl, rfl, rfl, id⟩

/-! ### Placements -/

theorem steady_releaseHeldOn (s : State) (i : SlotIx) : Steady s (s.releaseHeldOn i) where
  timeBase := rfl
  thresholds := rfl
  pending := rfl
  upsets := rfl
  table := id
  portTable := rfl
  linkState := fun p => by
    unfold State.releaseHeldOn
    simp
  linkSound := fun p => by
    unfold State.releaseHeldOn
    rintro ⟨h1, h2, h3, h4, h5, h6, h7, h8⟩
    simp only [Fin.getElem_fin, Vector.getElem_map]
    refine ⟨fun hne => ?_, h2, h3, h4, ?_, h6, h7, h8⟩
    · obtain ⟨a, b, c⟩ := h1 hne
      refine ⟨?_, b, c⟩
      show releaseHeld i s.links[p].requests = []
      rw [a]; rfl
    · show (releaseHeld i _).length ≤ _
      unfold releaseHeld
      rw [List.length_map]
      exact h5

theorem steady_putDown (s : State) (c : Carried) : Steady s (s.putDown c) :=
  (steady_withPlacement s _).trans (steady_releaseHeldOn _ c.slot)

theorem steady_endPlacement (s : State) (c : Carried) : Steady s (s.endPlacement c) := by
  unfold State.endPlacement
  dsimp only
  refine Steady.trans ?_ ((steady_putDown _ c).trans (confined_reportRebuild _).steady)
  refine Confined.steady ?_
  refine .ite (.ite (confined_setSched _ _ .idle) (.ite ?_ ?_)) (.refl _)
  · exact confined_returnOvertaken _ _
  · exact confined_insertArmed _ _

theorem steady_endCarried (s : State) : Steady s s.endCarried := by
  unfold State.endCarried
  split
  · exact .refl s
  · exact (confined_checkedRead s _).steady.trans (steady_endPlacement _ _)

/-! ### Sweeps -/

theorem steady_startSweep (s : State) (w : Sweep) : Steady s (s.startSweep w) := by
  unfold State.startSweep
  dsimp only
  refine Steady.trans ?_ (((Confined.foldl _ (confined_markOne w) _ _).trans (confined_settleSince _ s)).trans
    (confined_driveLines _)).steady
  exact (confined_readSlots s s.liveSlots).steady.trans (steady_withSweeps _ _)

theorem steady_takeSweep (s : State) : Steady s s.takeSweep := by
  unfold State.takeSweep
  refine .ite (.refl s) ?_
  split
  · exact (steady_withSweeps s _).trans (steady_startSweep _ _)
  · exact steady_startSweep s _
  · exact .refl s

theorem steady_queueSweep (s : State) (k : SweepKind) : Steady s (s.queueSweep k) :=
  (steady_withSweeps s _).trans (steady_takeSweep _)

theorem steady_queuePortSweep (s : State) (p : Port) : Steady s (s.queuePortSweep p) :=
  .ite (.refl s) (steady_queueSweep s _)

theorem steady_visit (s : State) (run : SweepRun) (i : SlotIx) : Steady s (s.visit run i) := by
  unfold State.visit
  dsimp only
  refine (confined_readSlot s i).steady.trans (Steady.trans ?_ (steady_withSweeps _ _))
  exact (Confined.ite (confined_retire _ i) (confined_settleSince _ s)).steady

theorem steady_freePlace (s : State) (w : Sweep) : Steady s (s.freePlace w) :=
  steady_withSweeps s _

theorem steady_abandonTagSweeps (s : State) : Steady s s.abandonTagSweeps :=
  (Confined.foldl _ confined_abandon _ s).steady.trans (steady_withSweeps _ _)

theorem steady_endTotal (s : State) (run : SweepRun) : Steady s (s.endTotal run) := by
  unfold State.endTotal
  dsimp only
  refine Steady.trans ?_ (confined_driveLines _).steady
  refine Steady.trans ?_ (steady_withSweeps _ _)
  refine Steady.trans ?_ ((confined_restoreList _).trans (confined_createSweepDone _ _ _ _ _)).steady
  refine Steady.trans ?_ (steady_abandonTagSweeps _)
  refine Steady.trans ?_ (steady_withPools _ _)
  exact ((confined_emptyBlocked s).trans (confined_freeNotices _)).steady

theorem steady_scrub (s : State) : Steady s s.scrub := by
  unfold State.scrub
  dsimp only
  refine (steady_withScrubber s s.scrubber.visited).trans
    (Confined.steady ((confined_checkedRead _ s.scrubber.cursor).trans ?_))
  exact .ite (confined_listFault _) (.refl _)

end Sys2Proof.Machine
end

