-- ==== Sys2Proof/Laws/Links.lean ====
section
/-! SUPPORT. Operations that change link states: leaving UP, coming UP, good and bad frames, disabling and
enabling. Each keeps the port table and the links in agreement and each port's items in order. -/

namespace Sys2Proof.Machine

/-- `t` came from `s` by an operation that may change link states and keeps what holds of the ports. -/
structure Linked (s t : State) : Prop extends Basic s t where
  portsAgree : s.PortsAgree → t.PortsAgree
  linksSound : s.LinksSound → t.LinksSound

theorem Steady.linked {s t : State} (h : Steady s t) : Linked s t :=
  ⟨h.toBasic, h.portsAgree, h.linksSound⟩

theorem Confined.linked {s t : State} (h : Confined s t) : Linked s t := h.steady.linked

namespace Linked

theorem refl (s : State) : Linked s s := (Steady.refl s).linked

theorem trans {s t u : State} (a : Linked s t) (b : Linked t u) : Linked s u :=
  ⟨a.toBasic.trans b.toBasic, b.portsAgree ∘ a.portsAgree, b.linksSound ∘ a.linksSound⟩

theorem ite {c : Prop} [Decidable c] {s t u : State} (a : Linked s t) (b : Linked s u) :
    Linked s (if c then t else u) := by
  split
  · exact a
  · exact b

end Linked

/-- A change of one link that keeps it DISABLED or not, and in order. -/
theorem linked_modifyLink (s : State) (p : Port) (f : Link → Link)
    (h1 : (f s.links[p]).state = .disabled ↔ s.links[p].state = .disabled)
    (h2 : s.links[p].Sound → (f s.links[p]).Sound) : Linked s (s.modifyLink p f) where
  toBasic := basic_modifyLink s p f
  portsAgree := by
    rintro ⟨a, b⟩
    have key : ∀ q : Port, (s.modifyLink p f).links[q].state ≠ .disabled ↔ s.links[q].state ≠ .disabled := by
      intro q
      rw [State.modifyLink_get]
      split
      · rename_i h; subst h; exact not_congr h1
      · exact Iff.rfl
    exact ⟨fun q => (a q).trans (key q).symm, (key _).mpr b⟩
  linksSound := by
    intro a q
    rw [State.modifyLink_get]
    split
    · rename_i h; subst h; exact h2 (a q)
    · exact a q

/-! ### Leaving UP -/

theorem steady_emptyAndQueue (s : State) (p : Port) :
    Steady s (((s.emptyPort p).queuePortSweep p).settle) :=
  ((confined_emptyPort s p).steady.trans (steady_queuePortSweep _ p)).trans (confined_settle _).steady

theorem leaveUp_portTable (s : State) (p : Port) (x : LinkState) (kept : List Outgoing) :
    (s.leaveUp p x kept).portTable = s.portTable :=
  (steady_emptyAndQueue (s.modifyLink p (·.leave x kept)) p).portTable

theorem leaveUp_state_self (s : State) (p : Port) (x : LinkState) (kept : List Outgoing) :
    (s.leaveUp p x kept).links[p].state = x := by
  have h := (steady_emptyAndQueue (s.modifyLink p (·.leave x kept)) p).linkState p
  rw [State.modifyLink_self] at h
  exact h

theorem leaveUp_state_other (s : State) (p q : Port) (x : LinkState) (kept : List Outgoing) (h : q ≠ p) :
    (s.leaveUp p x kept).links[q].state = s.links[q].state := by
  have g := (steady_emptyAndQueue (s.modifyLink p (·.leave x kept)) p).linkState q
  rw [State.modifyLink_other _ _ _ _ h] at g
  exact g

theorem basic_leaveUp (s : State) (p : Port) (x : LinkState) (kept : List Outgoing) :
    Basic s (s.leaveUp p x kept) :=
  (basic_modifyLink s p _).trans (steady_emptyAndQueue _ p).toBasic

/-- A link that leaves UP is in order (R159 steps 1 to 4). -/
theorem Link.Sound.leave {l : Link} (h : l.Sound) (x : LinkState) (kept : List Outgoing)
    (hx : x ≠ .recovering)
    (hk : (kept.filter fun o => decide (o.place = .other)).length < Config.otherPlaces) :
    (l.leave x kept).Sound := by
  obtain ⟨_, _, _, h4, _, _, _, _⟩ := h
  refine ⟨fun _ => ⟨rfl, rfl, rfl⟩, ?_, ?_, h4, Nat.zero_le _, Nat.zero_le _, ?_, ?_⟩
  · show (none : Option Nat).isSome = true ↔ x = .recovering
    simp [hx]
  · intro w hw
    exact absurd hw (by simp [Link.leave])
  · show 0 < Config.badRunLimit
    decide
  · show (((l.transmit.take 1).map Outgoing.orphan ++ kept).filter _).length ≤ _
    rw [List.filter_append, List.length_append]
    have : (((l.transmit.take 1).map Outgoing.orphan).filter fun o => decide (o.place = .other)).length
        ≤ 1 := by
      refine (List.length_filter_le _ _).trans ?_
      rw [List.length_map]
      exact List.length_take_le 1 _
    omega

theorem leaveUp_linksSound (s : State) (p : Port) (x : LinkState) (kept : List Outgoing)
    (hx : x ≠ .recovering)
    (hk : (kept.filter fun o => decide (o.place = .other)).length < Config.otherPlaces)
    (h : s.LinksSound) : (s.leaveUp p x kept).LinksSound := by
  refine (steady_emptyAndQueue (s.modifyLink p (·.leave x kept)) p).linksSound fun q => ?_
  rw [State.modifyLink_get]
  split
  · exact (h q).leave x kept hx hk
  · exact h q

/-- Leaving UP for DOWN (R159). -/
theorem linked_leaveUp (s : State) (p : Port) (kept : List Outgoing) (hup : s.links[p].state = .up)
    (hk : (kept.filter fun o => decide (o.place = .other)).length < Config.otherPlaces) :
    Linked s (s.leaveUp p .down kept) where
  toBasic := basic_leaveUp s p _ kept
  portsAgree := by
    rintro ⟨a, b⟩
    have key : ∀ q : Port, (s.leaveUp p .down kept).links[q].state ≠ .disabled
        ↔ s.links[q].state ≠ .disabled := by
      intro q
      by_cases h : q = p
      · subst h
        rw [leaveUp_state_self, hup]
        decide
      · rw [leaveUp_state_other s p q _ kept h]
    have hpt := leaveUp_portTable s p .down kept
    refine ⟨fun q => ?_, ?_⟩
    · rw [key q, ← a q]
      simp only [hpt]
    · rw [key]
      simpa only [hpt] using b
  linksSound := leaveUp_linksSound s p _ kept (by decide) hk

theorem keptReject_places (l : Link) (reason : RejectReason) :
    ((keptReject l reason).filter fun o => decide (o.place = .other)).length < Config.otherPlaces := by
  unfold keptReject
  split
  · exact Nat.lt_of_le_of_lt (List.length_filter_le _ _) (show 1 < 8 by decide)
  · decide

/-! ### Coming UP -/

theorem linked_comeUp (s : State) (p : Port) (w : Nat) (hne : s.links[p].state ≠ .disabled)
    (hw : 1 ≤ w ∧ w ≤ 4) : Linked s (s.comeUp p w) := by
  unfold State.comeUp
  refine Linked.trans (linked_modifyLink s p _ ?_ ?_)
    ((steady_form _ p _).linked.trans (confined_settle _).linked)
  · exact ⟨fun h => absurd h (by simp), fun h => absurd h hne⟩
  · rintro ⟨_, _, _, _, _, _, _, h8⟩
    refine ⟨fun h => absurd rfl h, ?_, ?_, hw, Nat.zero_le _, Nat.zero_le _, ?_, h8⟩
    · simp
    · intro v hv
      exact absurd hv (by simp)
    · show 0 < Config.badRunLimit
      decide

/-! ### Frames received -/

theorem linked_receiveBad (s : State) (p : Port) (reason : RejectReason) :
    Linked s (s.receiveBad p reason) := by
  unfold State.receiveBad
  split
  · exact .refl s
  · exact (steady_form s p _).linked
  · exact (steady_form s p _).linked
  · rename_i hup
    split
    · rename_i hlt
      refine Linked.trans (linked_modifyLink s p _ Iff.rfl ?_) (steady_form _ p _).linked
      rintro ⟨h1, h2, h3, h4, h5, h6, _, h8⟩
      exact ⟨fun hne => absurd hup hne, h2, h3, h4, h5, h6, hlt, h8⟩
    · exact (linked_leaveUp s p _ hup (keptReject_places _ _)).trans (steady_form _ p _).linked

theorem linked_cutOff (s : State) (p : Port) : Linked s (s.cutOff p) :=
  (steady_setReceiver s p _).linked.trans (linked_receiveBad _ p _)

theorem linked_openFromDown (s : State) (p : Port) (w : Nat) (hd : s.links[p].state = .down)
    (hw : 1 ≤ w ∧ w ≤ 4) : Linked s (s.openFromDown p w) := by
  unfold State.openFromDown
  refine .ite (Linked.trans (linked_modifyLink s p _ ?_ ?_) (steady_form _ p _).linked)
    (linked_comeUp s p w (by rw [hd]; decide) hw)
  · rw [hd]
    exact ⟨fun h => absurd h (by simp), fun h => absurd h (by simp)⟩
  · rintro ⟨h1, _, _, h4, h5, h6, h7, h8⟩
    refine ⟨fun _ => h1 (by rw [hd]; decide), ?_, ?_, h4, h5, h6, h7, h8⟩
    · simp
    · intro v hv
      have : v = w := by simpa [eq_comm] using hv
      rw [this]; exact hw

theorem linked_receiveLinkOpen (s : State) (p : Port) (w : Nat) (hw : 1 ≤ w ∧ w ≤ 4) :
    Linked s (s.receiveLinkOpen p w) := by
  unfold State.receiveLinkOpen
  split
  · exact (steady_form s p _).linked
  · rename_i h; exact linked_openFromDown s p w h hw
  · rename_i h
    refine Linked.trans (linked_modifyLink s p _ Iff.rfl ?_) (steady_form _ p _).linked
    rintro ⟨h1, _, _, h4, h5, h6, h7, h8⟩
    refine ⟨h1, ?_, ?_, h4, h5, h6, h7, h8⟩
    · exact ⟨fun _ => h, fun _ => rfl⟩
    · intro v hv
      have : v = w := by simpa [eq_comm] using hv
      rw [this]; exact hw
  · rename_i h
    exact (linked_leaveUp s p [] h (by decide)).trans
      (linked_openFromDown _ p w (leaveUp_state_self s p _ _) hw)

theorem linked_receiveLinkClose (s : State) (p : Port) : Linked s (s.receiveLinkClose p) := by
  unfold State.receiveLinkClose
  split
  · exact .refl s
  · exact (steady_form s p _).linked
  · rename_i h
    refine Linked.trans (linked_modifyLink s p _ ?_ ?_) (steady_form _ p _).linked
    · rw [h]
      exact ⟨fun e => absurd e (by simp), fun e => absurd e (by simp)⟩
    · rintro ⟨h1, _, _, h4, h5, h6, h7, h8⟩
      refine ⟨fun _ => h1 (by rw [h]; decide), by simp, ?_, h4, h5, h6, h7, h8⟩
      intro v hv
      exact absurd hv (by simp)
  · rename_i h
    exact (linked_leaveUp s p [] h (by decide)).trans (steady_form _ p _).linked

theorem steady_formResponse (s : State) (p : Port) (seq : SeqNumber) (payload : List Octet) :
    Steady s (s.formResponse p seq payload) := steady_form s p _

theorem linked_sequenceRequest (s : State) (p : Port) (seq : SeqNumber) (payload : List Octet)
    (hup : s.links[p].state = .up) : Linked s (s.sequenceRequest p seq payload) := by
  unfold State.sequenceRequest
  split
  · exact (steady_formResponse s p _ _).linked
  · split
    · split
      · rename_i hlt
        refine linked_modifyLink s p _ Iff.rfl ?_
        rintro ⟨_, h2, h3, h4, _, h6, h7, h8⟩
        refine ⟨fun hne => absurd hup hne, h2, h3, h4, ?_, h6, h7, h8⟩
        show (s.links[p].requests ++ _).length ≤ _
        rw [List.length_append]
        exact hlt
      · exact (steady_formResponse s p _ _).linked
    · exact (steady_formResponse s p _ _).linked

theorem linked_receiveRequest (s : State) (p : Port) (seq : SeqNumber) (payload : List Octet) :
    Linked s (s.receiveRequest p seq payload) := by
  unfold State.receiveRequest
  split
  · exact .refl s
  · exact (steady_form s p _).linked
  · exact (steady_form s p _).linked
  · rename_i hup
    refine Linked.trans (linked_modifyLink s p _ Iff.rfl ?_) (linked_sequenceRequest _ p _ _ ?_)
    · rintro ⟨_, h2, h3, h4, h5, h6, _, h8⟩
      exact ⟨fun hne => absurd hup hne, h2, h3, h4, h5, h6, by
        show 0 < Config.badRunLimit
        decide, h8⟩
    · rw [State.modifyLink_self]
      exact hup

theorem Link.Sound.sent {l : Link} (h : l.Sound) : l.sent.Sound := by
  obtain ⟨h1, h2, h3, h4, h5, h6, h7, h8⟩ := h
  unfold Link.sent
  split
  · exact ⟨h1, h2, h3, h4, h5, h6, h7, h8⟩
  · rename_i o rest ht
    have hp : (rest.filter fun o => decide (o.place = .other)).length ≤ Config.otherPlaces := by
      rw [ht] at h8
      refine le_trans ?_ h8
      exact ((List.sublist_cons_self o rest).filter _).length_le
    split
    · refine ⟨fun hne => ?_, h2, h3, h4, ?_, h6, h7, hp⟩
      · obtain ⟨a, b, c⟩ := h1 hne
        refine ⟨?_, b, c⟩
        show l.requests.drop 1 = []
        rw [a]; rfl
      · show (l.requests.drop 1).length ≤ _
        rw [List.length_drop]
        exact le_trans (Nat.sub_le _ _) h5
    · exact ⟨h1, h2, h3, h4, h5, h6, h7, hp⟩

theorem Link.sent_state (l : Link) : l.sent.state = l.state := by
  unfold Link.sent
  split
  · rfl
  · split <;> rfl

theorem steady_sent (s : State) (p : Port) : Steady s (s.modifyLink p Link.sent) :=
  steady_modifyLink s p _ (Link.sent_state _) fun h => h.sent

/-! ### The end of a PORT sweep, disabling and enabling -/

theorem linked_recover (s : State) (p : Port) : Linked s (s.recover p) := by
  unfold State.recover
  split
  · rename_i h
    refine ⟨?_, ?_, ?_⟩
    · unfold State.comeUp
      exact (basic_modifyLink s p _).trans ((steady_form _ p _).toBasic.trans
        (confined_settle _).steady.toBasic)
    · unfold State.comeUp
      intro a
      refine ((steady_form _ p _).linked.trans (confined_settle _).linked).portsAgree ?_
      obtain ⟨a1, a2⟩ := a
      have key : ∀ q : Port, (s.modifyLink p fun l =>
          { l with state := .up, window := s.links[p].pendingWindow.getD 1, pendingWindow := none,
                   expected := 0, requests := [], history := [], badRun := 0 }).links[q].state ≠ .disabled
          ↔ s.links[q].state ≠ .disabled := by
        intro q
        rw [State.modifyLink_get]
        split
        · rename_i e; subst e
          rw [h]; simp
        · exact Iff.rfl
      exact ⟨fun q => (a1 q).trans (key q).symm, (key _).mpr a2⟩
    · intro a
      have hw : 1 ≤ s.links[p].pendingWindow.getD 1 ∧ s.links[p].pendingWindow.getD 1 ≤ 4 := by
        obtain ⟨_, _, h3, _⟩ := a p
        cases hv : s.links[p].pendingWindow with
        | none => exact ⟨le_refl 1, by decide⟩
        | some v => exact h3 v hv
      exact (linked_comeUp s p _ (by rw [h]; decide) hw).linksSound a
  · exact .refl s

theorem basic_setEnabled (s : State) (q : Port) (b : Bool) : Basic s (s.setEnabled q b) :=
  basic_withPortTable s _

theorem setEnabled_linksSound (s : State) (q : Port) (b : Bool) (h : s.LinksSound) :
    (s.setEnabled q b).LinksSound := h

/-- A port that is not the supervisor port is disabled (R160, R172). -/
theorem portsAgree_of_disabled {s t : State} (q : Port) (hs : s.portTable.supervisor ≠ q)
    (h1 : t.portTable = { s.portTable with enabled := s.portTable.enabled.set q.val false q.isLt })
    (h2 : t.links[q].state = .disabled) (h3 : ∀ r : Port, r ≠ q → t.links[r].state = s.links[r].state)
    (a : s.PortsAgree) : t.PortsAgree := by
  obtain ⟨a1, a2⟩ := a
  refine ⟨fun r => ?_, ?_⟩
  · by_cases h : r = q
    · subst h
      have : t.portTable.enabled[r] = false := by
        simp only [h1]
        exact set_port_same _ _ _
      rw [this, h2]
      simp
    · have : t.portTable.enabled[r] = s.portTable.enabled[r] := by
        simp only [h1]
        exact set_port_other _ _ _ _ h
      rw [this, h3 r h]
      exact a1 r
  · have : t.portTable.supervisor = s.portTable.supervisor := by rw [h1]
    simp only [this]
    rw [h3 _ hs]
    exact a2

theorem linked_disable (s : State) (q : Port) (hs : s.portTable.supervisor ≠ q) :
    Linked s (s.disable q) := by
  unfold State.disable
  have down : ∀ h : s.links[q].state = .recovering ∨ s.links[q].state = .down,
      Linked s (((s.setEnabled q false).modifyLink q fun l =>
        { l with state := .disabled, pendingWindow := none }).queuePortSweep q) := by
    intro h
    have st := steady_queuePortSweep ((s.setEnabled q false).modifyLink q fun l =>
        { l with state := .disabled, pendingWindow := none }) q
    refine ⟨(basic_setEnabled s q false).trans ((basic_modifyLink _ q _).trans st.toBasic), ?_, ?_⟩
    · refine portsAgree_of_disabled q hs (by rw [st.portTable]; rfl) ?_ ?_
      · rw [st.linkState, State.modifyLink_self]
      · intro r hr
        rw [st.linkState, State.modifyLink_other _ _ _ _ hr]
        rfl
    · intro a
      refine st.linksSound fun r => ?_
      rw [State.modifyLink_get]
      split
      · rename_i e; subst e
        obtain ⟨h1, _, _, h4, h5, h6, h7, h8⟩ := a r
        have hne : s.links[r].state ≠ .up := by
          rcases h with h | h <;> rw [h] <;> decide
        refine ⟨fun _ => h1 hne, by simp, ?_, h4, h5, h6, h7, h8⟩
        intro v hv
        exact absurd hv (by simp)
      · exact a r
  split
  · exact .refl s
  · have st := steady_form ((s.setEnabled q false).leaveUp q .disabled []) q linkCloseFrame
    refine ⟨(basic_setEnabled s q false).trans ((basic_leaveUp _ q _ _).trans st.toBasic), ?_, ?_⟩
    · refine portsAgree_of_disabled q hs ?_ ?_ ?_
      · rw [st.portTable, leaveUp_portTable]; rfl
      · rw [st.linkState, leaveUp_state_self]
      · intro r hr
        rw [st.linkState, leaveUp_state_other _ _ _ _ _ hr]; rfl
    · intro a
      exact st.linksSound (leaveUp_linksSound _ q _ _ (by decide) (by decide) a)
  · rename_i h; exact down (Or.inl h)
  · rename_i h; exact down (Or.inr h)

theorem linked_enable (s : State) (q : Port) : Linked s (s.enable q) := by
  unfold State.enable
  split
  · rename_i h
    refine ⟨(basic_setEnabled s q true).trans (basic_modifyLink _ q _), ?_, ?_⟩
    · rintro ⟨a1, a2⟩
      refine ⟨fun r => ?_, ?_⟩
      · by_cases e : r = q
        · subst e
          rw [State.modifyLink_self]
          have : ((s.setEnabled r true).modifyLink r fun l => { l with state := .down }).portTable.enabled[r]
              = true := set_port_same _ _ _
          rw [this]
          simp
        · rw [State.modifyLink_other _ _ _ _ e]
          have : ((s.setEnabled q true).modifyLink q fun l => { l with state := .down }).portTable.enabled[r]
              = s.portTable.enabled[r] := set_port_other _ _ _ _ e
          rw [this]
          exact a1 r
      · show ((s.setEnabled q true).modifyLink q fun l => { l with state := .down }).links[
          s.portTable.supervisor].state ≠ .disabled
        rw [State.modifyLink_get]
        split
        · simp
        · exact a2
    · intro a r
      rw [State.modifyLink_get]
      split
      · rename_i e; subst e
        obtain ⟨h1, h2, h3, h4, h5, h6, h7, h8⟩ := a r
        refine ⟨fun _ => h1 (by rw [h]; decide), ?_, h3, h4, h5, h6, h7, h8⟩
        rw [h] at h2
        exact ⟨fun e => absurd (h2.mp e) (by decide), fun e => absurd e (by simp)⟩
      · exact a r
  · exact .refl s
  · exact .refl s
  · exact .refl s

end Sys2Proof.Machine
end

