-- ==== Sys2Proof/Laws/Commands.lean ====
section
/-! SUPPORT. Every command answers a next state, and what that state keeps of the one before: one lemma
per command, `goes_<command>`. -/

namespace Sys2Proof.Machine

/-- The outcome is a next state that stands in the relation to `s`. -/
def Goes (R : State → State → Prop) (s : State) (o : Host.Outcome State Fault Refusal) : Prop :=
  ∃ t, o = .next t ∧ R s t

theorem Goes.next {R : State → State → Prop} {s t : State} (h : R s t) :
    Goes R s (Host.Outcome.next t) := ⟨t, rfl, h⟩

theorem Goes.imp {R Q : State → State → Prop} {s : State} {o : Host.Outcome State Fault Refusal}
    (h : Goes R s o) (f : ∀ t, R s t → Q s t) : Goes Q s o := by
  obtain ⟨t, e, r⟩ := h
  exact ⟨t, e, f t r⟩

/-- What every command but ATTENTION-SET and a reset keeps: the model's own queue and inputs and the
thresholds; and the invariants of the table, the ports, the links and the time base. -/
structure Ruled (s t : State) : Prop where
  pending : t.pending = s.pending
  upsets : t.upsets = s.upsets
  thresholds : t.notices.thresholds = s.notices.thresholds
  table : s.table.wf → t.table.wf
  portsAgree : s.PortsAgree → t.PortsAgree
  linksSound : s.LinksSound → t.LinksSound
  timeSound : s.timeBase.Sound → t.timeBase.Sound

theorem Linked.ruled {s t : State} (h : Linked s t) : Ruled s t :=
  ⟨h.pending, h.upsets, h.thresholds, h.table, h.portsAgree, h.linksSound, fun a => by rw [h.timeBase]; exact a⟩

theorem Ruled.trans {s t u : State} (a : Ruled s t) (b : Ruled t u) : Ruled s u :=
  ⟨b.pending.trans a.pending, b.upsets.trans a.upsets, b.thresholds.trans a.thresholds, b.table ∘ a.table,
    b.portsAgree ∘ a.portsAgree, b.linksSound ∘ a.linksSound, b.timeSound ∘ a.timeSound⟩

theorem Ruled.refl (s : State) : Ruled s s := (Linked.refl s).ruled

theorem Steady.ruled {s t : State} (h : Steady s t) : Ruled s t := h.linked.ruled

/-! ### How requests are applied -/

/-- The application of a request: it does not take place, or its effect does. -/
theorem goes_applying {R : State → State → Prop} (s : State) (p : Port) (c : RequestCode)
    (f : List Octet → State) (h0 : R s s) (h : ∀ pl, R s (f pl)) : Goes R s (s.applying p c f) := by
  unfold State.applying
  split
  · exact .next h0
  · split
    · exact .next (h _)
    · exact .next h0

/-- A request that waits with this code is applied (R164). -/
theorem applying_asks {s : State} {p : Port} {c : RequestCode} {pl : List Octet} (f : List Octet → State)
    (h : s.Asks p pl) (hc : requestOf pl = some c) : s.applying p c f = .next (f pl) := by
  obtain ⟨q, h1, h2, h3⟩ := h
  unfold State.applying
  rw [h1]
  simp [h2, h3, hc]

theorem interlocked_of {R : State → Prop} (s : State) (p : Port) (pl : List Octet) (f : State)
    (h1 : R (s.refuse p .format)) (h2 : ∀ i, R ((s.checkedRead i).hold p i)) (h3 : R f) :
    R (s.interlocked p pl f) := by
  unfold State.interlocked
  split
  · exact h3
  · split
    · exact h1
    · split
      · exact h2 _
      · exact h3

theorem supervised_of {R : State → Prop} (s : State) (p : Port) (f : State) (h1 : R f)
    (h2 : R (s.refuse p .denied)) : R (s.supervised p f) := by
  unfold State.supervised
  split
  · exact h1
  · exact h2

theorem linked_onRecord (s : State) (p : Port) (h : Handle) (damagedMade ownerMade : Bool)
    (f : State → Record → State) (hf : ∀ t r, Linked t (f t r)) :
    Linked s (s.onRecord p h damagedMade ownerMade f) := by
  unfold State.onRecord
  dsimp only
  refine (confined_readSlot s h.slot).linked.trans ?_
  split
  · exact (confined_settleSince _ s).linked.trans (steady_refuse _ p _).linked
  · exact hf _ _

/-- A request held by the interlock or applied, where its effect keeps the ports in order. -/
theorem goes_interlocked (s : State) (p : Port) (c : RequestCode) (f : List Octet → State)
    (hf : ∀ pl, Linked s (f pl)) :
    Goes Linked s (s.applying p c fun pl => s.interlocked p pl (f pl)) :=
  goes_applying s p c _ (.refl s) fun pl =>
    interlocked_of s p pl _ (steady_refuse s p _).linked 
      (fun i => (confined_checkedRead s i).linked.trans (steady_hold _ p i).linked) (hf pl)

theorem linked_accept (s : State) (p : Port) (body : List Octet) : Linked s (s.accept p body) :=
  (steady_accept s p body).linked

theorem linked_refuse (s : State) (p : Port) (r : Result) : Linked s (s.refuse p r) :=
  (steady_refuse s p r).linked

/-! ### Events of the part -/

theorem goes_scrubVisit (s : State) : Goes Linked s (execScrubVisit s) := by
  unfold execScrubVisit
  split
  · exact .next (.refl s)
  · exact .next (steady_scrub s).linked

theorem linked_listFault_end (s : State) : Linked s s.listFault.endCarried :=
  (confined_listFault s).linked.trans (steady_endCarried _).linked

theorem goes_listFault (finder : Finder) (s : State) : Goes Linked s (execListFault finder s) := by
  unfold execListFault
  split
  · split
    · split
      · exact .next (.refl s)
      · exact .next (linked_listFault_end s)
    · exact .next (confined_listFault s).linked
    · exact .next (confined_listFault s).linked
  · exact .next (.refl s)

theorem goes_placementTake (s : State) : Goes Linked s (execPlacementTake s) := by
  unfold execPlacementTake
  split
  · split
    · exact .next (.refl s)
    · exact .next (confined_takeHead s _).linked
  · exact .next (.refl s)

theorem goes_placementEnd (s : State) : Goes Linked s (execPlacementEnd s) := by
  unfold execPlacementEnd
  split
  · exact .next (.refl s)
  · have h := (confined_placementReads s ‹Carried›).linked
    dsimp only
    split
    · exact .next (h.trans (linked_listFault_end _))
    · exact .next (h.trans (steady_endPlacement _ _).linked)

theorem goes_firing (s : State) : Goes Linked s (execFiring s) := by
  unfold execFiring
  split
  · split
    · exact .next (.refl s)
    · rename_i m _ _
      have h := confined_checkedRead s m.slot
      dsimp only
      split
      · split
        · exact .next (h.trans (confined_fireHead _ _)).linked
        · exact .next (h.trans (confined_listFault _)).linked
      · exact .next h.linked
  · exact .next (.refl s)

theorem goes_companionFiring (s : State) : Goes Linked s (execCompanionFiring s) := by
  unfold execCompanionFiring
  split
  · exact .next (.refl s)
  · split
    · exact .next (confined_setSearch s none).linked
    · split
      · exact .next (confined_consider s _).linked
      · exact .next (confined_listFault s).linked

theorem goes_markedHeadRemoval (s : State) : Goes Linked s (execMarkedHeadRemoval s) := by
  unfold execMarkedHeadRemoval
  split
  · split
    · exact .next (.refl s)
    · rename_i m _ _
      have h := confined_checkedRead s m.slot
      dsimp only
      split
      · split
        · exact .next ((h.trans (confined_unlist _ _)).trans (confined_setSched _ _ .idle)).linked
        · exact .next (h.trans (confined_listFault _)).linked
      · exact .next h.linked
  · exact .next (.refl s)

theorem goes_sweepStart (s : State) : Goes Linked s (execSweepStart s) :=
  .next (steady_takeSweep s).linked

theorem goes_sweepVisit (s : State) : Goes Linked s (execSweepVisit s) := by
  unfold execSweepVisit
  split
  · exact .next (.refl s)
  · split
    · exact .next (.refl s)
    · exact .next (steady_visit s _ _).linked

theorem goes_tagSweepEnd (s : State) : Goes Linked s (execTagSweepEnd s) := by
  unfold execTagSweepEnd
  split
  · exact .next (.refl s)
  · split
    · split
      · exact .next ((steady_freePlace s _).trans
          ((confined_createSweepDone _ _ _ _ _).trans (confined_driveLines _)).steady).linked
      · exact .next (.refl s)
    · exact .next (.refl s)
    · exact .next (.refl s)

theorem goes_portSweepEnd (s : State) : Goes Linked s (execPortSweepEnd s) := by
  unfold execPortSweepEnd
  split
  · exact .next (.refl s)
  · split
    · split
      · exact .next ((steady_freePlace s _).linked.trans (linked_recover _ _))
      · exact .next (.refl s)
    · exact .next (.refl s)
    · exact .next (.refl s)

theorem goes_totalSweepEnd (s : State) : Goes Linked s (execTotalSweepEnd s) := by
  unfold execTotalSweepEnd
  split
  · exact .next (.refl s)
  · split
    · split
      · exact .next (steady_endTotal s _).linked
      · exact .next (.refl s)
    · exact .next (.refl s)
    · exact .next (.refl s)

/-! ### Events of a link -/

theorem goes_frameCutOff (p : Port) (s : State) : Goes Linked s (execFrameCutOff p s) := by
  unfold execFrameCutOff
  split
  · exact .next (linked_cutOff s p)
  · exact .next (.refl s)

theorem goes_badFrame (p : Port) (os : List Octet) (s : State) : Goes Linked s (execBadFrame p os s) := by
  unfold execBadFrame
  split
  · exact .next ((steady_setReceiver s p _).linked.trans (linked_receiveBad _ p _))
  all_goals exact .next (.refl s)

/-- A good LINK-OPEN asks for a window from 1 to 4 (Table 10-1). -/
theorem judge_linkOpen {header length : Octet} {payload check : List Octet} {w : Nat}
    (h : judge header length payload check = .linkOpen w) : 1 ≤ w ∧ w ≤ 4 := by
  unfold judge at h
  split at h
  · exact absurd h (by simp)
  · split at h
    · exact absurd h (by simp)
    · split at h
      · split at h
        · rename_i hw
          obtain rfl : _ = w := by simpa using h
          exact hw
        · exact absurd h (by simp)
      · exact absurd h (by simp)
    · split at h <;> exact absurd h (by simp)
    · exact absurd h (by simp)

theorem finish_linkOpen {r r' : Receiver} {os : List Octet} {w : Nat}
    (h : r.finish os = some (.linkOpen w, r')) : 1 ≤ w ∧ w ≤ 4 := by
  unfold Receiver.finish takeFrame at h
  split at h
  · split at h
    · simp at h
    · split at h
      · simp at h
      · simp only [Option.map_some, Option.some.injEq, Prod.mk.injEq] at h
        exact judge_linkOpen h.1
  · simp at h

theorem goes_linkOpen (p : Port) (os : List Octet) (s : State) : Goes Linked s (execLinkOpen p os s) := by
  unfold execLinkOpen
  split
  · rename_i h
    exact .next ((steady_setReceiver s p _).linked.trans (linked_receiveLinkOpen _ p _ (finish_linkOpen h)))
  all_goals exact .next (.refl s)

theorem goes_linkClose (p : Port) (os : List Octet) (s : State) : Goes Linked s (execLinkClose p os s) := by
  unfold execLinkClose
  split
  · exact .next ((steady_setReceiver s p _).linked.trans (linked_receiveLinkClose _ p))
  all_goals exact .next (.refl s)

theorem goes_requestFrame (p : Port) (os : List Octet) (s : State) :
    Goes Linked s (execRequestFrame p os s) := by
  unfold execRequestFrame
  split
  · exact .next ((steady_setReceiver s p _).linked.trans (linked_receiveRequest _ p _ _))
  all_goals exact .next (.refl s)

theorem goes_frameSent (p : Port) (s : State) : Goes Linked s (execFrameSent p s) :=
  .next (steady_sent s p).linked

theorem goes_frameStart (p : Port) (bits : List Bool) (s : State) :
    Goes Linked s (execFrameStart p bits s) := .next (steady_setReceiver s p _).linked

theorem goes_unknownRequestCode (p : Port) (s : State) : Goes Linked s (execUnknownRequestCode p s) := by
  unfold execUnknownRequestCode
  split
  · exact .next (.refl s)
  · split
    · exact .next (linked_refuse s p _)
    · exact .next (.refl s)

/-- A request that the interlock tested and that breaks its format (R63, R165). -/
theorem linked_refuseTested (s : State) (p : Port) (pl : List Octet) (r : Result) :
    Linked s ((s.tested pl).refuse p r) := (confined_tested s pl).linked.trans (linked_refuse _ p r)

/-! ### Requests on records -/

theorem goes_open (p : Port) (s : State) : Goes Linked s (execOpen p s) := by
  refine goes_applying s p _ _ (.refl s) fun pl => ?_
  split
  · exact linked_refuse s p _
  · split
    · exact linked_refuse s p _
    · split
      · exact linked_refuse s p _
      · exact ((confined_checkedRead s _).trans (confined_createRecord _ p _ _)).linked.trans
          (linked_accept _ p _)

theorem goes_close (p : Port) (s : State) : Goes Linked s (execClose p s) := by
  refine goes_interlocked s p _ _ fun pl => ?_
  split
  · exact linked_refuseTested s p pl _
  · exact linked_onRecord s p _ _ _ _ fun t r => (confined_retire t _).linked.trans (linked_accept _ p _)

theorem goes_forceClose (p : Port) (s : State) : Goes Linked s (execForceClose p s) := by
  refine goes_applying s p _ _ (.refl s) fun pl => ?_
  split
  · exact linked_refuse s p _
  · refine supervised_of s p _ ?_ (linked_refuse s p _)
    exact linked_onRecord s p _ _ _ _ fun t r => (confined_retire t _).linked.trans (linked_accept _ p _)

theorem goes_read (p : Port) (s : State) : Goes Linked s (execRead p s) := by
  refine goes_applying s p _ _ (.refl s) fun pl => ?_
  split
  · exact linked_refuse s p _
  · rename_i h _
    exact (confined_checkedRead s h.slot).linked.trans (.ite (linked_refuse _ p _) (linked_accept _ p _))

theorem goes_set (p : Port) (s : State) : Goes Linked s (execSet p s) := by
  refine goes_interlocked s p _ _ fun pl => ?_
  split
  · exact linked_refuseTested s p pl _
  · refine linked_onRecord s p _ _ _ _ fun t r => ?_
    exact .ite (linked_refuse t p _) ((confined_setRecord t _ _).linked.trans (linked_accept _ p _))

theorem goes_arm (p : Port) (s : State) : Goes Linked s (execArm p s) := by
  refine goes_interlocked s p _ _ fun pl => ?_
  split
  · exact linked_refuseTested s p pl _
  · refine linked_onRecord s p _ _ _ _ fun t r => .ite (linked_refuse t p _) ?_
    split
    · exact linked_refuse t p _
    · exact (confined_armRecord t _ _).linked.trans (linked_accept _ p _)

theorem goes_cancel (p : Port) (s : State) : Goes Linked s (execCancel p s) := by
  refine goes_interlocked s p _ _ fun pl => ?_
  split
  · exact linked_refuseTested s p pl _
  · refine linked_onRecord s p _ _ _ _ fun t r => Linked.trans ?_ (linked_accept _ p _)
    exact (Confined.ite ((confined_disarm t _).trans (confined_withdraw _ _)) (confined_disarm t _)).linked

theorem goes_pause (p : Port) (s : State) : Goes Linked s (execPause p s) := by
  refine goes_interlocked s p _ _ fun pl => ?_
  split
  · exact linked_refuseTested s p pl _
  · refine linked_onRecord s p _ _ _ _ fun t r => .ite ?_ (linked_refuse t p _)
    exact ((confined_leaveTiming t _).trans (confined_modify _ _ _)).linked.trans (linked_accept _ p _)

theorem goes_resume (p : Port) (s : State) : Goes Linked s (execResume p s) := by
  refine goes_interlocked s p _ _ fun pl => ?_
  split
  · exact linked_refuseTested s p pl _
  · refine linked_onRecord s p _ _ _ _ fun t r => .ite (linked_refuse t p _) (.ite (linked_refuse t p _)
      (.ite (linked_refuse t p _) ?_))
    exact ((confined_setDeadline t _ _).trans (confined_enqueue _ _)).linked.trans (linked_accept _ p _)

/-! ### Delivery -/

theorem goes_take (p : Port) (s : State) : Goes Linked s (execTake p s) := by
  refine goes_applying s p _ _ (.refl s) fun pl => ?_
  split
  · exact linked_refuse s p _
  · exact ((confined_readSlots s _).trans (confined_deliverAll _ p _ _)).linked.trans (linked_accept _ p _)

theorem goes_ack (p : Port) (s : State) : Goes Linked s (execAck p s) := by
  refine goes_applying s p _ _ (.refl s) fun pl => ?_
  split
  · exact linked_refuse s p _
  · refine linked_onRecord s p _ _ _ _ fun t r => ?_
    split
    · exact (confined_settleSince t s).linked.trans (linked_refuse _ p _)
    · exact (confined_acknowledge t p _ _).linked.trans (linked_accept _ p _)

theorem goes_release (p : Port) (s : State) : Goes Linked s (execRelease p s) := by
  refine goes_applying s p _ _ (.refl s) fun pl => ?_
  split
  · exact linked_refuse s p _
  · refine linked_onRecord s p _ _ _ _ fun t r => ?_
    split
    · exact linked_refuse t p _
    · exact (confined_giveBack t p _).linked.trans (linked_accept _ p _)

/-! ### Pools, sweeps and supervision -/

theorem goes_poolSet (p : Port) (s : State) : Goes Linked s (execPoolSet p s) := by
  refine goes_applying s p _ _ (.refl s) fun pl => ?_
  split
  · exact linked_refuse s p _
  · refine supervised_of s p _ ?_ (linked_refuse s p _)
    exact ((confined_setPool s _ _).trans (confined_settle _)).linked.trans (linked_accept _ p _)

theorem goes_retireTag (p : Port) (s : State) : Goes Linked s (execRetireTag p s) := by
  refine goes_applying s p _ _ (.refl s) fun pl => ?_
  split
  · exact linked_refuse s p _
  · exact .ite (linked_refuse s p _) (.ite (linked_refuse s p _)
      ((steady_queueSweep s _).linked.trans (linked_accept _ p _)))

theorem goes_clearAll (p : Port) (s : State) : Goes Linked s (execClearAll p s) := by
  refine goes_applying s p _ _ (.refl s) fun pl => ?_
  split
  · exact linked_refuse s p _
  · refine supervised_of s p _ (.ite (linked_refuse s p _) ?_) (linked_refuse s p _)
    exact ((steady_withSweeps s _).trans (steady_takeSweep _)).linked.trans (linked_accept _ p _)

/-- A port table with another quota, limit or UP supervisor. -/
theorem linked_withPortTable (s : State) (b : PortTable) (h1 : b.enabled = s.portTable.enabled)
    (h2 : s.PortsAgree → s.links[b.supervisor].state ≠ .disabled) : Linked s (s.withPortTable b) where
  toBasic := basic_withPortTable s b
  portsAgree := fun a => ⟨fun p => by
    show b.enabled[p] = true ↔ _
    simp only [h1]
    exact a.1 p, h2 a⟩
  linksSound := id

theorem goes_quotaSet (p : Port) (s : State) : Goes Linked s (execQuotaSet p s) := by
  refine goes_applying s p _ _ (.refl s) fun pl => ?_
  split
  · exact linked_refuse s p _
  · rename_i q v _
    refine supervised_of s p _ ?_ (linked_refuse s p _)
    exact (linked_withPortTable s { s.portTable with quota := s.portTable.quota.set q.val v q.isLt } rfl
      fun a => a.2).trans (linked_accept _ p _)

theorem linked_setLimit (s : State) (q : Port) (v : Nat) : Linked s (s.setLimit q v) := by
  unfold State.setLimit
  dsimp only
  exact (linked_withPortTable s { s.portTable with limit := s.portTable.limit.set q.val v q.isLt } rfl
    fun a => a.2).trans (.ite (confined_settle _).linked (.refl _))

theorem goes_portLimitSet (p : Port) (s : State) : Goes Linked s (execPortLimitSet p s) := by
  refine goes_applying s p _ _ (.refl s) fun pl => ?_
  split
  · exact linked_refuse s p _
  · refine supervised_of s p _ ?_ (linked_refuse s p _)
    exact (linked_setLimit s _ _).trans (linked_accept _ p _)

theorem goes_portDisable (p : Port) (s : State) : Goes Linked s (execPortDisable p s) := by
  refine goes_applying s p _ _ (.refl s) fun pl => ?_
  split
  · exact linked_refuse s p _
  · rename_i q _
    unfold State.supervised
    split
    · rename_i hsup
      split
      · exact linked_refuse s p _
      · rename_i hne
        refine (linked_disable s q ?_).trans (linked_accept _ p _)
        rw [hsup]
        exact fun e => hne e.symm
    · exact linked_refuse s p _

theorem goes_portEnable (p : Port) (s : State) : Goes Linked s (execPortEnable p s) := by
  refine goes_applying s p _ _ (.refl s) fun pl => ?_
  split
  · exact linked_refuse s p _
  · exact supervised_of s p _ ((linked_enable s _).trans (linked_accept _ p _)) (linked_refuse s p _)

theorem goes_handOver (p : Port) (s : State) : Goes Linked s (execHandOver p s) := by
  refine goes_applying s p _ _ (.refl s) fun pl => ?_
  split
  · exact linked_refuse s p _
  · rename_i q _
    refine supervised_of s p _ ?_ (linked_refuse s p _)
    split
    · rename_i hup
      refine (linked_withPortTable s { s.portTable with supervisor := q } rfl fun _ => ?_).trans
        (linked_accept _ p _)
      have : s.links[q].state = .up := by simpa [State.isUp] using hup
      show s.links[q].state ≠ .disabled
      rw [this]
      decide
    · exact linked_refuse s p _

theorem goes_status (p : Port) (s : State) : Goes Linked s (execStatus p s) := by
  refine goes_applying s p _ _ (.refl s) fun pl => ?_
  split
  · exact linked_refuse s p _
  · exact linked_accept s p _

theorem goes_echo (p : Port) (s : State) : Goes Linked s (execEcho p s) := by
  refine goes_applying s p _ _ (.refl s) fun pl => ?_
  split
  · exact linked_refuse s p _
  · exact linked_accept s p _

theorem goes_scrubSet (p : Port) (s : State) : Goes Linked s (execScrubSet p s) := by
  refine goes_applying s p _ _ (.refl s) fun pl => ?_
  split
  · exact linked_refuse s p _
  · exact supervised_of s p _ ((steady_withScrubber s _).linked.trans (linked_accept _ p _))
      (linked_refuse s p _)

theorem goes_timeRead (p : Port) (s : State) : Goes Linked s (execTimeRead p s) := by
  refine goes_applying s p _ _ (.refl s) fun pl => ?_
  split
  · exact linked_refuse s p _
  · exact linked_accept s p _

/-! ### The time base -/

/-- A time base that is in order follows one that is. -/
theorem ruled_withTimeBase (s : State) (b : TimeBase) (h : s.timeBase.Sound → b.Sound) :
    Ruled s (s.withTimeBase b) :=
  ⟨rfl, rfl, rfl, id, id, id, h⟩

theorem parseRange_bounds {low high v w : Nat} (h : parseRange low high v = some w) :
    low ≤ w ∧ w ≤ high := by
  unfold parseRange at h
  split at h
  · rename_i hv
    obtain rfl : v = w := by simpa using h
    exact hv
  · exact absurd h (by simp)

theorem parsePrescale_bounds {pl : List Octet} {v : Nat} (h : parsePrescale pl = some v) :
    1 ≤ v ∧ v ≤ 4096 := by
  unfold parsePrescale at h
  split at h
  · exact parseRange_bounds h
  · exact absurd h (by simp)

theorem parseTimeSet_bound {pl : List Octet} {v : Tick} (_h : parseTimeSet pl = some v) :
    v.toNat ≤ Config.timeMax := by
  have := v.isLt
  unfold Config.timeMax
  omega

/-- The prescaler that a new tick interval has is in range (R22, R32). -/
theorem TimeBase.Sound.newInterval {t : TimeBase} (h : t.Sound) :
    t.newInterval.phase < t.newInterval.prescaler ∧ t.newInterval.prescaler ≤ 4096 := by
  obtain ⟨h1, h2, h3, _, _⟩ := h
  show 0 < t.pendingPrescaler.getD t.prescaler ∧ t.pendingPrescaler.getD t.prescaler ≤ 4096
  cases hp : t.pendingPrescaler with
  | none => exact ⟨Nat.lt_of_le_of_lt (Nat.zero_le _) h1, h2⟩
  | some v => exact ⟨(h3 v hp).1, (h3 v hp).2⟩

theorem TimeBase.Sound.advance {t : TimeBase} (h : t.Sound) (hr : t.mode = .running) : t.advance.Sound := by
  have hlt := h.2.2.2.1 hr
  have hnow : t.advance.now.toNat = t.now.toNat + 1 := by
    show (t.now + 1).toNat = _
    rw [BitVec.toNat_add]
    unfold Config.timeMax at hlt
    show (t.now.toNat + 1) % _ = _
    omega
  refine ⟨h.newInterval.1, h.newInterval.2, by simp [TimeBase.advance, TimeBase.newInterval], ?_, ?_⟩
  · intro hm
    have hm' : (if t.now.toNat + 1 = Config.timeMax then TimeMode.exhausted else TimeMode.running)
        = .running := hm
    split at hm'
    · exact absurd hm' (by decide)
    · rw [hnow]; omega
  · intro hm
    have hm' : (if t.now.toNat + 1 = Config.timeMax then TimeMode.exhausted else TimeMode.running)
        = .exhausted := hm
    split at hm'
    · rename_i he
      exact ⟨by rw [hnow]; exact he, rfl⟩
    · exact absurd hm' (by decide)

theorem TimeBase.Sound.set {t : TimeBase} (h : t.Sound) (v : Tick) : (t.set v).Sound := by
  have hv := v.isLt
  refine ⟨h.newInterval.1, h.newInterval.2, by simp [TimeBase.set, TimeBase.newInterval], ?_, ?_⟩
  · intro hm
    have hm' : (if t.mode = .frozen then TimeMode.frozen
        else if v.toNat = Config.timeMax then TimeMode.exhausted else TimeMode.running) = .running := hm
    show v.toNat < _
    split at hm'
    · exact absurd hm' (by decide)
    · split at hm'
      · exact absurd hm' (by decide)
      · unfold Config.timeMax at *
        omega
  · intro hm
    have hm' : (if t.mode = .frozen then TimeMode.frozen
        else if v.toNat = Config.timeMax then TimeMode.exhausted else TimeMode.running) = .exhausted := hm
    split at hm'
    · exact absurd hm' (by decide)
    · split at hm'
      · rename_i he
        exact ⟨he, rfl⟩
      · exact absurd hm' (by decide)

theorem TimeBase.Sound.run {t : TimeBase} (h : t.Sound) : t.run.Sound := by
  have hv := t.now.isLt
  obtain ⟨h1, h2, h3, h4, h5⟩ := h
  unfold TimeBase.run
  split
  · split
    · rename_i he
      exact ⟨Nat.lt_of_le_of_lt (Nat.zero_le _) h1, h2, h3, fun e => absurd e (by simp), fun _ => ⟨he, rfl⟩⟩
    · rename_i he
      refine ⟨h1, h2, h3, fun _ => ?_, fun e => absurd e (by simp)⟩
      show t.now.toNat < _
      unfold Config.timeMax at *
      omega
  · exact ⟨h1, h2, h3, h4, h5⟩

theorem TimeBase.Sound.freeze {t : TimeBase} (h : t.Sound) : t.freeze.Sound := by
  obtain ⟨h1, h2, h3, h4, h5⟩ := h
  unfold TimeBase.freeze
  split
  · exact ⟨h1, h2, h3, fun e => absurd e (by simp), fun e => absurd e (by simp)⟩
  · exact ⟨Nat.lt_of_le_of_lt (Nat.zero_le _) h1, h2, h3, fun e => absurd e (by simp),
      fun e => absurd e (by simp)⟩
  · exact ⟨h1, h2, h3, h4, h5⟩

theorem ruled_tickEvent (s : State) : Ruled s s.tickEvent := by
  unfold State.tickEvent
  split
  · rename_i hr
    exact (ruled_withTimeBase s _ fun h => h.advance hr).trans (steady_withScrubber _ _).ruled
  · exact .refl s

theorem goes_tick (s : State) : Goes Ruled s (execTick s) := .next (ruled_tickEvent s)

theorem goes_timeSet (p : Port) (s : State) : Goes Ruled s (execTimeSet p s) := by
  refine goes_applying s p _ _ (.refl s) fun pl => ?_
  split
  · exact (linked_refuse s p _).ruled
  · exact supervised_of s p _ ((ruled_withTimeBase s _ fun h => h.set _).trans
      (linked_accept _ p _).ruled) (linked_refuse s p _).ruled

theorem goes_timeRun (p : Port) (s : State) : Goes Ruled s (execTimeRun p s) := by
  refine goes_applying s p _ _ (.refl s) fun pl => ?_
  split
  · exact (linked_refuse s p _).ruled
  · exact supervised_of s p _ ((ruled_withTimeBase s _ fun h => h.run).trans
      (linked_accept _ p _).ruled) (linked_refuse s p _).ruled

theorem goes_timeFreeze (p : Port) (s : State) : Goes Ruled s (execTimeFreeze p s) := by
  refine goes_applying s p _ _ (.refl s) fun pl => ?_
  split
  · exact (linked_refuse s p _).ruled
  · exact supervised_of s p _ ((ruled_withTimeBase s _ fun h => h.freeze).trans
      (linked_accept _ p _).ruled) (linked_refuse s p _).ruled

theorem goes_prescale (p : Port) (s : State) : Goes Ruled s (execPrescale p s) := by
  refine goes_applying s p _ _ (.refl s) fun pl => ?_
  split
  · exact (linked_refuse s p _).ruled
  · rename_i v hv
    refine supervised_of s p _ ((ruled_withTimeBase s _ ?_).trans (linked_accept _ p _).ruled)
      (linked_refuse s p _).ruled
    rintro ⟨h1, h2, _, h4, h5⟩
    refine ⟨h1, h2, ?_, h4, h5⟩
    intro w hw
    obtain rfl : v = w := by simpa using hw
    exact parsePrescale_bounds hv

/-! ### ATTENTION-SET, device reset, and a period of the reference clock -/

/-- What every command keeps but device reset, which gives the invariants back whatever it finds. -/
structure Upkeep (s t : State) : Prop where
  pending : t.pending = s.pending
  table : s.table.wf → t.table.wf
  portsAgree : s.PortsAgree → t.PortsAgree
  linksSound : s.LinksSound → t.LinksSound
  timeSound : s.timeBase.Sound → t.timeBase.Sound

theorem Ruled.upkeep {s t : State} (h : Ruled s t) : Upkeep s t :=
  ⟨h.pending, h.table, h.portsAgree, h.linksSound, h.timeSound⟩

theorem Linked.upkeep {s t : State} (h : Linked s t) : Upkeep s t := h.ruled.upkeep

theorem Upkeep.trans {s t u : State} (a : Upkeep s t) (b : Upkeep t u) : Upkeep s u :=
  ⟨b.pending.trans a.pending, b.table ∘ a.table, b.portsAgree ∘ a.portsAgree, b.linksSound ∘ a.linksSound,
    b.timeSound ∘ a.timeSound⟩

theorem Upkeep.refl (s : State) : Upkeep s s := (Ruled.refl s).upkeep

theorem Upkeep.foldl {α : Type} (f : State → α → State) (h : ∀ s a, Upkeep s (f s a)) :
    ∀ (l : List α) (s : State), Upkeep s (l.foldl f s)
  | [], s => refl s
  | a :: l, s => (h s a).trans (foldl f h l (f s a))

theorem upkeep_setThreshold (s : State) (p : Port) (v : Fin 8) : Upkeep s (s.setThreshold p v) :=
  Upkeep.trans (t := s.withNotices { s.notices with
      thresholds := s.notices.thresholds.set p.val v p.isLt })
    ⟨rfl, id, id, id, id⟩ (confined_driveLine _ p).linked.upkeep

theorem goes_attentionSet (p : Port) (s : State) : Goes Upkeep s (execAttentionSet p s) := by
  refine goes_applying s p _ _ (.refl s) fun pl => ?_
  split
  · exact (linked_refuse s p _).upkeep
  · exact (upkeep_setThreshold s p _).trans (linked_accept _ p _).upkeep

theorem reset_linkSound : Link.reset.Sound := by decide

theorem reset_links (p : Port) : State.reset.links[p] = Link.reset := by
  show (Vector.replicate 4 Link.reset)[p.val] = _
  exact Vector.getElem_replicate ..

theorem reset_table : State.reset.table.wf := by decide

theorem reset_portsAgree : State.reset.PortsAgree := by decide

theorem reset_linksSound : State.reset.LinksSound := fun p => by
  rw [reset_links]; exact reset_linkSound

theorem reset_timeSound : State.reset.timeBase.Sound := by decide

theorem goes_deviceReset (s : State) : Goes Upkeep s (execDeviceReset s) :=
  .next ⟨rfl, fun _ => reset_table, fun _ => reset_portsAgree, fun _ => reset_linksSound,
    fun _ => reset_timeSound⟩

theorem upkeep_strike (s : State) (u : Upset) : Upkeep s (s.strike u) := by
  unfold State.strike
  split
  · exact (confined_modify s _ _).linked.upkeep
  · exact (confined_modify s _ _).linked.upkeep
  · exact (confined_modify s _ _).linked.upkeep
  · exact ⟨rfl, id, id, id, id⟩

theorem upkeep_takeUpset (s : State) : Upkeep s s.takeUpset := by
  unfold State.takeUpset
  split
  · exact .refl s
  · rename_i u rest _
    exact Upkeep.trans (t := { s with upsets := rest }) ⟨rfl, id, id, id, id⟩ (upkeep_strike _ u)

theorem upkeep_clockTimeBase (s : State) : Upkeep s s.clockTimeBase := by
  unfold State.clockTimeBase
  split
  · rename_i hr
    split
    · rename_i hlt
      refine ⟨rfl, id, id, id, ?_⟩
      rintro ⟨_, h2, h3, h4, h5⟩
      refine ⟨hlt, h2, h3, h4, fun e => ?_⟩
      exact absurd (hr.symm.trans e) (by decide)
    · exact (ruled_tickEvent s).upkeep
  · exact .refl s

theorem upkeep_clockPort (s : State) (p : Port) : Upkeep s (s.clockPort p) := by
  unfold State.clockPort
  split
  · exact .refl s
  · split
    · exact .refl s
    · split
      · exact (steady_setReceiver s p _).linked.upkeep
      · exact (linked_cutOff s p).upkeep

theorem upkeep_clockPeriod (s : State) : Upkeep s s.clockPeriod :=
  ((upkeep_takeUpset s).trans (upkeep_clockTimeBase _)).trans (Upkeep.foldl _ upkeep_clockPort allPorts _)

end Sys2Proof.Machine
end

