-- ==== Sys2Proof/Laws/Effects.lean ====
section
/-! SUPPORT. What the shared operations do and what they leave alone, field by field: answers, moves of
notice entries, the service of queues, checked reads and retirement. Proofs about commands cite these. -/

namespace Sys2Proof.Machine

/-! ### Answers (R164) -/

theorem State.respond_eq (s : State) (p : Port) (r : Result) (b : List Octet) :
    s.respond p r b = { s with links := (s.respond p r b).links } := by
  unfold State.respond
  split <;> rfl

@[simp] theorem State.accept_timeBase (s : State) (p : Port) (b : List Octet) :
    (s.accept p b).timeBase = s.timeBase := by rw [State.accept, State.respond_eq]
@[simp] theorem State.accept_table (s : State) (p : Port) (b : List Octet) :
    (s.accept p b).table = s.table := by rw [State.accept, State.respond_eq]
@[simp] theorem State.accept_placement (s : State) (p : Port) (b : List Octet) :
    (s.accept p b).placement = s.placement := by rw [State.accept, State.respond_eq]
@[simp] theorem State.accept_expiry (s : State) (p : Port) (b : List Octet) :
    (s.accept p b).expiry = s.expiry := by rw [State.accept, State.respond_eq]
@[simp] theorem State.accept_notices (s : State) (p : Port) (b : List Octet) :
    (s.accept p b).notices = s.notices := by rw [State.accept, State.respond_eq]
@[simp] theorem State.accept_pools (s : State) (p : Port) (b : List Octet) :
    (s.accept p b).pools = s.pools := by rw [State.accept, State.respond_eq]
@[simp] theorem State.accept_sweeps (s : State) (p : Port) (b : List Octet) :
    (s.accept p b).sweeps = s.sweeps := by rw [State.accept, State.respond_eq]
@[simp] theorem State.accept_scrubber (s : State) (p : Port) (b : List Octet) :
    (s.accept p b).scrubber = s.scrubber := by rw [State.accept, State.respond_eq]
@[simp] theorem State.accept_portTable (s : State) (p : Port) (b : List Octet) :
    (s.accept p b).portTable = s.portTable := by rw [State.accept, State.respond_eq]
@[simp] theorem State.accept_pending (s : State) (p : Port) (b : List Octet) :
    (s.accept p b).pending = s.pending := by rw [State.accept, State.respond_eq]
@[simp] theorem State.accept_upsets (s : State) (p : Port) (b : List Octet) :
    (s.accept p b).upsets = s.upsets := by rw [State.accept, State.respond_eq]
@[simp] theorem State.accept_freeValues (s : State) (p : Port) (b : List Octet) :
    (s.accept p b).freeValues = s.freeValues := by rw [State.accept, State.respond_eq]

@[simp] theorem State.accept_record (s : State) (p : Port) (b : List Octet) (i : SlotIx) :
    (s.accept p b).record i = s.record i := by
  unfold State.record; rw [State.accept_table]

/-- An answer differs from the state it is formed in by the links alone. -/
theorem State.accept_eq (s : State) (p : Port) (b : List Octet) :
    s.accept p b = { s with links := (s.accept p b).links } := State.respond_eq s p .ok b

/-- The answer to the next request of a state that differs from `s` by no port's request but only by
attention lines. -/
theorem answered_respond {s t : State} {p : Port} {pl : List Octet} (h : s.Asks p pl)
    (hl : ∀ r : Port, t.links[r] = { s.links[r] with attention := t.links[r].attention })
    (result : Result) (body : List Octet) : s.Answered (t.respond p result body) p result body := by
  obtain ⟨q, hq, _, _⟩ := h
  have ht : t.nextRequest p = some q := by
    unfold State.nextRequest at hq ⊢
    rw [hl p]; exact hq
  refine ⟨q, hq, ?_, fun r hr => ?_⟩
  · unfold State.respond
    rw [ht]
    dsimp only
    rw [State.modifyLink_self, hl p]
    rfl
  · unfold State.respond
    rw [ht]
    dsimp only
    rw [State.modifyLink_other _ _ _ _ hr]
    exact hl r

theorem Confined.answered {s t : State} (h : Confined s t) {p : Port} {pl : List Octet} (a : s.Asks p pl)
    (body : List Octet) : s.Answered (t.accept p body) p .ok body := answered_respond a h.links .ok body

/-- A state with the same links. -/
theorem answered_of_links {s t : State} (h : t.links = s.links) {p : Port} {pl : List Octet}
    (a : s.Asks p pl) (body : List Octet) : s.Answered (t.accept p body) p .ok body :=
  answered_respond a (fun r => by rw [h]) .ok body

/-! ### Request kinds at the front of a meaning -/

/-- A request that the interlock lets through is applied (R63). -/
theorem interlocked_through {s : State} {p : Port} {c : RequestCode} {pl : List Octet} (f : State)
    (hc : c.interlocked = true) (h : s.LetsThrough c pl)
    (hs : ∀ v, namedSlotField pl = some v → (slotOf v).isSome) : s.interlocked p pl f = f := by
  unfold State.interlocked
  cases hn : namedSlotField pl with
  | none => rfl
  | some v =>
    have := hs v hn
    cases hv : slotOf v with
    | none => rw [hv] at this; exact absurd this (by decide)
    | some i =>
      dsimp only
      have h' : s.interlockHolds pl = false := by
        unfold State.LetsThrough at h
        simpa [hc] using h
      unfold State.interlockHolds at h'
      rw [hn] at h'
      simp only [Option.bind_some, hv, decide_eq_false_iff_not] at h'
      simp only [hv, h', if_false]

/-- A payload whose handle is in order names its slot for the interlock. -/
theorem namedSlot_of_handle {pl : List Octet} {h : Handle} (hp : parseHandle pl 1 = some h) :
    ∀ v, namedSlotField pl = some v → slotOf v = some h.slot := by
  intro v hv
  unfold namedSlotField at hv
  split at hv
  · obtain rfl : slotField pl 1 = v := by simpa using hv
    unfold parseHandle at hp
    split at hp
    · cases hs : slotOf (slotField pl 1) with
      | none => rw [hs] at hp; exact absurd hp (by simp)
      | some i =>
        rw [hs] at hp
        simp only [Option.map_some, Option.some.injEq] at hp
        rw [← hp]
    · exact absurd hp (by simp)
  · exact absurd hv (by simp)

theorem supervised_by {s : State} {p : Port} (f : State) (h : s.portTable.supervisor = p) :
    s.supervised p f = f := if_pos h

theorem supervised_denied {s : State} {p : Port} (f : State) (h : s.portTable.supervisor ≠ p) :
    s.supervised p f = s.refuse p .denied := if_neg h

/-- A record that the requesting port may change passes checks 3 to 6 (Table 10-5). -/
theorem Record.OpenTo.refusal {r : Record} {p : Port} {h : Handle} (o : r.OpenTo p h) (a b : Bool) :
    r.refusal p h a b = none := by
  obtain ⟨h1, h2, h3, h4, h5⟩ := o
  unfold Record.refusal Record.staleFor
  simp [h1, h2, h3, h4, h5]

/-! ### Moves of notice entries -/

/-- `t` differs from `s` by the notice collections, the rotation orders and the attention lines alone. -/
structure Moved (s t : State) : Prop where
  timeBase : t.timeBase = s.timeBase
  table : t.table = s.table
  placement : t.placement = s.placement
  expiry : t.expiry = s.expiry
  blocked : t.notices.blocked = s.notices.blocked
  stamp : t.notices.stamp = s.notices.stamp
  sweeps : t.sweeps = s.sweeps
  scrubber : t.scrubber = s.scrubber
  portTable : t.portTable = s.portTable
  freeValues : t.freeValues = s.freeValues

namespace Moved

theorem refl (s : State) : Moved s s := ⟨rfl, rfl, rfl, rfl, rfl, rfl, rfl, rfl, rfl, rfl⟩

theorem trans {s t u : State} (a : Moved s t) (b : Moved t u) : Moved s u :=
  ⟨b.timeBase.trans a.timeBase, b.table.trans a.table, b.placement.trans a.placement,
    b.expiry.trans a.expiry, b.blocked.trans a.blocked, b.stamp.trans a.stamp, b.sweeps.trans a.sweeps,
    b.scrubber.trans a.scrubber, b.portTable.trans a.portTable, b.freeValues.trans a.freeValues⟩

theorem foldl {α : Type} (f : State → α → State) (h : ∀ s a, Moved s (f s a)) :
    ∀ (l : List α) (s : State), Moved s (l.foldl f s)
  | [], s => refl s
  | a :: l, s => (h s a).trans (foldl f h l (f s a))

theorem record {s t : State} (h : Moved s t) (i : SlotIx) : t.record i = s.record i := by
  unfold State.record; rw [h.table]

end Moved

theorem moved_modifyQueue (s : State) (p : Port) (f : List Entry → List Entry) :
    Moved s (s.modifyQueue p f) := ⟨rfl, rfl, rfl, rfl, rfl, rfl, rfl, rfl, rfl, rfl⟩

theorem moved_modifyOutstanding (s : State) (p : Port) (f : List Entry → List Entry) :
    Moved s (s.modifyOutstanding p f) := ⟨rfl, rfl, rfl, rfl, rfl, rfl, rfl, rfl, rfl, rfl⟩

theorem moved_modifyHolding (s : State) (k : Pool) (f : List Entry → List Entry) :
    Moved s (s.modifyHolding k f) := ⟨rfl, rfl, rfl, rfl, rfl, rfl, rfl, rfl, rfl, rfl⟩

theorem moved_dropEntry (s : State) (place : EntryPlace) (e : Entry) : Moved s (s.dropEntry place e) := by
  cases place <;> exact ⟨rfl, rfl, rfl, rfl, rfl, rfl, rfl, rfl, rfl, rfl⟩

theorem moved_setPool (s : State) (k : Pool) (o : List Port) : Moved s (s.setPool k o) :=
  ⟨rfl, rfl, rfl, rfl, rfl, rfl, rfl, rfl, rfl, rfl⟩

theorem moved_modifyLink (s : State) (p : Port) (f : Link → Link) : Moved s (s.modifyLink p f) :=
  ⟨rfl, rfl, rfl, rfl, rfl, rfl, rfl, rfl, rfl, rfl⟩

theorem moved_assign (s : State) (k : Pool) (p : Port) (e : Entry) : Moved s (s.assign k p e) :=
  (moved_setPool s k _).trans (moved_modifyQueue _ p _)

theorem moved_servePoolFrom (k : Pool) : ∀ (l : List Entry) (s : State), Moved s (servePoolFrom k l s)
  | [], s => .refl s
  | e :: rest, s => by
    unfold servePoolFrom
    split
    · exact moved_servePoolFrom k rest s
    · split
      · exact .refl s
      · exact ((moved_dropEntry s _ e).trans (moved_assign _ k _ e)).trans (moved_servePoolFrom k rest _)

theorem moved_driveLines (s : State) : Moved s s.driveLines :=
  .foldl _ (fun s p => moved_modifyLink s p _) _ _

theorem moved_serveHolding (s : State) : Moved s s.serveHolding :=
  .foldl _ (fun s k => moved_servePoolFrom k _ s) _ _

theorem moved_settle (s : State) : Moved s s.settle := (moved_serveHolding s).trans (moved_driveLines _)

theorem moved_offer (s : State) (k : Pool) (e : Entry) : Moved s (s.offer k e) := by
  unfold State.offer
  split
  · exact moved_modifyHolding s k _
  · split
    · exact (moved_modifyHolding s k _).trans (moved_servePoolFrom k _ _)
    · split
      · exact moved_modifyHolding s k _
      · exact moved_assign s k _ e

theorem moved_place (s : State) (e : Entry) : Moved s (s.place e) := by
  unfold State.place
  split
  · exact moved_modifyQueue s _ _
  · exact moved_offer s _ e

theorem moved_reoffer (s : State) (k : Pool) (p : Port) (e : Entry) : Moved s (s.reoffer k p e) := by
  unfold State.reoffer
  split
  · exact (moved_modifyHolding s k _).trans (moved_servePoolFrom k _ _)
  · split
    · exact moved_modifyHolding s k _
    · exact moved_assign s k _ e

/-! ### What stays in a port's queue -/

theorem mem_insertEntry {e x : Entry} : ∀ {l : List Entry}, x ∈ insertEntry e l ↔ x = e ∨ x ∈ l
  | [] => by simp [insertEntry]
  | y :: rest => by
    unfold insertEntry
    split
    · simp
    · simp only [List.mem_cons, mem_insertEntry (l := rest)]
      tauto

/-- The queues of `t` hold every entry that the queues of `s` hold. -/
def QueuesGrow (s t : State) : Prop :=
  ∀ (p : Port), ∀ e ∈ s.notices.queues[p], e ∈ t.notices.queues[p]

theorem QueuesGrow.refl (s : State) : QueuesGrow s s := fun _ _ h => h

theorem QueuesGrow.trans {s t u : State} (a : QueuesGrow s t) (b : QueuesGrow t u) : QueuesGrow s u :=
  fun p e h => b p e (a p e h)

theorem QueuesGrow.foldl {α : Type} (f : State → α → State) (h : ∀ s a, QueuesGrow s (f s a)) :
    ∀ (l : List α) (s : State), QueuesGrow s (l.foldl f s)
  | [], s => refl s
  | a :: l, s => (h s a).trans (foldl f h l (f s a))

/-- The queue of a port after one of the queues is changed. -/
theorem queues_modifyQueue (s : State) (p q : Port) (f : List Entry → List Entry) :
    (s.modifyQueue p f).notices.queues[q]
      = if q = p then f s.notices.queues[q] else s.notices.queues[q] := by
  by_cases h : q = p
  · subst h; rw [if_pos rfl]; exact set_port_same _ _ _
  · rw [if_neg h]; exact set_port_other _ _ _ _ h

theorem grow_joinQueue (s : State) (p : Port) (e : Entry) : QueuesGrow s (s.joinQueue p e) := by
  intro q x hx
  unfold State.joinQueue
  rw [queues_modifyQueue]
  split
  · exact mem_insertEntry.mpr (.inr hx)
  · exact hx

theorem mem_joinQueue (s : State) (p : Port) (e : Entry) :
    { e with assigned := some p } ∈ (s.joinQueue p e).notices.queues[p] := by
  unfold State.joinQueue
  rw [queues_modifyQueue, if_pos rfl]
  exact mem_insertEntry.mpr (.inl rfl)

theorem grow_assign (s : State) (k : Pool) (p : Port) (e : Entry) : QueuesGrow s (s.assign k p e) :=
  QueuesGrow.trans (t := s.setPool k (s.pools[k].erase p ++ [p])) (fun _ _ h => h) (grow_joinQueue _ p e)

theorem grow_servePoolFrom (k : Pool) : ∀ (l : List Entry) (s : State), QueuesGrow s (servePoolFrom k l s)
  | [], s => .refl s
  | e :: rest, s => by
    unfold servePoolFrom
    split
    · exact grow_servePoolFrom k rest s
    · split
      · exact .refl s
      · refine QueuesGrow.trans ?_ (grow_servePoolFrom k rest _)
        exact QueuesGrow.trans (t := s.dropEntry (.holding k) e) (fun _ _ h => h) (grow_assign _ k _ e)

theorem grow_driveLines (s : State) : QueuesGrow s s.driveLines :=
  .foldl State.driveLine (fun _ _ _ _ h => h) allPorts s

/-- The service of the holding queues takes no entry out of a port's queue (R118). -/
theorem grow_settle (s : State) : QueuesGrow s s.settle :=
  (QueuesGrow.foldl _ (fun s k => grow_servePoolFrom k _ s) allPools s).trans (grow_driveLines _)

/-! ### Requests that name a record -/

/-- The end of an event with reads changes no record. -/
@[simp] theorem settleSince_record (t s : State) (i : SlotIx) : (t.settleSince s).record i = t.record i := by
  unfold State.settleSince
  split
  · rfl
  · exact (moved_settle t).record i

/-- A checked read leaves the records that its reading leaves. -/
theorem checkedRead_record (s : State) (j i : SlotIx) : (s.checkedRead j).record i = (s.readSlot j).record i :=
  settleSince_record _ s i

theorem moved_settleSince (t s : State) : Moved t (t.settleSince s) := by
  unfold State.settleSince
  split
  · exact .refl t
  · exact moved_settle t

/-- A read that touched no notice is the whole of a checked read. -/
theorem settleSince_eq {t s : State} (h : t.notices = s.notices) : t.settleSince s = t := if_pos h

theorem onRecord_passes {s : State} {p : Port} {h : Handle} {a b : Bool} (f : State → Record → State)
    (hr : ((s.checkedRead h.slot).record h.slot).refusal p h a b = none) :
    s.onRecord p h a b f = f (s.readSlot h.slot) ((s.checkedRead h.slot).record h.slot) := by
  rw [checkedRead_record] at hr ⊢
  unfold State.onRecord
  dsimp only
  rw [hr]

theorem onRecord_refuses {s : State} {p : Port} {h : Handle} {a b : Bool} {result : Result}
    (f : State → Record → State)
    (hr : ((s.checkedRead h.slot).record h.slot).refusal p h a b = some result) :
    s.onRecord p h a b f = (s.checkedRead h.slot).refuse p result := by
  rw [checkedRead_record] at hr
  unfold State.onRecord
  dsimp only
  rw [hr]
  rfl

/-! ### FAULT notices (R144) -/

/-- A FAULT notice whose port is not UP is lost. -/
theorem raiseFault_lost (s : State) (i : SlotIx) (h : s.isUp (s.faultPort (s.record i)) = false) :
    s.raiseFault i = s.loseNotice i := by
  unfold State.raiseFault
  simp [h]

/-- With no general entry FREE the record waits. -/
theorem raiseFault_blocked (s : State) (i : SlotIx) (h : s.isUp (s.faultPort (s.record i)) = true)
    (hn : s.freeGeneral = none) :
    s.raiseFault i = s.block i (.damage ((s.record i).fault.getD .timing)) := by
  unfold State.raiseFault
  simp [h, hn]

/-- With a general entry FREE the notice is created. -/
theorem raiseFault_created (s : State) (i : SlotIx) {n : Nat} (h : s.isUp (s.faultPort (s.record i)) = true)
    (hn : s.freeGeneral = some n) : s.raiseFault i = s.createFault i n false := by
  unfold State.raiseFault
  simp [h, hn]

/-- The store's free numbers depend on the collections alone. -/
theorem freeGeneral_congr {s t : State} (h1 : t.notices.queues = s.notices.queues)
    (h2 : t.notices.outstanding = s.notices.outstanding) (h3 : t.notices.holding = s.notices.holding) :
    t.freeGeneral = s.freeGeneral := by
  unfold State.freeGeneral State.freeNumber State.entries
  rw [h1, h2, h3]

/-- The entry of a slot depends on the collections alone. -/
theorem entryOf_congr {s t : State} (h1 : t.notices.queues = s.notices.queues)
    (h2 : t.notices.outstanding = s.notices.outstanding) (h3 : t.notices.holding = s.notices.holding)
    (i : SlotIx) : t.entryOf i = s.entryOf i := by
  unfold State.entryOf
  simp only [h1, h2, h3]

end Sys2Proof.Machine
end

