-- ==== Sys2Proof/Laws/Near.lean ====
section
/-! SUPPORT. Which records an operation on one slot can reach: the slot's own, and those on the blocked list,
which a freed general entry serves (R96). One lemma per operation, `near_<operation>`. -/

namespace Sys2Proof.Machine

/-- `t` came from `s` by an operation on slot `i`: a record elsewhere that is not on the blocked list is
unchanged, and no record elsewhere joined the blocked list. -/
structure Near (i : SlotIx) (s t : State) : Prop where
  records : s.SameUnblocked t i
  blocked : ∀ b ∈ t.notices.blocked, b.slot = i ∨ ∃ c ∈ s.notices.blocked, c.slot = b.slot

namespace Near

theorem refl (i : SlotIx) (s : State) : Near i s s := ⟨fun _ _ _ => rfl, fun b hb => .inr ⟨b, hb, rfl⟩⟩

theorem trans {i : SlotIx} {s t u : State} (a : Near i s t) (b : Near i t u) : Near i s u where
  records := fun j hj hb => by
    rw [b.records j hj ?_, a.records j hj hb]
    intro c hc e
    rcases a.blocked c hc with h | ⟨d, hd, h⟩
    · exact hj (by rw [← e, h])
    · exact hb d hd (h.trans e)
  blocked := fun c hc => by
    rcases b.blocked c hc with h | ⟨d, hd, h⟩
    · exact .inl h
    · rcases a.blocked d hd with h' | ⟨x, hx, h'⟩
      · exact .inl (by rw [← h, h'])
      · exact .inr ⟨x, hx, h'.trans h⟩

theorem ite {i : SlotIx} {c : Prop} [Decidable c] {s t u : State} (a : Near i s t) (b : Near i s u) :
    Near i s (if c then t else u) := by
  split
  · exact a
  · exact b

/-- An operation that leaves the blocked list alone and changes no record elsewhere. -/
theorem of_eq {i : SlotIx} {s t : State} (h1 : s.SameBut t i) (h2 : t.notices.blocked = s.notices.blocked) :
    Near i s t :=
  ⟨fun j hj _ => h1 j hj, fun b hb => .inr ⟨b, by rw [← h2]; exact hb, rfl⟩⟩

/-- With no other record on the blocked list every record elsewhere is unchanged. -/
theorem sameBut {i : SlotIx} {s t : State} (h : Near i s t)
    (hb : ∀ b ∈ s.notices.blocked, b.slot = i) : s.SameBut t i :=
  fun j hj => h.records j hj fun b hm e => hj (by rw [← e, hb b hm])

end Near

theorem Moved.near {s t : State} (h : Moved s t) (i : SlotIx) : Near i s t :=
  .of_eq (fun j _ => h.record j) h.blocked

/-- An operation that leaves the cells of the record table and the blocked list alone. -/
theorem near_of_cells {i : SlotIx} {s t : State} (h1 : t.table.cells = s.table.cells)
    (h2 : t.notices.blocked = s.notices.blocked) : Near i s t :=
  .of_eq (fun j _ => State.record_congr h1 j) h2

theorem near_setRecord (s : State) (i : SlotIx) (r : Record) : Near i s (s.setRecord i r) :=
  .of_eq (fun j hj => s.record_setRecord_other i j r hj) rfl

theorem near_modify (s : State) (i : SlotIx) (f : Record → Record) : Near i s (s.modify i f) :=
  near_setRecord s i _

theorem near_setNotice (s : State) (i : SlotIx) (n : NoticeState) (h : Option Port) :
    Near i s (s.setNotice i n h) := near_modify s i _

theorem near_setSched (s : State) (i : SlotIx) (x : Sched) : Near i s (s.setSched i x) := near_modify s i _

theorem near_raiseOverrun (s : State) (i : SlotIx) (n : Nat) : Near i s (s.raiseOverrun i n) :=
  near_modify s i _

theorem near_setDeadline (s : State) (i : SlotIx) (d : Tick) : Near i s (s.setDeadline i d) :=
  near_modify s i _

theorem near_enqueue (s : State) (i : SlotIx) : Near i s (s.enqueue i) :=
  .of_eq (fun _ hj => lookupCell_store_other _ _ _ _ hj) rfl

theorem near_reportRebuild (i : SlotIx) (s : State) : Near i s s.reportRebuild := by
  unfold State.reportRebuild
  split
  · exact near_of_cells rfl rfl
  · exact .refl i s

theorem near_unqueue (i j : SlotIx) (s : State) : Near i s (s.unqueue j) :=
  Near.trans (t := s.removeQueued j) (near_of_cells rfl rfl) (near_reportRebuild i _)

theorem near_unlist (i j : SlotIx) (s : State) : Near i s (s.unlist j) := near_of_cells rfl rfl

theorem near_leaveTiming (i j : SlotIx) (s : State) : Near i s (s.leaveTiming j) := by
  unfold State.leaveTiming
  split
  · exact near_unqueue i j s
  · exact near_unlist i j s
  · exact .refl i s

theorem near_dropOwned (i : SlotIx) (s : State) (o : Option Port) : Near i s (s.dropOwned o i) := by
  cases o
  · exact .refl i s
  · exact near_of_cells rfl rfl

theorem near_loseIdentity (s : State) (i : SlotIx) : Near i s (s.loseIdentity i) :=
  (near_dropOwned i s _).trans (near_modify _ i _)

theorem near_keepFault (s : State) (i j : SlotIx) (part : FaultPart) : Near i s (s.keepFault j part) where
  records := fun _ _ _ => rfl
  blocked := fun b hb => by
    obtain ⟨c, hc, rfl⟩ := List.mem_map.mp hb
    refine .inr ⟨c, hc, ?_⟩
    split <;> rfl

theorem near_declareDamaged (s : State) (i : SlotIx) (part : FaultPart) :
    Near i s (s.declareDamaged i part) := by
  unfold State.declareDamaged
  refine (near_leaveTiming i i s).trans ?_
  refine Near.trans ?_ ((near_modify _ i _).trans (near_keepFault _ i i part))
  cases part
  · exact near_modify _ i _
  · exact near_loseIdentity _ i

theorem near_declareIdentityLost (s : State) (i : SlotIx) : Near i s (s.declareIdentityLost i) :=
  (near_loseIdentity s i).trans (near_keepFault _ i i _)

theorem near_addCorrections (i : SlotIx) (s : State) (n : Nat) : Near i s (s.addCorrections n) :=
  near_of_cells rfl rfl

theorem near_repairIdentity (s : State) (i : SlotIx) : Near i s (s.repairIdentity i) := by
  unfold State.repairIdentity
  dsimp only
  split
  · exact .refl i s
  · exact (near_setRecord s i _).trans (near_addCorrections i _ _)

theorem near_repairTiming (s : State) (i : SlotIx) : Near i s (s.repairTiming i) := by
  unfold State.repairTiming
  dsimp only
  split
  · exact (near_setRecord s i _).trans (near_addCorrections i _ _)
  · exact .refl i s

theorem near_rewriteFree (s : State) (i : SlotIx) : Near i s (s.rewriteFree i) :=
  (near_setRecord s i _).trans (near_addCorrections i _ _)

theorem near_readWith (s : State) (i : SlotIx) (damage : State → FaultPart → State)
    (escalate : State → State) (hd : ∀ t part, Near i t (damage t part))
    (he : ∀ t, Near i t (escalate t)) : Near i s (s.readWith i damage escalate) := by
  unfold State.readWith
  dsimp only
  split
  · exact .ite (near_rewriteFree s i) (near_repairIdentity s i)
  · exact .ite (.refl i s) (near_repairTiming s i)
  · exact .ite (he s) (near_repairIdentity s i)
  · split
    · exact (near_repairTiming s i).trans (hd _ _)
    · split
      · exact (near_repairIdentity s i).trans (hd _ _)
      · exact (near_repairIdentity s i).trans (near_repairTiming _ i)

/-! ### The blocked list -/

/-- A record is reached by an operation on a slot of the blocked list. -/
theorem Near.within {i k : SlotIx} {s t : State} (h : Near k s t)
    (hk : ∃ b ∈ s.notices.blocked, b.slot = k) : Near i s t where
  records := fun j hj hb => h.records j (fun e => by
    obtain ⟨b, hm, hs⟩ := hk
    exact hb b hm (hs.trans e.symm)) hb
  blocked := fun b hb => by
    rcases h.blocked b hb with e | e
    · obtain ⟨c, hm, hs⟩ := hk
      exact .inr ⟨c, hm, hs.trans e.symm⟩
    · exact .inr e

theorem near_advanceStamp (i : SlotIx) (s : State) : Near i s s.advanceStamp := near_of_cells rfl rfl

theorem near_create (s : State) (i : SlotIx) (n : Nat) (e : Entry) : Near i s (s.create i n e) :=
  ((near_advanceStamp i s).trans (near_modify _ i _)).trans ((moved_place _ _).near i)

theorem near_createFault (s : State) (i : SlotIx) (n : Nat) (delayed : Bool) :
    Near i s (s.createFault i n delayed) :=
  (near_create s i n (s.faultEntry i (s.record i) delayed)).trans (near_of_cells rfl rfl)

theorem near_block (s : State) (i : SlotIx) (kept : Kept) : Near i s (s.block i kept) where
  records := fun j hj _ => lookupCell_store_other _ _ _ _ hj
  blocked := fun b hb => by
    have : b ∈ s.notices.blocked ++ [⟨i, kept⟩] := hb
    rcases List.mem_append.mp this with h | h
    · exact .inr ⟨b, h, rfl⟩
    · rw [List.mem_singleton.mp h]
      exact .inl rfl

theorem near_loseNotice (s : State) (i : SlotIx) : Near i s (s.loseNotice i) :=
  (near_raiseOverrun s i 1).trans (near_setNotice _ i _ _)

theorem near_dropBlocked (i : SlotIx) (s : State) :
    Near i s (s.withNotices { s.notices with blocked := s.notices.blocked.drop 1 }) where
  records := fun _ _ _ => rfl
  blocked := fun b hb => .inr ⟨b, List.mem_of_mem_drop hb, rfl⟩

theorem near_takeBlocked (s : State) (i : SlotIx) : Near i s (s.takeBlocked i) :=
  (near_readWith s i _ _ (fun t part => near_declareDamaged t i part)
    (fun t => near_declareIdentityLost t i)).trans (near_dropBlocked i _)

/-- What the service of blocked places may reach: the records of those places alone. -/
theorem serveBlockedFrom_near (n : Nat) (i : SlotIx) : ∀ (l : List BlockedPlace) (s u : State),
    Near i u s → (∀ b ∈ l, ∃ c ∈ u.notices.blocked, c.slot = b.slot) →
    Near i u (serveBlockedFrom n l s)
  | [], s, u, h, _ => by unfold serveBlockedFrom; exact h
  | b :: rest, s, u, h, hl => by
    have hb := hl b (by simp)
    have hrest : ∀ c ∈ rest, ∃ d ∈ u.notices.blocked, d.slot = c.slot := fun c hc => hl c (by simp [hc])
    /- An operation on the head's slot stays near. -/
    have step : ∀ {t v : State}, Near i u t → Near b.slot t v → Near i u v := fun {t v} ht hv => by
      refine ⟨fun j hj hbl => ?_, fun c hc => ?_⟩
      · rw [hv.records j ?_ ?_, ht.records j hj hbl]
        · intro e
          obtain ⟨c, hc, hs⟩ := hb
          exact hbl c hc (hs.trans e.symm)
        · intro c hc e
          rcases ht.blocked c hc with h' | ⟨d, hd, h'⟩
          · exact hj (by rw [← e, h'])
          · exact hbl d hd (h'.trans e)
      · rcases hv.blocked c hc with h' | ⟨d, hd, h'⟩
        · obtain ⟨x, hx, hs⟩ := hb
          exact .inr ⟨x, hx, hs.trans h'.symm⟩
        · rcases ht.blocked d hd with h'' | ⟨x, hx, h''⟩
          · exact .inl (by rw [← h', h''])
          · exact .inr ⟨x, hx, h''.trans h'⟩
    unfold serveBlockedFrom
    have h0 := step h (near_takeBlocked s b.slot)
    have lost := serveBlockedFrom_near n i rest _ u (step h0 (near_loseNotice _ b.slot)) hrest
    have skipped := serveBlockedFrom_near n i rest _ u (step h0 (near_setNotice _ b.slot .clear none)) hrest
    dsimp only
    split
    · exact skipped
    · split
      · split
        · exact step h0 (near_createFault _ b.slot n true)
        · exact lost
      · split
        · split
          · exact step h0 (near_create _ b.slot n _)
          · exact skipped
        · exact lost

theorem near_serveBlocked (i : SlotIx) (s : State) : Near i s s.serveBlocked := by
  unfold State.serveBlocked
  split
  · exact .refl i s
  · exact serveBlockedFrom_near _ i _ s s (.refl i s) fun b hb => ⟨b, hb, rfl⟩

/-- With no record on the blocked list a freed general entry serves none. -/
theorem serveBlocked_nil (s : State) (h : s.notices.blocked = []) : s.serveBlocked = s := by
  unfold State.serveBlocked
  split
  · rfl
  · rw [h]; rfl

/-! ### Damage and checked reads -/

theorem near_raiseFault (s : State) (i : SlotIx) : Near i s (s.raiseFault i) := by
  unfold State.raiseFault
  dsimp only
  split
  · split
    · exact near_block s i _
    · exact near_createFault s i _ false
  · exact near_loseNotice s i

theorem near_moveToFaultPort (s : State) (i : SlotIx) (place : EntryPlace) (e e' : Entry) (p : Port) :
    Near i s (s.moveToFaultPort i place e e' p) := by
  unfold State.moveToFaultPort
  refine .ite ?_ ?_
  · exact ((moved_dropEntry s place e).trans (moved_modifyQueue _ p _)).near i
  · exact (((moved_dropEntry s place e).near i).trans (near_loseNotice _ i)).trans (near_serveBlocked i _)

theorem near_treatNotice (s : State) (i : SlotIx) : Near i s (s.treatNotice i) := by
  unfold State.treatNotice
  dsimp only
  split
  · exact near_raiseFault s i
  · exact near_moveToFaultPort s i _ _ _ _
  · exact .refl i s

theorem near_damage (s : State) (i : SlotIx) (part : FaultPart) : Near i s (s.damage i part) :=
  (near_declareDamaged s i part).trans (near_treatNotice _ i)

theorem near_escalate (s : State) (i : SlotIx) : Near i s (s.escalate i) := by
  unfold State.escalate
  dsimp only
  refine (near_declareIdentityLost s i).trans ?_
  split
  · exact near_raiseFault _ i
  · exact near_moveToFaultPort _ i _ _ _ _
  · exact .refl i _

theorem near_readSlot (s : State) (i : SlotIx) : Near i s (s.readSlot i) :=
  near_readWith s i _ _ (fun t part => near_damage t i part) (fun t => near_escalate t i)

theorem near_checkedRead (s : State) (i : SlotIx) : Near i s (s.checkedRead i) :=
  (near_readSlot s i).trans ((moved_settleSince _ s).near i)

/-! ### Retirement, withdrawal and acknowledgement -/

theorem near_freeSlot (s : State) (i : SlotIx) : Near i s (s.freeSlot i) :=
  Near.trans (t := (s.dropOwned (s.record i).owner i).setOccupied (s.table.occupied.erase i))
    ((near_dropOwned i s _).trans (near_of_cells rfl rfl)) (near_setRecord _ i _)

theorem near_unblock (i j : SlotIx) (s : State) : Near i s (s.unblock j) where
  records := fun _ _ _ => rfl
  blocked := fun b hb => .inr ⟨b, List.mem_of_mem_filter hb, rfl⟩

theorem near_retireCore (s : State) (i : SlotIx) : Near i s (s.retireCore i) := by
  unfold State.retireCore
  dsimp only
  refine ((near_leaveTiming i i s).trans (near_unblock i i _)).trans ?_
  split
  · exact near_freeSlot _ i
  · exact (((moved_dropEntry _ _ _).near i).trans (near_freeSlot _ i)).trans (near_serveBlocked i _)

theorem near_retire (s : State) (i : SlotIx) : Near i s (s.retire i) :=
  (near_retireCore s i).trans ((moved_settle _).near i)

theorem near_dispose (s : State) (i : SlotIx) : Near i s (s.dispose i) :=
  .ite (near_freeSlot s i) (.refl i s)

theorem near_disarm (s : State) (i : SlotIx) : Near i s (s.disarm i) :=
  (near_leaveTiming i i s).trans (near_modify _ i _)

theorem near_withdraw (s : State) (i : SlotIx) : Near i s (s.withdraw i) := by
  unfold State.withdraw
  split
  · exact .refl i s
  · exact .refl i s
  · exact (near_unblock i i s).trans (near_setNotice _ i _ _)
  · split
    · exact .refl i s
    · exact ((((moved_dropEntry s _ _).near i).trans (near_setNotice _ i _ _)).trans
        (near_serveBlocked i _)).trans ((moved_settle _).near i)

theorem near_armRecord (s : State) (i : SlotIx) (d : Tick) : Near i s (s.armRecord i d) := by
  unfold State.armRecord
  split
  · exact near_setDeadline s i d
  · exact ((near_unlist i i s).trans (near_setDeadline _ i d)).trans (near_enqueue _ i)
  · exact (near_setDeadline s i d).trans (near_enqueue _ i)

theorem near_consume (s : State) (p : Port) (i : SlotIx) : Near i s (s.consume p i) := by
  unfold State.consume
  split
  · exact near_setNotice s i _ _
  · exact ((moved_dropEntry s _ _).near i).trans (near_setNotice _ i _ _)

theorem near_rearmOrDispose (s : State) (i : SlotIx) (rearm : Option Interval) :
    Near i s (s.rearmOrDispose i rearm) := by
  unfold State.rearmOrDispose
  exact .ite ((near_setDeadline s i _).trans (near_enqueue _ i)) (near_dispose s i)

theorem near_acknowledge (s : State) (p : Port) (i : SlotIx) (rearm : Option Interval) :
    Near i s (s.acknowledge p i rearm) := by
  unfold State.acknowledge
  dsimp only
  refine Near.trans ?_ ((moved_settle _).near i)
  refine (near_consume s p i).trans ?_
  refine .ite ?_ ?_
  · exact (near_serveBlocked i _).trans (near_raiseFault _ i)
  · exact (near_rearmOrDispose _ i rearm).trans (near_serveBlocked i _)

theorem near_giveBack (s : State) (p : Port) (i : SlotIx) : Near i s (s.giveBack p i) := by
  unfold State.giveBack
  split
  · exact .refl i s
  · rename_i e _
    dsimp only
    refine (((moved_dropEntry s (.outstanding p) e).near i).trans (near_setNotice _ i .pending none)).trans ?_
    split
    · exact ((moved_modifyQueue _ _ _).trans (moved_driveLines _)).near i
    · exact ((moved_reoffer _ _ p _).trans (moved_settle _)).near i

/-! ### Firing -/

theorem near_settleSchedule (s : State) (i : SlotIx) (plan : Reschedule) :
    Near i s (s.settleSchedule i plan) := by
  cases plan
  · exact near_setSched s i .idle
  · exact (near_modify s i _).trans (near_enqueue _ i)
  · exact near_setSched s i .idle

theorem near_fireNotice (s : State) (i : SlotIx) (r : Record) (early rangeEnd : Bool) :
    Near i s (s.fireNotice i r early rangeEnd) := by
  unfold State.fireNotice
  dsimp only
  refine .ite (.ite ?_ (near_raiseOverrun s i 1)) (near_raiseOverrun s i 1)
  split
  · exact near_create s i _ _
  · exact near_block s i _

theorem near_fire (s : State) (i : SlotIx) (early : Bool) : Near i s (s.fire i early) :=
  ((near_unlist i i s).trans (near_fireNotice _ i _ early _)).trans (near_settleSchedule _ i _)

/-! ### Operations that change one record alone -/

theorem State.SameBut.refl (i : SlotIx) (s : State) : s.SameBut s i := fun _ _ => rfl

theorem State.SameBut.trans {i : SlotIx} {s t u : State} (a : s.SameBut t i) (b : t.SameBut u i) : s.SameBut u i :=
  fun j hj => (b j hj).trans (a j hj)

theorem only_setRecord (s : State) (i : SlotIx) (r : Record) : s.SameBut (s.setRecord i r) i :=
  fun j hj => s.record_setRecord_other i j r hj

theorem only_modify (s : State) (i : SlotIx) (f : Record → Record) : s.SameBut (s.modify i f) i :=
  only_setRecord s i _

theorem only_of_cells {i : SlotIx} {s t : State} (h : t.table.cells = s.table.cells) : s.SameBut t i :=
  fun j _ => State.record_congr h j

theorem only_leaveTiming (s : State) (i j : SlotIx) : s.SameBut (s.leaveTiming j) i := by
  refine only_of_cells ?_
  unfold State.leaveTiming State.unqueue State.reportRebuild
  split
  · split <;> rfl
  · rfl
  · rfl

theorem only_loseIdentity (s : State) (i : SlotIx) : s.SameBut (s.loseIdentity i) i := by
  refine State.SameBut.trans (t := s.dropOwned (s.record i).owner i) (only_of_cells ?_) (only_modify _ i _)
  cases (s.record i).owner <;> rfl

theorem keepFault_record (s : State) (i j : SlotIx) (part : FaultPart) :
    (s.keepFault i part).record j = s.record j := rfl

theorem only_declareDamaged (s : State) (i : SlotIx) (part : FaultPart) :
    s.SameBut (s.declareDamaged i part) i := by
  intro j hj
  unfold State.declareDamaged
  dsimp only
  cases part
  · rw [keepFault_record, State.record_modify_other _ _ _ _ hj, State.record_modify_other _ _ _ _ hj]
    exact only_leaveTiming s i i j hj
  · rw [keepFault_record, State.record_modify_other _ _ _ _ hj, only_loseIdentity _ i j hj]
    exact only_leaveTiming s i i j hj

theorem only_declareIdentityLost (s : State) (i : SlotIx) : s.SameBut (s.declareIdentityLost i) i :=
  (only_loseIdentity s i).trans (only_of_cells rfl)

theorem only_repairIdentity (s : State) (i : SlotIx) : s.SameBut (s.repairIdentity i) i := by
  unfold State.repairIdentity
  dsimp only
  split
  · exact .refl i s
  · exact (only_setRecord s i _).trans (only_of_cells rfl)

theorem only_repairTiming (s : State) (i : SlotIx) : s.SameBut (s.repairTiming i) i := by
  unfold State.repairTiming
  dsimp only
  split
  · exact (only_setRecord s i _).trans (only_of_cells rfl)
  · exact .refl i s

theorem only_readWith (s : State) (i : SlotIx) (damage : State → FaultPart → State)
    (escalate : State → State) (hd : ∀ (t : State) part, t.SameBut (damage t part) i)
    (he : ∀ t : State, t.SameBut (escalate t) i) : s.SameBut (s.readWith i damage escalate) i := by
  unfold State.readWith
  dsimp only
  split
  · split
    · exact (only_setRecord s i _).trans (only_of_cells rfl)
    · exact only_repairIdentity s i
  · split
    · exact .refl i s
    · exact only_repairTiming s i
  · split
    · exact he s
    · exact only_repairIdentity s i
  · split
    · exact (only_repairTiming s i).trans (hd _ _)
    · split
      · exact (only_repairIdentity s i).trans (hd _ _)
      · exact (only_repairIdentity s i).trans (only_repairTiming _ i)

theorem only_takeBlocked (s : State) (i : SlotIx) : s.SameBut (s.takeBlocked i) i :=
  State.SameBut.trans (only_readWith s i _ _ (fun t part => only_declareDamaged t i part)
    fun t => only_declareIdentityLost t i) (only_of_cells rfl)

theorem only_create (s : State) (i : SlotIx) (n : Nat) (e : Entry) : s.SameBut (s.create i n e) i :=
  fun j hj => by
    unfold State.create
    rw [(moved_place _ _).record, State.record_modify_other _ _ _ _ hj]
    rfl

theorem only_createFault (s : State) (i : SlotIx) (n : Nat) (delayed : Bool) :
    s.SameBut (s.createFault i n delayed) i := only_create s i n _

theorem only_loseNotice (s : State) (i : SlotIx) : s.SameBut (s.loseNotice i) i :=
  (only_modify s i _).trans (only_modify _ i _)

end Sys2Proof.Machine
end

