-- ==== Sys2Proof/Laws/Integrity.lean ====
section
/-! SUPPORT. What a checked read does, outcome by outcome of Table 9-1, and what damage makes of a record. -/

namespace Sys2Proof.Machine

/-! ### Reads that damage nothing -/

/-- Every part passes: the read changes nothing. -/
theorem readSlot_sound (s : State) (i : SlotIx) (h : (s.record i).ChecksPass) : s.readSlot i = s := by
  obtain ⟨h1, h2, h3⟩ := h
  unfold State.readSlot State.readWith State.repairIdentity State.repairTiming Record.identityLost
  simp only [h1, h2, h3]
  split <;> simp [h3]

/-- A record that is not DAMAGED, with an identity copy left and a timing part that can be repaired. -/
theorem readSlot_repairs (s : State) (i : SlotIx) (h1 : (s.record i).sched ≠ .free)
    (h2 : (s.record i).sched ≠ .damaged) (h3 : (s.record i).identityLost = false)
    (h4 : (s.record i).timingCheck ≠ .uncorrectable) :
    s.readSlot i = (s.repairIdentity i).repairTiming i := by
  unfold State.readSlot State.readWith
  dsimp only
  split
  · contradiction
  · contradiction
  · contradiction
  · rw [h3, if_neg (by decide), if_neg h4]

/-- A record that is not DAMAGED, with its timing part beyond repair. -/
theorem readSlot_timing (s : State) (i : SlotIx) (h1 : (s.record i).sched ≠ .free)
    (h2 : (s.record i).sched ≠ .damaged) (h3 : (s.record i).identityLost = false)
    (h4 : (s.record i).timingCheck = .uncorrectable) :
    s.readSlot i = (s.repairIdentity i).damage i .timing := by
  unfold State.readSlot State.readWith
  dsimp only
  split
  · contradiction
  · contradiction
  · contradiction
  · rw [h3, if_neg (by decide), if_pos h4]

/-- A record that is not DAMAGED, with both identity copies beyond repair. -/
theorem readSlot_identity (s : State) (i : SlotIx) (h1 : (s.record i).sched ≠ .free)
    (h2 : (s.record i).sched ≠ .damaged) (h3 : (s.record i).identityLost = true) :
    s.readSlot i = (s.repairTiming i).damage i .identity := by
  unfold State.readSlot State.readWith
  dsimp only
  split
  · contradiction
  · contradiction
  · contradiction
  · rw [if_pos h3]

/-- A DAMAGED record with fault part TIMING whose identity copies both fail. -/
theorem readSlot_escalates (s : State) (i : SlotIx) (h1 : (s.record i).sched = .damaged)
    (h2 : (s.record i).fault = some .timing) (h3 : (s.record i).identityLost = true) :
    s.readSlot i = s.escalate i := by
  unfold State.readSlot State.readWith
  simp only [h1, h2, h3, if_true]

theorem record_repairIdentity (s : State) (i : SlotIx) :
    (s.repairIdentity i).record i = { s.record i with copyA := .passing, copyB := .passing } := by
  unfold State.repairIdentity
  dsimp only
  split
  · rename_i h
    obtain ⟨ha, hb⟩ := h
    revert ha hb
    cases s.record i
    rintro rfl rfl
    rfl
  · exact s.record_setRecord_self i _

theorem record_repairTiming (s : State) (i : SlotIx) (h : (s.record i).timingCheck ≠ .uncorrectable) :
    (s.repairTiming i).record i = { s.record i with timingCheck := .passing } := by
  unfold State.repairTiming
  dsimp only
  split
  · exact s.record_setRecord_self i _
  · rename_i hc
    revert h hc
    cases s.record i with
    | mk _ _ _ _ _ _ _ _ _ _ _ _ _ _ _ _ _ _ _ _ _ c _ =>
      cases c <;> simp

/-- A repair changes the table's cells and the scrubber alone. -/
theorem repairIdentity_eq (s : State) (i : SlotIx) : s.repairIdentity i =
    { s with table := { s.table with cells := (s.repairIdentity i).table.cells },
             scrubber := (s.repairIdentity i).scrubber } := by
  unfold State.repairIdentity
  dsimp only
  split <;> rfl

theorem repairTiming_eq (s : State) (i : SlotIx) : s.repairTiming i =
    { s with table := { s.table with cells := (s.repairTiming i).table.cells },
             scrubber := (s.repairTiming i).scrubber } := by
  unfold State.repairTiming
  dsimp only
  split <;> rfl

theorem notices_repairIdentity (s : State) (i : SlotIx) : (s.repairIdentity i).notices = s.notices := by
  rw [repairIdentity_eq]

theorem notices_repairTiming (s : State) (i : SlotIx) : (s.repairTiming i).notices = s.notices := by
  rw [repairTiming_eq]

theorem checkedRead_sound (s : State) (i : SlotIx) (h : (s.record i).ChecksPass) : s.checkedRead i = s := by
  unfold State.checkedRead
  rw [readSlot_sound s i h]
  exact settleSince_eq rfl

theorem checkedRead_repairs (s : State) (i : SlotIx) (h1 : (s.record i).sched ≠ .free)
    (h2 : (s.record i).sched ≠ .damaged) (h3 : (s.record i).identityLost = false)
    (h4 : (s.record i).timingCheck ≠ .uncorrectable) :
    s.checkedRead i = (s.repairIdentity i).repairTiming i := by
  unfold State.checkedRead
  rw [readSlot_repairs s i h1 h2 h3 h4]
  exact settleSince_eq ((notices_repairTiming _ i).trans (notices_repairIdentity s i))

/-- A read of a FREE slot, or of a record with fault part TIMING, whose identity is not lost repairs the identity
copies (R139, Table 9-2). -/
theorem checkedRead_identity (s : State) (i : SlotIx)
    (h : (s.record i).sched = .free ∨ ((s.record i).sched = .damaged ∧ (s.record i).fault = some .timing))
    (h3 : (s.record i).identityLost = false) : s.checkedRead i = s.repairIdentity i := by
  have hr : s.readSlot i = s.repairIdentity i := by
    unfold State.readSlot State.readWith
    rcases h with h | ⟨h, h'⟩
    · simp only [h, h3, Bool.false_eq_true, if_false]
    · simp only [h, h', h3, Bool.false_eq_true, if_false]
  unfold State.checkedRead
  rw [hr]
  exact settleSince_eq (notices_repairIdentity s i)

/-- A read of a record with fault part IDENTITY repairs its timing part, unless that was lost first (Table 9-2). -/
theorem checkedRead_timing (s : State) (i : SlotIx) (h : (s.record i).sched = .damaged)
    (h' : (s.record i).fault = some .identity) :
    s.checkedRead i = if (s.record i).timingLost then s else s.repairTiming i := by
  have hr : s.readSlot i = if (s.record i).timingLost then s else s.repairTiming i := by
    unfold State.readSlot State.readWith
    simp only [h, h']
  unfold State.checkedRead
  rw [hr]
  split
  · exact settleSince_eq rfl
  · exact settleSince_eq (notices_repairTiming s i)

/-- The correction count after the repair of the identity copies (R138). -/
theorem repairIdentity_corrections (s : State) (i : SlotIx) (h : s.scrubber.corrections ≤ 65535) :
    (s.repairIdentity i).scrubber.corrections = min 65535 (s.scrubber.corrections
      + (if (s.record i).copyA = .passing then 0 else 1) + (if (s.record i).copyB = .passing then 0 else 1)) := by
  unfold State.repairIdentity
  dsimp only
  split
  · rename_i h; rw [if_pos h.1, if_pos h.2]; omega
  · show min Config.correctionMax _ = _
    cases (s.record i).copyA <;> cases (s.record i).copyB <;>
      simp [Check.repair, Config.correctionMax, State.setRecord]

theorem sameBut_of_near {i : SlotIx} {s t : State} (h : Near i s t)
    (hb : ∀ b ∈ s.notices.blocked, b.slot = i) : s.SameBut t i := h.sameBut hb

/-! ### Damage (R143) -/

/-- The placement queue and the deadline list after a record has left them, and what stays. -/
theorem leaveTiming_eq (s : State) (i : SlotIx) : s.leaveTiming i =
    { s with placement := (s.leaveTiming i).placement, expiry := (s.leaveTiming i).expiry } := by
  unfold State.leaveTiming State.unqueue State.reportRebuild
  split
  · split <;> rfl
  · rfl
  · rfl

theorem leaveTiming_queue (s : State) (i : SlotIx) : (s.leaveTiming i).placement.queue
    = if (s.record i).sched = .queued then s.placement.queue.erase i else s.placement.queue := by
  unfold State.leaveTiming State.unqueue State.reportRebuild
  split
  · rename_i h
    rw [if_pos h]
    split <;> rfl
  · rename_i h
    rw [if_neg (by rw [h]; decide)]
    rfl
  · rename_i h _
    rw [if_neg h]

theorem leaveTiming_list (s : State) (i : SlotIx) : (s.leaveTiming i).expiry.list
    = if (s.record i).sched = .armed then unlink i s.expiry.list else s.expiry.list := by
  unfold State.leaveTiming State.unqueue State.reportRebuild
  split
  · rename_i h
    have hn : ¬ (s.record i).sched = .armed := by rw [h]; decide
    rw [if_neg hn]
    split <;> rfl
  · rename_i h
    rw [if_pos h]
    rfl
  · rename_i h
    rw [if_neg h]

/-- What leaving the timing path does to the rebuild (R55, R56). -/
theorem leaveTiming_rebuild (s : State) (i : SlotIx) : s.RebuildFollows (s.leaveTiming i) i := by
  have hc : ∀ o : Option Carried, (o.map Carried.rebuildMember).getD false = false ↔
      ∀ c, o = some c → c.rebuildMember = false := by
    intro o; cases o <;> simp
  unfold State.RebuildFollows State.leaveTiming
  cases hs : (s.record i).sched with
  | queued =>
    simp only [true_and, forall_const, ne_eq, not_true_eq_false, false_or]
    unfold State.unqueue State.reportRebuild
    have hp : (s.removeQueued i).placement.rebuildPart = if i ∈ s.placement.queue.take s.placement.rebuildPart then
        s.placement.rebuildPart - 1 else s.placement.rebuildPart := rfl
    have hca : (s.removeQueued i).placement.carried = s.placement.carried := rfl
    have hex : (s.removeQueued i).expiry = s.expiry := rfl
    generalize s.removeQueued i = u at *
    rw [hex, hca]
    split
    · rename_i h
      refine ⟨hp, fun _ _ _ => ⟨rfl, rfl⟩, fun h' => ?_⟩
      rcases h' with h' | h' | ⟨c, h', h''⟩
      · exact absurd h.1 h'
      · exact absurd h.2.1 h'
      · rw [(hc _).mp h.2.2 c h'] at h''; cases h''
    · rename_i h
      exact ⟨hp, fun h1 h2 h3 => absurd ⟨h1, h2, (hc _).mpr h3⟩ h, fun _ => ⟨by rw [hex], by rw [hex]⟩⟩
  | armed => simp [State.unlist]
  | free => simp
  | idle => simp
  | placing => simp
  | paused => simp
  | damaged => simp

/-- The rebuild is judged by the placement unit and the expiry engine alone. -/
theorem State.RebuildFollows.congr {s t u : State} {i : SlotIx} (h : s.RebuildFollows t i)
    (hp : u.placement = t.placement) (he : u.expiry = t.expiry) : s.RebuildFollows u i := by
  unfold State.RebuildFollows at *
  rw [hp, he]; exact h

theorem leaveTiming_record (s : State) (i j : SlotIx) : (s.leaveTiming i).record j = s.record j := by
  rw [leaveTiming_eq]
  rfl

theorem dropOwned_record (s : State) (o : Option Port) (i j : SlotIx) :
    (s.dropOwned o i).record j = s.record j := by
  cases o <;> rfl

theorem loseIdentity_record (s : State) (i : SlotIx) : (s.loseIdentity i).record i =
    { s.record i with
      generation := 0, owner := none, tag := 0, mark := none, fault := some .identity } := by
  unfold State.loseIdentity
  rw [State.record_modify_self, dropOwned_record]

/-- The record that the damage of its timing part leaves, apart from its notice (R143 steps 1 to 4). -/
theorem declareTiming_record (s : State) (i : SlotIx) : (s.declareDamaged i .timing).record i =
    { (s.record i).loseTiming with
      sched := .damaged, remaining := none, notice := (s.foundNotice i).1, holder := (s.foundNotice i).2 } := by
  have hf : ((s.leaveTiming i).modify i Record.loseTiming).foundNotice i = s.foundNotice i := by
    rw [leaveTiming_eq]
    rfl
  show (((s.leaveTiming i).modify i Record.loseTiming).modify i fun r =>
    { r with sched := .damaged, remaining := none,
             notice := (((s.leaveTiming i).modify i Record.loseTiming).foundNotice i).1,
             holder := (((s.leaveTiming i).modify i Record.loseTiming).foundNotice i).2 }).record i = _
  rw [hf, State.record_modify_self, State.record_modify_self, leaveTiming_record]

/-- The record that the loss of its identity leaves, apart from its notice. -/
theorem declareIdentity_record (s : State) (i : SlotIx) : (s.declareDamaged i .identity).record i =
    { s.record i with
      generation := 0, owner := none, tag := 0, mark := none, fault := some .identity, sched := .damaged,
      remaining := none, notice := (s.foundNotice i).1, holder := (s.foundNotice i).2 } := by
  have hf : ((s.leaveTiming i).loseIdentity i).foundNotice i = s.foundNotice i := by
    unfold State.loseIdentity State.dropOwned
    rw [leaveTiming_eq]
    split <;> rfl
  show (((s.leaveTiming i).loseIdentity i).modify i fun r =>
    { r with sched := .damaged, remaining := none,
             notice := (((s.leaveTiming i).loseIdentity i).foundNotice i).1,
             holder := (((s.leaveTiming i).loseIdentity i).foundNotice i).2 }).record i = _
  rw [hf, State.record_modify_self, loseIdentity_record, leaveTiming_record]

/-- The notice state of a slot that no entry names and that is not on the blocked list. -/
theorem foundNotice_none (s : State) (i : SlotIx) (h1 : s.entryOf i = none)
    (h2 : ∀ b ∈ s.notices.blocked, b.slot ≠ i) : s.foundNotice i = (.clear, none) := by
  unfold State.foundNotice
  rw [h1]
  have : s.notices.blocked.any (fun b => decide (b.slot = i)) = false := by
    rw [List.any_eq_false]
    intro b hb
    simpa using h2 b hb
  simp [this]

/-- What the declaration of damage leaves of the notice unit. -/
theorem declareDamaged_notices (s : State) (i : SlotIx) (part : FaultPart) :
    (s.declareDamaged i part).notices = { s.notices with
      blocked := s.notices.blocked.map fun b => if b.slot = i then { b with kept := .damage part } else b } := by
  unfold State.declareDamaged
  rw [leaveTiming_eq]
  cases part
  · rfl
  · unfold State.loseIdentity State.dropOwned
    dsimp only
    split <;> rfl

theorem map_kept_id {l : List BlockedPlace} {i : SlotIx} (part : FaultPart) (h : ∀ b ∈ l, b.slot ≠ i) :
    (l.map fun b => if b.slot = i then { b with kept := Kept.damage part } else b) = l := by
  refine (List.map_congr_left fun b hb => ?_).trans (List.map_id l)
  rw [if_neg (h b hb)]
  rfl

theorem declareDamaged_placement (s : State) (i : SlotIx) (part : FaultPart) :
    (s.declareDamaged i part).placement = (s.leaveTiming i).placement := by
  unfold State.declareDamaged
  cases part
  · rfl
  · unfold State.loseIdentity State.dropOwned
    dsimp only
    split <;> rfl

theorem declareDamaged_expiry (s : State) (i : SlotIx) (part : FaultPart) :
    (s.declareDamaged i part).expiry = (s.leaveTiming i).expiry := by
  unfold State.declareDamaged
  cases part
  · rfl
  · unfold State.loseIdentity State.dropOwned
    dsimp only
    split <;> rfl

/-! ### A DAMAGED record stays as its damage left it -/

/-- A record without the fields that its notice and its repairs change. -/
def Record.core (r : Record) : Record :=
  { r with notice := .clear, holder := none, overrun := 0, copyA := .passing, copyB := .passing,
           timingCheck := .passing }

/-- The record is DAMAGED and no read can change its fault part any more. -/
def Record.Ruined (r : Record) : Prop :=
  r.sched = .damaged ∧ (r.fault = some .identity ∨ r.fault = some .timing ∧ r.identityLost = false)

/-- A DAMAGED record in slot `i` stays DAMAGED, with all its other fields. -/
def KeepsRuin (i : SlotIx) (s t : State) : Prop :=
  (s.record i).Ruined → (t.record i).Ruined ∧ (t.record i).core = (s.record i).core

theorem KeepsRuin.refl (i : SlotIx) (s : State) : KeepsRuin i s s := fun h => ⟨h, rfl⟩

theorem KeepsRuin.trans {i : SlotIx} {s t u : State} (a : KeepsRuin i s t) (b : KeepsRuin i t u) :
    KeepsRuin i s u := fun h => by
  obtain ⟨h1, h2⟩ := a h
  obtain ⟨h3, h4⟩ := b h1
  exact ⟨h3, h4.trans h2⟩

theorem keepsRuin_of_record {i : SlotIx} {s t : State} (h : t.record i = s.record i) : KeepsRuin i s t :=
  fun hr => by rw [h]; exact ⟨hr, rfl⟩

theorem keepsRuin_modify (s : State) (i k : SlotIx) (f : Record → Record)
    (h : ∀ r : Record, r.Ruined → (f r).Ruined ∧ (f r).core = r.core) : KeepsRuin i s (s.modify k f) := by
  by_cases e : i = k
  · subst e
    intro hr
    rw [State.record_modify_self]
    exact h _ hr
  · exact keepsRuin_of_record (State.record_modify_other _ _ _ _ e)

theorem keepsRuin_setNotice (s : State) (i k : SlotIx) (n : NoticeState) (o : Option Port) :
    KeepsRuin i s (s.setNotice k n o) := keepsRuin_modify s i k _ fun _ h => ⟨h, rfl⟩

theorem keepsRuin_raiseOverrun (s : State) (i k : SlotIx) (n : Nat) : KeepsRuin i s (s.raiseOverrun k n) :=
  keepsRuin_modify s i k _ fun _ h => ⟨h, rfl⟩

theorem keepsRuin_loseNotice (s : State) (i k : SlotIx) : KeepsRuin i s (s.loseNotice k) :=
  (keepsRuin_raiseOverrun s i k 1).trans (keepsRuin_setNotice _ i k _ _)

theorem keepsRuin_create (s : State) (i k : SlotIx) (n : Nat) (e : Entry) :
    KeepsRuin i s (s.create k n e) :=
  KeepsRuin.trans (t := s.advanceStamp.modify k fun r =>
      { r with notice := .pending, holder := none, overrun := 0 })
    (keepsRuin_modify s.advanceStamp i k _ fun _ h => ⟨h, rfl⟩)
    (keepsRuin_of_record ((moved_place _ _).record i))

theorem keepsRuin_createFault (s : State) (i k : SlotIx) (n : Nat) (delayed : Bool) :
    KeepsRuin i s (s.createFault k n delayed) := keepsRuin_create s i k n _

theorem keepsRuin_block (s : State) (i k : SlotIx) (kept : Kept) : KeepsRuin i s (s.block k kept) :=
  keepsRuin_modify (s.withNotices { s.notices with blocked := s.notices.blocked ++ [⟨k, kept⟩] }) i k _
    fun _ h => ⟨h, rfl⟩

theorem keepsRuin_takeBlocked (s : State) (i k : SlotIx) : KeepsRuin i s (s.takeBlocked k) := by
  by_cases e : i = k
  · subst e
    intro hr
    have key : (s.takeBlocked i).record i = s.record i
        ∨ (s.takeBlocked i).record i = { s.record i with copyA := .passing, copyB := .passing }
        ∨ (s.takeBlocked i).record i = { s.record i with timingCheck := .passing } := by
      have repaired : (s.repairTiming i).record i = s.record i
          ∨ (s.repairTiming i).record i = { s.record i with timingCheck := .passing } := by
        unfold State.repairTiming
        dsimp only
        split
        · exact .inr (s.record_setRecord_self i _)
        · exact .inl rfl
      have read : ∀ damage escalate, s.readWith i damage escalate = s
          ∨ s.readWith i damage escalate = s.repairIdentity i
          ∨ s.readWith i damage escalate = s.repairTiming i := by
        intro damage escalate
        obtain ⟨h1, h2⟩ := hr
        unfold State.readWith
        rcases h2 with h2 | ⟨h2, h3⟩
        · simp only [h1, h2]
          split
          · exact .inl rfl
          · exact .inr (.inr rfl)
        · simp only [h1, h2, h3]
          exact .inr (.inl rfl)
      have taken : (s.takeBlocked i).record i = (s.readWith i (fun t part => t.declareDamaged i part)
          fun t => t.declareIdentityLost i).record i := rfl
      rw [taken]
      rcases read (fun t part => t.declareDamaged i part) (fun t => t.declareIdentityLost i) with e | e | e
      · exact .inl (congrArg (State.record · i) e)
      · exact .inr (.inl ((congrArg (State.record · i) e).trans (record_repairIdentity s i)))
      · rcases repaired with h | h
        · exact .inl ((congrArg (State.record · i) e).trans h)
        · exact .inr (.inr ((congrArg (State.record · i) e).trans h))
    rcases key with h | h | h
    · rw [h]; exact ⟨hr, rfl⟩
    · rw [h]
      refine ⟨⟨hr.1, ?_⟩, rfl⟩
      rcases hr.2 with h2 | ⟨h2, _⟩
      · exact .inl h2
      · exact .inr ⟨h2, rfl⟩
    · rw [h]
      exact ⟨hr, rfl⟩
  · exact keepsRuin_of_record (only_takeBlocked s k i e)

theorem keepsRuin_serveBlockedFrom (n : Nat) (i : SlotIx) : ∀ (l : List BlockedPlace) (s : State),
    KeepsRuin i s (serveBlockedFrom n l s)
  | [], s => .refl i s
  | b :: rest, s => by
    unfold serveBlockedFrom
    have h0 := keepsRuin_takeBlocked s i b.slot
    have lost := (h0.trans (keepsRuin_loseNotice _ i b.slot)).trans (keepsRuin_serveBlockedFrom n i rest _)
    have skipped := (h0.trans (keepsRuin_setNotice _ i b.slot .clear none)).trans
      (keepsRuin_serveBlockedFrom n i rest _)
    dsimp only
    split
    · exact skipped
    · split
      · split
        · exact h0.trans (keepsRuin_createFault _ i b.slot n true)
        · exact lost
      · split
        · split
          · exact h0.trans (keepsRuin_create _ i b.slot n _)
          · exact skipped
        · exact lost

theorem keepsRuin_serveBlocked (s : State) (i : SlotIx) : KeepsRuin i s s.serveBlocked := by
  unfold State.serveBlocked
  split
  · exact .refl i s
  · exact keepsRuin_serveBlockedFrom _ i _ s

theorem keepsRuin_raiseFault (s : State) (i k : SlotIx) : KeepsRuin i s (s.raiseFault k) := by
  unfold State.raiseFault
  dsimp only
  split
  · split
    · exact keepsRuin_block s i k _
    · exact keepsRuin_createFault s i k _ false
  · exact keepsRuin_loseNotice s i k

theorem keepsRuin_moveToFaultPort (s : State) (i k : SlotIx) (place : EntryPlace) (e e' : Entry) (p : Port) :
    KeepsRuin i s (s.moveToFaultPort k place e e' p) := by
  unfold State.moveToFaultPort
  split
  · exact keepsRuin_of_record (((moved_dropEntry s place e).trans (moved_modifyQueue _ p _)).record i)
  · exact ((keepsRuin_of_record ((moved_dropEntry s place e).record i)).trans
      (keepsRuin_loseNotice _ i k)).trans (keepsRuin_serveBlocked _ i)

theorem keepsRuin_treatNotice (s : State) (i k : SlotIx) : KeepsRuin i s (s.treatNotice k) := by
  unfold State.treatNotice
  dsimp only
  split
  · exact keepsRuin_raiseFault s i k
  · exact keepsRuin_moveToFaultPort s i k _ _ _ _
  · exact .refl i s

/-- The record that a read leaves DAMAGED: as its declaration left it, apart from its notice (R143). -/
theorem damage_core (s : State) (i : SlotIx) (part : FaultPart)
    (h : part = .timing → (s.record i).identityLost = false) :
    ((s.damage i part).record i).Ruined
      ∧ ((s.damage i part).record i).core = ((s.declareDamaged i part).record i).core := by
  refine keepsRuin_treatNotice (s.declareDamaged i part) i i ?_
  cases part
  · rw [declareTiming_record]
    exact ⟨rfl, .inr ⟨rfl, h rfl⟩⟩
  · rw [declareIdentity_record]
    exact ⟨rfl, .inl rfl⟩

/-- A read that finds a DAMAGED record's identity lost leaves it DAMAGED (R146). -/
theorem escalate_ruined (s : State) (i : SlotIx) (h : (s.record i).sched = .damaged) :
    ((s.escalate i).record i).Ruined := by
  have h1 : ((s.declareIdentityLost i).record i).Ruined := by
    have e : (s.declareIdentityLost i).record i = (s.loseIdentity i).record i := rfl
    rw [e, loseIdentity_record]
    exact ⟨h, .inl rfl⟩
  unfold State.escalate
  dsimp only
  split
  · exact (keepsRuin_raiseFault _ i i h1).1
  · exact (keepsRuin_moveToFaultPort _ i i _ _ _ _ h1).1
  · exact h1

/-- A read that leaves a record not DAMAGED has touched no notice. -/
theorem readSlot_notices (s : State) (i : SlotIx) (h : ((s.readSlot i).record i).sched ≠ .damaged) :
    (s.readSlot i).notices = s.notices := by
  have hi := notices_repairIdentity s i
  have ht := notices_repairTiming s i
  revert h
  unfold State.readSlot State.readWith
  dsimp only
  split
  · intro _
    split
    · rfl
    · exact hi
  · intro _
    split
    · rfl
    · exact ht
  · rename_i hd _
    split
    · exact fun h => absurd (escalate_ruined s i hd).1 h
    · exact fun _ => hi
  · split
    · exact fun h => absurd (damage_core _ i .identity (by intro e; cases e)).1.1 h
    · split
      · refine fun h => absurd (damage_core _ i .timing fun _ => ?_).1.1 h
        rw [record_repairIdentity]
        rfl
      · exact fun _ => (notices_repairTiming _ i).trans hi

/-- A read that leaves a record not DAMAGED is the whole of a checked read. -/
theorem checkedRead_eq (s : State) (i : SlotIx) (h : ((s.checkedRead i).record i).sched ≠ .damaged) :
    s.checkedRead i = s.readSlot i := by
  rw [checkedRead_record] at h
  exact settleSince_eq (readSlot_notices s i h)

/-- A request on a record that its port may change is carried out on the state that the read leaves. -/
theorem onRecord_open {s : State} {p : Port} {h : Handle} {a b : Bool} (f : State → Record → State)
    (o : ((s.checkedRead h.slot).record h.slot).OpenTo p h) :
    s.onRecord p h a b f = f (s.checkedRead h.slot) ((s.checkedRead h.slot).record h.slot) := by
  rw [onRecord_passes f (o.refusal a b), checkedRead_eq s h.slot o.2.1]

/-- A record with no notice and no place on the blocked list has its FAULT notice raised (R143 step 5). -/
theorem treatNotice_clear (s : State) (i : SlotIx) (part : FaultPart) (h1 : s.entryOf i = none)
    (h2 : ∀ b ∈ s.notices.blocked, b.slot ≠ i) :
    (s.declareDamaged i part).treatNotice i = (s.declareDamaged i part).raiseFault i := by
  unfold State.treatNotice
  have : ((s.declareDamaged i part).record i).notice = .clear := by
    cases part
    · rw [declareTiming_record, foundNotice_none s i h1 h2]
    · rw [declareIdentity_record, foundNotice_none s i h1 h2]
  simp only [this]

/-- The record after its FAULT notice is created (R144). -/
theorem createFault_record (s : State) (i : SlotIx) (n : Nat) (delayed : Bool) :
    (s.createFault i n delayed).record i
      = { s.record i with notice := .pending, holder := none, overrun := 0 } := by
  show (s.create i n _).record i = _
  unfold State.create
  rw [(moved_place _ _).record, State.record_modify_self]
  rfl

/-- The FAULT entry lies in its destination's queue (R94, R144). -/
theorem createFault_queue (s : State) (i : SlotIx) (n : Nat) (delayed : Bool) (p : Port)
    (hp : s.faultPort (s.record i) = p) :
    { s.faultEntry i (s.record i) delayed with number := n, stamp := s.notices.stamp, assigned := some p }
      ∈ (s.createFault i n delayed).notices.queues[p] := by
  show _ ∈ (s.create i n (s.faultEntry i (s.record i) delayed)).notices.queues[p]
  unfold State.create State.place State.faultEntry
  simp only [hp]
  exact mem_joinQueue _ p _

theorem loseNotice_record (s : State) (i : SlotIx) : (s.loseNotice i).record i =
    { s.record i with overrun := saturate8 (s.record i).overrun 1, notice := .clear, holder := none } := by
  unfold State.loseNotice State.setNotice State.raiseOverrun
  rw [State.record_modify_self, State.record_modify_self]

theorem block_record (s : State) (i : SlotIx) (kept : Kept) :
    (s.block i kept).record i = { s.record i with notice := .waiting, holder := none } := by
  unfold State.block State.setNotice
  rw [State.record_modify_self]
  rfl

end Sys2Proof.Machine
end

