-- ==== Sys2Proof/Laws/Notices.lean ====
section
/-! SUPPORT. The entries of the notice store as a collection: what each move adds, takes away and keeps; the
order of the deadline list; and what an event with nothing else on the blocked list leaves alone. -/

namespace Sys2Proof.Machine

/-! ### Attention lines -/

theorem foldl_driveLine_eq : ∀ (ps : List Port) (s : State),
    ∃ ls, ps.foldl State.driveLine s = { s with links := ls }
  | [], s => ⟨s.links, rfl⟩
  | p :: ps, s => by
    obtain ⟨ls, h⟩ := foldl_driveLine_eq ps (s.driveLine p)
    exact ⟨ls, h.trans rfl⟩

/-- The re-evaluation of the attention lines changes the links alone (R110). -/
theorem driveLines_eq (s : State) : ∃ ls, s.driveLines = { s with links := ls } :=
  foldl_driveLine_eq allPorts s

theorem driveLines_notices (s : State) : s.driveLines.notices = s.notices := by
  obtain ⟨ls, h⟩ := driveLines_eq s
  rw [h]

theorem driveLines_pools (s : State) : s.driveLines.pools = s.pools := by
  obtain ⟨ls, h⟩ := driveLines_eq s
  rw [h]

/-! ### Queues -/

theorem insertEntry_perm (e : Entry) : ∀ l : List Entry, (insertEntry e l).Perm (e :: l)
  | [] => .refl _
  | x :: rest => by
    unfold insertEntry
    split
    · exact .refl _
    · exact ((insertEntry_perm e rest).cons x).trans (.swap e x rest)

/-- One list of a list of lists is replaced. -/
theorem flatten_set_perm {α : Type} : ∀ (ls : List (List α)) (i : Nat) (h : i < ls.length) (y : List α),
    ((ls.set i y).flatten ++ ls[i]).Perm (ls.flatten ++ y)
  | [], i, h, _ => absurd h (Nat.not_lt_zero i)
  | l :: ls, 0, _, y => by
    simp only [List.set_cons_zero, List.flatten_cons, List.getElem_cons_zero, List.append_assoc]
    refine List.perm_append_comm.trans ?_
    rw [List.append_assoc]
    refine List.perm_append_comm.trans ?_
    rw [List.append_assoc]
    exact List.perm_append_comm.append_left l
  | l :: ls, i + 1, h, y => by
    simp only [List.set_cons_succ, List.flatten_cons, List.getElem_cons_succ, List.append_assoc]
    exact (flatten_set_perm ls i (Nat.lt_of_succ_lt_succ h) y).append_left l

theorem vector_set_perm {α : Type} {n : Nat} (v : Vector (List α) n) (i : Nat) (h : i < n) (y : List α) :
    ((v.set i y h).toList.flatten ++ v[i]).Perm (v.toList.flatten ++ y) := by
  have hl : i < v.toList.length := by rw [Vector.length_toList]; exact h
  have := flatten_set_perm v.toList i hl y
  rw [Vector.getElem_toList] at this
  rw [Vector.toList_set]
  exact this

/-- A list that a vector of lists holds gains one entry. -/
theorem vector_gain {α : Type} {n : Nat} (v : Vector (List α) n) (i : Nat) (h : i < n) {y : List α} {a : α}
    (hy : y.Perm (a :: v[i])) : (v.set i y h).toList.flatten.Perm (a :: v.toList.flatten) := by
  refine (List.perm_append_right_iff v[i]).mp ((vector_set_perm v i h y).trans ?_)
  refine (hy.append_left _).trans ?_
  exact List.perm_middle.trans (by rw [List.cons_append])

/-- A list that a vector of lists holds loses one entry. -/
theorem vector_lose {α : Type} {n : Nat} (v : Vector (List α) n) (i : Nat) (h : i < n) {y : List α} {a : α}
    (hy : v[i].Perm (a :: y)) : (a :: (v.set i y h).toList.flatten).Perm v.toList.flatten := by
  refine (List.perm_append_right_iff y).mp (.trans ?_ (vector_set_perm v i h y))
  rw [List.cons_append]
  exact (List.perm_middle.symm).trans (hy.symm.append_left _)

/-! ### Entries -/

/-- The list that a place names. -/
def State.listAt (s : State) : EntryPlace → List Entry
  | .queued p => s.notices.queues[p]
  | .outstanding p => s.notices.outstanding[p]
  | .holding k => s.notices.holding[k]

theorem entries_congr {s t : State} (h1 : t.notices.queues = s.notices.queues)
    (h2 : t.notices.outstanding = s.notices.outstanding) (h3 : t.notices.holding = s.notices.holding) :
    t.entries = s.entries := by
  unfold State.entries
  rw [h1, h2, h3]

theorem entries_joinQueue (s : State) (p : Port) (e : Entry) :
    (s.joinQueue p e).entries.Perm ({ e with assigned := some p } :: s.entries) := by
  have h := vector_gain s.notices.queues p.val p.isLt
    (insertEntry_perm { e with assigned := some p } s.notices.queues[p])
  have := (h.append_right s.notices.outstanding.toList.flatten).append_right s.notices.holding.toList.flatten
  exact this

theorem entries_joinHolding (s : State) (k : Pool) (e : Entry) :
    (s.joinHolding k e).entries.Perm ({ e with assigned := none } :: s.entries) := by
  have h := vector_gain s.notices.holding k.val k.isLt
    (insertEntry_perm { e with assigned := none } s.notices.holding[k])
  have := h.append_left (s.notices.queues.toList.flatten ++ s.notices.outstanding.toList.flatten)
  exact this.trans List.perm_middle

theorem entries_dropEntry (s : State) (place : EntryPlace) (e : Entry) (h : e ∈ s.listAt place) :
    (e :: (s.dropEntry place e).entries).Perm s.entries := by
  cases place with
  | queued p =>
    have := vector_lose s.notices.queues p.val p.isLt (List.perm_cons_erase h)
    have := (this.append_right s.notices.outstanding.toList.flatten).append_right
      s.notices.holding.toList.flatten
    exact this
  | outstanding p =>
    have := vector_lose s.notices.outstanding p.val p.isLt (List.perm_cons_erase h)
    have := (this.append_left s.notices.queues.toList.flatten).append_right s.notices.holding.toList.flatten
    exact ((List.perm_middle (l₁ := s.notices.queues.toList.flatten)).symm.append_right _).trans this
  | holding k =>
    have := vector_lose s.notices.holding k.val k.isLt (List.perm_cons_erase h)
    have := this.append_left (s.notices.queues.toList.flatten ++ s.notices.outstanding.toList.flatten)
    exact List.perm_middle.symm.trans this

theorem unassigned_assigned (e : Entry) (p : Option Port) :
    ({ e with assigned := p } : Entry).unassigned = e.unassigned := rfl

theorem State.HasEntries.refl (s : State) : s.HasEntries s.entries := List.Perm.refl _

theorem State.HasEntries.of_perm {s : State} {l : List Entry} (h : s.entries.Perm l) : s.HasEntries l :=
  h.map _

theorem State.HasEntries.perm {s : State} {l m : List Entry} (h : s.HasEntries l) (hm : l.Perm m) :
    s.HasEntries m := h.trans (hm.map _)

/-- A further operation that keeps the entries. -/
theorem State.HasEntries.trans {s t : State} {l : List Entry} (h : s.HasEntries l) (ht : t.HasEntries s.entries) :
    t.HasEntries l := List.Perm.trans ht h

/-- A further operation that adds an entry. -/
theorem State.HasEntries.cons {s t : State} {l : List Entry} {e : Entry} (h : s.HasEntries l)
    (ht : t.HasEntries (e :: s.entries)) : t.HasEntries (e :: l) :=
  List.Perm.trans ht (List.Perm.cons _ h)

theorem hasEntries_congr {s t : State} (h1 : t.notices.queues = s.notices.queues)
    (h2 : t.notices.outstanding = s.notices.outstanding) (h3 : t.notices.holding = s.notices.holding) :
    t.HasEntries s.entries := .of_perm (by rw [entries_congr h1 h2 h3])

theorem hasEntries_joinQueue (s : State) (p : Port) (e : Entry) :
    (s.joinQueue p e).HasEntries (e :: s.entries) := (entries_joinQueue s p e).map _

theorem hasEntries_joinHolding (s : State) (k : Pool) (e : Entry) :
    (s.joinHolding k e).HasEntries (e :: s.entries) := (entries_joinHolding s k e).map _

/-- An entry leaves the place that holds it. -/
theorem hasEntries_dropEntry (s : State) (place : EntryPlace) (e : Entry) (h : e ∈ s.listAt place) :
    (s.dropEntry place e).HasEntries (s.entries.erase e) := by
  have hp := entries_dropEntry s place e h
  have : (e :: (s.dropEntry place e).entries).Perm (e :: s.entries.erase e) :=
    hp.trans (List.perm_cons_erase (hp.subset (List.mem_cons_self ..)))
  exact .of_perm (this.cons_inv)

theorem hasEntries_assign (s : State) (k : Pool) (p : Port) (e : Entry) :
    (s.assign k p e).HasEntries (e :: s.entries) :=
  hasEntries_joinQueue (s.setPool k (s.pools[k].erase p ++ [p])) p e

theorem holding_dropEntry (s : State) (k : Pool) (e : Entry) :
    (s.dropEntry (.holding k) e).notices.holding[k] = s.notices.holding[k].erase e :=
  set_pool_same _ _ _

theorem holding_assign (s : State) (k : Pool) (p : Port) (e : Entry) :
    (s.assign k p e).notices.holding = s.notices.holding := rfl

/-- The walk of a holding queue moves entries and neither adds nor loses one (R118). -/
theorem hasEntries_servePoolFrom (k : Pool) : ∀ (l : List Entry) (s : State),
    l.Subperm s.notices.holding[k] → (servePoolFrom k l s).HasEntries s.entries
  | [], s, _ => .refl s
  | e :: rest, s, h => by
    unfold servePoolFrom
    split
    · exact hasEntries_servePoolFrom k rest s ((List.sublist_cons_self e rest).subperm.trans h)
    · split
      · exact .refl s
      · rename_i p _
        have he : e ∈ s.notices.holding[k] := h.subset (List.mem_cons_self ..)
        have hd := hasEntries_dropEntry s (.holding k) e he
        have ha := hasEntries_assign (s.dropEntry (.holding k) e) k p e
        have hrest : rest.Subperm ((s.dropEntry (.holding k) e).assign k p e).notices.holding[k] := by
          rw [holding_assign, holding_dropEntry]
          have := h.erase e
          rwa [List.erase_cons_head] at this
        have hm : e ∈ s.entries :=
          (entries_dropEntry s (.holding k) e he).subset (List.mem_cons_self ..)
        exact ((hd.cons ha).perm (List.perm_cons_erase hm).symm).trans
          (hasEntries_servePoolFrom k rest _ hrest)

theorem hasEntries_servePool (s : State) (k : Pool) : (s.servePool k).HasEntries s.entries :=
  hasEntries_servePoolFrom k _ s (.refl _)

theorem hasEntries_foldl {α : Type} (f : State → α → State) (h : ∀ s a, (f s a).HasEntries s.entries) :
    ∀ (l : List α) (s : State), (l.foldl f s).HasEntries s.entries
  | [], s => .refl s
  | a :: l, s => (h s a).trans (hasEntries_foldl f h l (f s a))

theorem hasEntries_driveLines (s : State) : s.driveLines.HasEntries s.entries :=
  hasEntries_foldl _ (fun s p => hasEntries_congr (s := s) (t := s.driveLine p) rfl rfl rfl) _ s

/-- The service of the holding queues at the end of an event neither adds nor loses an entry (R118). -/
theorem hasEntries_settle (s : State) : s.settle.HasEntries s.entries :=
  (hasEntries_foldl _ hasEntries_servePool allPools s).trans (hasEntries_driveLines _)

/-- An entry offered to a pool is one entry more (R116). -/
theorem hasEntries_offer (s : State) (k : Pool) (e : Entry) : (s.offer k e).HasEntries (e :: s.entries) := by
  unfold State.offer
  split
  · exact hasEntries_joinHolding s k e
  · split
    · exact (hasEntries_joinHolding s k e).trans (hasEntries_servePool _ k)
    · split
      · exact hasEntries_joinHolding s k e
      · exact hasEntries_assign s k _ e

theorem hasEntries_place (s : State) (e : Entry) : (s.place e).HasEntries (e :: s.entries) := by
  unfold State.place
  split
  · exact hasEntries_joinQueue s _ e
  · exact hasEntries_offer s _ e

theorem hasEntries_reoffer (s : State) (k : Pool) (p : Port) (e : Entry) :
    (s.reoffer k p e).HasEntries (e :: s.entries) := by
  unfold State.reoffer
  split
  · exact (hasEntries_joinHolding s k e).trans (hasEntries_servePool _ k)
  · split
    · exact hasEntries_joinHolding s k e
    · exact hasEntries_assign s k _ e

/-- A created entry is one entry more, with the number, the stamp and the values given (R92). -/
theorem hasEntries_create (s : State) (i : SlotIx) (n : Nat) (e : Entry) :
    (s.create i n e).HasEntries ({ e with number := n, stamp := s.notices.stamp } :: s.entries) :=
  hasEntries_place _ _

/-- The entry that a search by slot finds lies in the place it names. -/
theorem entryOf_mem {s : State} {i : SlotIx} {place : EntryPlace} {e : Entry}
    (h : s.entryOf i = some (place, e)) : e ∈ s.listAt place ∧ e.slot = some i := by
  have hfind : ∀ {l : List Entry}, l.find? (·.names i) = some e → e ∈ l ∧ e.slot = some i := by
    intro l hf
    have hn := List.find?_some hf
    exact ⟨List.mem_of_find?_eq_some hf, of_decide_eq_true hn⟩
  have hports : ∀ {v : Vector (List Entry) 4} {c : Port → EntryPlace},
      (allPorts.findSome? fun p => (v[p].find? (·.names i)).map fun e => (c p, e)) = some (place, e) →
      ∃ p, place = c p ∧ e ∈ v[p] ∧ e.slot = some i := by
    intro v c hs
    obtain ⟨p, _, hp⟩ := List.exists_of_findSome?_eq_some hs
    obtain ⟨x, hx, he⟩ := Option.map_eq_some_iff.mp hp
    obtain ⟨rfl, rfl⟩ := Prod.mk.inj he
    exact ⟨p, rfl, hfind hx⟩
  unfold State.entryOf at h
  rcases Option.or_eq_some_iff.mp h with h | ⟨_, h⟩
  · obtain ⟨p, rfl, hm⟩ := hports h
    exact hm
  · rcases Option.or_eq_some_iff.mp h with h | ⟨_, h⟩
    · obtain ⟨p, rfl, hm⟩ := hports h
      exact hm
    · obtain ⟨k, _, hk⟩ := List.exists_of_findSome?_eq_some h
      obtain ⟨x, hx, he⟩ := Option.map_eq_some_iff.mp hk
      obtain ⟨rfl, rfl⟩ := Prod.mk.inj he
      exact hfind hx

/-! ### The order of the deadline list -/

/-- A member that leaves the list leaves its order otherwise alone (R68). -/
theorem unlink_slots (i : SlotIx) : ∀ l : List Member,
    (unlink i l).map Member.slot = (l.map Member.slot).erase i
  | [] => rfl
  | m :: rest => by
    unfold unlink
    by_cases h : m.slot = i
    · rw [if_pos h, List.map_cons, h, List.erase_cons_head]
    · rw [if_neg h, List.map_cons, List.erase_cons_tail (by simpa using h)]
      split <;> simp only [List.map_cons, unlink_slots i rest]

theorem leaveTiming_order (s : State) (i : SlotIx) : (s.leaveTiming i).listOrder
    = if (s.record i).sched = .armed then s.listOrder.erase i else s.listOrder := by
  unfold State.listOrder
  rw [leaveTiming_list]
  split
  · exact unlink_slots i _
  · rfl

theorem leaveTiming_carried (s : State) (i : SlotIx) :
    (s.leaveTiming i).placement.carried = s.placement.carried := by
  unfold State.leaveTiming State.unqueue State.reportRebuild
  split
  · split <;> rfl
  · rfl
  · rfl

/-! ### What the service of the blocked list never touches -/

/-- The links, the set of FREE slots and the record that the placement unit carries are the same in `t`, and the list
has not become FAILED. -/
structure Aside (s t : State) : Prop where
  links : t.links = s.links
  occupied : t.table.occupied = s.table.occupied
  carried : t.placement.carried = s.placement.carried
  unfailed : t.expiry.listState = .failed → s.expiry.listState = .failed

namespace Aside

theorem refl (s : State) : Aside s s := ⟨rfl, rfl, rfl, id⟩

theorem trans {s t u : State} (a : Aside s t) (b : Aside t u) : Aside s u :=
  ⟨b.links.trans a.links, b.occupied.trans a.occupied, b.carried.trans a.carried, a.unfailed ∘ b.unfailed⟩

end Aside

theorem Moved.aside {s t : State} (h : Moved s t) (hl : t.links = s.links) : Aside s t :=
  ⟨hl, by rw [h.table], by rw [h.placement], by rw [h.expiry]; exact id⟩

theorem links_dropEntry (s : State) (place : EntryPlace) (e : Entry) : (s.dropEntry place e).links = s.links := by
  cases place <;> rfl

theorem links_servePoolFrom (k : Pool) : ∀ (l : List Entry) (s : State), (servePoolFrom k l s).links = s.links
  | [], _ => rfl
  | e :: rest, s => by
    unfold servePoolFrom
    split
    · exact links_servePoolFrom k rest s
    · split
      · rfl
      · exact links_servePoolFrom k rest _

theorem links_offer (s : State) (k : Pool) (e : Entry) : (s.offer k e).links = s.links := by
  unfold State.offer
  split
  · rfl
  · split
    · exact links_servePoolFrom k _ (s.joinHolding k e)
    · split <;> rfl

theorem links_place (s : State) (e : Entry) : (s.place e).links = s.links := by
  unfold State.place
  split
  · rfl
  · exact links_offer s _ e

theorem aside_setNotice (s : State) (i : SlotIx) (n : NoticeState) (h : Option Port) :
    Aside s (s.setNotice i n h) := ⟨rfl, rfl, rfl, id⟩

theorem aside_loseNotice (s : State) (i : SlotIx) : Aside s (s.loseNotice i) := ⟨rfl, rfl, rfl, id⟩

theorem aside_repairIdentity (s : State) (i : SlotIx) : Aside s (s.repairIdentity i) := by
  rw [repairIdentity_eq]
  exact ⟨rfl, rfl, rfl, id⟩

theorem aside_repairTiming (s : State) (i : SlotIx) : Aside s (s.repairTiming i) := by
  rw [repairTiming_eq]
  exact ⟨rfl, rfl, rfl, id⟩

theorem aside_leaveTiming (s : State) (i : SlotIx) : Aside s (s.leaveTiming i) :=
  ⟨by rw [leaveTiming_eq], by rw [leaveTiming_eq], leaveTiming_carried s i, by
    unfold State.leaveTiming State.unqueue State.reportRebuild
    split
    · split
      · exact nofun
      · exact id
    · exact id
    · exact id⟩

theorem aside_loseIdentity (s : State) (i : SlotIx) : Aside s (s.loseIdentity i) := by
  unfold State.loseIdentity State.dropOwned
  split <;> exact ⟨rfl, rfl, rfl, id⟩

theorem aside_declareDamaged (s : State) (i : SlotIx) (part : FaultPart) :
    Aside s (s.declareDamaged i part) := by
  unfold State.declareDamaged
  dsimp only
  refine (aside_leaveTiming s i).trans ?_
  cases part
  · exact ⟨rfl, rfl, rfl, id⟩
  · exact (aside_loseIdentity _ i).trans ⟨rfl, rfl, rfl, id⟩

theorem aside_declareIdentityLost (s : State) (i : SlotIx) : Aside s (s.declareIdentityLost i) :=
  (aside_loseIdentity s i).trans ⟨rfl, rfl, rfl, id⟩

theorem aside_readWith (s : State) (i : SlotIx) (damage : State → FaultPart → State)
    (escalate : State → State) (hd : ∀ t part, Aside t (damage t part)) (he : ∀ t, Aside t (escalate t)) :
    Aside s (s.readWith i damage escalate) := by
  unfold State.readWith
  dsimp only
  split
  · split
    · exact ⟨rfl, rfl, rfl, id⟩
    · exact aside_repairIdentity s i
  · split
    · exact .refl s
    · exact aside_repairTiming s i
  · split
    · exact he s
    · exact aside_repairIdentity s i
  · split
    · exact (aside_repairTiming s i).trans (hd _ _)
    · split
      · exact (aside_repairIdentity s i).trans (hd _ _)
      · exact (aside_repairIdentity s i).trans (aside_repairTiming _ i)

theorem aside_takeBlocked (s : State) (i : SlotIx) : Aside s (s.takeBlocked i) :=
  Aside.trans (aside_readWith s i _ _ (fun t part => aside_declareDamaged t i part)
    fun t => aside_declareIdentityLost t i) ⟨rfl, rfl, rfl, id⟩

theorem aside_create (s : State) (i : SlotIx) (n : Nat) (e : Entry) : Aside s (s.create i n e) :=
  Aside.trans (t := s.advanceStamp.modify i fun r => { r with notice := .pending, holder := none, overrun := 0 })
    ⟨rfl, rfl, rfl, id⟩ ((moved_place _ _).aside (links_place _ _))

theorem aside_createFault (s : State) (i : SlotIx) (n : Nat) (delayed : Bool) :
    Aside s (s.createFault i n delayed) :=
  (aside_create s i n (s.faultEntry i (s.record i) delayed)).trans ⟨rfl, rfl, rfl, id⟩

theorem aside_serveBlockedFrom (n : Nat) : ∀ (l : List BlockedPlace) (s : State),
    Aside s (serveBlockedFrom n l s)
  | [], s => .refl s
  | b :: rest, s => by
    have h0 := aside_takeBlocked s b.slot
    have skipped := ((h0.trans (aside_setNotice _ b.slot .clear none)).trans (aside_serveBlockedFrom n rest _))
    have lost := ((h0.trans (aside_loseNotice _ b.slot)).trans (aside_serveBlockedFrom n rest _))
    unfold serveBlockedFrom
    dsimp only
    split
    · exact skipped
    · split
      · split
        · exact h0.trans (aside_createFault _ _ _ _)
        · exact lost
      · split
        · split
          · exact h0.trans (aside_create _ _ _ _)
          · exact skipped
        · exact lost

theorem aside_serveBlocked (s : State) : Aside s s.serveBlocked := by
  unfold State.serveBlocked
  split
  · exact .refl s
  · exact aside_serveBlockedFrom _ _ s

theorem aside_raiseFault (s : State) (i : SlotIx) : Aside s (s.raiseFault i) := by
  unfold State.raiseFault
  dsimp only
  split
  · split
    · exact ⟨rfl, rfl, rfl, id⟩
    · exact aside_createFault s i _ false
  · exact aside_loseNotice s i

theorem aside_moveToFaultPort (s : State) (i : SlotIx) (place : EntryPlace) (e e' : Entry) (p : Port) :
    Aside s (s.moveToFaultPort i place e e' p) := by
  have d := (moved_dropEntry s place e).aside (links_dropEntry s place e)
  unfold State.moveToFaultPort
  split
  · exact d.trans ((moved_modifyQueue _ p _).aside rfl)
  · exact (d.trans (aside_loseNotice _ i)).trans (aside_serveBlocked _)

theorem aside_damage (s : State) (i : SlotIx) (part : FaultPart) : Aside s (s.damage i part) := by
  unfold State.damage State.treatNotice
  dsimp only
  refine (aside_declareDamaged s i part).trans ?_
  split
  · exact aside_raiseFault _ i
  · exact aside_moveToFaultPort _ i _ _ _ _
  · exact .refl _

theorem aside_escalate (s : State) (i : SlotIx) : Aside s (s.escalate i) := by
  unfold State.escalate
  dsimp only
  refine (aside_declareIdentityLost s i).trans ?_
  split
  · exact aside_raiseFault _ i
  · exact aside_moveToFaultPort _ i _ _ _ _
  · exact .refl _

theorem aside_readSlot (s : State) (i : SlotIx) : Aside s (s.readSlot i) :=
  aside_readWith s i _ _ (fun t part => aside_damage t i part) fun t => aside_escalate t i

theorem checkedRead_occupied (s : State) (i : SlotIx) :
    (s.checkedRead i).table.occupied = s.table.occupied :=
  (congrArg RecordTable.occupied (moved_settleSince _ s).table).trans (aside_readSlot s i).occupied

theorem checkedRead_carried (s : State) (i : SlotIx) :
    (s.checkedRead i).placement.carried = s.placement.carried :=
  (congrArg PlacementUnit.carried (moved_settleSince _ s).placement).trans (aside_readSlot s i).carried

theorem checkedRead_unfailed (s : State) (i : SlotIx) (h : (s.checkedRead i).expiry.listState = .failed) :
    s.expiry.listState = .failed := by
  refine (aside_readSlot s i).unfailed ?_
  rw [← (moved_settleSince (s.readSlot i) s).expiry]
  exact h

/-- A record that is not on the blocked list is not reached by its service (R96). -/
theorem serveBlocked_record (s : State) (i : SlotIx) (h : ∀ b ∈ s.notices.blocked, b.slot ≠ i) :
    s.serveBlocked.record i = s.record i := by
  obtain ⟨k, hk⟩ : ∃ k : SlotIx, k ≠ i := ⟨i + 1, by simp⟩
  exact (near_serveBlocked k s).records i hk.symm h

/-- A slot that is not on the blocked list does not come onto it by its service. -/
theorem serveBlocked_blocked (s : State) (i : SlotIx) (h : ∀ b ∈ s.notices.blocked, b.slot ≠ i) :
    ∀ b ∈ s.serveBlocked.notices.blocked, b.slot ≠ i := by
  obtain ⟨k, hk⟩ : ∃ k : SlotIx, k ≠ i := ⟨i + 1, by simp⟩
  intro b hb
  rcases (near_serveBlocked k s).blocked b hb with e | ⟨c, hc, e⟩
  · rw [e]
    exact hk
  · rw [← e]
    exact h c hc

/-! ### Retirement (R15) -/

theorem freeSlot_record (s : State) (i : SlotIx) : (s.freeSlot i).record i = { Record.blank with
    generation := if (s.record i).fault = some .identity then 0 else (s.record i).generation + 1 } := by
  unfold State.freeSlot
  exact State.record_setRecord_self _ i _

theorem freeSlot_owned (s : State) (i : SlotIx) (q : Port) (h : (s.record i).owner = some q) :
    (s.freeSlot i).table.owned[q] = s.table.owned[q].erase i := by
  unfold State.freeSlot State.dropOwned
  dsimp only
  rw [h]
  exact set_port_same _ _ _

/-- What the freeing of a slot changes: the record table alone. -/
theorem freeSlot_eq (s : State) (i : SlotIx) : s.freeSlot i =
    { s with table := { (s.freeSlot i).table with occupied := s.table.occupied.erase i } } := by
  unfold State.freeSlot State.dropOwned
  dsimp only
  split <;> rfl

theorem freeSlot_notices (s : State) (i : SlotIx) : (s.freeSlot i).notices = s.notices := by
  rw [freeSlot_eq]

theorem freeSlot_placement (s : State) (i : SlotIx) : (s.freeSlot i).placement = s.placement := by
  rw [freeSlot_eq]

theorem freeSlot_expiry (s : State) (i : SlotIx) : (s.freeSlot i).expiry = s.expiry := by
  rw [freeSlot_eq]

theorem freeSlot_occupied (s : State) (i : SlotIx) :
    (s.freeSlot i).table.occupied = s.table.occupied.erase i := by
  rw [freeSlot_eq]

/-- Retirement in its two cases: with no entry the slot is freed, and with one the entry is freed too and the
blocked list served (R15). -/
theorem retireCore_cases (s : State) (i : SlotIx) :
    (s.entryOf i = none ∧ s.retireCore i = ((s.leaveTiming i).unblock i).freeSlot i)
      ∨ ∃ place e, s.entryOf i = some (place, e)
        ∧ s.retireCore i = ((((s.leaveTiming i).unblock i).dropEntry place e).freeSlot i).serveBlocked := by
  have he : ((s.leaveTiming i).unblock i).entryOf i = s.entryOf i := by
    rw [leaveTiming_eq]
    rfl
  unfold State.retireCore
  dsimp only
  rw [he]
  cases s.entryOf i with
  | none => exact .inl ⟨rfl, rfl⟩
  | some x => exact .inr ⟨x.1, x.2, rfl, rfl⟩

end Sys2Proof.Machine
end

