-- ==== Sys2Proof/Laws/Requests.lean ====
section
/-! SUPPORT. The operands, the interlock and the answer of a request. -/

namespace Sys2Proof.Machine

/-- A payload that parses as a handle alone has its handle at octet 1. -/
theorem parseHandleOnly_handle {pl h} (e : parseHandleOnly pl = some h) : parseHandle pl 1 = some h := by
  unfold parseHandleOnly at e; split at e
  · exact e
  · simp at e

theorem parseSet_handle {pl f} (e : parseSet pl = some f) : parseHandle pl 1 = some f.handle := by
  unfold parseSet at e; split at e
  · simp only [Option.bind_eq_bind, Option.bind_eq_some_iff] at e
    obtain ⟨h, h1, _, _, _, _, _, _, _, _, _, _, _, _, e⟩ := e
    cases e; exact h1
  · simp at e

theorem parseArm_handle {pl h fm} (e : parseArm pl = some (h, fm)) : parseHandle pl 1 = some h := by
  unfold parseArm at e; split at e
  · simp only [Option.bind_eq_bind, Option.bind_eq_some_iff] at e
    obtain ⟨h, h1, e⟩ := e
    split at e
    · obtain ⟨_, _, e⟩ := Option.bind_eq_some_iff.mp e
      cases e; exact h1
    · split at e
      · obtain ⟨_, _, e⟩ := Option.bind_eq_some_iff.mp e
        cases e; exact h1
      · simp at e
  · simp at e

theorem parseCancel_handle {pl h fm} (e : parseCancel pl = some (h, fm)) : parseHandle pl 1 = some h := by
  unfold parseCancel at e; split at e
  · simp only [Option.bind_eq_bind, Option.bind_eq_some_iff] at e
    obtain ⟨h, h1, _, _, e⟩ := e
    cases e; exact h1
  · simp at e

theorem parseAck_handle {pl h fm} (e : parseAck pl = some (h, fm)) : parseHandle pl 1 = some h := by
  unfold parseAck at e; split at e
  · simp only [Option.bind_eq_bind, Option.bind_eq_some_iff] at e
    obtain ⟨h, h1, _, _, _, _, e⟩ := e
    cases e; exact h1
  · simp at e

theorem parseNothing_one {pl : List Octet} (h : pl.length = 1) : parseNothing pl = some () := by
  unfold parseNothing; rw [if_pos h]

/-- A payload that names a slot by a handle passes the placement interlock when the request is let through (R63). -/
theorem interlocked_named {s : State} {p : Port} {c : RequestCode} {pl : List Octet} {h} (f : State)
    (hc : c.interlocked = true) (hl : s.LetsThrough c pl)
        (hp : parseHandle pl 1 = some h) : s.interlocked p pl f = f :=
  interlocked_through f hc hl fun v hv => by rw [namedSlot_of_handle hp v hv]; rfl

/-- The interlock's read of a slot that the payload names (R63). -/
theorem tested_named {s : State} {pl : List Octet} {i : SlotIx} (h : (namedSlotField pl).bind slotOf = some i) :
    s.tested pl = s.checkedRead i := by
  unfold State.tested
  rw [h]

/-- A payload that names no slot makes the interlock read none (R63). -/
theorem tested_nameless {s : State} {pl : List Octet} (h : (namedSlotField pl).bind slotOf = none) :
    s.tested pl = s := by
  unfold State.tested
  rw [h]

/-- A payload that breaks its format is refused once the interlock lets it through, with what the interlock's read
found (R63, R165). -/
theorem interlocked_refuses {s : State} {p : Port} {c : RequestCode} {pl : List Octet} (hc : c.interlocked = true)
    (hl : s.LetsThrough c pl) : s.interlocked p pl ((s.tested pl).refuse p .format) = (s.tested pl).refuse p .format := by
  cases hn : (namedSlotField pl).bind slotOf with
  | none =>
    rw [tested_nameless hn]
    unfold State.interlocked
    cases hv : namedSlotField pl with
    | none => rfl
    | some v =>
      rw [hv] at hn
      simp only [Option.bind_some] at hn
      simp only [hn]
  | some i =>
    refine interlocked_through _ hc hl fun v hv => ?_
    rw [hv] at hn
    simp only [Option.bind_some] at hn
    rw [hn]
    rfl

theorem octetsOf_length (n v) : (octetsOf n v).length = n := by
  induction n with
  | zero => rfl
  | succ n ih => simp [octetsOf, ih]

theorem octetsOf_zero (n : Nat) : octetsOf n 0 = List.replicate n 0 := by
  induction n with
  | zero => rfl
  | succ n ih => simp [octetsOf, ih, List.replicate_succ]

/-- A confined operation leaves the time base, the sweeps and the port table alone. -/
theorem confined_apart {s t : State} (h : Confined s t) : s.Apart t := ⟨h.timeBase, h.sweeps, h.portTable⟩

/-- An acceptance changes the links alone. -/
theorem accept_form {y z : State} (p : Port) (b : List Octet) (h : y = z) :
    y.accept p b = { z with links := (y.accept p b).links } :=
  (State.accept_eq y p b).trans (congrArg (fun z : State => { z with links := (y.accept p b).links }) h)

/-- The links after an answer: the answering port has answered, and no other link differs. -/
theorem respond_links {s t : State} {p : Port} {q : TakenRequest} (hq : s.nextRequest p = some q)
    (h : t.links = s.links) (x : Result) (b : List Octet) :
    (∀ r : Port, r ≠ p → (t.respond p x b).links[r] = s.links[r])
      ∧ (t.respond p x b).links[p] = s.links[p].answer q (x.code :: b) := by
  have ht : t.nextRequest p = some q := by unfold State.nextRequest at *; rw [h]; exact hq
  unfold State.respond
  rw [ht]
  refine ⟨fun r hr => ?_, ?_⟩
  · show (t.links.set p.val _ p.isLt)[r] = _
    rw [set_port_other _ _ _ _ hr, h]
  · show (t.links.set p.val _ p.isLt)[p] = _
    rw [set_port_same, h]

/-- The answer of a request that writes the port table. -/
theorem answered_withPortTable {s : State} {p : Port} {pl : List Octet} (h : s.Asks p pl) (b : PortTable)
    (body : List Octet) : s.Answered ((s.withPortTable b).accept p body) p .ok body :=
  answered_respond (t := s.withPortTable b) h (fun _ => rfl) .ok body

/-- The answer at a port whose requests are those of another state. -/
theorem answered_other {s u : State} {p : Port} {pl : List Octet} (h : s.Asks p pl)
    (hl : u.links[p].requests = s.links[p].requests) (body : List Octet) : u.Answered
    (u.accept p body) p .ok body := by
  obtain ⟨q, hq, h2, h3⟩ := h
  have hu : u.Asks p pl := ⟨q, by unfold State.nextRequest at hq ⊢; rw [hl]; exact hq, h2, h3⟩
  exact answered_respond hu (fun _ => rfl) .ok body

/-- An answer changes no port's accepting test. -/
theorem accept_accepting (y : State) (p r : Port) (b : List Octet) :
    (y.accept p b).accepting r = y.accepting r := by
  have h := (steady_accept y p b).linkState r
  unfold State.accepting State.isUp State.noticeCount
  rw [h, State.accept_notices, State.accept_portTable]

theorem accept_marked (y : State) (p : Port) (b : List Octet) (e : Entry) :
    (y.accept p b).marked e = y.marked e := by
  unfold State.marked
  split
  · rfl
  · rw [State.accept_record]

/-- An answer leaves served holding queues served. -/
theorem accept_served {y : State} (h : y.PoolsServed) (p : Port) (b : List Octet) : (y.accept p b).PoolsServed := by
  intro k e he hm q hq
  rw [State.accept_notices] at he
  rw [accept_marked] at hm
  rw [State.accept_pools] at hq
  rw [accept_accepting]
  exact h k e he hm q hq

end Sys2Proof.Machine
end

