-- ==== Sys2Proof/Laws/Service.lean ====
section
/-! SUPPORT. What the service of the holding queues and of the blocked list, and the delivery of notices, can do. -/

namespace Sys2Proof.Machine

/-- The end of an event changes no record. -/
theorem settle_record (s : State) (i : SlotIx) : s.settle.record i = s.record i := (moved_settle s).record i

theorem enqueue_record (s : State) (i : SlotIx) :
    (s.enqueue i).record i = { s.record i with sched := .queued } :=
  State.record_setRecord_self _ i _

theorem only_enqueue (s : State) (i : SlotIx) :
    s.SameBut (s.enqueue i) i := fun _ hj => lookupCell_store_other _ _ _ _ hj

/-- What arming does to a record, the placement queue and the deadline list (R44). -/
theorem arm_facts (t : State) (i : SlotIx) (d : Tick) :
    (t.armRecord i d).record i = { t.record i with deadline := some d, remaining := none, sched := .queued } ∧
    (t.armRecord i d).placement = { t.placement with queue := (t.armRecord i d).placement.queue } ∧
    (t.armRecord i d).placement.queue = (if (t.record i).sched =
        .queued then t.placement.queue else t.placement.queue ++ [i]) ∧
    (t.armRecord i d).listOrder = (if (t.record i).sched = .armed then t.listOrder.erase i else t.listOrder) ∧
    ((t.record i).sched ≠ .armed → (t.armRecord i d).expiry = t.expiry) ∧
    (t.armRecord i d).expiry = { t.expiry with list := (t.armRecord i d).expiry.list,
                                               firing := (t.armRecord i d).expiry.firing } ∧
    t.SameBut (t.armRecord i d) i ∧
    t.armRecord i d = { t with table := { t.table with cells := (t.armRecord i d).table.cells },
                               placement := (t.armRecord i d).placement, expiry := (t.armRecord i d).expiry } :=
        by
  have hsd : ∀ t : State, (t.setDeadline i d).record i =
      { t.record i with deadline := some d, remaining := none } := fun t => State.record_modify_self t i _
  unfold State.armRecord
  split
  · rename_i h
    refine ⟨?_, rfl, ?_, ?_, fun _ => rfl, rfl, only_modify t i _, rfl⟩
    · rw [hsd]; dsimp only; rw [← h]
    · rw [if_pos h]; rfl
    · rw [if_neg (by rw [h]; decide)]; rfl
  · rename_i h
    refine ⟨?_, rfl, ?_, ?_, fun h' => absurd h h', rfl, ?_, rfl⟩
    · rw [enqueue_record, hsd]; rfl
    · rw [if_neg (by rw [h]; decide)]; rfl
    · rw [if_pos h]; exact unlink_slots i _
    · exact State.SameBut.trans (t := (t.unlist i).setDeadline i d)
          (fun j hj => State.record_modify_other (t.unlist i) i j _ hj) (only_enqueue _ i)
  · rename_i h1 h2
    refine ⟨?_, rfl, ?_, ?_, fun _ => rfl, rfl, ?_, rfl⟩
    · rw [enqueue_record, hsd]
    · rw [if_neg h1]; rfl
    · rw [if_neg h2]; rfl
    · exact State.SameBut.trans (only_modify t i _) (only_enqueue _ i)

theorem loseIdentity_owned (s : State) (i : SlotIx) (p : Port) (h : (s.record i).owner = some p) :
    (s.declareDamaged i .identity).table.owned[p] = s.table.owned[p].erase i := by
  show ((s.leaveTiming i).loseIdentity i).table.owned[p] = _
  unfold State.loseIdentity
  rw [leaveTiming_record, h, leaveTiming_eq]
  exact set_port_same _ _ _

/-- A free entry number is in its range and no entry has it (R90). -/
theorem freeNumber_some (s : State) (low count n : Nat) (h : s.freeNumber low count = some n) :
    (low ≤ n ∧ n < low + count) ∧ ∀ e ∈ s.entries, e.number ≠ n := by
  unfold State.freeNumber at h
  have h1 := List.mem_of_find?_eq_some h
  have h2 := List.find?_some h
  rw [List.mem_range'_1] at h1
  refine ⟨h1, fun e he hx => ?_⟩
  simp only [decide_eq_true_eq, List.mem_map] at h2
  exact h2 ⟨e, he, hx⟩

/-- With no free entry number every number of the range is an entry's (R90). -/
theorem freeNumber_none (s : State) (low count : Nat) (h : s.freeNumber low count = none) :
    ∀ n, low ≤ n → n < low + count → ∃ e ∈ s.entries, e.number = n := by
  unfold State.freeNumber at h
  dsimp only at h
  rw [List.find?_eq_none] at h
  intro n h1 h2
  have := h n (List.mem_range'_1.mpr ⟨h1, h2⟩)
  simp only [decide_eq_true_eq, List.mem_map, not_not] at this
  exact this

/-- What a walk of the holding queues may do: it makes no port accepting, permutes rotation orders, marks nothing,
and adds nothing to a holding queue. -/
structure Fill (s t : State) : Prop where
  acc : ∀ p, t.accepting p = true → s.accepting p = true
  pools : ∀ k : Pool, t.pools[k].Perm s.pools[k]
  marked : ∀ e, t.marked e = s.marked e
  sub : ∀ k : Pool, ∀ e ∈ t.notices.holding[k], e ∈ s.notices.holding[k]

theorem Fill.refl (s : State) : Fill s s := ⟨fun _ h => h, fun _ => .refl _, fun _ => rfl, fun _ _ h => h⟩

theorem Fill.trans {s t u : State} (a : Fill s t) (b : Fill t u) : Fill s u :=
  ⟨fun p h => a.acc p (b.acc p h), fun k => (b.pools k).trans (a.pools k), fun e => (b.marked e).trans
      (a.marked e), fun k e h => a.sub k e (b.sub k e h)⟩

theorem marked_of_moved {s t : State} (h : Moved s t) (e : Entry) : t.marked e = s.marked e := by
  unfold State.marked; split
  · rfl
  · rw [h.record]

/-- One assignment of a walk. -/
theorem fill_step (s : State) (k : Pool) (p : Port) (e : Entry) (hp : p ∈ s.pools[k]) :
    Fill s ((s.dropEntry (.holding k) e).assign k p e) := by
  refine ⟨?_, ?_, ?_, ?_⟩
  · intro q h
    unfold State.accepting State.isUp State.noticeCount at h ⊢
    simp only [Bool.and_eq_true, decide_eq_true_eq] at h ⊢
    obtain ⟨h1, h2⟩ := h
    refine ⟨h1, ?_⟩
    refine lt_of_le_of_lt ?_ h2
    apply Nat.add_le_add_right
    show _ ≤ (State.modifyQueue _ p _).notices.queues[q].length
    rw [queues_modifyQueue]
    split
    · rw [(insertEntry_perm _ _).length_eq]; exact Nat.le_succ _
    · exact le_refl _
  · intro m
    by_cases hm : m = k
    · subst hm
      have : ((s.dropEntry (.holding m) e).assign m p e).pools[m] = s.pools[m].erase p ++ [p] :=
          set_pool_same s.pools m _
      rw [this]
      exact (List.perm_append_comm (l₂ := [p])).trans (List.perm_cons_erase hp).symm
    · have : ((s.dropEntry (.holding k) e).assign k p e).pools[m] = s.pools[m] :=
          set_pool_other s.pools k m _ hm
      rw [this]
  · intro x; exact marked_of_moved ((moved_dropEntry s (.holding k) e).trans (moved_assign _ k p e)) x
  · intro m x hx
    rw [holding_assign] at hx
    by_cases hm : m = k
    · subst hm; rw [holding_dropEntry] at hx; exact List.mem_of_mem_erase hx
    · exact (set_pool_other s.notices.holding k m _ hm) ▸ hx

theorem fill_servePoolFrom (k : Pool) : ∀ (l : List Entry) (s : State), Fill s (servePoolFrom k l s)
  | [], s => .refl s
  | e :: rest, s => by
    unfold servePoolFrom
    split
    · exact fill_servePoolFrom k rest s
    · split
      · exact .refl s
      · rename_i p hp
        exact (fill_step s k p e (List.mem_of_find?_eq_some hp)).trans (fill_servePoolFrom k rest _)

theorem filter_erase_of (p : Entry → Bool) (a : Entry) (ha : p a = true) :
    ∀ l : List Entry, (l.erase a).filter p = (l.filter p).erase a
  | [] => rfl
  | x :: l => by
    by_cases hx : x = a
    · subst hx; simp [ha]
    · rw [List.erase_cons_tail (by simpa using hx)]
      by_cases hp : p x = true
      · rw [List.filter_cons_of_pos hp, List.filter_cons_of_pos hp, List.erase_cons_tail (by simpa using hx),
            filter_erase_of p a ha l]
      · rw [List.filter_cons_of_neg hp, List.filter_cons_of_neg hp, filter_erase_of p a ha l]

/-- After the walk of a pool's holding queue no entry that may be assigned is left while a member accepts (R118). -/
theorem servePoolFrom_done (k : Pool) :
    ∀ (l : List Entry) (s u : State), u = servePoolFrom k l s →
    (s.notices.holding[k].filter fun e => !s.marked e).Subperm l →
    ∀ e ∈ u.notices.holding[k], s.marked e = false → ∀ p ∈ u.pools[k], u.accepting p = false
  | [], s, u, hu, h, e, he, hm, p, hp => by
    unfold servePoolFrom at hu; subst hu
    have : e ∈ u.notices.holding[k].filter fun e => !u.marked e := List.mem_filter.mpr ⟨he, by simp [hm]⟩
    have := h.subset this
    simp at this
  | x :: rest, s, u, hu, h, e, he, hm, p, hp => by
    unfold servePoolFrom at hu
    split at hu
    · rename_i hx
      refine servePoolFrom_done k rest s u hu ?_ e he hm p hp
      have h2 := h.erase x
      rw [List.erase_cons_head, List.erase_of_not_mem] at h2
      · exact h2
      · intro hh; have := (List.mem_filter.mp hh).2; simp [hx] at this
    · rename_i hx
      cases hf : s.pools[k].find? s.accepting with
      | none =>
        rw [hf] at hu; simp only at hu; subst hu
        have := List.find?_eq_none.mp hf p hp
        simpa using this
      | some q =>
        rw [hf] at hu; simp only at hu
        have hmk : ∀ y, ((s.dropEntry (.holding k) x).assign k q x).marked y = s.marked y :=
            fun y => marked_of_moved ((moved_dropEntry s (.holding k) x).trans (moved_assign _ k q x)) y
        refine servePoolFrom_done k rest _ u hu ?_ e he (by rw [hmk]; exact hm) p hp
        rw [holding_assign, holding_dropEntry]
        have h2 := h.erase x
        rw [List.erase_cons_head] at h2
        have : (s.notices.holding[k].erase x).filter (fun e => !((s.dropEntry
            (.holding k) x).assign k q x).marked e) = (s.notices.holding[k].filter
            fun e => !s.marked e).erase x := by
          simp only [hmk]
          exact filter_erase_of (fun e => !s.marked e) x (by simpa using hx) _
        rw [this]; exact h2

theorem Fill.keep {s t : State} (h : Fill s t) (k : Pool)
    (hs : ∀ e ∈ s.notices.holding[k], s.marked e = false → ∀ p ∈ s.pools[k], s.accepting p = false) :
   ∀ e ∈ t.notices.holding[k], t.marked e = false → ∀ p ∈ t.pools[k], t.accepting p = false := by
  intro e he hm p hp
  have h1 := hs e (h.sub k e he) (by rw [← h.marked]; exact hm) p ((h.pools k).subset hp)
  cases ha : t.accepting p with
  | false => rfl
  | true => rw [h.acc p ha] at h1; cases h1

theorem fill_driveLines (s : State) : Fill s s.driveLines := by
  have hl : ∀ p : Port, s.driveLines.links[p].state = s.links[p].state := fun p =>
      (confined_driveLines s).linkState p
  obtain ⟨ls, h⟩ := driveLines_eq s
  rw [h] at hl ⊢
  refine ⟨?_, fun k => .refl _, fun e => rfl, fun k e he => he⟩
  intro p h; unfold State.accepting State.isUp at *
  rw [hl] at h; exact h

theorem fill_settle (s : State) : Fill s s.settle := by
  have e : s.settle = s.serveHolding.driveLines := rfl
  have e2 : s.serveHolding = allPools.foldl State.servePool s := rfl
  rw [e]
  refine Fill.trans ?_ (fill_driveLines _)
  rw [e2]
  generalize allPools = ks
  induction ks generalizing s with
  | nil => exact .refl s
  | cons k ks ih => exact (fill_servePoolFrom k _ s).trans (ih (s.servePool k) rfl rfl)

/-- Pools served in turn: those served already stay so. -/
theorem foldl_servePool_done : ∀ (ks : List Pool) (s : State) (done : List Pool),
    (∀ k ∈ done, ∀ e ∈ s.notices.holding[k], s.marked e = false → ∀ p ∈ s.pools[k], s.accepting p = false) →
    ∀ k ∈ done ++ ks, ∀ e ∈ (ks.foldl State.servePool s).notices.holding[k],
      (ks.foldl State.servePool s).marked e = false → ∀ p ∈ (ks.foldl State.servePool s).pools[k],
      (ks.foldl State.servePool s).accepting p = false
  | [], s, done, h => fun k hk => h k (by simpa using hk)
  | k0 :: ks, s, done, h => fun k hk => by
    refine foldl_servePool_done ks (s.servePool k0) (done ++ [k0]) (fun k' hk' => ?_) k (by simpa using hk)
    rcases List.mem_append.mp hk' with h' | h'
    · exact (fill_servePoolFrom k0 _ s).keep k' (h k' h')
    · obtain rfl := List.mem_singleton.mp h'
      intro e he hm
      refine servePoolFrom_done k' _ s _ rfl List.filter_sublist.subperm e he ?_
      rw [← (fill_servePoolFrom k' _ s).marked e]; exact hm

theorem serveHolding_served (s : State) : s.serveHolding.PoolsServed := by
  have h := foldl_servePool_done allPools s [] (by simp)
  have hs : allPools.foldl State.servePool s = s.serveHolding := rfl
  rw [hs] at h
  exact fun k => h k (by revert k; decide)

/-- The end of an event leaves the holding queues served (R118). -/
theorem settle_served (s : State) : s.settle.PoolsServed := fun k =>
  (fill_driveLines s.serveHolding).keep k (serveHolding_served s k)

theorem retire_served (s : State) (i : SlotIx) : (s.retire i).PoolsServed := settle_served _

/-- A released entry's offer gives and takes no pool member (R120). -/
theorem reoffer_pools (s : State) (k : Pool) (p : Port) (e : Entry) (m : Pool) :
    (s.reoffer k p e).pools[m].Perm s.pools[m] := by
  unfold State.reoffer
  split
  · exact (fill_servePoolFrom k _ (s.joinHolding k e)).pools m
  · split
    · exact .refl _
    · rename_i q hq
      have hmem : q ∈ s.pools[k] := by
        unfold State.releaseMember at hq
        rcases Option.or_eq_some_iff.mp hq with h | ⟨_, h⟩
        · exact List.mem_of_find?_eq_some h
        · exact List.mem_of_find?_eq_some h
      show (s.pools.set k.val (s.pools[k].erase q ++ [q]) k.isLt)[m].Perm _
      by_cases h : m = k
      · subst h
        rw [set_pool_same]
        exact (List.perm_append_singleton q _).trans (List.perm_cons_erase hmem).symm
      · rw [set_pool_other _ _ _ _ h]

theorem servePoolFrom_unaccepting (k : Pool) (s : State) (h : ∀ q ∈ s.pools[k], s.accepting q = false) :
    ∀ l, servePoolFrom k l s = s
  | [] => rfl
  | e :: l => by
    unfold servePoolFrom; split
    · exact servePoolFrom_unaccepting k s h l
    · rw [List.find?_eq_none.mpr (by simpa using h)]

/-- The walk passes over the entries of marked records (R118). -/
theorem servePoolFrom_passes (k : Pool) (s : State) (rest : List Entry) : ∀ front : List Entry,
    (∀ x ∈ front, s.marked x = true) → servePoolFrom k (front ++ rest) s = servePoolFrom k rest s
  | [], _ => rfl
  | x :: front, h => by
    rw [List.cons_append, servePoolFrom, if_pos (h x (List.mem_cons_self ..))]
    exact servePoolFrom_passes k s rest front fun y hy => h y (List.mem_cons_of_mem _ hy)

/-- With nothing to offer, or no accepting member, the service of a pool changes nothing (R118). -/
theorem servePool_rests (s : State) (k : Pool) (h : (∀ x ∈ s.notices.holding[k], s.marked x = true)
    ∨ ∀ q ∈ s.pools[k], s.accepting q = false) : s.servePool k = s := by
  unfold State.servePool
  rcases h with h | h
  · have := servePoolFrom_passes k s [] _ h
    rwa [List.append_nil] at this
  · exact servePoolFrom_unaccepting k s h _

/-- The service of a pool assigns the first entry whose record is unmarked to the first accepting member, and goes on
(R116, R118). -/
theorem servePool_assigns (s : State) (k : Pool) {front back : List Entry} {e : Entry} {ahead behind : List Port}
    {q : Port} (hh : s.notices.holding[k] = front ++ e :: back) (hf : ∀ x ∈ front, s.marked x = true)
    (he : s.marked e = false) (hp : s.pools[k] = ahead ++ q :: behind) (ha : ∀ m ∈ ahead, s.accepting m = false)
    (hq : s.accepting q = true) :
    s.servePool k = ((s.dropEntry (.holding k) e).assign k q e).servePool k
      ∧ ((s.dropEntry (.holding k) e).assign k q e).notices.holding[k] = front ++ back
      ∧ ((s.dropEntry (.holding k) e).assign k q e).pools[k] = ahead ++ behind ++ [q] := by
  have find : s.pools[k].find? s.accepting = some q := by
    rw [hp, List.find?_append, List.find?_eq_none.mpr (by simpa using ha)]
    simp [hq]
  have erased : s.notices.holding[k].erase e = front ++ back := by
    rw [hh, List.erase_append_right _ fun h => by rw [hf e h] at he; cases he]
    simp
  have holding : ((s.dropEntry (.holding k) e).assign k q e).notices.holding[k] = front ++ back := by
    rw [holding_assign, holding_dropEntry, erased]
  refine ⟨?_, holding, ?_⟩
  · have marked : ∀ x ∈ front, ((s.dropEntry (.holding k) e).assign k q e).marked x = true := fun x hx => by
      rw [marked_of_moved ((moved_dropEntry s _ e).trans (moved_assign _ k q e)) x]
      exact hf x hx
    unfold State.servePool
    rw [holding, hh, servePoolFrom_passes k s _ front hf, servePoolFrom_passes k _ back front marked, servePoolFrom,
      if_neg (by simp [he]), find]
  · show (s.pools.set k.val (s.pools[k].erase q ++ [q]) k.isLt)[k] = _
    rw [set_pool_same, hp, List.erase_append_right _ fun h => by rw [ha q h] at hq; cases hq]
    simp

/-- With no accepting member for any held entry the end of an event only drives the attention lines. -/
theorem settle_unaccepting (s : State) (h : ∀ m : Pool, s.notices.holding[m] = [] ∨ ∀ q ∈ s.pools[m],
    s.accepting q = false) : s.settle = s.driveLines := by
  have : ∀ ks : List Pool, ks.foldl State.servePool s = s := by
    intro ks; induction ks with
    | nil => rfl
    | cons k ks ih =>
      have : s.servePool k = s := by
        unfold State.servePool
        rcases h k with h | h
        · rw [h]; rfl
        · exact servePoolFrom_unaccepting k s h _
      rw [List.foldl_cons, this, ih]
  unfold State.settle State.serveHolding; rw [this]

/-- With the holding queues empty the end of an event only drives the attention lines. -/
theorem settle_idle (s : State) (h : ∀ m : Pool, s.notices.holding[m] = []) : s.settle = s.driveLines := by
  have : ∀ ks : List Pool, ks.foldl State.servePool s = s := by
    intro ks; induction ks with
    | nil => rfl
    | cons k ks ih =>
      have : s.servePool k = s := by unfold State.servePool; rw [h k]; rfl
      rw [List.foldl_cons, this, ih]
  unfold State.settle State.serveHolding; rw [this]

theorem servePoolFrom_shape (k : Pool) :
    ∀ (l : List Entry) (s : State), ∃ po q h, servePoolFrom k l s =
    { s with pools := po, notices := { s.notices with queues := q, holding := h } }
  | [], s => ⟨_, _, _, rfl⟩
  | e :: rest, s => by
    unfold servePoolFrom; split
    · exact servePoolFrom_shape k rest s
    · split
      · exact ⟨_, _, _, rfl⟩
      · rename_i p _
        obtain ⟨a, b, c, h⟩ := servePoolFrom_shape k rest ((s.dropEntry (.holding k) e).assign k p e)
        exact ⟨a, b, c, h.trans rfl⟩

theorem serveHolding_shape : ∀ (ks : List Pool) (s : State), ∃ po q h,
    ks.foldl State.servePool s =
      { s with pools := po, notices := { s.notices with queues := q, holding := h } }
  | [], s => ⟨_, _, _, rfl⟩
  | k :: ks, s => by
    obtain ⟨a, b, c, h⟩ := servePoolFrom_shape k s.notices.holding[k] s
    obtain ⟨a', b', c', h'⟩ := serveHolding_shape ks (s.servePool k)
    refine ⟨a', b', c', ?_⟩
    rw [List.foldl_cons, h']; unfold State.servePool; rw [h]

/-- The parts of the state that the end of an event may change. -/
theorem settle_shape (s : State) : ∃ po q h ls, s.settle =
    { s with pools := po, notices := { s.notices with queues := q, holding := h }, links := ls } := by
  obtain ⟨a, b, c, h⟩ := serveHolding_shape allPools s
  obtain ⟨ls, h2⟩ := driveLines_eq s.serveHolding
  refine ⟨a, b, c, ls, ?_⟩
  have e : s.settle = s.serveHolding.driveLines := rfl
  have e2 : s.serveHolding = allPools.foldl State.servePool s := rfl
  rw [e, h2, e2, h]

theorem setRecord_notices (s : State) (i : SlotIx) (r : Record) : (s.setRecord i r).notices = s.notices := rfl

/-- The head of the blocked list is taken off unchanged when the read of it changes nothing: such a read damages
nothing and finds no identity lost, so that the service's own treatment of damage is not asked for. -/
theorem takeBlocked_unchanged (s : State) (i : SlotIx) (h : s.checkedRead i = s) :
    s.takeBlocked i = { s with notices := { s.notices with blocked := s.notices.blocked.drop 1 } } := by
  have hr : (s.readSlot i).record i = s.record i := by rw [← checkedRead_record s i, h]
  have key : (s.readSlot i).notices = s.notices
      ∧ s.readWith i (fun t part => t.declareDamaged i part) (fun t => t.declareIdentityLost i)
        = s.readSlot i := by
    have hi := notices_repairIdentity s i
    have ht := notices_repairTiming s i
    by_cases hs : (s.record i).sched = .damaged
    · have hf : (s.record i).fault ≠ some .identity → (s.record i).identityLost = true →
          ¬ ((s.readSlot i).record i).Ruined := by
        rw [hr]
        rintro h1 h2 ⟨_, h3 | ⟨_, h3⟩⟩
        · exact h1 h3
        · rw [h2] at h3; cases h3
      revert hf
      unfold State.readSlot State.readWith
      dsimp only
      split
      · rename_i h1; rw [hs] at h1; cases h1
      · intro _; split
        · exact ⟨rfl, rfl⟩
        · exact ⟨ht, rfl⟩
      · rename_i _ hf
        intro hn
        split
        · rename_i hl
          rw [if_pos hl] at hn
          exact absurd (escalate_ruined s i hs) (hn (fun e => hf e) hl)
        · exact ⟨hi, rfl⟩
      · rename_i h1 _; exact absurd hs (fun e => by simp_all)
    · refine ⟨readSlot_notices s i (by rw [hr]; exact hs), ?_⟩
      have hn : ((s.readSlot i).record i).sched ≠ .damaged := by rw [hr]; exact hs
      revert hn
      unfold State.readSlot State.readWith
      dsimp only
      split
      · exact fun _ => rfl
      · exact fun _ => rfl
      · rename_i h1 _; exact absurd h1 hs
      · intro hn
        split
        · rename_i hl
          rw [if_pos hl] at hn
          exact absurd (damage_core _ i .identity (by intro e; cases e)).1.1 hn
        · rename_i hl
          rw [if_neg hl] at hn
          split
          · rename_i hu
            rw [if_pos hu] at hn
            refine absurd (damage_core _ i .timing fun _ => ?_).1.1 hn
            rw [record_repairIdentity]
            rfl
          · rfl
  have hs : s.readSlot i = s := (settleSince_eq key.1).symm.trans h
  unfold State.takeBlocked
  rw [key.2, hs]
  rfl

/-- The head of the blocked list whose parts pass their checks is taken off unchanged. -/
theorem takeBlocked_sound (s : State) (i : SlotIx) (h : (s.record i).ChecksPass) :
    s.takeBlocked i = { s with notices := { s.notices with blocked := s.notices.blocked.drop 1 } } :=
  takeBlocked_unchanged s i (checkedRead_sound s i h)

/-- The service of the blocked list, one head at a time (Table 6-3). -/
theorem serveBlockedFrom_cons (n : Nat) (b : BlockedPlace) (rest : List BlockedPlace) (s s0 : State)
    (h : s0.takeBlocked b.slot = s) :
   serveBlockedFrom n (b :: rest) s0 = (
    let r := s.record b.slot
    if r.mark.isSome then serveBlockedFrom n rest (s.setNotice b.slot .clear none)
    else if r.sched = .damaged then
      if s.isUp (s.faultPort r) then s.createFault b.slot n true
      else serveBlockedFrom n rest (s.loseNotice b.slot)
    else if s.reachable r.target then
      match b.kept with
      | .firing d a late rangeEnd => s.create b.slot n (expiryEntry b.slot r d a late false true rangeEnd)
      | .damage _ => serveBlockedFrom n rest (s.setNotice b.slot .clear none)
    else serveBlockedFrom n rest (s.loseNotice b.slot)) := by
  subst h; rfl

theorem create_record (s : State) (i : SlotIx) (n : Nat) (e : Entry) :
    (s.create i n e).record i = { s.record i with notice := .pending, holder := none, overrun := 0 } := by
  unfold State.create
  rw [(moved_place _ _).record, State.record_modify_self]; rfl

theorem create_blocked (s : State) (i : SlotIx) (n : Nat) (e : Entry) :
    (s.create i n e).notices.blocked = s.notices.blocked := by
  unfold State.create
  rw [(moved_place _ _).blocked]; rfl

theorem create_stamp (s : State) (i : SlotIx) (n : Nat) (e : Entry) :
    (s.create i n e).notices.stamp = s.notices.stamp + 1 := by
  unfold State.create
  rw [(moved_place _ _).stamp]; rfl

theorem outstanding_place (s : State) (e : Entry) :
    (s.place e).notices.outstanding = s.notices.outstanding := by
  have hq : ∀ (s : State) (k : Pool) (l : List Entry), (servePoolFrom k l s).notices.outstanding =
      s.notices.outstanding := by
    intro s k l
    induction l generalizing s with
    | nil => rfl
    | cons e l ih =>
      unfold servePoolFrom; split
      · exact ih s
      · split
        · rfl
        · rw [ih]; rfl
  unfold State.place; split
  · rfl
  · unfold State.offer; split
    · rfl
    · split
      · exact hq _ _ _
      · split <;> rfl

/-- What leaves the outstanding sets alone and takes nothing from a queue. -/
structure Outs (s t : State) : Prop where
  out : t.notices.outstanding = s.notices.outstanding
  grow : QueuesGrow s t

theorem Outs.refl (s : State) : Outs s s := ⟨rfl, .refl s⟩

theorem Outs.trans {s t u : State} (a : Outs s t) (b : Outs t u) :
    Outs s u := ⟨b.out.trans a.out, a.grow.trans b.grow⟩

theorem Outs.of_notices {s t : State} (h1 : t.notices.queues = s.notices.queues)
    (h2 : t.notices.outstanding = s.notices.outstanding) : Outs s t :=
  ⟨h2, fun p e h => by rw [h1]; exact h⟩

theorem grow_offer (s : State) (k : Pool) (e : Entry) : QueuesGrow s (s.offer k e) := by
  unfold State.offer; split
  · exact fun _ _ h => h
  · split
    · exact QueuesGrow.trans (t := s.joinHolding k e) (fun _ _ h => h) (grow_servePoolFrom k _ _)
    · split
      · exact fun _ _ h => h
      · exact grow_assign s k _ e

theorem outs_place (s : State) (e : Entry) : Outs s (s.place e) := ⟨outstanding_place s e, by
  unfold State.place; split
  · exact grow_joinQueue s _ e
  · exact grow_offer s _ e⟩

theorem outs_create (s : State) (i n e) : Outs s (s.create i n e) :=
  Outs.trans (t := s.advanceStamp.modify i fun r => { r with notice := .pending, holder := none,
                                                             overrun := 0 }) (.of_notices rfl rfl)
      (outs_place _ _)

theorem outs_repairIdentity (s i) : Outs s (State.repairIdentity s i) := by
  rw [repairIdentity_eq]; exact .of_notices rfl rfl

theorem outs_repairTiming (s i) : Outs s (State.repairTiming s i) := by
  rw [repairTiming_eq]; exact .of_notices rfl rfl

theorem outs_declareDamaged (s : State) (i part) : Outs s (s.declareDamaged i part) := by
  have := declareDamaged_notices s i part
  exact .of_notices (by rw [this]) (by rw [this])

theorem outs_declareIdentityLost (s : State) (i) : Outs s (s.declareIdentityLost i) := by
  unfold State.declareIdentityLost State.loseIdentity State.dropOwned
  split <;> exact .of_notices rfl rfl

theorem outs_takeBlocked (s : State) (i) : Outs s (s.takeBlocked i) := by
  unfold State.takeBlocked; dsimp only
  refine Outs.trans (t := s.readWith i (fun t part => t.declareDamaged i part)
      (fun t => t.declareIdentityLost i)) ?_ (.of_notices rfl rfl)
  unfold State.readWith; dsimp only
  split
  · split
    · exact .of_notices rfl rfl
    · exact outs_repairIdentity s i
  · split
    · exact .refl s
    · exact outs_repairTiming s i
  · split
    · exact outs_declareIdentityLost s i
    · exact outs_repairIdentity s i
  · split
    · exact (outs_repairTiming s i).trans (outs_declareDamaged _ i _)
    · split
      · exact (outs_repairIdentity s i).trans (outs_declareDamaged _ i _)
      · exact (outs_repairIdentity s i).trans (outs_repairTiming _ i)

theorem outs_createFault (s : State) (i n d) :
    Outs s (s.createFault i n d) := (outs_create s i n (s.faultEntry i (s.record i) d)).trans
    (.of_notices rfl rfl)

theorem outs_serveBlockedFrom (n) : ∀ (l : List BlockedPlace) (s : State), Outs s (serveBlockedFrom n l s)
  | [], s => .refl s
  | b :: rest, s => by
    have h0 := outs_takeBlocked s b.slot
    have a1 : ∀ t : State, Outs t (t.setNotice b.slot .clear none) := fun t => .of_notices rfl rfl
    have a2 : ∀ t : State, Outs t (t.loseNotice b.slot) := fun t => .of_notices rfl rfl
    have k1 := (h0.trans (a1 _)).trans (outs_serveBlockedFrom n rest _)
    have k2 := (h0.trans (a2 _)).trans (outs_serveBlockedFrom n rest _)
    rw [serveBlockedFrom_cons n b rest _ s rfl]; dsimp only
    split
    · exact k1
    · split
      · split
        · exact h0.trans (outs_createFault _ _ _ _)
        · exact k2
      · split
        · split
          · exact h0.trans (outs_create _ _ _ _)
          · exact k1
        · exact k2

theorem outs_serveBlocked (s : State) : Outs s s.serveBlocked := by
  unfold State.serveBlocked; split
  · exact .refl s
  · exact outs_serveBlockedFrom _ _ s

theorem outs_freeSlot (s : State) (i) :
    Outs s (s.freeSlot i) := .of_notices (by rw [freeSlot_notices]) (by rw [freeSlot_notices])

theorem outs_dispose (s : State) (i) : Outs s (s.dispose i) := by
  unfold State.dispose; dsimp only; split
  · exact outs_freeSlot s i
  · exact .refl s

theorem outs_settle (s : State) : Outs s s.settle := by
  refine ⟨?_, grow_settle s⟩
  have hq : ∀ (s : State) (k : Pool) (l : List Entry), (servePoolFrom k l s).notices.outstanding =
      s.notices.outstanding := by
    intro s k l
    induction l generalizing s with
    | nil => rfl
    | cons e l ih =>
      unfold servePoolFrom; split
      · exact ih s
      · split
        · rfl
        · rw [ih]; rfl
  unfold State.settle
  rw [driveLines_notices]
  unfold State.serveHolding
  generalize allPools = ks
  induction ks generalizing s with
  | nil => rfl
  | cons k ks ih => rw [List.foldl_cons, ih]; exact hq _ _ _

/-- What the delivery of one entry does to the outstanding sets and the queues. -/
theorem deliver_outs (s : State) (p : Port) (e : Entry) :
   (s.deliver p e).notices.outstanding[p] = s.notices.outstanding[p] ++
       (if e.kind = .expiry ∧ e.cls = .held ∧ e.slot ≠ none then [e.delivered] else []) ∧
   (∀ q : Port, q ≠ p → (s.deliver p e).notices.outstanding[q] = s.notices.outstanding[q]) ∧
   (∀ q : Port, ∀ x ∈ s.notices.queues[q], q ≠ p ∨ x ≠ e → x ∈ (s.deliver p e).notices.queues[q]) := by
  have hdrop : ∀ q : Port, ∀ x ∈ s.notices.queues[q], q ≠ p ∨ x ≠ e → x ∈
      (s.dropEntry (.queued p) e).notices.queues[q] := by
    intro q x hx h
    show x ∈ (s.modifyQueue p _).notices.queues[q]
    rw [queues_modifyQueue]; split
    · rename_i hq
      rcases h with h | h
      · exact absurd hq h
      · exact (List.mem_erase_of_ne h).mpr hx
    · exact hx
  have hout : (s.dropEntry (.queued p) e).notices.outstanding = s.notices.outstanding := rfl
  have fin : ∀ t : State, Outs (s.dropEntry (.queued p) e) t → t.notices.outstanding[p] =
      s.notices.outstanding[p] ++ [] ∧
   (∀ q : Port, q ≠ p → t.notices.outstanding[q] = s.notices.outstanding[q]) ∧
   (∀ q : Port, ∀ x ∈ s.notices.queues[q], q ≠ p ∨ x ≠ e → x ∈ t.notices.queues[q]) := by
    intro t h
    refine ⟨by rw [h.out, hout, List.append_nil], fun q _ => by rw [h.out, hout], fun q x hx hh => h.grow q x
        (hdrop q x hx hh)⟩
  have hsn : ∀ (t : State) i n h, Outs t (t.setNotice i n h) := fun t i n h => .of_notices rfl rfl
  unfold State.deliver; dsimp only
  split
  · rename_i hk; rw [if_neg (by rw [hk]; simp)]; exact fin _ (.refl _)
  · rename_i hk _; rw [if_neg (by rintro ⟨_, _, h⟩; contradiction)]; exact fin _ (.refl _)
  · rename_i i hk _; rw [if_neg (by rw [hk]; simp)]; exact fin _ ((hsn _ _ _ _).trans (outs_serveBlocked _))
  · rename_i i hk hs
    split
    · rename_i hc; rw [if_neg (by rw [hc]; simp)]; exact fin _
          (((hsn _ _ _ _).trans (outs_dispose _ _)).trans (outs_serveBlocked _))
    · rename_i hc
      rw [if_pos ⟨hk, hc, by rw [hs]; simp⟩]
      refine ⟨?_, ?_, ?_⟩
      · exact set_port_same s.notices.outstanding p _
      · intro q hq; exact set_port_other s.notices.outstanding p q _ hq
      · exact hdrop

/-- What the delivery of several entries does to the outstanding sets and the queues. -/
theorem deliverAll_outs (p : Port) : ∀ (es : List Entry) (s : State),
   (es.foldl (State.deliver p) s).notices.outstanding[p] = s.notices.outstanding[p] ++
       (es.filter fun e => decide (e.kind = .expiry ∧ e.cls = .held ∧ e.slot ≠ none)).map Entry.delivered ∧
   (∀ q : Port, q ≠ p → (es.foldl (State.deliver p) s).notices.outstanding[q] = s.notices.outstanding[q]) ∧
   (∀ q : Port, ∀ x ∈ s.notices.queues[q], q ≠ p ∨ x ∉ es → x ∈
       (es.foldl (State.deliver p) s).notices.queues[q])
  | [], s => by simp
  | e :: es, s => by
    obtain ⟨a1, a2, a3⟩ := deliver_outs s p e
    obtain ⟨b1, b2, b3⟩ := deliverAll_outs p es (s.deliver p e)
    rw [List.foldl_cons]
    refine ⟨?_, fun q hq => (b2 q hq).trans (a2 q hq), ?_⟩
    · rw [b1, a1, List.filter_cons]
      split
      · rename_i h; rw [if_pos (by simpa using h)]; simp
      · rename_i h; rw [if_neg (by simpa using h)]; simp
    · intro q x hx h
      refine b3 q x (a3 q x hx ?_) ?_
      · rcases h with h | h
        · exact .inl h
        · exact .inr (fun e => h (by simp [e]))
      · rcases h with h | h
        · exact .inl h
        · exact .inr (fun e => h (by simp [e]))

theorem outs_raiseFault (s : State) (i : SlotIx) : Outs s (s.raiseFault i) := by
  unfold State.raiseFault; dsimp only
  split
  · split
    · exact .of_notices rfl rfl
    · exact outs_createFault _ _ _ _
  · exact .of_notices rfl rfl

/-- A read that leaves its record not DAMAGED changes the table's cells and the scrubber alone. -/
theorem readSlot_alive (s : State) (i : SlotIx) (h : ((s.readSlot i).record i).sched ≠ .damaged) :
    s.readSlot i = { s with table := { s.table with cells := (s.readSlot i).table.cells },
                            scrubber := (s.readSlot i).scrubber } := by
  revert h
  unfold State.readSlot State.readWith
  dsimp only
  split
  · intro _
    split
    · rfl
    · exact repairIdentity_eq s i
  · rename_i hd hf
    intro _
    split
    · rfl
    · exact repairTiming_eq s i
  · rename_i hd hf
    split
    · intro h; exact absurd (escalate_ruined s i hd).1 h
    · intro _; exact repairIdentity_eq s i
  · rename_i hd hf
    split
    · rename_i hl
      intro h
      exact absurd (damage_core _ i .identity (fun e => by cases e)).1.1 h
    · split
      · rename_i hl ht
        intro h
        refine absurd (damage_core _ i .timing (fun _ => ?_)).1.1 h
        rw [record_repairIdentity]; rfl
      · intro _
        have e1 := repairIdentity_eq s i
        have e2 := repairTiming_eq (s.repairIdentity i) i
        generalize (s.repairIdentity i).repairTiming i = u at *
        generalize s.repairIdentity i = v at *
        rw [e2, e1]

/-- A checked read that leaves its record not DAMAGED changes the table's cells and the scrubber alone. -/
theorem checkedRead_alive (s : State) (i : SlotIx) (h : ((s.checkedRead i).record i).sched ≠ .damaged) :
    s.checkedRead i = { s with table := { s.table with cells := (s.checkedRead i).table.cells },
                               scrubber := (s.checkedRead i).scrubber } := by
  have e := checkedRead_eq s i h
  rw [e] at h ⊢
  exact readSlot_alive s i h

/-- The head of the placement queue is removed. -/
theorem removeQueued_head (s : State) (i : SlotIx) (rest : List SlotIx) (h : s.placement.queue = i :: rest) :
    (s.removeQueued i).placement = { s.placement with queue := rest,
                                                      rebuildPart := s.placement.rebuildPart - 1 } := by
  unfold State.removeQueued
  show PlacementUnit.mk _ _ _ = _
  rw [h]
  cases s.placement.rebuildPart <;> simp

end Sys2Proof.Machine
end

