-- ==== Sys2Proof/Laws/Expiry.lean ====
section
/-! SUPPORT. Placement, list faults and firings: what their operations can do. -/

namespace Sys2Proof.Machine

/-- A period of the reference clock that ends no interval. -/
theorem clock_counts {t : State} (h : t.timeBase.mode = .running)
    (h2 : t.timeBase.phase + 1 < t.timeBase.prescaler) :
    t.clockTimeBase = t.withTimeBase { t.timeBase with phase := t.timeBase.phase + 1 } := by
  unfold State.clockTimeBase; rw [if_pos h, if_pos h2]

/-- A period of the reference clock that ends an interval is a tick. -/
theorem clock_ticks {t : State} (h : t.timeBase.mode = .running)
    (h2 : t.timeBase.prescaler ≤ t.timeBase.phase + 1) :
    t.clockTimeBase = (t.withTimeBase t.timeBase.advance).withScrubber t.scrubber.countTick := by
  unfold State.clockTimeBase State.tickEvent; rw [if_pos h, if_neg (by omega), if_pos h]

/-- The slot after a slot, from 1023 to 0. -/
theorem slot_succ : ∀ i : SlotIx, (i + 1 : SlotIx) = if h : i.val + 1 < 1024 then ⟨i.val + 1, h⟩ else 0 := by
  intro i
  split
  · rename_i h
    apply Fin.ext
    rw [Fin.val_add]; show (i.val + 1) % 1024 = i.val + 1; omega
  · rename_i h
    apply Fin.ext
    rw [Fin.val_add]; show (i.val + 1) % 1024 = 0; have := i.isLt; omega

/-- An unlisted slot is blank. -/
theorem lookupCell_unlisted : ∀ (l : List (SlotIx × Record)) (i : SlotIx), i ∉ l.map Prod.fst → lookupCell l i = Record.blank
  | [], i, _ => rfl
  | (j, r) :: rest, i, h => by
    unfold lookupCell
    rw [if_neg (by rintro rfl; exact h (by simp))]
    exact lookupCell_unlisted rest i (fun hm => h (by simp; exact .inr (by simpa using hm)))

/-- The end of a rebuild is reported when its part is empty and no record is carried (R69). -/
theorem reportRebuild_facts (s : State) (h : s.placement.carried = none) :
    s.reportRebuild = { s with expiry := { s.expiry with listState := s.reportRebuild.expiry.listState,
                                                         restarts := s.reportRebuild.expiry.restarts } }
      ∧ (s.expiry.listState = .rebuilding → s.placement.rebuildPart = 0 →
          s.reportRebuild.expiry.listState = .normal ∧ s.reportRebuild.expiry.restarts = 0)
      ∧ (s.expiry.listState ≠ .rebuilding ∨ s.placement.rebuildPart ≠ 0 →
          s.reportRebuild.expiry.listState = s.expiry.listState ∧ s.reportRebuild.expiry.restarts =
              s.expiry.restarts) := by
  unfold State.reportRebuild
  rw [h]
  dsimp only [Option.map, Option.getD]
  refine ⟨?_, fun a b => ?_, fun a => ?_⟩
  · split <;> rfl
  · rw [if_pos ⟨a, b, rfl⟩]; exact ⟨rfl, rfl⟩
  · rw [if_neg (by rintro ⟨b, c, _⟩; rcases a with a | a; exact a b; exact a c)]; exact ⟨rfl, rfl⟩

theorem putDown_eq (s : State) (c : Carried) :
    s.putDown c = { s with
      placement := { s.placement with carried := none }
      links := s.links.map fun l => { l with requests := releaseHeld c.slot l.requests } } := rfl

/-- A member is inserted behind every member due no later (R60). -/
theorem insertMember_split (due : SlotIx → Nat) (i : SlotIx) : ∀ l : List Member,
    insertMember due i l = l.takeWhile (fun m => decide (due m.slot ≤ due i))
      ++ ⟨i, true⟩ :: l.drop (l.takeWhile (fun m => decide (due m.slot ≤ due i))).length
  | [] => rfl
  | m :: rest => by
    unfold insertMember
    split
    · rename_i h
      rw [List.takeWhile_cons, if_neg (by simpa using h)]; rfl
    · rename_i h
      rw [List.takeWhile_cons, if_pos (by simpa using h), insertMember_split due i rest]
      rfl

/-- The slots of the ARMED records. -/
theorem mem_armedSlots (s : State) (i : SlotIx) : i ∈ s.armedSlots ↔ (s.record i).sched = .armed := by
  unfold State.armedSlots State.listedSlots
  rw [List.mem_filter]
  simp only [decide_eq_true_eq]
  refine ⟨fun h => h.2, fun h => ⟨?_, h⟩⟩
  by_contra hn
  have := lookupCell_unlisted _ _ hn
  unfold State.record at h
  rw [this] at h; cases h

/-- A list fault makes every ARMED record QUEUED (R71). -/
theorem queueAll_facts : ∀ (l : List SlotIx) (s : State),
    (s.queueAll l) = { s with table := { s.table with cells := (s.queueAll l).table.cells } }
    ∧ (∀ i, i ∉ l → (s.queueAll l).record i = s.record i) ∧
        (∀ i ∈ l, (s.queueAll l).record i = { s.record i with sched := .queued })
  | [], s => ⟨rfl, fun _ _ => rfl, fun _ h => by cases h⟩
  | j :: l, s => by
    obtain ⟨a, b, c⟩ := queueAll_facts l (s.setSched j .queued)
    have e : s.queueAll (j :: l) = (s.setSched j .queued).queueAll l := rfl
    rw [e]
    have hs : (s.setSched j .queued).record j = { s.record j with sched := .queued } := by
      unfold State.setSched; rw [State.record_modify_self]
    have ho : ∀ i, i ≠ j → (s.setSched j .queued).record i = s.record i :=
        fun i hi => lookupCell_store_other _ _ _ _ hi
    generalize hw : (s.setSched j .queued).queueAll l = w at *
    refine ⟨?_, fun i hi => ?_, fun i hi => ?_⟩
    · rw [a]; rfl
    · rw [b i (fun h => hi (List.mem_cons_of_mem _ h)), ho i (fun h => hi (by simp [h]))]
    · by_cases hl : i ∈ l
      · rw [c i hl]
        by_cases hj : i = j
        · subst hj; rw [hs]
        · rw [ho i hj]
      · have : i = j := by rcases List.mem_cons.mp hi with h | h; exact h; exact absurd h hl
        subst this
        rw [b i hl, hs]

/-- The targets that can receive a notice (Table 5-2). -/
theorem reachable_iff (s : State) (t : Target) :
    s.reachable t = true ↔ ∀ p : Port, t = .port p → s.isUp p = true := by
  cases t with
  | port p => exact ⟨fun h q e => by cases e; exact h, fun h => h p rfl⟩
  | pool k => exact ⟨fun _ q e => (nomatch e), fun _ => rfl⟩

theorem unreachable_iff (s : State) (t : Target) :
    s.reachable t = false ↔ ∃ p : Port, t = .port p ∧ s.isUp p = false := by
  cases t with
  | port p => exact ⟨fun h => ⟨p, rfl, h⟩, fun ⟨q, e, h⟩ => by cases e; exact h⟩
  | pool k => exact ⟨fun h => (nomatch h), fun ⟨q, e, h⟩ => nomatch e⟩

/-- What the schedule of a fired record becomes (Table 5-3). -/
theorem settleSchedule_facts (s : State) (i : SlotIx) (plan : Reschedule) :
    (s.settleSchedule i plan).notices = s.notices ∧ (s.settleSchedule i plan).pools = s.pools ∧
        (s.settleSchedule i plan).expiry = s.expiry
    ∧ s.SameBut (s.settleSchedule i plan) i
    ∧ (plan = .oneShot ∨ plan = .rangeEnd → (s.settleSchedule i plan).record i =
        { s.record i with sched := .idle } ∧ (s.settleSchedule i plan).placement = s.placement)
    ∧ (∀ d passed, plan = .next d passed → (s.settleSchedule i plan).record i =
        { s.record i with sched := .queued, deadline := some d,
                          overrun := saturate8 (s.record i).overrun passed }
        ∧ (s.settleSchedule i plan).placement = { s.placement with queue := s.placement.queue ++ [i] }) := by
  unfold State.settleSchedule
  cases plan with
  | oneShot =>
    refine ⟨rfl, rfl, rfl, fun j hj => lookupCell_store_other _ _ _ _ hj, fun _ => ⟨?_, rfl⟩,
        fun d p e => by cases e⟩
    dsimp only; unfold State.setSched; rw [State.record_modify_self]
  | rangeEnd =>
    refine ⟨rfl, rfl, rfl, fun j hj => lookupCell_store_other _ _ _ _ hj, fun _ => ⟨?_, rfl⟩,
        fun d p e => by cases e⟩
    dsimp only; unfold State.setSched; rw [State.record_modify_self]
  | next d passed =>
    refine ⟨rfl, rfl, rfl, fun j hj => ?_, fun h => ?_, fun d' p' e => ?_⟩
    · exact ((only_modify s i _).trans (only_enqueue _ i)) j hj
    · rcases h with h | h <;> cases h
    · cases e
      refine ⟨?_, rfl⟩
      dsimp only
      rw [enqueue_record, State.record_modify_self]

theorem create_only (s : State) (i : SlotIx) (n : Nat) (e : Entry) :
    s.SameBut (s.create i n e) i ∧ (s.create i n e).placement = s.placement ∧ (s.create i n e).expiry =
    s.expiry :=
  ⟨only_create s i n e, by unfold State.create; rw [(moved_place _ _).placement]; rfl,
      by unfold State.create; rw [(moved_place _ _).expiry]; rfl⟩

/-- The EXPIRY entry of a firing (R73). -/
def firedEntry (i : SlotIx) (n : Nat) (r : Record) (now : Tick) (early : Bool) (stamp : Nat) : Entry :=
  { number := n, kind := .expiry, slot := some i, generation := r.generation, cls := r.cls,
    urgency := r.urgency, cookie := r.cookie, firedDeadline := some (r.deadline.getD 0),
    firedAt := some now, overrun := r.overrun, late := decide (r.due < now.toNat), early := early,
    delayed := false, rangeEnd := decide (r.reschedule now.toNat = .rangeEnd),
    destination := r.target, assigned := none, deliveries := 0, stamp := stamp,
    sweepNumber := none, retired := 0, abandoned := false, faultPart := none }

/-- The notice part of a firing: an entry is created, or the record blocked, or the notice lost. -/
structure NoticeDone (s t : State) (i : SlotIx) (r r1 : Record) (early : Bool) : Prop where
  recd : t.record i = r1
  only : s.SameBut t i
  placement : t.placement = s.placement
  expiry : t.expiry = s.expiry
  created : r.notice = .clear → s.reachable r.target = true → ∀ n, s.freeGeneral = some n →
      r1 = { r with notice := .pending, holder := none, overrun := 0 } ∧ t.notices.stamp = s.notices.stamp + 1
          ∧ t.notices.blocked = s.notices.blocked
        ∧ t.HasEntries (firedEntry i n r s.timeBase.now early s.notices.stamp :: s.entries)
  blockd : r.notice = .clear → s.reachable r.target = true → s.freeGeneral = none → r1 =
      { r with notice := .waiting, holder := none }
            ∧ t.notices = { s.notices with blocked := s.notices.blocked ++ [⟨i, .firing (r.deadline.getD 0)
                s.timeBase.now (decide (r.due < s.timeBase.now.toNat))
                    (decide (r.reschedule s.timeBase.now.toNat = .rangeEnd))⟩] }
  lost : r.notice ≠ .clear ∨ s.reachable r.target = false → r1 = { r with overrun := saturate8 r.overrun 1 }
      ∧ t.notices = s.notices ∧ t.pools = s.pools

/-- The notice part of a firing does one of the three things that `NoticeDone` lists. -/
theorem fireNotice_done (s : State) (i : SlotIx) (r : Record) (early : Bool) (hr : s.record i = r) :
    ∃ r1, NoticeDone s (s.fireNotice i r early (decide (r.reschedule s.now = .rangeEnd))) i r r1 early := by
  unfold State.fireNotice
  dsimp only
  by_cases hc : r.notice = .clear
  · rw [if_pos hc]
    by_cases hq : s.reachable r.target = true
    · rw [if_pos hq]
      cases hf : s.freeGeneral with
      | some n =>
        refine ⟨{ r with notice := .pending, holder := none, overrun := 0 }, ?_⟩
        refine ⟨?_, (create_only s i n _).1, (create_only s i n _).2.1, (create_only s i n _).2.2, ?_, ?_, ?_⟩
        · rw [create_record, hr]
        · intro _ _ m hm
          have := hf.symm.trans hm; cases this
          exact ⟨rfl, create_stamp _ _ _ _, create_blocked _ _ _ _, hasEntries_create s i n _⟩
        · intro _ _ h; rw [hf] at h; cases h
        · intro h; rcases h with h | h
          · exact absurd hc h
          · rw [hq] at h; cases h
      | none =>
        refine ⟨{ r with notice := .waiting, holder := none }, ?_⟩
        refine ⟨?_, ?_, rfl, rfl, ?_, ?_, ?_⟩
        · dsimp only; rw [block_record, hr]
        · intro j hj; exact lookupCell_store_other _ _ _ _ hj
        · intro _ _ m hm; rw [hf] at hm; cases hm
        · intro _ _ _; exact ⟨rfl, rfl⟩
        · intro h; rcases h with h | h
          · exact absurd hc h
          · rw [hq] at h; cases h
    · rw [if_neg hq]
      refine ⟨{ r with overrun := saturate8 r.overrun 1 }, ?_, ?_, rfl, rfl, ?_, ?_, ?_⟩
      · unfold State.raiseOverrun; rw [State.record_modify_self, hr]
      · intro j hj; exact lookupCell_store_other _ _ _ _ hj
      · intro _ h; exact absurd h hq
      · intro _ h; exact absurd h hq
      · intro _; exact ⟨rfl, rfl, rfl⟩
  · rw [if_neg hc]
    refine ⟨{ r with overrun := saturate8 r.overrun 1 }, ?_, ?_, rfl, rfl, ?_, ?_, ?_⟩
    · unfold State.raiseOverrun; rw [State.record_modify_self, hr]
    · intro j hj; exact lookupCell_store_other _ _ _ _ hj
    · intro h; exact absurd h hc
    · intro h; exact absurd h hc
    · intro _; exact ⟨rfl, rfl, rfl⟩

/-- A firing is its notice part and then its schedule part. -/
theorem fire_done (s : State) (i : SlotIx) (early : Bool) (r : Record) (hr : s.record i = r) :
    ∃ u r1, NoticeDone (s.unlist i) u i r r1 early
    ∧ s.fire i early = u.settleSchedule i (r.reschedule s.now) := by
  obtain ⟨r1, h⟩ := fireNotice_done (s.unlist i) i r early hr
  refine ⟨_, r1, h, ?_⟩
  subst hr
  rfl

/-- The companion search goes on with the rest of the window, up to eight companions (R82). -/
theorem nextSearch_iff (f : Firing) (i : SlotIx) (b : Bool) :
    nextSearch f i b = if f.window.erase i = [] ∨ f.companions + b.toNat = 8 then none
      else some { f with window := f.window.erase i, companions := f.companions + b.toNat } := rfl

end Sys2Proof.Machine
end

