-- ==== Sys2Proof/Laws/Sweeps.lean ====
section
/-! SUPPORT. Attention lines and sweeps: the start, the visits and the ends. -/

namespace Sys2Proof.Machine

/-- The links after several attention lines are driven. -/
theorem driveLine_fold : ∀ (ps : List Port) (s : State) (p : Port),
    (ps.foldl State.driveLine s).links[p] =
      if p ∈ ps then { s.links[p] with attention := s.attentionDue p } else s.links[p]
  | [], s, p => by simp
  | q :: ps, s, p => by
    rw [List.foldl_cons, driveLine_fold ps (s.driveLine q) p]
    have h1 : (s.driveLine q).attentionDue p = s.attentionDue p := rfl
    rw [h1]
    by_cases hq : p = q
    · subst hq
      have : (s.driveLine p).links[p] = { s.links[p] with attention := s.attentionDue p } := set_port_same _ _ _
      rw [this]
      simp
    · have : (s.driveLine q).links[p] = s.links[p] := set_port_other _ _ _ _ hq
      rw [this]
      simp [hq]

/-- A link after the attention lines are driven (R110). -/
theorem driveLines_links (s : State) (p : Port) :
    s.driveLines.links[p] = { s.links[p] with attention := s.attentionDue p } := by
  unfold State.driveLines
  rw [driveLine_fold, if_pos]
  revert p; decide

/-- The condition of an attention line in words (R110). -/
theorem attentionDue_eq (s : State) (p : Port) :
    s.attentionDue p = decide (∃ e ∈ s.notices.queues[p], s.marked e = false
    ∧ s.notices.thresholds[p] ≤ e.urgency) := by
  unfold State.attentionDue State.deliverable
  rw [Bool.eq_iff_iff]
  simp

/-- The end of an event drives each attention line by its condition on the state that the service of the holding queues
leaves (R110, R118). -/
theorem settle_drives (s : State) : s.settle = { s.serveHolding with links := s.settle.links }
    ∧ ∀ p : Port, s.settle.links[p] = { s.serveHolding.links[p] with attention := s.settle.links[p].attention }
      ∧ (s.settle.links[p].attention = true ↔ ∃ e ∈ s.serveHolding.notices.queues[p],
          s.serveHolding.marked e = false ∧ s.serveHolding.notices.thresholds[p] ≤ e.urgency) := by
  unfold State.settle
  generalize s.serveHolding = u
  obtain ⟨ls, h⟩ := driveLines_eq u
  refine ⟨by rw [h], fun p => ?_⟩
  rw [driveLines_links]
  refine ⟨rfl, ?_⟩
  rw [attentionDue_eq, decide_eq_true_iff]

/-- The record that one marking visits. -/
theorem markOne_record (w : Sweep) (s : State) (i : SlotIx) :
    (s.markOne w i).record i = if w.kind.matchesRecord (s.record i) = true ∧
    (s.record i).fault ≠ some .identity then { s.record i with mark := some w.number } else s.record i := by
  unfold State.markOne
  simp only [Bool.and_eq_true, decide_eq_true_eq]
  split
  · rw [State.record_modify_self]
  · rfl

theorem markOne_other (w : Sweep) (s : State) (i j : SlotIx) (h : j ≠ i) :
    (s.markOne w i).record j = s.record j := by
  unfold State.markOne
  split
  · exact lookupCell_store_other _ _ _ _ h
  · rfl

theorem markOne_shape (w : Sweep) (s : State) (i : SlotIx) :
    s.markOne w i = { s with table := { s.table with cells := (s.markOne w i).table.cells } } := by
  unfold State.markOne
  split <;> rfl

theorem matchesRecord_mark (k : SweepKind) (r : Record) (m : Option SweepNumber) :
    k.matchesRecord { r with mark := m } = k.matchesRecord r := rfl

/-- The marking of a list of slots, record by record (R130). -/
theorem markAll_facts (w : Sweep) : ∀ (l : List SlotIx) (s : State),
    l.foldl (State.markOne w) s = { s with table := { s.table with cells := (l.foldl (State.markOne w) s).table.cells } }
    ∧ (∀ i, i ∉ l → (l.foldl (State.markOne w) s).record i = s.record i)
    ∧ (∀ i ∈ l, (l.foldl (State.markOne w) s).record i = if w.kind.matchesRecord (s.record i) = true ∧
        (s.record i).fault ≠ some .identity then { s.record i with mark := some w.number } else s.record i)
  | [], s => ⟨rfl, fun _ _ => rfl, fun _ h => by cases h⟩
  | j :: l, s => by
    obtain ⟨a, b, c⟩ := markAll_facts w l (s.markOne w j)
    have hsh := markOne_shape w s j
    have hrec := markOne_record w s j
    have hoth := fun i => markOne_other w s j i
    rw [List.foldl_cons]
    generalize l.foldl (State.markOne w) (s.markOne w j) = u at *
    refine ⟨?_, fun i hi => ?_, fun i hi => ?_⟩
    · rw [a]
      conv_lhs => rw [hsh]
    · rw [b i (fun h => hi (List.mem_cons_of_mem _ h)), hoth i (fun h => hi (by simp [h]))]
    · by_cases hl : i ∈ l
      · rw [c i hl]
        by_cases hj : i = j
        · subst hj
          rw [hrec]
          split
          · rename_i h; rw [matchesRecord_mark]
            split <;> rfl
          · rfl
        · rw [hoth i hj]
      · have : i = j := by rcases List.mem_cons.mp hi with h | h; exact h; exact absurd h hl
        subst this
        rw [b i hl, hrec]

/-- The slots that are not FREE. -/
theorem mem_liveSlots (s : State) (i : SlotIx) : i ∈ s.liveSlots ↔ (s.record i).sched ≠ .free := by
  unfold State.liveSlots State.listedSlots
  rw [List.mem_filter]
  simp only [decide_eq_true_eq]
  refine ⟨fun h => h.2, fun h => ⟨?_, h⟩⟩
  by_contra hn
  have := lookupCell_unlisted _ _ hn
  unfold State.record at h
  rw [this] at h; exact h rfl

/-- The start of a sweep changes the links by their attention lines alone. -/
theorem takeSweep_links (u : State) (r : Port) :
    u.takeSweep.links[r] = { u.links[r] with attention := u.takeSweep.links[r].attention } := by
  have hs : ∀ (v : State) (w : Sweep), (v.startSweep w).links[r] =
      { v.links[r] with attention := (v.startSweep w).links[r].attention } := by
    intro v w
    unfold State.startSweep
    dsimp only
    generalize hz : (List.foldl _ _ _ : State) = z
    have hzl : z.links = (v.readSlots v.liveSlots).links := by
      rw [← hz, (markAll_facts w _ _).1]; rfl
    rw [driveLines_links, (confined_settleSince z v).links r, hzl, (confined_readSlots v _).links r]
  have : ∃ (v : State) (w : Sweep), (u.takeSweep = u ∨ (u.takeSweep = v.startSweep w ∧ v.links = u.links)) := by
    unfold State.takeSweep
    split
    · exact ⟨u, ⟨0, .total⟩, .inl rfl⟩
    · split
      · exact ⟨_, _, .inr ⟨rfl, rfl⟩⟩
      · exact ⟨_, _, .inr ⟨rfl, rfl⟩⟩
      · exact ⟨u, ⟨0, .total⟩, .inl rfl⟩
  obtain ⟨v, w, h | ⟨h, h'⟩⟩ := this
  · rw [h]
  · rw [h, hs, h']

/-- The start of a sweep changes no place of the queue of sweeps. -/
theorem takeSweep_places (u : State) : u.takeSweep.sweeps.places = u.sweeps.places := by
  have hs : ∀ (v : State) (w : Sweep), (v.startSweep w).sweeps.places = v.sweeps.places := by
    intro v w
    unfold State.startSweep
    dsimp only
    rw [(moved_driveLines _).sweeps, (moved_settleSince _ v).sweeps, (markAll_facts w _ _).1]
    show (v.readSlots v.liveSlots).sweeps.places = _
    rw [(confined_readSlots v _).sweeps]
  unfold State.takeSweep
  split
  · rfl
  · split
    · rw [hs]; rfl
    · rw [hs]
    · rfl

/-- What retirement leaves of the slot, and where the slot is no longer found (R15). -/
theorem retire_facts (s : State) (i : SlotIx) (r : Record) (hr : s.record i = r) :
    (s.retire i).record i = { Record.blank with generation := if r.fault = some .identity then 0 else r.generation + 1 }
    ∧ (s.retire i).table.occupied = s.table.occupied.erase i
    ∧ (∀ b ∈ (s.retire i).notices.blocked, b.slot ≠ i) ∧ (s.retire i).placement.carried = s.placement.carried :=
        by
  obtain ⟨u, v, hu, hv, hcase2⟩ : ∃ u v : State, u = (s.leaveTiming i).unblock i ∧ s.retireCore i = v ∧
    ((s.entryOf i = none ∧ v = u.freeSlot i) ∨ ∃ place e, s.entryOf i = some (place, e) ∧ v =
        ((u.dropEntry place e).freeSlot i).serveBlocked) := ⟨_, _, rfl, rfl, retireCore_cases s i⟩
  have hub : ∀ b ∈ u.notices.blocked, b.slot ≠ i := by
    subst hu; intro b hb
    have hb' : b ∈ (s.leaveTiming i).notices.blocked.filter fun b => decide (b.slot ≠ i) := hb
    simpa using (List.mem_filter.mp hb').2
  have hur : u.record i = r := by
    subst hu; show (s.leaveTiming i).record i = r; rw [leaveTiming_record, hr]
  have hut : u.table = s.table := by subst hu; rw [leaveTiming_eq]; rfl
  have hret : s.retire i = v.settle := by unfold State.retire; rw [hv]
  have hvr : v.record i =
        { Record.blank with generation := if r.fault = some .identity then 0 else r.generation + 1 }
      ∧ v.table.occupied = s.table.occupied.erase i ∧ (∀ b ∈ v.notices.blocked, b.slot ≠ i)
      ∧ v.placement.carried = s.placement.carried := by
    have hucar : u.placement.carried = s.placement.carried := by subst hu; exact leaveTiming_carried s i
    rcases hcase2 with ⟨_, rfl⟩ | ⟨place, e, he, rfl⟩
    · refine ⟨by rw [freeSlot_record, hur], ?_, ?_, ?_⟩
      · rw [freeSlot_occupied u i, hut]
      · rw [freeSlot_notices u i]; exact hub
      · rw [(freeSlot_placement u i), hucar]
    · have hd := moved_dropEntry u place e
      have hbl : ∀ b ∈ ((u.dropEntry place e).freeSlot i).notices.blocked, b.slot ≠ i := by
        rw [freeSlot_notices _ i, hd.blocked]; exact hub
      have l0 := aside_serveBlocked ((u.dropEntry place e).freeSlot i)
      refine ⟨?_, ?_, ?_, ?_⟩
      · rw [serveBlocked_record _ _ hbl, freeSlot_record, hd.record, hur]
      · rw [l0.occupied, freeSlot_occupied _ i, hd.table, hut]
      · exact serveBlocked_blocked _ _ hbl
      · rw [l0.carried, (freeSlot_placement _ i), hd.placement, hucar]
  obtain ⟨v1, v2, v3, v4⟩ := hvr
  rw [hret]
  exact ⟨by rw [(moved_settle v).record]; exact v1, by rw [(moved_settle v).table]; exact v2,
      by rw [(moved_settle v).blocked]; exact v3, by rw [(moved_settle v).placement]; exact v4⟩

/-- A SWEEP-DONE notice is created for an UP port with a free reserve entry, and is lost otherwise (R94). -/
theorem createSweepDone_facts (s : State) (p : Port) (num : SweepNumber) (ret : Nat) (ab : Bool) :
    (s.isUp p = false ∨ s.freeReserve p = none → s.createSweepDone p num ret ab = s)
    ∧ (s.isUp p = true → ∀ n, s.freeReserve p = some n → ∃ e, (e.kind = .sweepDone ∧ e.number = n
          ∧ e.slot = none ∧ e.sweepNumber = some num ∧ e.retired = ret
          ∧ e.abandoned = ab ∧ e.urgency = 0 ∧ e.cls = .plain ∧ e.destination = .port p
          ∧ e.stamp = s.notices.stamp ∧ e.assigned = some p) ∧ s.createSweepDone p num ret ab =
          { s with notices := { s.notices with
              stamp := s.notices.stamp + 1
              queues := s.notices.queues.set p.val (insertEntry e s.notices.queues[p]) p.isLt } }) := by
  unfold State.createSweepDone
  refine ⟨fun h => ?_, fun h n hn => ?_⟩
  · rcases h with h | h
    · rw [if_neg (by rw [h]; decide)]
    · split
      · rw [h]
      · rfl
  · rw [if_pos h, hn]
    exact ⟨_, ⟨rfl, rfl, rfl, rfl, rfl, rfl, rfl, rfl, rfl, rfl, rfl⟩, rfl⟩

/-- A port has a free reserve entry when one of its two numbers is no entry's (R90). -/
theorem freeReserve_iff (s : State) (p : Port) :
    s.freeReserve p ≠ none ↔ ∃ n, (n = 248 + 2 * p.val ∨ n = 249 + 2 * p.val) ∧ ∀ e ∈ s.entries, e.number ≠ n :=
    by
  unfold State.freeReserve State.freeNumber
  dsimp only
  rw [Ne, List.find?_eq_none]
  unfold Config.generalEntries
  simp only [List.mem_range'_1, decide_eq_true_eq, List.mem_map, not_forall]
  constructor
  · rintro ⟨n, hn, h⟩
    refine ⟨n, by omega, fun e he hx => ?_⟩
    exact (not_not.mp h) ⟨e, he, hx⟩
  · rintro ⟨n, hn, h⟩
    refine ⟨n, by omega, not_not.mpr ?_⟩
    rintro ⟨e, he, hx⟩
    exact h e he hx

theorem freeReserve_some (s : State) (p : Port) (n : Nat) (h : s.freeReserve p = some n) :
    n = 248 + 2 * p.val ∨ n = 249 + 2 * p.val := by
  unfold State.freeReserve State.freeNumber at h
  have := List.mem_of_find?_eq_some h
  rw [List.mem_range'_1] at this
  unfold Config.generalEntries at this
  omega

/-- shape of a creation -/
theorem createSweepDone_shape (s : State) (p : Port) (num ret ab) :
    s.createSweepDone p num ret ab = { s with notices := { s.notices with
    stamp := (s.createSweepDone p num ret ab).notices.stamp, queues :=
        (s.createSweepDone p num ret ab).notices.queues } } := by
  unfold State.createSweepDone
  split
  · split <;> rfl
  · rfl

theorem createSweepDone_grow (s : State) (p : Port) (num ret ab) :
    QueuesGrow s (s.createSweepDone p num ret ab) := by
  unfold State.createSweepDone
  split
  · split
    · exact .refl s
    · exact QueuesGrow.trans (t := s.advanceStamp) (fun _ _ h => h) (grow_joinQueue _ p _)
  · exact .refl s

theorem createSweepDone_entries (s : State) (p : Port) (num ret ab) :
    s.createSweepDone p num ret ab = s ∨ ∃ e, e.kind = .sweepDone ∧
    (e.number = 248 + 2 * p.val ∨ e.number = 249 + 2 * p.val) ∧ e.slot = none
    ∧ (s.createSweepDone p num ret ab).entries.Perm (e :: s.entries) := by
  unfold State.createSweepDone
  split
  · split
    · exact .inl rfl
    · rename_i n hn
      refine .inr ⟨_, ?_, ?_, ?_, entries_joinQueue _ p _⟩
      · rfl
      · exact freeReserve_some s p n hn
      · rfl
  · exact .inl rfl

theorem createSweepDone_reserve (s : State) (p q : Port) (num ret ab) (h : q ≠ p)
    (hr : s.freeReserve q ≠ none) : (s.createSweepDone p num ret ab).freeReserve q ≠ none := by
  rcases createSweepDone_entries s p num ret ab with e | ⟨e, _, h2, _, h3⟩
  · rw [e]; exact hr
  · rw [freeReserve_iff] at hr ⊢
    obtain ⟨n, hn, hx⟩ := hr
    refine ⟨n, hn, fun x hxm => ?_⟩
    rcases List.mem_cons.mp (h3.mem_iff.mp hxm) with rfl | hm
    · have : q.val ≠ p.val := fun e => h (Fin.ext e)
      omega
    · exact hx x hm

theorem createSweepDone_kinds (s : State) (p : Port) (num ret ab) (h : ∀ e ∈ s.entries, e.kind = .sweepDone) :
    ∀ e ∈ (s.createSweepDone p num ret ab).entries, e.kind = .sweepDone := by
  rcases createSweepDone_entries s p num ret ab with e | ⟨e, h1, h2, _, h3⟩
  · rw [e]; exact h
  · intro x hx
    rcases List.mem_cons.mp (h3.mem_iff.mp hx) with rfl | hm
    · exact h1
    · exact h x hm

theorem abandon_cases (s : State) (w : Sweep) :
    s.abandon w = s ∨ ∃ o g r, w.kind = .tag o g r ∧ s.abandon w = s.createSweepDone r w.number 0 true := by
  unfold State.abandon
  split
  · rename_i o g r h; exact .inr ⟨o, g, r, h, rfl⟩
  · exact .inl rfl
  · exact .inl rfl

/-- What the abandoning of queued TAG sweeps may do (R136 step 4). -/
structure Abandoned (s t : State) : Prop where
  shape : t = { s with notices := { s.notices with stamp := t.notices.stamp, queues := t.notices.queues } }
  grow : QueuesGrow s t
  kinds : (∀ e ∈ s.entries, e.kind = .sweepDone) → ∀ e ∈ t.entries, e.kind = .sweepDone

theorem Abandoned.refl (s : State) : Abandoned s s := ⟨rfl, .refl s, id⟩

theorem Abandoned.trans {s t u : State} (a : Abandoned s t) (b : Abandoned t u) :
    Abandoned s u := ⟨by rw [b.shape]; conv_lhs => rw [a.shape], a.grow.trans b.grow, b.kinds ∘ a.kinds⟩

theorem abandoned_createSweepDone (s : State) (p num ret ab) :
    Abandoned s (s.createSweepDone p num ret ab) :=
    ⟨createSweepDone_shape s p num ret ab, createSweepDone_grow s p num ret ab,
    createSweepDone_kinds s p num ret ab⟩

theorem abandoned_abandon (s : State) (w) : Abandoned s (s.abandon w) := by
  rcases abandon_cases s w with h | ⟨_, _, _, _, h⟩
  · rw [h]; exact .refl s
  · rw [h]; exact abandoned_createSweepDone ..

theorem abandoned_fold : ∀ (l : List Sweep) (s : State), Abandoned s (l.foldl State.abandon s)
  | [], s => .refl s
  | w :: l, s => (abandoned_abandon s w).trans (abandoned_fold l _)

theorem abandon_reserve (s : State) (w : Sweep) (q : Port) (h : isTagSweepOf q w = false)
    (hr : s.freeReserve q ≠ none) : (s.abandon w).freeReserve q ≠ none := by
  rcases abandon_cases s w with e | ⟨o, g, r, hk, e⟩
  · rw [e]; exact hr
  · rw [e]; refine createSweepDone_reserve s r q _ _ _ ?_ hr
    unfold isTagSweepOf at h; rw [hk] at h
    intro e; simp [e] at h

theorem abandon_fold_reserve (q : Port) :
    ∀ (l : List Sweep) (s : State), l.filter (isTagSweepOf q) = [] → s.freeReserve q ≠ none →
    (l.foldl State.abandon s).freeReserve q ≠ none
  | [], s, _, h => h
  | w :: l, s, hf, h => by
    have h1 : isTagSweepOf q w = false := by
      by_contra hc
      rw [List.filter_cons_of_pos (by simpa using hc)] at hf; cases hf
    rw [List.filter_cons_of_neg (by simp [h1])] at hf
    exact abandon_fold_reserve q l _ hf (abandon_reserve s w q h1 h)

/-- An UP port with a free reserve entry is told of its first abandoned TAG sweep. -/
theorem abandon_fold_entry (q : Port) (w : Sweep) (more : List Sweep) :
    ∀ (l : List Sweep) (s : State), l.filter (isTagSweepOf q) = w :: more → s.isUp q = true →
    s.freeReserve q ≠ none →
    ∃ e ∈ (l.foldl State.abandon s).notices.queues[q], e.kind = .sweepDone ∧ e.sweepNumber = some w.number
        ∧ e.abandoned = true ∧ e.retired = 0 ∧ e.urgency = 0
  | [], s, hf, _, _ => by cases hf
  | v :: l, s, hf, hu, hr => by
    rw [List.foldl_cons]
    by_cases hv : isTagSweepOf q v = true
    · rw [List.filter_cons_of_pos hv] at hf
      cases hf
      obtain ⟨n, hn⟩ := Option.ne_none_iff_exists'.mp hr
      obtain ⟨e, he, hx⟩ := (createSweepDone_facts s q w.number 0 true).2 hu n hn
      have hab : s.abandon w = s.createSweepDone q w.number 0 true := by
        unfold isTagSweepOf at hv
        unfold State.abandon
        split at hv
        · rename_i o g r hk
          have : r = q := by simpa using hv
          rw [this]
        · cases hv
        · cases hv
      refine ⟨e, (abandoned_fold l _).grow q e ?_, he.1, he.2.2.2.1, he.2.2.2.2.2.1, he.2.2.2.2.1,
          he.2.2.2.2.2.2.1⟩
      rw [hab, hx]
      have : (s.notices.queues.set q.val (insertEntry e s.notices.queues[q]) q.isLt)[q] =
          insertEntry e s.notices.queues[q] := set_port_same _ _ _
      show e ∈ (s.notices.queues.set q.val (insertEntry e s.notices.queues[q]) q.isLt)[q]
      rw [this]
      exact mem_insertEntry.mpr (.inl rfl)
    · rw [List.filter_cons_of_neg hv] at hf
      have hv' : isTagSweepOf q v = false := by simpa using hv
      refine abandon_fold_entry q w more l _ hf ?_ (abandon_reserve s v q hv' hr)
      unfold State.isUp; rw [(abandoned_abandon s v).shape]; exact hu

/-- Both reserve entries of a port are FREE (R90). -/
def State.ReserveFree (s : State) (q : Port) : Prop :=
  ∀ e ∈ s.entries, e.number ≠ 248 + 2 * q.val ∧ e.number ≠ 249 + 2 * q.val

/-- With both reserve entries of a port FREE, one SWEEP-DONE notice to it leaves the other. -/
theorem createSweepDone_left (s : State) (p q : Port) (num ret ab) (h : s.ReserveFree q) :
    (s.createSweepDone p num ret ab).freeReserve q ≠ none := by
  rw [freeReserve_iff]
  rcases createSweepDone_entries s p num ret ab with e | ⟨e, _, h2, _, h3⟩
  · rw [e]; exact ⟨_, .inl rfl, fun x hx => (h x hx).1⟩
  · refine ⟨if e.number = 248 + 2 * q.val then 249 + 2 * q.val else 248 + 2 * q.val, ?_, fun x hx => ?_⟩
    · split
      · exact .inr rfl
      · exact .inl rfl
    · rcases List.mem_cons.mp (h3.mem_iff.mp hx) with rfl | hm
      · split
        · omega
        · assumption
      · split
        · exact (h x hm).2
        · exact (h x hm).1

theorem reserveFree_some {s : State} {q : Port} (h : s.ReserveFree q) : s.freeReserve q ≠ none :=
  (freeReserve_iff s q).mpr ⟨_, .inl rfl, fun e he => (h e he).1⟩

/-- The abandoning of another port's sweep takes no reserve entry of this one. -/
theorem abandon_reserveFree {s : State} {q : Port} (w : Sweep) (h : isTagSweepOf q w = false)
    (hr : s.ReserveFree q) : (s.abandon w).ReserveFree q := by
  rcases abandon_cases s w with e | ⟨o, g, r, hk, e⟩
  · rw [e]; exact hr
  · rw [e]
    have hne : q.val ≠ r.val := by
      intro e; unfold isTagSweepOf at h; rw [hk] at h; simp [Fin.ext e] at h
    rcases createSweepDone_entries s r w.number 0 true with e | ⟨e, _, h2, _, h3⟩
    · rw [e]; exact hr
    · intro x hx
      rcases List.mem_cons.mp (h3.mem_iff.mp hx) with rfl | hm
      · omega
      · exact hr x hm

theorem abandon_isUp (s : State) (w : Sweep) (q : Port) : (s.abandon w).isUp q = s.isUp q := by
  unfold State.isUp; rw [(abandoned_abandon s w).shape]

theorem abandon_left {s : State} {q : Port} (w : Sweep) (h : s.ReserveFree q) :
    (s.abandon w).freeReserve q ≠ none := by
  rcases abandon_cases s w with e | ⟨_, _, r, _, e⟩
  · rw [e]; exact reserveFree_some h
  · rw [e]; exact createSweepDone_left s r q _ _ _ h

/-- An UP port with both reserve entries FREE is told of its second abandoned TAG sweep too. -/
theorem abandon_fold_second (q : Port) (w v : Sweep) (more : List Sweep) :
    ∀ (l : List Sweep) (s : State), l.filter (isTagSweepOf q) = w :: v :: more → s.isUp q = true →
    s.ReserveFree q →
    ∃ e ∈ (l.foldl State.abandon s).notices.queues[q], e.kind = .sweepDone ∧ e.sweepNumber = some v.number
        ∧ e.abandoned = true ∧ e.retired = 0 ∧ e.urgency = 0
  | [], s, hf, _, _ => by cases hf
  | x :: l, s, hf, hu, hr => by
    rw [List.foldl_cons]
    have hux : (s.abandon x).isUp q = true := (abandon_isUp s x q).trans hu
    by_cases hx : isTagSweepOf q x = true
    · rw [List.filter_cons_of_pos hx] at hf
      exact abandon_fold_entry q v more l _ (List.cons.inj hf).2 hux (abandon_left x hr)
    · rw [List.filter_cons_of_neg hx] at hf
      exact abandon_fold_second q w v more l _ hf hux (abandon_reserveFree x (by simpa using hx) hr)

/-- One abandoned TAG sweep leaves a port with both reserve entries FREE the other of them. -/
theorem abandon_fold_left (q : Port) (w : Sweep) :
    ∀ (l : List Sweep) (s : State), l.filter (isTagSweepOf q) = [w] → s.ReserveFree q →
    (l.foldl State.abandon s).freeReserve q ≠ none
  | [], s, hf, _ => by cases hf
  | x :: l, s, hf, hr => by
    rw [List.foldl_cons]
    by_cases hx : isTagSweepOf q x = true
    · rw [List.filter_cons_of_pos hx] at hf
      exact abandon_fold_reserve q l _ (List.cons.inj hf).2 (abandon_left x hr)
    · rw [List.filter_cons_of_neg hx] at hf
      exact abandon_fold_left q w l _ hf (abandon_reserveFree x (by simpa using hx) hr)

/-- A port that is not UP gets no SWEEP-DONE notice (R94). -/
theorem createSweepDone_down (s : State) (p q : Port) (num ret ab) (h : s.isUp q = false) :
    (s.createSweepDone p num ret ab).notices.queues[q] = s.notices.queues[q] := by
  by_cases hp : p = q
  · subst hp; rw [(createSweepDone_facts s p num ret ab).1 (.inl h)]
  · unfold State.createSweepDone
    split
    · split
      · rfl
      · exact set_port_other _ _ _ _ (Ne.symm hp)
    · rfl

theorem abandon_fold_down (q : Port) : ∀ (l : List Sweep) (s : State), s.isUp q = false →
    (l.foldl State.abandon s).notices.queues[q] = s.notices.queues[q]
  | [], _, _ => rfl
  | w :: l, s, h => by
    rw [List.foldl_cons, abandon_fold_down q l _ ((abandon_isUp s w q).trans h)]
    rcases abandon_cases s w with e | ⟨_, _, r, _, e⟩
    · rw [e]
    · rw [e]; exact createSweepDone_down s r q _ _ _ h

/-- The reserve entries of a port that are FREE (R90). -/
def State.reserveLeft (s : State) (q : Port) : List Nat :=
  [248 + 2 * q.val, 249 + 2 * q.val].filter fun n => decide (∀ e ∈ s.entries, e.number ≠ n)

theorem mem_reserveLeft (s : State) (q : Port) (n : Nat) : n ∈ s.reserveLeft q ↔
    (n = 248 + 2 * q.val ∨ n = 249 + 2 * q.val) ∧ ∀ e ∈ s.entries, e.number ≠ n := by
  unfold State.reserveLeft
  rw [List.mem_filter]
  simp

theorem reserveLeft_nodup (s : State) (q : Port) : (s.reserveLeft q).Nodup :=
  List.Nodup.filter _ (by simp)

theorem reserveLeft_nil (s : State) (q : Port) : s.reserveLeft q = [] ↔ s.freeReserve q = none := by
  rw [← not_iff_not, ← ne_eq, ← ne_eq, freeReserve_iff]
  refine ⟨fun h => ?_, fun ⟨n, h⟩ => List.ne_nil_of_mem ((mem_reserveLeft s q n).mpr h)⟩
  obtain ⟨n, hn⟩ := List.exists_mem_of_ne_nil _ h
  exact ⟨n, (mem_reserveLeft s q n).mp hn⟩

/-- One SWEEP-DONE notice to an UP port takes one of its FREE reserve entries, if there is one. -/
theorem createSweepDone_count (s : State) (p q : Port) (num ret ab) :
    (∀ r : Port, (s.createSweepDone p num ret ab).isUp r = s.isUp r)
    ∧ (p ≠ q ∨ s.reserveLeft q = [] →
        (s.createSweepDone p num ret ab).notices.queues[q] = s.notices.queues[q]
        ∧ (s.createSweepDone p num ret ab).reserveLeft q = s.reserveLeft q)
    ∧ (p = q → s.isUp q = true → s.reserveLeft q ≠ [] →
        (s.createSweepDone p num ret ab).notices.queues[q].length = s.notices.queues[q].length + 1
        ∧ ((s.createSweepDone p num ret ab).reserveLeft q).length + 1 = (s.reserveLeft q).length) := by
  have hcase := createSweepDone_entries s p num ret ab
  refine ⟨fun r => ?_, fun h => ?_, fun h hu hl => ?_⟩
  · unfold State.isUp; rw [createSweepDone_shape s p num ret ab]
  · by_cases hpq : p = q
    · subst hpq
      have hn := (reserveLeft_nil s p).mp (h.resolve_left (fun hh => hh rfl))
      rw [(createSweepDone_facts s p num ret ab).1 (.inr hn)]
      exact ⟨rfl, rfl⟩
    · refine ⟨?_, ?_⟩
      · unfold State.createSweepDone
        split
        · split
          · rfl
          · exact set_port_other _ _ _ _ (Ne.symm hpq)
        · rfl
      · rcases hcase with e | ⟨e, _, h2, _, h3⟩
        · rw [e]
        · unfold State.reserveLeft
          refine List.filter_congr fun n hn => ?_
          have hne : q.val ≠ p.val := fun e => hpq (Fin.ext e).symm
          simp only [List.mem_cons, List.not_mem_nil, or_false] at hn
          refine decide_eq_decide.mpr ⟨fun hx y hy => hx y (h3.mem_iff.mpr (List.mem_cons_of_mem _ hy)),
            fun hx y hy => ?_⟩
          rcases List.mem_cons.mp (h3.mem_iff.mp hy) with rfl | hm
          · omega
          · exact hx y hm
  · subst h
    obtain ⟨n, hn⟩ := Option.ne_none_iff_exists'.mp (fun h => hl ((reserveLeft_nil s p).mpr h))
    obtain ⟨e, he, hx⟩ := (createSweepDone_facts s p num ret ab).2 hu n hn
    have hq : (s.createSweepDone p num ret ab).notices.queues[p] = insertEntry e s.notices.queues[p] := by
      rw [hx]; exact set_port_same _ _ _
    have hne : s.createSweepDone p num ret ab ≠ s := fun hh => by
      have := congrArg (fun t : State => t.notices.stamp) (hh.symm.trans hx)
      simp at this
    rw [hq]
    refine ⟨by rw [(insertEntry_perm e _).length_eq]; rfl, ?_⟩
    obtain ⟨x, _, h2, _, h3⟩ := hcase.resolve_left hne
    have hmem : e ∈ (s.createSweepDone p num ret ab).entries := by
      unfold State.entries
      refine List.mem_append_left _ (List.mem_append_left _ (List.mem_flatten.mpr
        ⟨(s.createSweepDone p num ret ab).notices.queues[p], ?_, ?_⟩))
      · simp
      · rw [hq]; exact mem_insertEntry.mpr (.inl rfl)
    have hnl : n ∈ s.reserveLeft p := (mem_reserveLeft s p n).mpr
      ⟨freeReserve_some s p n hn, fun y hy => (freeNumber_some s _ _ _ hn).2 y hy⟩
    have hxe : x.number = n := by
      rcases List.mem_cons.mp (h3.mem_iff.mp hmem) with rfl | hm
      · exact he.2.1
      · exact absurd he.2.1 (((mem_reserveLeft s p n).mp hnl).2 e hm)
    have : (s.createSweepDone p num ret ab).reserveLeft p = (s.reserveLeft p).erase n := by
      rw [(reserveLeft_nodup s p).erase_eq_filter]
      unfold State.reserveLeft
      rw [List.filter_filter]
      refine List.filter_congr fun m _ => ?_
      rw [Bool.eq_iff_iff]
      simp only [decide_eq_true_eq, Bool.and_eq_true, bne_iff_ne, ne_eq]
      refine ⟨fun hy => ⟨fun hmn => hy e hmem (he.2.1.trans hmn.symm),
        fun y hm => hy y (h3.mem_iff.mpr (List.mem_cons_of_mem _ hm))⟩, fun hy y hm => ?_⟩
      rcases List.mem_cons.mp (h3.mem_iff.mp hm) with rfl | hm
      · rw [hxe]; exact fun hh => hy.1 hh.symm
      · exact hy.2 y hm
    rw [this, List.length_erase_of_mem hnl]
    have := List.length_pos_of_mem hnl
    omega

/-- The abandoning of a TAG sweep as a notice to its port, or nothing. -/
theorem abandon_eq (s : State) (w : Sweep) (q : Port) :
    (isTagSweepOf q w = true ∧ s.abandon w = s.createSweepDone q w.number 0 true)
    ∨ (isTagSweepOf q w = false ∧ (s.abandon w = s ∨ ∃ r, r ≠ q ∧ s.abandon w = s.createSweepDone r w.number 0 true)) := by
  unfold State.abandon isTagSweepOf
  cases w.kind with
  | tag o g r =>
    by_cases h : r = q
    · exact .inl ⟨by simp [h], by rw [h]⟩
    · exact .inr ⟨by simp [h], .inr ⟨r, h, rfl⟩⟩
  | port _ => exact .inr ⟨rfl, .inl rfl⟩
  | total => exact .inr ⟨rfl, .inl rfl⟩

/-- A port with no FREE reserve entry gets no notice of its abandoned TAG sweeps (R94). -/
theorem abandon_fold_full (q : Port) : ∀ (l : List Sweep) (s : State), s.reserveLeft q = [] →
    (l.foldl State.abandon s).notices.queues[q] = s.notices.queues[q]
    ∧ (l.foldl State.abandon s).reserveLeft q = []
  | [], _, h => ⟨rfl, h⟩
  | w :: l, s, h => by
    have key : (s.abandon w).notices.queues[q] = s.notices.queues[q] ∧ (s.abandon w).reserveLeft q = [] := by
      rcases abandon_eq s w q with ⟨_, e⟩ | ⟨_, e | ⟨r, hr, e⟩⟩
      · rw [e]
        have := (createSweepDone_count s q q w.number 0 true).2.1 (.inr h)
        exact ⟨this.1, this.2.trans h⟩
      · rw [e]; exact ⟨rfl, h⟩
      · rw [e]
        have := (createSweepDone_count s r q w.number 0 true).2.1 (.inl hr)
        exact ⟨this.1, this.2.trans h⟩
    rw [List.foldl_cons]
    have := abandon_fold_full q l _ key.2
    exact ⟨this.1.trans key.1, this.2⟩

/-- An UP port gets a notice of each of its abandoned TAG sweeps, as far as its FREE reserve entries reach. -/
theorem abandon_fold_count (q : Port) : ∀ (l : List Sweep) (s : State), s.isUp q = true →
    (l.foldl State.abandon s).notices.queues[q].length
      = s.notices.queues[q].length + min (s.reserveLeft q).length (l.filter (isTagSweepOf q)).length
    ∧ ((l.foldl State.abandon s).reserveLeft q).length
      = (s.reserveLeft q).length - (l.filter (isTagSweepOf q)).length
  | [], s, _ => by simp
  | w :: l, s, hu => by
    rw [List.foldl_cons]
    obtain ⟨a, b⟩ := abandon_fold_count q l (s.abandon w) ((abandon_isUp s w q).trans hu)
    rw [a, b]
    rcases abandon_eq s w q with ⟨ht, e⟩ | ⟨ht, e⟩
    · rw [List.filter_cons_of_pos ht, List.length_cons, e]
      by_cases hl : s.reserveLeft q = []
      · have := (createSweepDone_count s q q w.number 0 true).2.1 (.inr hl)
        rw [this.1, this.2, hl]; simp
      · have := (createSweepDone_count s q q w.number 0 true).2.2 rfl hu hl
        omega
    · rw [List.filter_cons_of_neg (by simp [ht])]
      rcases e with e | ⟨r, hr, e⟩
      · rw [e]; exact ⟨rfl, rfl⟩
      · have := (createSweepDone_count s r q w.number 0 true).2.1 (.inl hr)
        rw [e, this.1, this.2]; exact ⟨rfl, rfl⟩

/-- The records of the slots listed have their notice state made CLEAR. -/
def clearSlots (l : List SlotIx) (s : State) : State := l.foldl (fun t i => t.setNotice i .clear none) s

/-- What the clearing of notice states does, record by record. -/
theorem clearSlots_facts : ∀ (l : List SlotIx) (s : State),
    clearSlots l s = { s with table := { s.table with cells := (clearSlots l s).table.cells } }
    ∧ (∀ i, i ∉ l → (clearSlots l s).record i = s.record i) ∧
        (∀ i ∈ l, (clearSlots l s).record i = { s.record i with notice := .clear, holder := none })
  | [], s => ⟨rfl, fun _ _ => rfl, fun _ h => by cases h⟩
  | j :: l, s => by
    obtain ⟨a, b, c⟩ := clearSlots_facts l (s.setNotice j .clear none)
    have e : clearSlots (j :: l) s = clearSlots l (s.setNotice j .clear none) := rfl
    rw [e]
    have hs : (s.setNotice j .clear none).record j = { s.record j with notice := .clear, holder := none } := by
      unfold State.setNotice; rw [State.record_modify_self]
    have ho : ∀ i, i ≠ j → (s.setNotice j .clear none).record i = s.record i :=
        fun i hi => lookupCell_store_other _ _ _ _ hi
    generalize clearSlots l (s.setNotice j .clear none) = w at *
    refine ⟨?_, fun i hi => ?_, fun i hi => ?_⟩
    · rw [a]; rfl
    · rw [b i (fun h => hi (List.mem_cons_of_mem _ h)), ho i (fun h => hi (by simp [h]))]
    · by_cases hl : i ∈ l
      · rw [c i hl]
        by_cases hj : i = j
        · subst hj; rw [hs]
        · rw [ho i hj]
      · have : i = j := by rcases List.mem_cons.mp hi with h | h; exact h; exact absurd h hl
        subst this
        rw [b i hl, hs]

theorem blocked_clearSlots : ∀ (l : List BlockedPlace) (s : State),
    l.foldl (fun t b => t.setNotice b.slot .clear none) s = clearSlots (l.map BlockedPlace.slot) s
  | [], _ => rfl
  | _ :: l, _ => blocked_clearSlots l _

theorem entries_clearSlots : ∀ (l : List Entry) (s : State),
    l.foldl State.clearNamed s = clearSlots (l.filterMap Entry.slot) s
  | [], s => rfl
  | e :: l, s => by
    rw [List.foldl_cons, entries_clearSlots l]
    unfold State.clearNamed
    cases h : e.slot with
    | none => rw [List.filterMap_cons_none h]
    | some i => rw [List.filterMap_cons_some h]; rfl

/-- The entries left when SWEEP-DONE entries alone are kept. -/
theorem mem_flatten_kept {n : Nat} (v : Vector (List Entry) n) (f : List Entry → List Entry)
    (hf : ∀ l, f l = l.filter isSweepDone) (e : Entry)
    (h : e ∈ (v.map f).toList.flatten) : e ∈ v.toList.flatten ∧ e.kind = .sweepDone := by
  rw [Vector.toList_map] at h
  obtain ⟨l, hl, he⟩ := List.mem_flatten.mp h
  obtain ⟨m, hm, rfl⟩ := List.mem_map.mp hl
  rw [hf] at he
  obtain ⟨h1, h2⟩ := List.mem_filter.mp he
  exact ⟨List.mem_flatten.mpr ⟨m, hm, h1⟩, by simpa [isSweepDone] using h2⟩

/-- SWEEP-DONE entries are kept when they alone are. -/
theorem mem_kept_flatten {n : Nat} (v : Vector (List Entry) n) (f : List Entry → List Entry)
    (hf : ∀ l, f l = l.filter isSweepDone) (e : Entry) (h : e ∈ v.toList.flatten) (hk : e.kind = .sweepDone) :
    e ∈ (v.map f).toList.flatten := by
  rw [Vector.toList_map]
  obtain ⟨l, hl, he⟩ := List.mem_flatten.mp h
  refine List.mem_flatten.mpr ⟨f l, List.mem_map.mpr ⟨l, hl, rfl⟩, ?_⟩
  rw [hf]
  exact List.mem_filter.mpr ⟨he, by simp [isSweepDone, hk]⟩

end Sys2Proof.Machine
end

