-- ==== Sys2Proof/Laws/Receive.lean ====
section
/-! SUPPORT. The receiver, and a port that comes UP. -/

namespace Sys2Proof.Machine

/-- Two changes of one link are one change. -/
theorem State.modifyLink_twice (s : State) (p : Port) (f g : Link → Link) :
    (s.modifyLink p f).modifyLink p g = s.modifyLink p (fun l => g (f l)) := by
  unfold State.modifyLink
  dsimp only
  have h : (s.links.set p.val (f s.links[p]) p.isLt)[p] = f s.links[p] := set_port_same _ _ _
  rw [h, Vector.set_set]

theorem State.modifyLink_id (s : State) (p : Port) (f : Link → Link) (h : f s.links[p] = s.links[p]) :
    s.modifyLink p f = s := by
  unfold State.modifyLink
  rw [h]
  have : s.links.set p.val s.links[p] p.isLt = s.links := by
    apply Vector.ext
    intro i hi
    rw [Vector.getElem_set]
    split
    · rename_i e; subst e; rfl
    · rfl
  rw [this]

theorem State.modifyLink_at (s : State) (p : Port) (f : Link → Link) :
    (s.modifyLink p f).links[p] = f s.links[p] := set_port_same _ _ _

theorem State.modifyLink_away (s : State) (p q : Port) (f : Link → Link) (h : q ≠ p) :
    (s.modifyLink p f).links[q] = s.links[q] := set_port_other _ _ _ _ h

theorem State.modifyLink_congr (s : State) (p : Port) (f g : Link → Link) (h : f s.links[p] = g s.links[p]) :
    s.modifyLink p f = s.modifyLink p g := by
  unfold State.modifyLink; rw [h]

/-- The octets of a frame row that end a frame. -/
theorem Receiver.finish_eq (r : Receiver) (os : List Octet) (v : Verdict) (left : List Bool)
    (h : takeFrame (r.held ++ bitsOfOctets os) = some (v, left)) :
    r.finish os = some (v, hunt [] left) := by
  unfold Receiver.finish; rw [h]; rfl

/-- The search for A5h finds the first one, and keeps seven bits when there is none (R152). -/
theorem hunt_facts : ∀ (bits w : List Bool), w.length ≤ 7 →
    (∀ front rest, w ++ bits = front ++ startBits ++ rest →
        (∀ f r, w ++ bits = f ++ startBits ++ r → front.length ≤ f.length) → hunt w bits = .receiving rest 0)
    ∧ ((∀ f r, w ++ bits ≠ f ++ startBits ++ r) → hunt w bits = .searching
        ((w ++ bits).drop ((w ++ bits).length - 7)))
  | [], w, hw => by
    refine ⟨fun f r h _ => ?_, fun _ => ?_⟩
    · have := congrArg List.length h
      simp [startBits] at this
      omega
    · unfold hunt
      rw [List.append_nil, show w.length - 7 = 0 by omega]; rfl
  | b :: bits, w, hw => by
    unfold hunt
    by_cases h : w ++ [b] = startBits
    · rw [if_pos h]
      have h0 : w ++ b :: bits = [] ++ startBits ++ bits := by rw [← h]; simp
      refine ⟨fun f r hf hmin => ?_, fun hno => absurd h0 (hno _ _)⟩
      have hl := hmin [] bits h0
      have hf0 : f = [] := List.eq_nil_of_length_eq_zero (by simpa using hl)
      rw [hf0, h0] at hf
      have : bits = r := by simpa using hf
      rw [this]
    · rw [if_neg h]
      have hlen : ((w ++ [b]).drop (w.length - 6)).length ≤ 7 := by
        rw [List.length_drop, List.length_append]; simp; omega
      obtain ⟨i1, i2⟩ := hunt_facts bits ((w ++ [b]).drop (w.length - 6)) hlen
      by_cases h6 : w.length ≤ 6
      · have e0 : w.length - 6 = 0 := by omega
        rw [e0, List.drop_zero] at i1 i2 ⊢
        have e1 : w ++ [b] ++ bits = w ++ b :: bits := by simp
        rw [e1] at i1 i2
        exact ⟨i1, i2⟩
      · have h7 : w.length = 7 := by omega
        obtain ⟨a, v, hv⟩ : ∃ a v, w = a :: v := by
          cases w with
          | nil => simp at h7
          | cons a v => exact ⟨a, v, rfl⟩
        subst hv
        have e0 : (a :: v).length - 6 = 1 := by omega
        rw [e0] at i1 i2 ⊢
        have e1 : List.drop 1 (a :: v ++ [b]) ++ bits = v ++ b :: bits := by simp
        rw [e1] at i1 i2
        have hne : ∀ f r, a :: v ++ b :: bits = f ++ startBits ++ r → f ≠ [] := by
          rintro f r hf rfl
          apply h
          have := congrArg (List.take 8) hf
          have h6' : v.length = 6 := by simpa using h7
          have e2 : List.take 8 (a :: v ++ b :: bits) = a :: v ++ [b] := by
            have : a :: v ++ b :: bits = (a :: v ++ [b]) ++ bits := by simp
            rw [this]
            exact List.take_left' (by simp [h6'])
          have e3 : List.take 8 ([] ++ startBits ++ r) = startBits := List.take_left' rfl
          rw [e2, e3] at this
          exact this
        refine ⟨fun f r hf hmin => ?_, fun hno => ?_⟩
        · cases f with
          | nil => exact absurd rfl (hne _ _ hf)
          | cons c f =>
            have hf' : v ++ b :: bits = f ++ startBits ++ r := by
              have := List.cons.inj (show a :: (v ++ b :: bits) = c :: (f ++ startBits ++ r) by simpa using hf)
              exact this.2
            refine i1 f r hf' (fun g q hg => ?_)
            have := hmin (a :: g) q (by simpa using hg)
            simpa using this
        · rw [i2 (fun f r hf => hno (a :: f) r (by simpa using hf))]
          congr 1
          have h6' : v.length = 6 := by simpa using h7
          show _ = List.drop _ (a :: (v ++ b :: bits))
          have e9 : (a :: v ++ b :: bits).length - 7 = ((v ++ b :: bits).length - 7) + 1 := by
            simp; omega
          rw [e9]
          rfl

/-- What a port's coming UP does (R157, R158). -/
theorem comeUp_facts (v : State) (p : Port) (w : Nat) :
    ∃ t, v.comeUp p w = t ∧ t.links[p] = { v.links[p] with
            state := .up, window := w, pendingWindow := none, expected := 0, requests := [], history := [],
            badRun := 0, attention := t.links[p].attention,
            transmit := formOther
              ⟨.linkAccept, 0, [octet p.val, octet w, if v.portTable.supervisor = p then 1 else 0]⟩
              v.links[p].transmit }
        ∧ (∀ q : Port, q ≠ p → t.links[q] = { v.links[q] with attention := t.links[q].attention })
        ∧ t.HasEntries v.entries
        ∧ ((∀ k : Pool, v.notices.holding[k] = []) → t = { v with links := t.links })
        ∧ t = { v with links := t.links, pools := t.pools, notices := { v.notices with
                queues := t.notices.queues, holding := t.notices.holding } } := by
  unfold State.comeUp
  generalize hy : (State.form _ p _) = y
  have hyl : y.links[p] = { v.links[p] with
      state := .up, window := w, pendingWindow := none, expected := 0, requests := [], history := [], badRun :=
          0
      transmit := formOther ⟨.linkAccept, 0, [octet p.val, octet w, if v.portTable.supervisor =
          p then 1 else 0]⟩ v.links[p].transmit } := by
    rw [← hy]
    unfold State.form State.modifyLink
    dsimp only
    rw [set_port_same, set_port_same]
    unfold linkAcceptFrame
    by_cases hs : v.portTable.supervisor = p <;> simp [hs] <;> rfl
  have hyo : ∀ m : Port, m ≠ p → y.links[m] = v.links[m] := by
    intro m hm
    rw [← hy]
    unfold State.form State.modifyLink
    dsimp only
    rw [set_port_other _ _ _ _ hm, set_port_other _ _ _ _ hm]
  have hys : y = { v with links := y.links } := by rw [← hy]; rfl
  have hc := confined_settle y
  have hen := hasEntries_settle y
  obtain ⟨po, qq, hh, ls, hshape⟩ := settle_shape y
  have hidle := settle_idle y
  obtain ⟨lsd, hlsd⟩ := driveLines_eq y
  generalize y.settle = t at *
  refine ⟨t, rfl, ?_, ?_, ?_, ?_, ?_⟩
  · rw [hc.links p, hyl]
  · intro m hm; rw [hc.links m, hyo m hm]
  · have : y.entries = v.entries := by rw [hys]; rfl
    rw [← this]; exact hen
  · intro hh
    have := hidle (by intro m; rw [hys]; exact hh m)
    rw [this, hlsd, hys]
  · rw [hshape, hys]

/-- A port's coming UP serves the holding queues, and gives and takes no pool member (R118, R157). -/
theorem comeUp_served (v : State) (p : Port) (w : Nat) :
    (v.comeUp p w).PoolsServed ∧ ∀ k : Pool, (v.comeUp p w).pools[k].Perm v.pools[k] := by
  unfold State.comeUp
  exact ⟨settle_served _, fun k => (fill_settle _).pools k⟩

/-- After a PORT sweep is queued or merged the port has one. -/
theorem queuePortSweep_has (s : State) (p : Port) : (s.queuePortSweep p).hasPortSweep p = true := by
  unfold State.queuePortSweep
  split
  · assumption
  · unfold State.queueSweep State.hasPortSweep
    rw [takeSweep_places]
    show List.any (s.sweeps.places ++ [⟨s.sweeps.nextNumber, .port p⟩]) (isPortSweep p) = true
    rw [List.any_append]
    simp [isPortSweep]

/-- A port that has left UP has a PORT sweep (R126, R159). -/
theorem leaveUp_has (s : State) (p : Port) (x : LinkState) (kept : List Outgoing) :
    (s.leaveUp p x kept).hasPortSweep p = true := by
  unfold State.leaveUp State.hasPortSweep
  rw [(moved_settle _).sweeps]
  exact queuePortSweep_has _ p

/-- The codes of the link states (Table 12-4). -/
theorem linkState_code (x : LinkState) :
    x.code = (match x with | .disabled => 0 | .down => 1 | .recovering => 2 | .up => 3 : Octet) :=
    by cases x <;> rfl

end Sys2Proof.Machine
end

