-- ==== Sys2Proof/Laws/Clock.lean ====
section
/-! SUPPORT. What one period of the reference clock does to the time base and to the receivers. -/

namespace Sys2Proof.Machine

/-! ### The receivers -/

/-- The queuing of a PORT sweep changes a link by its attention line alone. -/
theorem queuePortSweep_links (s : State) (p q : Port) : (s.queuePortSweep p).links[q] =
    { s.links[q] with attention := (s.queuePortSweep p).links[q].attention } := by
  unfold State.queuePortSweep
  split
  · rfl
  · exact takeSweep_links _ q

theorem form_receiver (s : State) (p q : Port) (f : Frame) :
    (s.form p f).links[q].receiver = s.links[q].receiver := by
  unfold State.form
  rw [State.modifyLink_get]
  split
  · rename_i h; subst h; rfl
  · rfl

theorem leaveUp_receiver (s : State) (p q : Port) (x : LinkState) (kept : List Outgoing) :
    (s.leaveUp p x kept).links[q].receiver = s.links[q].receiver := by
  unfold State.leaveUp
  rw [(confined_settle _).links q, queuePortSweep_links, (confined_emptyPort _ p).links q, State.modifyLink_get]
  dsimp only
  split <;> rfl

/-- A bad frame leaves the receivers alone. -/
theorem receiveBad_receiver (s : State) (p q : Port) (reason : RejectReason) :
    (s.receiveBad p reason).links[q].receiver = s.links[q].receiver := by
  unfold State.receiveBad
  split
  · rfl
  · exact form_receiver ..
  · exact form_receiver ..
  · split
    · rw [form_receiver, State.modifyLink_get]
      split
      · rename_i h; subst h; rfl
      · rfl
    · rw [form_receiver, leaveUp_receiver]

/-- A port whose frame is cut off searches again, and no other receiver changes (R152). -/
theorem cutOff_receiver (s : State) (p q : Port) :
    (s.cutOff p).links[q].receiver = if q = p then .searching [] else s.links[q].receiver := by
  unfold State.cutOff State.setReceiver
  rw [receiveBad_receiver, State.modifyLink_get]
  split <;> rfl

/-- The receiver of a port after a period without a bit (R152). -/
def Receiver.afterQuiet (r : Receiver) : Receiver :=
  match r with
  | .searching w => .searching w
  | .receiving bits quiet =>
    if (takeFrame bits).isSome then .receiving bits quiet
    else if quiet + 1 < Config.cutOffPeriods then .receiving bits (quiet + 1) else .searching []

/-- A clock period at one port changes that port's receiver alone. -/
theorem clockPort_receiver (s : State) (p q : Port) : (s.clockPort p).links[q].receiver =
    if q = p then s.links[p].receiver.afterQuiet else s.links[q].receiver := by
  have hself : ∀ r : Receiver, s.links[p].receiver = r →
      s.links[q].receiver = if q = p then r else s.links[q].receiver := by
    intro r hr; split
    · rename_i h; subst h; exact hr
    · rfl
  unfold State.clockPort Receiver.afterQuiet
  split
  · rename_i h; rw [h]; exact hself _ h
  · rename_i bits quiet h
    rw [h]
    dsimp only
    split
    · exact hself _ h
    · split
      · unfold State.setReceiver; rw [State.modifyLink_get]; split <;> rfl
      · exact cutOff_receiver ..

/-- A clock period at a port that searches changes nothing. -/
theorem clockPort_searching (s : State) (p : Port) (h : ∃ w, s.links[p].receiver = .searching w) :
    s.clockPort p = s := by
  obtain ⟨w, h⟩ := h
  unfold State.clockPort
  rw [h]

/-- A clock period at all ports takes each receiver through one period. -/
theorem clockPorts_receiver (s : State) (q : Port) :
    (allPorts.foldl State.clockPort s).links[q].receiver = s.links[q].receiver.afterQuiet := by
  unfold allPorts
  simp only [List.foldl_cons, List.foldl_nil, clockPort_receiver]
  fin_cases q <;> simp

/-- With one begun frame the period is that of its port alone. -/
theorem clockPorts_single (s : State) (p : Port)
    (h : ∀ q : Port, q ≠ p → ∃ w, s.links[q].receiver = .searching w) :
    allPorts.foldl State.clockPort s = s.clockPort p := by
  have hb : ∀ q : Port, q ≠ p → s.clockPort q = s := fun q hq => clockPort_searching s q (h q hq)
  have ha : ∀ q : Port, q ≠ p → (s.clockPort p).clockPort q = s.clockPort p := fun q hq =>
    clockPort_searching _ q (by rw [clockPort_receiver, if_neg hq]; exact h q hq)
  unfold allPorts
  simp only [List.foldl_cons, List.foldl_nil]
  fin_cases p <;> simp only [Fin.zero_eta, Fin.mk_one, Fin.reduceFinMk] at * <;> simp [ha, hb]

/-! ### The time base -/

theorem clockPort_timeBase (s : State) (p : Port) : (s.clockPort p).timeBase = s.timeBase := by
  unfold State.clockPort
  split
  · rfl
  · split
    · rfl
    · split
      · rfl
      · exact (linked_cutOff s p).timeBase

theorem clockPorts_timeBase (l : List Port) (s : State) : (l.foldl State.clockPort s).timeBase = s.timeBase := by
  induction l generalizing s with
  | nil => rfl
  | cons a l ih => rw [List.foldl_cons, ih, clockPort_timeBase]

/-- A period at the time base changes the time base and the scrubber's counts alone. -/
theorem clockTimeBase_eq (s : State) : s.clockTimeBase =
    { s with timeBase := s.clockTimeBase.timeBase, scrubber := s.clockTimeBase.scrubber } := by
  unfold State.clockTimeBase State.tickEvent
  split
  · split <;> rfl
  · rfl

/-- A storage error changes no time base, no scrubber and no port. -/
theorem takeUpset_apart (s : State) : s.takeUpset.timeBase = s.timeBase ∧ s.takeUpset.scrubber = s.scrubber
    ∧ s.takeUpset.links = s.links := by
  unfold State.takeUpset State.strike
  split
  · exact ⟨rfl, rfl, rfl⟩
  · split <;> exact ⟨rfl, rfl, rfl⟩

end Sys2Proof.Machine
end

