-- ==== Sys2Proof/Laws/Frames.lean ====
section
/-! SUPPORT. Octets and bits: what is written is read back, and how a frame is taken from the bits received. -/

namespace Sys2Proof.Machine

theorem octetOfBits_bitsOfOctet : ∀ o : Octet, octetOfBits (bitsOfOctet o) = o := by decide +kernel

/-- Octets written as bits are read back, with what follows them. -/
theorem wholeOctets_append : ∀ (os : List Octet) (rest : List Bool),
    wholeOctets (bitsOfOctets os ++ rest) = os ++ wholeOctets rest
  | [], rest => rfl
  | o :: os, rest => by
    have h : bitsOfOctets (o :: os) ++ rest
        = o.getMsbD 0 :: o.getMsbD 1 :: o.getMsbD 2 :: o.getMsbD 3 :: o.getMsbD 4 :: o.getMsbD 5
          :: o.getMsbD 6 :: o.getMsbD 7 :: (bitsOfOctets os ++ rest) := by
      simp [bitsOfOctets, bitsOfOctet]
    rw [h]
    show octetOfBits (bitsOfOctet o) :: wholeOctets (bitsOfOctets os ++ rest) = _
    rw [octetOfBits_bitsOfOctet, wholeOctets_append os rest]
    rfl

theorem length_bitsOfOctets : ∀ os : List Octet, (bitsOfOctets os).length = 8 * os.length
  | [] => rfl
  | o :: os => by
    have := length_bitsOfOctets os
    simp only [bitsOfOctets, List.flatMap_cons, List.length_append, List.length_cons] at this ⊢
    rw [this]
    simp only [bitsOfOctet, List.length_cons, List.length_nil]
    omega

theorem length_octetsOf : ∀ n v : Nat, (octetsOf n v).length = n
  | 0, _ => rfl
  | n + 1, v => by simp [octetsOf, length_octetsOf n v]

theorem drop_bitsOfOctets (os : List Octet) (rest : List Bool) :
    (bitsOfOctets os ++ rest).drop (8 * os.length) = rest := by
  rw [← length_bitsOfOctets os]
  simp

/-- A frame with a length octet of 250 or less, received whole: it is judged, and the bits behind its last
check octet are left. -/
theorem takeFrame_whole (header length : Octet) (payload check : List Octet) (rest : List Bool)
    (hl : length.toNat = payload.length) (hp : payload.length ≤ 250) (hc : check.length = 2) :
    takeFrame (bitsOfOctets (header :: length :: (payload ++ check)) ++ rest)
      = some (judge header length payload check, rest) := by
  unfold takeFrame
  rw [wholeOctets_append]
  simp only [List.cons_append]
  have h1 : ¬ length.toNat > Config.payloadMax := by
    rw [hl]; exact Nat.not_lt.mpr hp
  have h2 : ¬ (payload ++ check ++ wholeOctets rest).length < length.toNat + 2 := by
    simp only [List.length_append, hl, hc]
    omega
  rw [if_neg h1, if_neg h2]
  have h3 : (payload ++ check ++ wholeOctets rest).take length.toNat = payload := by
    rw [hl, List.append_assoc, List.take_left]
  have h4 : ((payload ++ check ++ wholeOctets rest).drop length.toNat).take 2 = check := by
    rw [hl, List.append_assoc, List.drop_left, ← hc, List.take_left]
  have h5 : (bitsOfOctets (header :: length :: (payload ++ check)) ++ rest).drop (8 * (length.toNat + 4))
      = rest := by
    have := drop_bitsOfOctets (header :: length :: (payload ++ check)) rest
    simp only [List.length_cons, List.length_append, hc] at this
    rw [hl]
    exact this
  rw [h3, h4, h5]

/-- A frame whose length octet is above 250 ends at that octet (Table 10-1). -/
theorem takeFrame_long (header length : Octet) (rest : List Bool) (hl : 250 < length.toNat) :
    takeFrame (bitsOfOctets [header, length] ++ rest) = some (.bad .length, rest) := by
  unfold takeFrame
  rw [wholeOctets_append]
  simp only [List.cons_append, List.nil_append]
  rw [if_pos (show length.toNat > Config.payloadMax from hl)]
  have := drop_bitsOfOctets [header, length] rest
  simp only [List.length_cons, List.length_nil] at this
  rw [show (8 * (0 + 1 + 1)) = 16 from rfl] at this
  rw [this]

theorem toNat_octet {v : Nat} (h : v < 256) : (octet v).toNat = v := by
  unfold octet
  rw [BitVec.toNat_ofNat]
  exact Nat.mod_eq_of_lt h

theorem header_toNat (f : Frame) : f.header.toNat = f.seq.toNat * 16 + f.kind.code := by
  have h1 := f.seq.isLt
  have h2 : f.kind.code < 16 := by cases f.kind <;> decide
  exact toNat_octet (by omega)

/-- The controller's own frame, read by its receiver. -/
theorem takeFrame_afterStart (f : Frame) (rest : List Bool) (hp : f.payload.length ≤ 250) :
    takeFrame (bitsOfOctets f.afterStart ++ rest)
      = some (judge f.header (octet f.payload.length) f.payload
          (octetsOf 2 (crc16 (f.header :: octet f.payload.length :: f.payload)).toNat), rest) :=
  takeFrame_whole f.header (octet f.payload.length) f.payload _ rest (toNat_octet (by omega)) hp
    (length_octetsOf 2 _)

/-- The start octet is found in the bits that form it (R152). -/
theorem hunt_start (rest : List Bool) : hunt [] (bitsOfOctet 0xA5 ++ rest) = .receiving rest 0 := by
  rfl

end Sys2Proof.Machine
end

