-- ==== Sys2Proof/Laws/Leaving.lean ====
section
/-! SUPPORT. What the emptying of a port that leaves UP can do. -/

namespace Sys2Proof.Machine

/-- What adds nothing to the queue or the outstanding set of a port that is not UP. -/
structure Shut (p : Port) (s t : State) : Prop where
  links : Confined s t
  kept : s.isUp p = false → t.notices.queues[p].Sublist s.notices.queues[p]
    ∧ t.notices.outstanding[p].Sublist s.notices.outstanding[p]

theorem Shut.refl (p) (s : State) : Shut p s s := ⟨.refl s, fun _ => ⟨.refl _, .refl _⟩⟩

theorem Shut.trans {p} {s t u : State} (a : Shut p s t) (b : Shut p t u) : Shut p s u :=
  ⟨a.links.trans b.links, fun h => by
    have h' : t.isUp p = false := by rw [a.links.isUp]; exact h
    exact ⟨(b.kept h').1.trans (a.kept h).1, (b.kept h').2.trans (a.kept h).2⟩⟩

theorem Shut.of {p} {s t : State} (c : Confined s t) (h1 : t.notices.queues = s.notices.queues)
    (h2 : t.notices.outstanding = s.notices.outstanding) : Shut p s t :=
  ⟨c, fun _ => ⟨by rw [h1], by rw [h2]⟩⟩

theorem shut_joinQueue (p q : Port) (s : State) (e : Entry) (hq : s.isUp q = true) :
    Shut p s (s.joinQueue q e) :=
  ⟨confined_joinQueue s q e, fun h => by
    have hne : p ≠ q := by rintro rfl; rw [h] at hq; cases hq
    have e : (s.joinQueue q e).notices.queues[p] = s.notices.queues[p] := set_port_other _ _ _ _ hne
    exact ⟨by rw [e], .refl _⟩⟩

/-- An entry leaves its collection. -/
theorem shut_dropEntry (p : Port) (s : State) (place : EntryPlace) (e : Entry) :
    Shut p s (s.dropEntry place e) :=
  ⟨confined_dropEntry s place e, fun _ => by
    cases place with
    | queued q =>
      refine ⟨?_, .refl _⟩
      show ((s.modifyQueue q _).notices.queues[p]).Sublist _
      rw [queues_modifyQueue]
      split
      · exact List.erase_sublist
      · exact .refl _
    | outstanding q =>
      refine ⟨.refl _, ?_⟩
      show ((s.notices.outstanding.set q.val (s.notices.outstanding[q].erase e) q.isLt)[p]).Sublist _
      by_cases h : p = q
      · subst h
        rw [set_port_same]
        exact List.erase_sublist
      · rw [set_port_other _ _ _ _ h]
    | holding k => exact ⟨.refl _, .refl _⟩⟩

theorem accepting_up {s : State} {p : Port} (h : s.accepting p = true) : s.isUp p = true := by
  unfold State.accepting at h; simp at h; exact h.1

theorem shut_assign (p q : Port) (k : Pool) (s : State) (e : Entry) (hq : s.isUp q = true) :
    Shut p s (s.assign k q e) :=
  Shut.trans (t := s.setPool k (s.pools[k].erase q ++ [q])) (.of (confined_setPool _ _ _) rfl rfl)
      (shut_joinQueue p q _ e hq)

theorem shut_servePoolFrom (p : Port) (k : Pool) :
    ∀ (l : List Entry) (s : State), Shut p s (servePoolFrom k l s)
  | [], s => .refl p s
  | e :: rest, s => by
    unfold servePoolFrom
    split
    · exact shut_servePoolFrom p k rest s
    · split
      · exact .refl p s
      · rename_i q hq
        have hup := accepting_up (List.find?_some hq)
        refine Shut.trans ?_ (shut_servePoolFrom p k rest _)
        exact Shut.trans (t := s.dropEntry (.holding k) e) (.of (confined_dropEntry _ _ _) rfl rfl)
            (shut_assign p q k _ e hup)

theorem shut_offer (p : Port) (k : Pool) (s : State) (e : Entry) : Shut p s (s.offer k e) := by
  unfold State.offer; split
  · exact .of (confined_joinHolding _ _ _) rfl rfl
  · split
    · exact Shut.trans (t := s.joinHolding k e) (.of (confined_joinHolding _ _ _) rfl rfl)
          (shut_servePoolFrom p k _ _)
    · split
      · exact .of (confined_joinHolding _ _ _) rfl rfl
      · rename_i q hq
        exact shut_assign p q k s e (accepting_up (List.find?_some hq))

theorem shut_place (p : Port) (s : State) (e : Entry) (h : s.reachable e.destination = true) :
    Shut p s (s.place e) := by
  unfold State.place
  split
  · rename_i q hq
    rw [hq] at h
    exact shut_joinQueue p q _ _ h
  · exact shut_offer p _ _ _

theorem shut_create (p : Port) (s : State) (i : SlotIx) (n : Nat) (e : Entry)
    (h : s.reachable e.destination = true) : Shut p s (s.create i n e) :=
  Shut.trans (t := s.advanceStamp.modify i fun r => { r with notice := .pending, holder := none,
                                                             overrun := 0 })
      (.of ((confined_advanceStamp s).trans (confined_modify _ _ _)) rfl rfl) (shut_place p _ _ h)

theorem shut_createFault (p : Port) (s : State) (i n d) (h : s.isUp (s.faultPort (s.record i)) = true) :
    Shut p s (s.createFault i n d) :=
  (shut_create p s i n (s.faultEntry i (s.record i) d) h).trans
      (.of (.of_eq rfl rfl rfl rfl rfl rfl rfl rfl id) rfl rfl)

theorem shut_takeBlocked (p : Port) (s : State) (i : SlotIx) : Shut p s (s.takeBlocked i) := by
  refine ⟨confined_takeBlocked s i, fun _ => ?_⟩
  suffices h : (s.takeBlocked i).notices.queues[p] = s.notices.queues[p]
      ∧ (s.takeBlocked i).notices.outstanding[p] = s.notices.outstanding[p] by
    exact ⟨by rw [h.1], by rw [h.2]⟩
  have key : ∀ t : State, (t.notices.queues = s.notices.queues ∧ t.notices.outstanding =
      s.notices.outstanding) →
     (t.withNotices { t.notices with blocked := t.notices.blocked.drop 1 }).notices.queues[p] =
        s.notices.queues[p]
        ∧ (t.withNotices { t.notices with blocked := t.notices.blocked.drop 1 }).notices.outstanding[p]
          = s.notices.outstanding[p] := by
    rintro t ⟨a, b⟩
    exact ⟨by show t.notices.queues[p] = _; rw [a], by show t.notices.outstanding[p] = _; rw [b]⟩
  unfold State.takeBlocked; dsimp only
  apply key
  have rI : ∀ u : State, (u.repairIdentity i).notices = u.notices := by intro u; rw [repairIdentity_eq]
  have rT : ∀ u : State, (u.repairTiming i).notices = u.notices := by intro u; rw [repairTiming_eq]
  have dD : ∀ (u : State) part, (u.declareDamaged i part).notices.queues = u.notices.queues ∧
      (u.declareDamaged i part).notices.outstanding = u.notices.outstanding := by
    intro u part
    have := declareDamaged_notices u i part
    exact ⟨by rw [this], by rw [this]⟩
  unfold State.readWith; dsimp only
  split
  · split
    · exact ⟨rfl, rfl⟩
    · rw [rI]; exact ⟨rfl, rfl⟩
  · split
    · exact ⟨rfl, rfl⟩
    · rw [rT]; exact ⟨rfl, rfl⟩
  · split
    · unfold State.declareIdentityLost State.loseIdentity State.dropOwned
      split <;> exact ⟨rfl, rfl⟩
    · rw [rI]; exact ⟨rfl, rfl⟩
  · split
    · have := dD (s.repairTiming i) .identity; rw [rT] at this; exact this
    · split
      · have := dD (s.repairIdentity i) .timing; rw [rI] at this; exact this
      · rw [rT, rI]; exact ⟨rfl, rfl⟩

theorem shut_setNotice (p : Port) (s : State) (i n h) :
    Shut p s (s.setNotice i n h) := .of (confined_setNotice s i n h) rfl rfl

theorem shut_loseNotice (p : Port) (s : State) (i) :
    Shut p s (s.loseNotice i) := .of (confined_loseNotice s i) rfl rfl

theorem shut_serveBlockedFrom (p : Port) (n : Nat) :
    ∀ (l : List BlockedPlace) (s : State), Shut p s (serveBlockedFrom n l s)
  | [], s => .refl p s
  | b :: rest, s => by
    have h0 := shut_takeBlocked p s b.slot
    have k1 := (h0.trans (shut_setNotice p _ b.slot .clear none)).trans (shut_serveBlockedFrom p n rest _)
    have k2 := (h0.trans (shut_loseNotice p _ b.slot)).trans (shut_serveBlockedFrom p n rest _)
    rw [serveBlockedFrom_cons n b rest _ s rfl]; dsimp only
    split
    · exact k1
    · split
      · split
        · rename_i h; exact h0.trans (shut_createFault _ _ _ _ _ h)
        · exact k2
      · split
        · rename_i h
          split
          · exact h0.trans (shut_create _ _ _ _ _ h)
          · exact k1
        · exact k2

theorem shut_serveBlocked (p : Port) (s : State) : Shut p s s.serveBlocked := by
  unfold State.serveBlocked; split
  · exact .refl p s
  · exact shut_serveBlockedFrom p _ _ s

theorem shut_raiseFault (p : Port) (s : State) (i) : Shut p s (s.raiseFault i) := by
  unfold State.raiseFault; dsimp only
  split
  · rename_i h
    split
    · exact .of (confined_block s i _) rfl rfl
    · exact shut_createFault p s i _ false h
  · exact shut_loseNotice p s i

theorem shut_treatLeaving (p : Port) (s : State) (o : Bool) (e : Entry) : Shut p s (s.treatLeaving o e) := by
  unfold State.treatLeaving
  split
  · exact .refl p s
  · rename_i i _
    have k := (shut_loseNotice p s i).trans (shut_serveBlocked p _)
    dsimp only
    split
    · exact .refl p s
    · exact k
    · split
      · exact k.trans (shut_raiseFault p _ i)
      · exact (shut_setNotice p s i _ _).trans (shut_offer p _ _ _)
    · split
      · exact k.trans (shut_raiseFault p _ i)
      · exact k

theorem shut_moveToFaultPort (p : Port) (s : State) (i place e e' q) :
    Shut p s (s.moveToFaultPort i place e e' q) := by
  unfold State.moveToFaultPort
  have d := shut_dropEntry p s place e
  split
  · rename_i h
    exact d.trans (shut_joinQueue p q _ _ (by rw [d.links.isUp]; exact h))
  · exact (d.trans (shut_loseNotice p _ i)).trans (shut_serveBlocked p _)

theorem shut_declareDamaged (p : Port) (s : State) (i part) : Shut p s (s.declareDamaged i part) := by
  have h := declareDamaged_notices s i part
  exact .of (confined_declareDamaged s i part) (by rw [h]) (by rw [h])

theorem shut_declareIdentityLost (p : Port) (s : State) (i) : Shut p s (s.declareIdentityLost i) := by
  refine .of (confined_declareIdentityLost s i) ?_ ?_ <;>
    · unfold State.declareIdentityLost State.loseIdentity State.dropOwned
      split <;> rfl

theorem shut_damage (p : Port) (s : State) (i part) : Shut p s (s.damage i part) := by
  unfold State.damage
  refine (shut_declareDamaged p s i part).trans ?_
  unfold State.treatNotice
  dsimp only
  split
  · exact shut_raiseFault p _ i
  · exact shut_moveToFaultPort p _ i _ _ _ _
  · exact .refl p _

theorem shut_escalate (p : Port) (s : State) (i) : Shut p s (s.escalate i) := by
  unfold State.escalate
  dsimp only
  refine (shut_declareIdentityLost p s i).trans ?_
  split
  · exact shut_raiseFault p _ i
  · exact shut_moveToFaultPort p _ i _ _ _ _
  · exact .refl p _

theorem shut_repairIdentity (p : Port) (s : State) (i) : Shut p s (s.repairIdentity i) :=
  .of (confined_repairIdentity s i) (by rw [notices_repairIdentity]) (by rw [notices_repairIdentity])

theorem shut_repairTiming (p : Port) (s : State) (i) : Shut p s (s.repairTiming i) :=
  .of (confined_repairTiming s i) (by rw [notices_repairTiming]) (by rw [notices_repairTiming])

/-- A read adds nothing to what a port that is not UP has. -/
theorem shut_readSlot (p : Port) (s : State) (i) : Shut p s (s.readSlot i) := by
  unfold State.readSlot State.readWith
  dsimp only
  split
  · split
    · exact .of (confined_rewriteFree s i) rfl rfl
    · exact shut_repairIdentity p s i
  · split
    · exact .refl p s
    · exact shut_repairTiming p s i
  · split
    · exact shut_escalate p s i
    · exact shut_repairIdentity p s i
  · split
    · exact (shut_repairTiming p s i).trans (shut_damage p _ i _)
    · split
      · exact (shut_repairIdentity p s i).trans (shut_damage p _ i _)
      · exact (shut_repairIdentity p s i).trans (shut_repairTiming p _ i)

theorem shut_readNamed (p : Port) (s : State) (e : Entry) : Shut p s (s.readNamed e) := by
  unfold State.readNamed
  split
  · exact .refl p s
  · exact shut_readSlot p s _

/-- What changes no record but those of the slots listed and those on the blocked list. -/
structure Reach (S : List (Option SlotIx)) (s t : State) : Prop where
  records : ∀ i, some i ∉ S → (∀ b ∈ s.notices.blocked, b.slot ≠ i) → t.record i = s.record i
  blocked : ∀ b ∈ t.notices.blocked, some b.slot ∈ S ∨ ∃ c ∈ s.notices.blocked, c.slot = b.slot

theorem Reach.refl (S) (s : State) : Reach S s s := ⟨fun _ _ _ => rfl, fun b hb => .inr ⟨b, hb, rfl⟩⟩

theorem Reach.append {S T : List (Option SlotIx)} {s t u : State} (a : Reach S s t) (b : Reach T t u) :
    Reach (S ++ T) s u where
  records i hi hb := by
    rw [List.mem_append, not_or] at hi
    rw [b.records i hi.2 ?_, a.records i hi.1 hb]
    intro c hc e
    rcases a.blocked c hc with h | ⟨d, hd, h⟩
    · exact hi.1 (e ▸ h)
    · exact hb d hd (h.trans e)
  blocked c hc := by
    rcases b.blocked c hc with h | ⟨d, hd, h⟩
    · exact .inl (List.mem_append.mpr (.inr h))
    · rcases a.blocked d hd with g | ⟨e, he, g⟩
      · exact .inl (List.mem_append.mpr (.inl (h ▸ g)))
      · exact .inr ⟨e, he, g.trans h⟩

theorem Near.reach {i : SlotIx} {s t : State} (h : Near i s t) : Reach [some i] s t where
  records j hj hb := h.records j (by simpa using hj) hb
  blocked b hb := by
    rcases h.blocked b hb with e | e
    · left; simp [e]
    · exact .inr e

theorem reach_treatLeaving (s : State) (o : Bool) (e : Entry) : Reach [e.slot] s (s.treatLeaving o e) := by
  unfold State.treatLeaving
  cases he : e.slot with
  | none => exact .refl _ s
  | some i =>
    apply Near.reach
    have k := (near_loseNotice s i).trans (near_serveBlocked i _)
    dsimp only
    split
    · exact .refl i s
    · exact k
    · split
      · exact k.trans (near_raiseFault _ i)
      · exact (near_setNotice s i _ _).trans ((moved_offer _ _ _).near i)
    · split
      · exact k.trans (near_raiseFault _ i)
      · exact k

theorem dropEntry_queued (s : State) (p : Port) (e : Entry) :
    (s.dropEntry (.queued p) e).notices.queues[p] = s.notices.queues[p].erase e := set_port_same _ _ _

theorem dropEntry_outstanding (s : State) (p : Port) (e : Entry) :
    (s.dropEntry (.outstanding p) e).notices.outstanding[p] = s.notices.outstanding[p].erase e :=
    set_port_same _ _ _

theorem reach_moved {s t : State} (h : Moved s t) :
    Reach [] s t := ⟨fun i _ _ => h.record i, fun b hb => .inr ⟨b, by rw [← h.blocked]; exact hb, rfl⟩⟩

/-- Fewer slots are named. -/
theorem Reach.mono {S T : List (Option SlotIx)} {s t : State} (a : Reach S s t) (h : S ⊆ T) : Reach T s t where
  records i hi hb := a.records i (fun hm => hi (h hm)) hb
  blocked b hb := (a.blocked b hb).imp (fun hm => h hm) id

theorem reach_readNamed (s : State) (e : Entry) : Reach [e.slot] s (s.readNamed e) := by
  unfold State.readNamed
  cases e.slot with
  | none => exact .refl _ s
  | some i => exact (near_readSlot s i).reach

/-- The treatment of one entry of a leaving port's queue. -/
theorem leaveQueueEntry_facts (p : Port) (s : State) (e : Entry) (hu : s.isUp p = false) :
    Shut p s (s.leaveQueueEntry p e) ∧ Reach [e.slot] s (s.leaveQueueEntry p e)
      ∧ (s.leaveQueueEntry p e).notices.queues[p].Sublist (s.notices.queues[p].erase e) := by
  have rd := shut_readNamed p s e
  have rr := reach_readNamed s e
  unfold State.leaveQueueEntry
  dsimp only
  split
  · have dr := shut_dropEntry p (s.readNamed e) (.queued p) e
    have tr := shut_treatLeaving p ((s.readNamed e).dropEntry (.queued p) e) false e
    refine ⟨(rd.trans dr).trans tr, ?_, ?_⟩
    · refine ((rr.append (reach_moved (moved_dropEntry _ (.queued p) e))).append
        (reach_treatLeaving _ false e)).mono ?_
      simp
    · refine (tr.kept (by rw [dr.links.isUp, rd.links.isUp]; exact hu)).1.trans ?_
      rw [dropEntry_queued]
      exact (rd.kept hu).1.erase e
  · rename_i h
    refine ⟨rd, rr, ?_⟩
    have := (rd.kept hu).1.erase e
    rwa [List.erase_of_not_mem h] at this

/-- The treatment of one entry of a leaving port's outstanding set. -/
theorem leaveOutstandingEntry_facts (p : Port) (s : State) (e : Entry) (hu : s.isUp p = false) :
    Shut p s (s.leaveOutstandingEntry p e) ∧ Reach [e.slot] s (s.leaveOutstandingEntry p e)
      ∧ (s.leaveOutstandingEntry p e).notices.outstanding[p].Sublist (s.notices.outstanding[p].erase e) := by
  have rd := shut_readNamed p s e
  have rr := reach_readNamed s e
  unfold State.leaveOutstandingEntry
  dsimp only
  split
  · have dr := shut_dropEntry p (s.readNamed e) (.outstanding p) e
    have tr := shut_treatLeaving p ((s.readNamed e).dropEntry (.outstanding p) e) true e
    refine ⟨(rd.trans dr).trans tr, ?_, ?_⟩
    · refine ((rr.append (reach_moved (moved_dropEntry _ (.outstanding p) e))).append
        (reach_treatLeaving _ true e)).mono ?_
      simp
    · refine (tr.kept (by rw [dr.links.isUp, rd.links.isUp]; exact hu)).2.trans ?_
      rw [dropEntry_outstanding]
      exact (rd.kept hu).2.erase e
  · rename_i h
    refine ⟨rd, rr, ?_⟩
    have := (rd.kept hu).2.erase e
    rwa [List.erase_of_not_mem h] at this

/-- The emptying of the queue of a port that has left UP (R112): what it held is treated or converted. -/
theorem leaveQueue_fold (p : Port) :
    ∀ (l : List Entry) (s : State), s.isUp p = false → s.notices.queues[p].Sublist l →
    (l.foldl (State.leaveQueueEntry p) s).notices.queues[p] = []
    ∧ Shut p s (l.foldl (State.leaveQueueEntry p) s)
    ∧ Reach (l.map Entry.slot) s (l.foldl (State.leaveQueueEntry p) s)
  | [], s, _, h => ⟨List.sublist_nil.mp h, .refl p s, .refl _ s⟩
  | e :: l, s, hu, h => by
    obtain ⟨a, b, c⟩ := leaveQueueEntry_facts p s e hu
    have h1 : (s.leaveQueueEntry p e).notices.queues[p].Sublist l := by
      have := c.trans (h.erase e)
      rwa [List.erase_cons_head] at this
    obtain ⟨x, y, z⟩ := leaveQueue_fold p l _ (by rw [a.links.isUp]; exact hu) h1
    rw [List.foldl_cons]
    exact ⟨x, a.trans y, b.append z⟩

/-- The emptying of the outstanding set of a port that has left UP (R112). -/
theorem leaveOutstanding_fold (p : Port) :
    ∀ (l : List Entry) (s : State), s.isUp p = false → s.notices.outstanding[p].Sublist l →
    (l.foldl (State.leaveOutstandingEntry p) s).notices.outstanding[p] = []
    ∧ Shut p s (l.foldl (State.leaveOutstandingEntry p) s)
    ∧ Reach (l.map Entry.slot) s (l.foldl (State.leaveOutstandingEntry p) s)
  | [], s, _, h => ⟨List.sublist_nil.mp h, .refl p s, .refl _ s⟩
  | e :: l, s, hu, h => by
    obtain ⟨a, b, c⟩ := leaveOutstandingEntry_facts p s e hu
    have h1 : (s.leaveOutstandingEntry p e).notices.outstanding[p].Sublist l := by
      have := c.trans (h.erase e)
      rwa [List.erase_cons_head] at this
    obtain ⟨x, y, z⟩ := leaveOutstanding_fold p l _ (by rw [a.links.isUp]; exact hu) h1
    rw [List.foldl_cons]
    exact ⟨x, a.trans y, b.append z⟩

/-- After R112 a port that has left UP has no entry in its queue or outstanding set. -/
theorem emptyPort_facts (s : State) (p : Port) (h : s.isUp p = false) :
    (s.emptyPort p).notices.queues[p] = [] ∧ (s.emptyPort p).notices.outstanding[p] = [] ∧ Confined s
        (s.emptyPort p)
    ∧ Reach (s.notices.queues[p].map Entry.slot ++ s.notices.outstanding[p].map Entry.slot) s (s.emptyPort p) :=
        by
  obtain ⟨a, b, d⟩ := leaveQueue_fold p s.notices.queues[p] s h (.refl _)
  unfold State.emptyPort
  dsimp only
  generalize s.notices.queues[p].foldl (State.leaveQueueEntry p) s = u at *
  have hu : u.isUp p = false := by rw [b.links.isUp]; exact h
  obtain ⟨a', b', d'⟩ := leaveOutstanding_fold p u.notices.outstanding[p] u hu (.refl _)
  refine ⟨?_, a', b.links.trans b'.links, d.append (d'.mono ?_)⟩
  · have := (b'.kept hu).1
    rw [a] at this
    exact List.sublist_nil.mp this
  · exact ((b.kept h).2.map Entry.slot).subset

/-- A port with one entry is emptied by the treatment of that entry. -/
theorem leaveOne_read (s : State) (p : Port) (e : Entry) (hup : s.isUp p = false) :
    (s.notices.queues[p] = [e] → s.notices.outstanding[p] = [] →
      s.emptyPort p = s.leaveQueueEntry p e)
    ∧ (s.notices.queues[p] = [] → s.notices.outstanding[p] = [e] →
      s.emptyPort p = s.leaveOutstandingEntry p e) := by
  refine ⟨fun h1 h2 => ?_, fun h1 h2 => ?_⟩
  · obtain ⟨_, b, _⟩ := leaveQueue_fold p s.notices.queues[p] s hup (.refl _)
    have := (b.kept hup).2
    rw [h2] at this
    have := List.sublist_nil.mp this
    unfold State.emptyPort
    dsimp only
    rw [this, h1]
    rfl
  · unfold State.emptyPort
    dsimp only
    rw [h1]
    show List.foldl _ s s.notices.outstanding[p] = _
    rw [h2]
    rfl

/-- A port with one entry that its read leaves in its collection: the treatment of that entry alone (Table
6-5). -/
theorem emptyPort_one (s : State) (p : Port) (e : Entry)
    (h : (s.notices.queues[p] = [e] ∧ s.notices.outstanding[p] = [] ∧ e ∈ (s.readNamed e).notices.queues[p]) ∨
    (s.notices.queues[p] = [] ∧ s.notices.outstanding[p] = [e]
      ∧ e ∈ (s.readNamed e).notices.outstanding[p])) (hup : s.isUp p = false) :
    ∃ place o, s.emptyPort p = ((s.readNamed e).dropEntry place e).treatLeaving o e
      ∧ e ∈ (s.readNamed e).listAt place := by
  obtain ⟨q, o⟩ := leaveOne_read s p e hup
  rcases h with ⟨h1, h2, h3⟩ | ⟨h1, h2, h3⟩
  · refine ⟨.queued p, false, ?_, h3⟩
    rw [q h1 h2]
    exact if_pos h3
  · refine ⟨.outstanding p, true, ?_, h3⟩
    rw [o h1 h2]
    exact if_pos h3

/-! ### The links of a port that leaves UP -/

theorem aside_treatLeaving (s : State) (o : Bool) (e : Entry) : Aside s (s.treatLeaving o e) := by
  unfold State.treatLeaving
  split
  · exact .refl s
  · rename_i i _
    have lost := (aside_loseNotice s i).trans (aside_serveBlocked _)
    dsimp only
    split
    · exact .refl s
    · exact lost
    · split
      · exact lost.trans (aside_raiseFault _ i)
      · exact (aside_setNotice s i _ _).trans ((moved_offer _ _ _).aside (links_offer _ _ _))
    · split
      · exact lost.trans (aside_raiseFault _ i)
      · exact lost

theorem aside_readNamed (s : State) (e : Entry) : Aside s (s.readNamed e) := by
  unfold State.readNamed
  split
  · exact .refl s
  · exact aside_readSlot s _

theorem aside_leaveQueueEntry (p : Port) (s : State) (e : Entry) : Aside s (s.leaveQueueEntry p e) := by
  unfold State.leaveQueueEntry
  dsimp only
  split
  · exact ((aside_readNamed s e).trans ((moved_dropEntry _ _ e).aside (links_dropEntry _ _ e))).trans
      (aside_treatLeaving _ false e)
  · exact aside_readNamed s e

theorem aside_leaveOutstandingEntry (p : Port) (s : State) (e : Entry) :
    Aside s (s.leaveOutstandingEntry p e) := by
  unfold State.leaveOutstandingEntry
  dsimp only
  split
  · exact ((aside_readNamed s e).trans ((moved_dropEntry _ _ e).aside (links_dropEntry _ _ e))).trans
      (aside_treatLeaving _ true e)
  · exact aside_readNamed s e

theorem Aside.foldl {α : Type} (f : State → α → State) (h : ∀ s a, Aside s (f s a)) :
    ∀ (l : List α) (s : State), Aside s (l.foldl f s)
  | [], s => .refl s
  | a :: l, s => (h s a).trans (Aside.foldl f h l (f s a))

/-- The emptying of a port that has left UP drives no attention line (R112). -/
theorem aside_emptyPort (s : State) (p : Port) : Aside s (s.emptyPort p) :=
  (Aside.foldl _ (aside_leaveQueueEntry p) _ s).trans (Aside.foldl _ (aside_leaveOutstandingEntry p) _ _)

theorem shut_settle (p : Port) (s : State) : Shut p s s.settle := by
  have served : ∀ (ks : List Pool) (s : State), Shut p s (ks.foldl State.servePool s) := by
    intro ks
    induction ks with
    | nil => exact .refl p
    | cons k ks ih => exact fun s => (shut_servePoolFrom p k s.notices.holding[k] s).trans (ih (s.servePool k))
  have driven : ∀ u : State, Shut p u u.driveLines := fun u =>
    .of (confined_driveLines u) (by rw [driveLines_notices]) (by rw [driveLines_notices])
  exact (served allPools s).trans (driven _)

theorem shut_settleSince (p : Port) (t s : State) : Shut p t (t.settleSince s) := by
  unfold State.settleSince
  split
  · exact .refl p t
  · exact shut_settle p t

theorem shut_readSlots (p : Port) : ∀ (l : List SlotIx) (s : State), Shut p s (s.readSlots l)
  | [], s => .refl p s
  | i :: l, s => (shut_readSlot p s i).trans (shut_readSlots p l (s.readSlot i))

end Sys2Proof.Machine
end

