-- ==== Sys2Proof/Laws/Tied.lean ====
section
/-! SUPPORT. The placement queue, the deadline list, the set of FREE slots and the owned counts follow the records:
what keeps them so, one lemma per operation, `tied_<operation>`. -/

namespace Sys2Proof.Machine

/-- The fields of a record that the placement queue, the deadline list and the slot sets follow. -/
def Record.seat (r : Record) : Sched × Option Tick × Generation × Option Port :=
  (r.sched, r.deadline, r.generation, r.owner)

/-- Each slot but an open one stands where its record says; the open one stands in no queue and no list. -/
structure Tied (x : Option SlotIx) (s : State) : Prop where
  wf : s.table.wf
  queueOnce : s.placement.queue.Nodup
  queue : ∀ i, some i ≠ x → (i ∈ s.placement.queue ↔ (s.record i).sched = .queued)
  part : s.placement.rebuildPart ≤ s.placement.queue.length
  placing : ∀ i, some i ≠ x → (s.record i).sched = .placing →
    ∃ c, s.placement.carried = some c ∧ c.slot = i ∧ c.generation = (s.record i).generation
  listOnce : s.listOrder.Nodup
  list : ∀ i, some i ≠ x → (i ∈ s.listOrder ↔ (s.record i).sched = .armed)
  out : ∀ i, x = some i → i ∉ s.placement.queue ∧ i ∉ s.listOrder
  sorted : s.listOrder.Pairwise fun i j => (s.record i).due ≤ (s.record j).due
  failed : s.expiry.listState = .failed →
    s.expiry.list = [] ∧ ∀ c, s.placement.carried = some c → c.overtaken = true
  window : ∀ f, s.expiry.firing = some f →
    f.window ≠ [] ∧ f.window.Nodup ∧ (∀ i ∈ f.window, i ∈ s.listOrder) ∧ f.companions < 8
  slots : s.SlotsTied

theorem tied_iff (s : State) :
    Tied none s ↔ s.table.wf ∧ s.QueueTied ∧ s.ListTied ∧ s.SlotsTied :=
  ⟨fun h => ⟨h.wf, ⟨h.queueOnce, fun i => h.queue i (by simp), h.part, fun i => h.placing i (by simp)⟩,
      ⟨h.listOnce, fun i => h.list i (by simp), h.sorted, h.failed, h.window⟩, h.slots⟩,
    fun ⟨w, ⟨a, b, c, d⟩, ⟨e, f, g, k, l⟩, m⟩ =>
      ⟨w, a, fun i _ => b i, c, fun i _ => d i, e, fun i _ => f i, fun i hi => (by cases hi), g, k, l, m⟩⟩

/-! ### Operations that move no record -/

/-- `t` came from `s` by an operation that moves no record to or from a queue, a list or a slot set. -/
structure Quiet (s t : State) : Prop where
  wf : s.table.wf → t.table.wf
  placement : t.placement = s.placement
  expiry : t.expiry = s.expiry
  occupied : t.table.occupied = s.table.occupied
  owned : t.table.owned = s.table.owned
  seat : ∀ i, (t.record i).seat = (s.record i).seat
  mark : ∀ i, (s.record i).sched = .free → (s.record i).mark = none → (t.record i).mark = none

namespace Quiet

theorem refl (s : State) : Quiet s s := ⟨id, rfl, rfl, rfl, rfl, fun _ => rfl, fun _ _ h => h⟩

theorem sched {s t : State} (h : Quiet s t) (i : SlotIx) : (t.record i).sched = (s.record i).sched :=
  congrArg Prod.fst (h.seat i)

theorem due {s t : State} (h : Quiet s t) (i : SlotIx) : (t.record i).due = (s.record i).due :=
  congrArg (fun x => (x.2.1.map BitVec.toNat).getD 0) (h.seat i)

theorem generation {s t : State} (h : Quiet s t) (i : SlotIx) : (t.record i).generation = (s.record i).generation :=
  congrArg (fun x => x.2.2.1) (h.seat i)

theorem owner {s t : State} (h : Quiet s t) (i : SlotIx) : (t.record i).owner = (s.record i).owner :=
  congrArg (fun x => x.2.2.2) (h.seat i)

theorem trans {s t u : State} (a : Quiet s t) (b : Quiet t u) : Quiet s u :=
  ⟨b.wf ∘ a.wf, b.placement.trans a.placement, b.expiry.trans a.expiry, b.occupied.trans a.occupied,
    b.owned.trans a.owned, fun i => (b.seat i).trans (a.seat i),
    fun i h1 h2 => b.mark i (by rw [a.sched]; exact h1) (a.mark i h1 h2)⟩

theorem foldl {α : Type} (f : State → α → State) (h : ∀ s a, Quiet s (f s a)) :
    ∀ (l : List α) (s : State), Quiet s (l.foldl f s)
  | [], s => refl s
  | a :: l, s => (h s a).trans (foldl f h l (f s a))

theorem ite {c : Prop} [Decidable c] {s t u : State} (a : Quiet s t) (b : Quiet s u) :
    Quiet s (if c then t else u) := by
  split
  · exact a
  · exact b

/-- The record table, the placement unit and the list are untouched. -/
theorem of_table {s t : State} (h1 : t.table = s.table) (h2 : t.placement = s.placement)
    (h3 : t.expiry = s.expiry) : Quiet s t :=
  ⟨fun h => by rw [h1]; exact h, h2, h3, by rw [h1], by rw [h1],
    fun i => by unfold State.record; rw [h1], fun i _ h => by unfold State.record at *; rw [h1]; exact h⟩

end Quiet

theorem Moved.quiet {s t : State} (h : Moved s t) : Quiet s t := .of_table h.table h.placement h.expiry

theorem quiet_modify (s : State) (i : SlotIx) (f : Record → Record) (h1 : (f (s.record i)).seat = (s.record i).seat)
    (h2 : (s.record i).sched = .free → (s.record i).mark = none → (f (s.record i)).mark = none) :
    Quiet s (s.modify i f) where
  wf := storeCell_wf _ i _
  placement := rfl
  expiry := rfl
  occupied := rfl
  owned := rfl
  seat j := by
    by_cases e : j = i
    · subst e; rw [State.record_modify_self]; exact h1
    · rw [State.record_modify_other _ _ _ _ e]
  mark j a b := by
    by_cases e : j = i
    · subst e; rw [State.record_modify_self]; exact h2 a b
    · rw [State.record_modify_other _ _ _ _ e]; exact b

theorem quiet_setRecord (s : State) (i : SlotIx) (r : Record) (h1 : r.seat = (s.record i).seat)
    (h2 : r.mark = (s.record i).mark) : Quiet s (s.setRecord i r) :=
  quiet_modify s i (fun _ => r) h1 fun _ h => h2.trans h

theorem quiet_setNotice (s : State) (i : SlotIx) (n : NoticeState) (h : Option Port) :
    Quiet s (s.setNotice i n h) := quiet_modify s i _ rfl fun _ h => h

theorem quiet_raiseOverrun (s : State) (i : SlotIx) (n : Nat) : Quiet s (s.raiseOverrun i n) :=
  quiet_modify s i _ rfl fun _ h => h

theorem quiet_loseNotice (s : State) (i : SlotIx) : Quiet s (s.loseNotice i) :=
  (quiet_raiseOverrun s i 1).trans (quiet_setNotice _ i _ _)

theorem quiet_create (s : State) (i : SlotIx) (n : Nat) (e : Entry) : Quiet s (s.create i n e) := by
  have a : Quiet s s.advanceStamp := .of_table rfl rfl rfl
  have b := quiet_modify s.advanceStamp i
    (fun r => { r with notice := .pending, holder := none, overrun := 0 }) rfl fun _ h => h
  exact (a.trans b).trans (moved_place _ _).quiet

theorem quiet_createFault (s : State) (i : SlotIx) (n : Nat) (delayed : Bool) :
    Quiet s (s.createFault i n delayed) :=
  (quiet_create s i n (s.faultEntry i (s.record i) delayed)).trans (.of_table rfl rfl rfl)

theorem quiet_block (s : State) (i : SlotIx) (kept : Kept) : Quiet s (s.block i kept) :=
  Quiet.trans (t := s.withNotices { s.notices with blocked := s.notices.blocked ++ [⟨i, kept⟩] })
    (.of_table rfl rfl rfl) (quiet_setNotice _ i _ _)

theorem quiet_raiseFault (s : State) (i : SlotIx) : Quiet s (s.raiseFault i) := by
  unfold State.raiseFault
  dsimp only
  split
  · split
    · exact quiet_block s i _
    · exact quiet_createFault s i _ false
  · exact quiet_loseNotice s i

theorem quiet_repairIdentity (s : State) (i : SlotIx) : Quiet s (s.repairIdentity i) := by
  unfold State.repairIdentity
  dsimp only
  split
  · exact .refl s
  · exact (quiet_setRecord s i { s.record i with copyA := .passing, copyB := .passing } rfl rfl).trans
      (.of_table rfl rfl rfl)

theorem quiet_repairTiming (s : State) (i : SlotIx) : Quiet s (s.repairTiming i) := by
  unfold State.repairTiming
  dsimp only
  split
  · exact (quiet_setRecord s i { s.record i with timingCheck := .passing } rfl rfl).trans (.of_table rfl rfl rfl)
  · exact .refl s

theorem quiet_modifyLink (s : State) (p : Port) (f : Link → Link) : Quiet s (s.modifyLink p f) :=
  .of_table rfl rfl rfl

theorem quiet_respond (s : State) (p : Port) (r : Result) (b : List Octet) : Quiet s (s.respond p r b) := by
  rw [State.respond_eq]
  exact .of_table rfl rfl rfl

/-- An operation that moves no record keeps every slot where it stands. -/
theorem Tied.quiet {x : Option SlotIx} {s t : State} (h : Tied x s) (q : Quiet s t) : Tied x t := by
  have hl : t.listOrder = s.listOrder := by unfold State.listOrder; rw [q.expiry]
  exact {
    wf := q.wf h.wf
    queueOnce := by rw [q.placement]; exact h.queueOnce
    queue := fun i hi => by rw [q.placement, q.sched]; exact h.queue i hi
    part := by rw [q.placement]; exact h.part
    placing := fun i hi hs => by
      rw [q.placement, q.generation]
      rw [q.sched] at hs
      exact h.placing i hi hs
    listOnce := by rw [hl]; exact h.listOnce
    list := fun i hi => by rw [hl, q.sched]; exact h.list i hi
    out := fun i hi => by rw [hl, q.placement]; exact h.out i hi
    sorted := by
      rw [hl]
      exact h.sorted.imp fun hd => by rw [q.due, q.due]; exact hd
    failed := fun hf => by
      rw [q.expiry] at hf ⊢
      rw [q.placement]
      exact h.failed hf
    window := fun f hf => by
      rw [hl]
      rw [q.expiry] at hf
      exact h.window f hf
    slots := by
      obtain ⟨a, b, c⟩ := h.slots
      refine ⟨fun i => ?_, fun p i => ?_, fun i hi => ?_⟩
      · rw [q.occupied, q.sched]; exact a i
      · rw [q.owned, q.owner]; exact b p i
      · rw [q.sched] at hi
        rw [q.owner]
        exact ⟨(c i hi).1, q.mark i hi (c i hi).2⟩ }

/-! ### Opening and closing a slot -/

/-- A slot that stands in no queue and no list is open. -/
theorem Tied.opened {s : State} (h : Tied none s) (i : SlotIx) (h1 : (s.record i).sched ≠ .queued)
    (h2 : (s.record i).sched ≠ .armed) : Tied (some i) s :=
  { h with
    queue := fun j _ => h.queue j (by simp)
    placing := fun j _ => h.placing j (by simp)
    list := fun j _ => h.list j (by simp)
    out := fun j hj => by
      cases hj
      exact ⟨fun hm => h1 ((h.queue i (by simp)).mp hm), fun hm => h2 ((h.list i (by simp)).mp hm)⟩ }

/-- An open slot whose record says so is closed. -/
theorem Tied.closed {s : State} {i : SlotIx} (h : Tied (some i) s) (h1 : (s.record i).sched ≠ .queued)
    (h2 : (s.record i).sched ≠ .armed) (h3 : (s.record i).sched ≠ .placing) : Tied none s :=
  { h with
    queue := fun j _ => by
      by_cases e : j = i
      · subst e
        exact ⟨fun hm => absurd hm (h.out j rfl).1, fun hs => absurd hs h1⟩
      · exact h.queue j (by simpa using e)
    placing := fun j _ hs => by
      by_cases e : j = i
      · subst e
        exact absurd hs h3
      · exact h.placing j (by simpa using e) hs
    list := fun j _ => by
      by_cases e : j = i
      · subst e
        exact ⟨fun hm => absurd hm (h.out j rfl).2, fun hs => absurd hs h2⟩
      · exact h.list j (by simpa using e)
    out := fun j hj => by cases hj }

/-- The record of an open slot is changed, its owner and whether it is FREE apart. -/
theorem Tied.modified {s : State} {i : SlotIx} (h : Tied (some i) s) (f : Record → Record)
    (h1 : (f (s.record i)).owner = (s.record i).owner)
    (h2 : (f (s.record i)).sched = .free ↔ (s.record i).sched = .free)
    (h3 : (s.record i).sched = .free → (s.record i).mark = none → (f (s.record i)).mark = none) :
    Tied (some i) (s.modify i f) := by
  have other : ∀ j, j ≠ i → (s.modify i f).record j = s.record j := fun j hj => State.record_modify_other _ _ _ _ hj
  have self : (s.modify i f).record i = f (s.record i) := State.record_modify_self _ _ _
  have member : ∀ j ∈ s.listOrder, (s.modify i f).record j = s.record j := fun j hj =>
    other j (by rintro rfl; exact (h.out j rfl).2 hj)
  exact {
    wf := storeCell_wf _ i _ h.wf
    queueOnce := h.queueOnce
    queue := fun j hj => by rw [other j (by simpa using hj)]; exact h.queue j hj
    part := h.part
    placing := fun j hj hs => by
      rw [other j (by simpa using hj)] at hs ⊢
      exact h.placing j hj hs
    listOnce := h.listOnce
    list := fun j hj => by rw [other j (by simpa using hj)]; exact h.list j hj
    out := h.out
    sorted := h.sorted.imp_of_mem fun ha hb hd => by rw [member _ ha, member _ hb]; exact hd
    failed := h.failed
    window := h.window
    slots := by
      obtain ⟨a, b, c⟩ := h.slots
      refine ⟨fun j => ?_, fun p j => ?_, fun j hj => ?_⟩
      · by_cases e : j = i
        · subst e; rw [self, Ne, h2]; exact a j
        · rw [other j e]; exact a j
      · by_cases e : j = i
        · subst e; rw [self, h1]; exact b p j
        · rw [other j e]; exact b p j
      · by_cases e : j = i
        · subst e
          rw [self] at hj ⊢
          rw [h1]
          have hf := h2.mp hj
          exact ⟨(c j hf).1, h3 hf (c j hf).2⟩
        · rw [other j e] at hj ⊢
          exact c j hj }

/-- The list state, the restart count and the companion search are changed, the list is not. -/
theorem Tied.relisted {x : Option SlotIx} {s : State} (h : Tied x s) (ls : ListState) (n : Nat) (f : Option Firing)
    (h1 : ls = .failed → s.expiry.list = [] ∧ ∀ c, s.placement.carried = some c → c.overtaken = true)
    (h2 : ∀ g, f = some g → g.window ≠ [] ∧ g.window.Nodup ∧ (∀ i ∈ g.window, i ∈ s.listOrder) ∧ g.companions < 8) :
    Tied x (s.withExpiry { s.expiry with listState := ls, restarts := n, firing := f }) :=
  { h with failed := h1, window := h2 }

theorem tied_reportRebuild {x : Option SlotIx} {s : State} (h : Tied x s) : Tied x s.reportRebuild := by
  unfold State.reportRebuild
  split
  · exact h.relisted .normal 0 s.expiry.firing (fun e => by cases e) h.window
  · exact h

/-! ### The placement queue -/

/-- A slot is taken out of the placement queue (R56). -/
theorem tied_removeQueued {s : State} {i : SlotIx} (h : Tied none s) (hi : (s.record i).sched = .queued) :
    Tied (some i) (s.removeQueued i) :=
  { h with
    queueOnce := h.queueOnce.erase i
    queue := fun j hj => by
      have e : j ≠ i := by simpa using hj
      show j ∈ s.placement.queue.erase i ↔ _
      rw [List.mem_erase_of_ne e]
      exact h.queue j (by simp)
    part := by
      show (if i ∈ s.placement.queue.take s.placement.rebuildPart then s.placement.rebuildPart - 1
        else s.placement.rebuildPart) ≤ (s.placement.queue.erase i).length
      have hm : i ∈ s.placement.queue := (h.queue i (by simp)).mpr hi
      rw [List.length_erase_of_mem hm]
      have hp := h.part
      split
      · omega
      · rename_i hn
        by_contra hc
        have : s.placement.rebuildPart = s.placement.queue.length := by omega
        rw [this, List.take_length] at hn
        exact hn hm
    placing := fun j _ => h.placing j (by simp)
    list := fun j _ => h.list j (by simp)
    out := fun j hj => by
      cases hj
      refine ⟨fun hm => ?_, fun hm => ?_⟩
      · exact (List.Nodup.not_mem_erase h.queueOnce) hm
      · rw [(h.list i (by simp)).mp hm] at hi
        cases hi }

/-- A slot is taken out of the placement queue, with the report of R55. -/
theorem tied_unqueue {s : State} {i : SlotIx} (h : Tied none s) (hi : (s.record i).sched = .queued) :
    Tied (some i) (s.unqueue i) := tied_reportRebuild (tied_removeQueued h hi)

/-- The placement queue takes an open slot at a place behind `n` others. -/
theorem Tied.seated {s : State} {i : SlotIx} (h : Tied (some i) s) (n part : Nat)
    (hp : part ≤ s.placement.queue.length + 1) (hs : (s.record i).sched ≠ .free) :
    Tied none ((s.withPlacement { s.placement with
      queue := s.placement.queue.take n ++ i :: s.placement.queue.drop n, rebuildPart := part }).setSched i
        .queued) := by
  have perm : (s.placement.queue.take n ++ i :: s.placement.queue.drop n).Perm (i :: s.placement.queue) := by
    have := List.perm_middle (a := i) (l₁ := s.placement.queue.take n) (l₂ := s.placement.queue.drop n)
    rwa [List.take_append_drop] at this
  have open1 : Tied (some i) (s.withPlacement { s.placement with rebuildPart := s.placement.rebuildPart }) := h
  have m := h.modified (fun r => { r with sched := .queued }) rfl
    ⟨fun e => (nomatch e), fun e => absurd e hs⟩ (fun e _ => absurd e hs)
  have self : (s.setSched i .queued).record i = { s.record i with sched := .queued } :=
    State.record_modify_self _ _ _
  exact {
    wf := m.wf
    queueOnce := perm.nodup_iff.mpr (List.nodup_cons.mpr ⟨(h.out i rfl).1, h.queueOnce⟩)
    queue := fun j _ => by
      show j ∈ s.placement.queue.take n ++ i :: s.placement.queue.drop n ↔ ((s.setSched i .queued).record j).sched = _
      rw [perm.mem_iff, List.mem_cons]
      by_cases e : j = i
      · subst e; rw [self]; simp
      · have := m.queue j (by simpa using e)
        refine ⟨fun hj => this.mp (hj.resolve_left e), fun hj => .inr (this.mpr hj)⟩
    part := by
      show part ≤ (s.placement.queue.take n ++ i :: s.placement.queue.drop n).length
      rw [perm.length_eq]
      exact hp
    placing := fun j _ hj => by
      by_cases e : j = i
      · subst e
        have hj' : ((s.setSched j .queued).record j).sched = .placing := hj
        rw [self] at hj'
        cases hj'
      · exact m.placing j (by simpa using e) hj
    listOnce := m.listOnce
    list := fun j _ => by
      by_cases e : j = i
      · subst e
        show j ∈ s.listOrder ↔ ((s.setSched j .queued).record j).sched = _
        rw [self]
        exact ⟨fun hj => absurd hj (h.out j rfl).2, fun hj => (nomatch hj)⟩
      · exact m.list j (by simpa using e)
    out := fun j hj => by cases hj
    sorted := m.sorted
    failed := m.failed
    window := m.window
    slots := m.slots }

/-- An open slot joins the tail of the placement queue (R54). -/
theorem tied_enqueue {s : State} {i : SlotIx} (h : Tied (some i) s) (hs : (s.record i).sched ≠ .free) :
    Tied none (s.enqueue i) := by
  have := h.seated s.placement.queue.length s.placement.rebuildPart (by have := h.part; omega) hs
  rwa [List.take_length, List.drop_length] at this

/-! ### The deadline list -/

/-- The companion window after a member has left the list (R82). -/
theorem passOver_window {i : SlotIx} {l : List SlotIx} (hl : l.Nodup) {o : Option Firing}
    (h : ∀ f, o = some f → f.window ≠ [] ∧ f.window.Nodup ∧ (∀ j ∈ f.window, j ∈ l) ∧ f.companions < 8) :
    ∀ f, passOver i o = some f →
      f.window ≠ [] ∧ f.window.Nodup ∧ (∀ j ∈ f.window, j ∈ l.erase i) ∧ f.companions < 8 := by
  intro f hf
  cases o with
  | none => cases hf
  | some g =>
    obtain ⟨a, b, c, d⟩ := h g rfl
    unfold passOver at hf
    dsimp only at hf
    split at hf
    · cases hf
    · rename_i hn
      cases hf
      refine ⟨hn, b.erase i, fun j hj => ?_, d⟩
      obtain ⟨h1, h2⟩ := (List.Nodup.mem_erase_iff b).mp hj
      exact (List.Nodup.mem_erase_iff hl).mpr ⟨h1, c j h2⟩

/-- A member leaves the deadline list (R68). -/
theorem tied_unlist {s : State} {i : SlotIx} (h : Tied none s) (hi : (s.record i).sched = .armed) :
    Tied (some i) (s.unlist i) := by
  have hl : (s.unlist i).listOrder = s.listOrder.erase i := unlink_slots i _
  exact { h with
    queue := fun j _ => h.queue j (by simp)
    placing := fun j _ => h.placing j (by simp)
    listOnce := by rw [hl]; exact h.listOnce.erase i
    list := fun j hj => by
      have e : j ≠ i := by simpa using hj
      rw [hl, List.mem_erase_of_ne e]
      exact h.list j (by simp)
    out := fun j hj => by
      cases hj
      rw [hl]
      refine ⟨fun hm => ?_, List.Nodup.not_mem_erase h.listOnce⟩
      rw [(h.queue i (by simp)).mp hm] at hi
      cases hi
    sorted := by rw [hl]; exact h.sorted.sublist List.erase_sublist
    failed := fun hf => by
      obtain ⟨a, b⟩ := h.failed hf
      refine ⟨?_, b⟩
      show unlink i s.expiry.list = []
      rw [a]
      rfl
    window := by rw [hl]; exact passOver_window h.listOnce h.window }

/-- A record leaves the placement queue or the deadline list, whichever holds it. -/
theorem tied_leaveTiming {s : State} {i : SlotIx} (h : Tied none s) : Tied (some i) (s.leaveTiming i) := by
  unfold State.leaveTiming
  split
  · rename_i hs
    exact tied_unqueue h hs
  · rename_i hs
    exact tied_unlist h hs
  · rename_i h1 h2
    exact h.opened i h1 h2

/-- The order of the deadlines after an insertion (R60, R67). -/
theorem insertMember_order (due : SlotIx → Nat) (i : SlotIx) : ∀ l : List Member,
    ((insertMember due i l).map Member.slot).Perm (i :: l.map Member.slot)
      ∧ ((l.map Member.slot).Pairwise (fun a b => due a ≤ due b) →
          ((insertMember due i l).map Member.slot).Pairwise fun a b => due a ≤ due b)
  | [] => ⟨.refl _, fun _ => by simp [insertMember]⟩
  | m :: rest => by
    obtain ⟨a, b⟩ := insertMember_order due i rest
    unfold insertMember
    split
    · rename_i hlt
      refine ⟨.refl _, fun h => ?_⟩
      rw [List.map_cons, List.map_cons, List.pairwise_cons]
      refine ⟨fun x hx => ?_, h⟩
      rw [List.map_cons, List.pairwise_cons] at h
      rcases List.mem_cons.mp hx with rfl | hx
      · exact hlt.le
      · exact hlt.le.trans (h.1 x hx)
    · rename_i hlt
      refine ⟨((a.cons m.slot).trans (.swap _ _ _)), fun h => ?_⟩
      rw [List.map_cons, List.pairwise_cons] at h ⊢
      refine ⟨fun x hx => ?_, b h.2⟩
      rcases List.mem_cons.mp (a.mem_iff.mp hx) with rfl | hx
      · omega
      · exact h.1 x hx

/-- An open slot is inserted into the deadline list and becomes ARMED (R60). -/
theorem tied_insertArmed {s : State} {i : SlotIx} (h : Tied (some i) s) (hs : (s.record i).sched ≠ .free)
    (hf : s.expiry.listState ≠ .failed) : Tied none (s.insertArmed i) := by
  obtain ⟨perm, ordered⟩ := insertMember_order (fun j => (s.record j).due) i s.expiry.list
  have m := h.modified (fun r => { r with sched := .armed }) rfl
    ⟨fun e => (nomatch e), fun e => absurd e hs⟩ (fun e _ => absurd e hs)
  have self : (s.setSched i .armed).record i = { s.record i with sched := .armed } := State.record_modify_self _ _ _
  have other : ∀ j, j ≠ i → (s.setSched i .armed).record j = s.record j :=
    fun j hj => State.record_modify_other _ _ _ _ hj
  have due : ∀ j, ((s.setSched i .armed).record j).due = (s.record j).due := by
    intro j
    by_cases e : j = i
    · subst e; rw [self]; rfl
    · rw [other j e]
  exact {
    wf := m.wf
    queueOnce := m.queueOnce
    queue := fun j _ => by
      by_cases e : j = i
      · subst e
        show j ∈ s.placement.queue ↔ ((s.setSched j .armed).record j).sched = _
        rw [self]
        exact ⟨fun hj => absurd hj (h.out j rfl).1, fun hj => (nomatch hj)⟩
      · exact m.queue j (by simpa using e)
    part := m.part
    placing := fun j _ hj => by
      by_cases e : j = i
      · subst e
        have hj' : ((s.setSched j .armed).record j).sched = .placing := hj
        rw [self] at hj'
        cases hj'
      · exact m.placing j (by simpa using e) hj
    listOnce := perm.nodup_iff.mpr (List.nodup_cons.mpr ⟨(h.out i rfl).2, h.listOnce⟩)
    list := fun j _ => by
      show j ∈ (insertMember _ i s.expiry.list).map Member.slot ↔ ((s.setSched i .armed).record j).sched = _
      rw [perm.mem_iff, List.mem_cons]
      by_cases e : j = i
      · subst e; rw [self]; simp
      · have := m.list j (by simpa using e)
        exact ⟨fun hj => this.mp (hj.resolve_left e), fun hj => .inr (this.mpr hj)⟩
    out := fun j hj => by cases hj
    sorted := by
      refine (ordered h.sorted).imp fun hd => ?_
      show ((s.setSched i .armed).record _).due ≤ ((s.setSched i .armed).record _).due
      rw [due, due]
      exact hd
    failed := fun e => absurd e hf
    window := fun f hw => by
      obtain ⟨a, b, c, d⟩ := h.window f hw
      exact ⟨a, b, fun j hj => perm.mem_iff.mpr (List.mem_cons_of_mem _ (c j hj)), d⟩
    slots := m.slots }

/-! ### The slot sets (R6, R15, R139) -/

/-- A port's slots after the slot is dropped from its owner's count. -/
theorem mem_dropOwned {s : State} {i : SlotIx} (h : s.table.wf) (hs : s.SlotsTied) (p : Port) (j : SlotIx) :
    j ∈ (s.dropOwned (s.record i).owner i).table.owned[p] ↔ j ≠ i ∧ (s.record j).owner = some p := by
  obtain ⟨_, b, _⟩ := hs
  cases ho : (s.record i).owner with
  | none =>
    show j ∈ s.table.owned[p] ↔ _
    rw [b p j]
    refine ⟨fun hj => ⟨?_, hj⟩, fun hj => hj.2⟩
    rintro rfl
    rw [ho] at hj
    cases hj
  | some q =>
    show j ∈ (s.table.owned.set q.val (s.table.owned[q].erase i) q.isLt)[p] ↔ _
    by_cases e : p = q
    · subst e
      rw [set_port_same, List.Nodup.mem_erase_iff ((h.2.2.2 p).imp fun hlt => ne_of_lt hlt), b p j]
    · rw [set_port_other _ _ _ _ e, b p j]
      refine ⟨fun hj => ⟨?_, hj⟩, fun hj => hj.2⟩
      rintro rfl
      rw [ho] at hj
      cases hj
      exact e rfl

/-- The identity of an open slot's record is lost (R143, R146). -/
theorem tied_loseIdentity {s : State} {i : SlotIx} (h : Tied (some i) s) :
    Tied (some i) (s.loseIdentity i) := by
  have wf := (confined_loseIdentity s i).table h.wf
  have self := loseIdentity_record s i
  have other : ∀ j, j ≠ i → (s.loseIdentity i).record j = s.record j := fun j hj => by
    unfold State.loseIdentity
    rw [State.record_modify_other _ _ _ _ hj, dropOwned_record]
  have owned : (s.loseIdentity i).table.owned = (s.dropOwned (s.record i).owner i).table.owned := rfl
  have shape : (s.loseIdentity i).placement = s.placement ∧ (s.loseIdentity i).expiry = s.expiry
      ∧ (s.loseIdentity i).table.occupied = s.table.occupied := by
    unfold State.loseIdentity State.dropOwned
    split <;> exact ⟨rfl, rfl, rfl⟩
  obtain ⟨hp, he, ho⟩ := shape
  have order : (s.loseIdentity i).listOrder = s.listOrder := by unfold State.listOrder; rw [he]
  have member : ∀ j ∈ s.listOrder, (s.loseIdentity i).record j = s.record j := fun j hj =>
    other j (by rintro rfl; exact (h.out j rfl).2 hj)
  exact {
    wf := wf
    queueOnce := by rw [hp]; exact h.queueOnce
    queue := fun j hj => by rw [hp, other j (by simpa using hj)]; exact h.queue j hj
    part := by rw [hp]; exact h.part
    placing := fun j hj hs => by
      rw [other j (by simpa using hj)] at hs ⊢
      rw [hp]
      exact h.placing j hj hs
    listOnce := by rw [order]; exact h.listOnce
    list := fun j hj => by rw [order, other j (by simpa using hj)]; exact h.list j hj
    out := fun j hj => by rw [order, hp]; exact h.out j hj
    sorted := by
      rw [order]
      exact h.sorted.imp_of_mem fun ha hb hd => by rw [member _ ha, member _ hb]; exact hd
    failed := fun hf => by
      rw [he] at hf ⊢
      rw [hp]
      exact h.failed hf
    window := fun f hf => by
      rw [order]
      rw [he] at hf
      exact h.window f hf
    slots := by
      obtain ⟨a, b, c⟩ := h.slots
      refine ⟨fun j => ?_, fun p j => ?_, fun j hj => ?_⟩
      · rw [ho]
        by_cases e : j = i
        · subst e; rw [self]; exact a j
        · rw [other j e]; exact a j
      · rw [owned, mem_dropOwned h.wf h.slots]
        by_cases e : j = i
        · subst e; rw [self]; simp
        · rw [other j e]; simp [e]
      · by_cases e : j = i
        · subst e; rw [self]; exact ⟨rfl, rfl⟩
        · rw [other j e] at hj ⊢; exact c j hj }

/-- An open slot becomes FREE (R15). -/
theorem tied_freeSlot {s : State} {i : SlotIx} (h : Tied (some i) s) : Tied none (s.freeSlot i) := by
  have wf := (confined_freeSlot s i).table h.wf
  have self := freeSlot_record s i
  have other : ∀ j, j ≠ i → (s.freeSlot i).record j = s.record j := fun j hj => by
    unfold State.freeSlot
    rw [State.record_setRecord_other _ _ _ _ hj]
    exact dropOwned_record s _ i j
  have owned : (s.freeSlot i).table.owned = (s.dropOwned (s.record i).owner i).table.owned := rfl
  have hp := freeSlot_placement s i
  have he := freeSlot_expiry s i
  have ho := freeSlot_occupied s i
  have order : (s.freeSlot i).listOrder = s.listOrder := by unfold State.listOrder; rw [he]
  have member : ∀ j ∈ s.listOrder, (s.freeSlot i).record j = s.record j := fun j hj =>
    other j (by rintro rfl; exact (h.out j rfl).2 hj)
  have t : Tied (some i) (s.freeSlot i) := {
    wf := wf
    queueOnce := by rw [hp]; exact h.queueOnce
    queue := fun j hj => by rw [hp, other j (by simpa using hj)]; exact h.queue j hj
    part := by rw [hp]; exact h.part
    placing := fun j hj hs => by
      rw [other j (by simpa using hj)] at hs ⊢
      rw [hp]
      exact h.placing j hj hs
    listOnce := by rw [order]; exact h.listOnce
    list := fun j hj => by rw [order, other j (by simpa using hj)]; exact h.list j hj
    out := fun j hj => by rw [order, hp]; exact h.out j hj
    sorted := by
      rw [order]
      exact h.sorted.imp_of_mem fun ha hb hd => by rw [member _ ha, member _ hb]; exact hd
    failed := fun hf => by
      rw [he] at hf ⊢
      rw [hp]
      exact h.failed hf
    window := fun f hf => by
      rw [order]
      rw [he] at hf
      exact h.window f hf
    slots := by
      obtain ⟨a, b, c⟩ := h.slots
      refine ⟨fun j => ?_, fun p j => ?_, fun j hj => ?_⟩
      · rw [ho]
        by_cases e : j = i
        · subst e
          rw [self]
          exact ⟨fun hm => absurd hm (List.Nodup.not_mem_erase (h.wf.2.2.1.imp fun hlt => ne_of_lt hlt)),
            fun hm => absurd rfl hm⟩
        · rw [List.mem_erase_of_ne e, other j e]; exact a j
      · rw [owned, mem_dropOwned h.wf h.slots]
        by_cases e : j = i
        · subst e; rw [self]; simp [Record.blank]
        · rw [other j e]; simp [e]
      · by_cases e : j = i
        · subst e; rw [self]; exact ⟨rfl, rfl⟩
        · rw [other j e] at hj ⊢; exact c j hj }
  refine t.closed ?_ ?_ ?_ <;> · rw [self]; exact nofun

/-! ### Damage and reads -/

theorem tied_declareDamaged {s : State} {i : SlotIx} (h : Tied none s) (part : FaultPart)
    (hs : (s.record i).sched ≠ .free) : Tied none (s.declareDamaged i part) := by
  have h1 := tied_leaveTiming (i := i) h
  have hr := leaveTiming_record s i i
  have finish : ∀ t : State, Tied (some i) t → (t.record i).sched ≠ .free →
      Tied none ((t.modify i fun r =>
        { r with sched := .damaged, remaining := none, notice := (t.foundNotice i).1,
                 holder := (t.foundNotice i).2 }).keepFault i part) := by
    intro t ht hf
    have m := ht.modified (fun r =>
        { r with sched := .damaged, remaining := none, notice := (t.foundNotice i).1,
                 holder := (t.foundNotice i).2 }) rfl
      ⟨fun e => (nomatch e), fun e => absurd e hf⟩ (fun e _ => absurd e hf)
    have c := m.closed (by rw [State.record_modify_self]; exact nofun)
      (by rw [State.record_modify_self]; exact nofun) (by rw [State.record_modify_self]; exact nofun)
    exact c.quiet (.of_table rfl rfl rfl)
  cases part with
  | identity =>
    exact finish _ (tied_loseIdentity h1) (by rw [loseIdentity_record, hr]; exact hs)
  | timing =>
    refine finish _ (h1.quiet (quiet_modify _ i _ rfl fun _ e => e)) ?_
    rw [State.record_modify_self, hr]
    exact hs

theorem tied_keepFault {x : Option SlotIx} {s : State} (h : Tied x s) (i : SlotIx) (part : FaultPart) :
    Tied x (s.keepFault i part) := h.quiet (.of_table rfl rfl rfl)

theorem tied_declareIdentityLost {s : State} {i : SlotIx} (h : Tied none s) (hs : (s.record i).sched = .damaged) :
    Tied none (s.declareIdentityLost i) := by
  have o := tied_loseIdentity (h.opened i (by rw [hs]; decide) (by rw [hs]; decide))
  have c := o.closed (by rw [loseIdentity_record, hs]; decide) (by rw [loseIdentity_record, hs]; decide)
    (by rw [loseIdentity_record, hs]; decide)
  exact tied_keepFault c i .identity

theorem tied_rewriteFree {s : State} {i : SlotIx} (h : Tied none s) (hs : (s.record i).sched = .free) :
    Tied none (s.rewriteFree i) := by
  have o := h.opened i (by rw [hs]; decide) (by rw [hs]; decide)
  have m := o.modified (fun _ => Record.blank) (h.slots.2.2 i hs).1.symm ⟨fun _ => hs, fun _ => rfl⟩
    (fun _ _ => rfl)
  have c := m.closed (by rw [State.record_modify_self]; decide) (by rw [State.record_modify_self]; decide)
    (by rw [State.record_modify_self]; decide)
  exact c.quiet (.of_table rfl rfl rfl)

/-- A read keeps every slot where its record says, when what it does on damage does. -/
theorem tied_readWith {s : State} {i : SlotIx} (h : Tied none s) (damage : State → FaultPart → State)
    (escalate : State → State)
    (hd : ∀ (t : State) part, Tied none t → (t.record i).sched ≠ .free → Tied none (damage t part))
    (he : ∀ t : State, Tied none t → (t.record i).sched = .damaged → Tied none (escalate t)) :
    Tied none (s.readWith i damage escalate) := by
  have hi := h.quiet (quiet_repairIdentity s i)
  have ht := h.quiet (quiet_repairTiming s i)
  unfold State.readWith
  dsimp only
  split
  · rename_i hs
    split
    · exact tied_rewriteFree h hs
    · exact hi
  · split
    · exact h
    · exact ht
  · rename_i hs _
    split
    · exact he s h hs
    · exact hi
  · rename_i hf _ _
    split
    · exact hd _ _ ht (by rw [(quiet_repairTiming s i).sched]; exact hf)
    · split
      · exact hd _ _ hi (by rw [(quiet_repairIdentity s i).sched]; exact hf)
      · exact hi.quiet (quiet_repairTiming _ i)

theorem tied_takeBlocked {s : State} (h : Tied none s) (i : SlotIx) : Tied none (s.takeBlocked i) :=
  Tied.quiet (s := s.readWith i (fun t part => t.declareDamaged i part) fun t => t.declareIdentityLost i)
    (tied_readWith h _ _ (fun _ part ht hs => tied_declareDamaged ht part hs)
      (fun _ ht hs => tied_declareIdentityLost ht hs)) (.of_table rfl rfl rfl)

theorem tied_serveBlockedFrom (n : Nat) : ∀ (l : List BlockedPlace) {s : State}, Tied none s →
    Tied none (serveBlockedFrom n l s)
  | [], _, h => h
  | b :: rest, s, h => by
    have h0 := tied_takeBlocked h b.slot
    have skipped := tied_serveBlockedFrom n rest (h0.quiet (quiet_setNotice _ b.slot .clear none))
    have lost := tied_serveBlockedFrom n rest (h0.quiet (quiet_loseNotice _ b.slot))
    rw [serveBlockedFrom_cons n b rest _ s rfl]
    dsimp only
    split
    · exact skipped
    · split
      · split
        · exact h0.quiet (quiet_createFault _ _ _ _)
        · exact lost
      · split
        · split
          · exact h0.quiet (quiet_create _ _ _ _)
          · exact skipped
        · exact lost

theorem tied_serveBlocked {s : State} (h : Tied none s) : Tied none s.serveBlocked := by
  unfold State.serveBlocked
  split
  · exact h
  · exact tied_serveBlockedFrom _ _ h

theorem tied_moveToFaultPort {s : State} (h : Tied none s) (i : SlotIx) (place : EntryPlace) (e e' : Entry)
    (p : Port) : Tied none (s.moveToFaultPort i place e e' p) := by
  unfold State.moveToFaultPort
  have d := h.quiet (moved_dropEntry s place e).quiet
  split
  · exact d.quiet (moved_modifyQueue _ p _).quiet
  · exact tied_serveBlocked (d.quiet (quiet_loseNotice _ i))

theorem tied_damage {s : State} {i : SlotIx} (h : Tied none s) (part : FaultPart)
    (hs : (s.record i).sched ≠ .free) : Tied none (s.damage i part) := by
  have d := tied_declareDamaged h part hs
  unfold State.damage State.treatNotice
  dsimp only
  split
  · exact d.quiet (quiet_raiseFault _ i)
  · exact tied_moveToFaultPort d i _ _ _ _
  · exact d

theorem tied_escalate {s : State} {i : SlotIx} (h : Tied none s) (hs : (s.record i).sched = .damaged) :
    Tied none (s.escalate i) := by
  have d := tied_declareIdentityLost h hs
  unfold State.escalate
  dsimp only
  split
  · exact d.quiet (quiet_raiseFault _ i)
  · exact tied_moveToFaultPort d i _ _ _ _
  · exact d

theorem tied_readSlot {s : State} (h : Tied none s) (i : SlotIx) : Tied none (s.readSlot i) :=
  tied_readWith h _ _ (fun _ part ht hs => tied_damage ht part hs) (fun _ ht hs => tied_escalate ht hs)

theorem tied_settleSince {s t : State} (h : Tied none t) : Tied none (t.settleSince s) :=
  h.quiet (moved_settleSince t s).quiet

theorem tied_checkedRead {s : State} (h : Tied none s) (i : SlotIx) : Tied none (s.checkedRead i) :=
  tied_settleSince (tied_readSlot h i)

theorem tied_tested {s : State} (h : Tied none s) (pl : List Octet) : Tied none (s.tested pl) := by
  unfold State.tested
  split
  · exact h
  · exact tied_checkedRead h _

theorem tied_readSlots (l : List SlotIx) : ∀ {s : State}, Tied none s → Tied none (s.readSlots l) := by
  induction l with
  | nil => exact fun h => h
  | cons i l ih => exact fun h => ih (tied_readSlot h i)

theorem tied_settle {x : Option SlotIx} {s : State} (h : Tied x s) : Tied x s.settle :=
  h.quiet (moved_settle s).quiet

theorem tied_driveLines {x : Option SlotIx} {s : State} (h : Tied x s) : Tied x s.driveLines :=
  h.quiet (moved_driveLines s).quiet

theorem tied_retireCore {s : State} (h : Tied none s) (i : SlotIx) : Tied none (s.retireCore i) := by
  have h1 : Tied (some i) ((s.leaveTiming i).unblock i) := (tied_leaveTiming h).quiet (.of_table rfl rfl rfl)
  unfold State.retireCore
  dsimp only
  split
  · exact tied_freeSlot h1
  · exact tied_serveBlocked (tied_freeSlot (h1.quiet (moved_dropEntry _ _ _).quiet))

theorem tied_retire {s : State} (h : Tied none s) (i : SlotIx) : Tied none (s.retire i) :=
  tied_settle (tied_retireCore h i)

theorem tied_dispose {s : State} (h : Tied none s) (i : SlotIx) : Tied none (s.dispose i) := by
  unfold State.dispose
  dsimp only
  split
  · rename_i hc
    exact tied_freeSlot (h.opened i (by rw [hc.2.1]; decide) (by rw [hc.2.1]; decide))
  · exact h

end Sys2Proof.Machine
end

