-- ==== Sys2Proof/Laws/TiedCommands.lean ====
section
/-! SUPPORT. The commands' own operations keep the placement queue, the deadline list and the slot sets with the
records: one lemma per operation, `tied_<operation>`. -/

namespace Sys2Proof.Machine

/-! ### Placement and list faults -/

/-- The slots of ARMED records, each once. -/
theorem armedSlots_nodup {s : State} (h : s.table.wf) : s.armedSlots.Nodup := by
  unfold State.armedSlots State.listedSlots
  refine List.Nodup.filter _ ?_
  rw [List.nodup_iff_pairwise_ne, List.pairwise_map]
  exact h.1.imp fun hlt => ne_of_lt hlt

/-- The records moved by a list fault join the front of the placement queue, and the list is empty (R148). -/
theorem tied_startRebuild {s : State} (h : Tied none s) (after : ListState × Nat) :
    Tied none ((s.queueAll s.armedSlots).startRebuild s.armedSlots after) := by
  obtain ⟨shape, kept, moved⟩ := queueAll_facts s.armedSlots s
  have mem := mem_armedSlots s
  have once := armedSlots_nodup h.wf
  have hwf : (s.queueAll s.armedSlots).table.wf := by
    have : ∀ (l : List SlotIx) (t : State), t.table.wf → (t.queueAll l).table.wf := by
      intro l
      induction l with
      | nil => exact fun t ht => ht
      | cons j l ih => exact fun t ht => ih _ (storeCell_wf _ j _ ht)
    exact this _ s h.wf
  generalize s.queueAll s.armedSlots = u at *
  generalize s.armedSlots = l at *
  have hp : u.placement = s.placement := by rw [shape]
  have ho : u.table.occupied = s.table.occupied := by rw [shape]
  have hw : u.table.owned = s.table.owned := by rw [shape]
  have sched : ∀ i, i ∉ l → (u.record i).sched ≠ .armed := fun i hi => by
    rw [kept i hi]
    exact fun e => hi ((mem i).mpr e)
  exact {
    wf := hwf
    queueOnce := by
      show (l ++ u.placement.queue).Nodup
      rw [hp]
      refine List.nodup_append'.mpr ⟨once, h.queueOnce, fun i h1 h2 => ?_⟩
      have a := (mem i).mp h1
      rw [(h.queue i (by simp)).mp h2] at a
      cases a
    queue := fun i _ => by
      show i ∈ l ++ u.placement.queue ↔ (u.record i).sched = .queued
      rw [hp, List.mem_append]
      by_cases hi : i ∈ l
      · rw [moved i hi]
        exact ⟨fun _ => rfl, fun _ => .inl hi⟩
      · rw [kept i hi, ← h.queue i (by simp)]
        exact ⟨fun e => e.resolve_left hi, .inr⟩
    part := by
      show l.length + u.placement.rebuildPart ≤ (l ++ u.placement.queue).length
      rw [hp, List.length_append]
      exact Nat.add_le_add_left h.part _
    placing := fun i _ hs => by
      have hs' : (u.record i).sched = .placing := hs
      by_cases hi : i ∈ l
      · rw [moved i hi] at hs'
        cases hs'
      · rw [kept i hi] at hs'
        obtain ⟨c, hc, h1, h2⟩ := h.placing i (by simp) hs'
        refine ⟨{ c with overtaken := true, rebuildMember := true }, ?_, h1, ?_⟩
        · show u.placement.carried.map _ = _
          rw [hp, hc]
          rfl
        · show c.generation = (u.record i).generation
          rw [kept i hi]
          exact h2
    listOnce := List.nodup_nil
    list := fun i _ => by
      show i ∈ ([] : List SlotIx) ↔ (u.record i).sched = .armed
      refine ⟨fun e => (by cases e), fun e => ?_⟩
      by_cases hi : i ∈ l
      · rw [moved i hi] at e
        cases e
      · exact absurd e (sched i hi)
    out := fun i hi => by cases hi
    sorted := List.Pairwise.nil
    failed := fun _ => ⟨rfl, fun c hc => by
      have hc' : u.placement.carried.map (fun c => { c with overtaken := true, rebuildMember := true }) = some c := hc
      obtain ⟨d, _, rfl⟩ := Option.map_eq_some_iff.mp hc'
      rfl⟩
    window := fun f hf => by cases hf
    slots := by
      obtain ⟨a, b, c⟩ := h.slots
      have owner : ∀ i, (u.record i).owner = (s.record i).owner := fun i => by
        by_cases hi : i ∈ l
        · rw [moved i hi]
        · rw [kept i hi]
      have free : ∀ i, (u.record i).sched = .free ↔ (s.record i).sched = .free := fun i => by
        by_cases hi : i ∈ l
        · rw [moved i hi, (mem i).mp hi]
          exact ⟨fun e => (nomatch e), fun e => (nomatch e)⟩
        · rw [kept i hi]
      refine ⟨fun i => ?_, fun p i => ?_, fun i hi => ?_⟩
      · show i ∈ u.table.occupied ↔ (u.record i).sched ≠ .free
        rw [ho, Ne, free i]
        exact a i
      · show i ∈ u.table.owned[p] ↔ (u.record i).owner = some p
        rw [hw, owner i]
        exact b p i
      · have hi' : (u.record i).sched = .free := hi
        show (u.record i).owner = none ∧ (u.record i).mark = none
        have hl : i ∉ l := fun hm => by
          rw [moved i hm] at hi'
          cases hi'
        rw [kept i hl] at hi' ⊢
        exact c i hi' }

theorem tied_listFault {s : State} (h : Tied none s) : Tied none s.listFault := by
  have h1 : Tied none (s.readAll s.armedSlots) := tied_settleSince (tied_readSlots _ h)
  exact tied_reportRebuild (tied_startRebuild h1 s.expiry.afterFault)

/-- After a list fault a carried record is overtaken. -/
theorem listFault_overtakes (s : State) (c : Carried) (h : s.listFault.placement.carried = some c) :
    c.overtaken = true := by
  have h' : (((s.readAll s.armedSlots).queueAll (s.readAll s.armedSlots).armedSlots).startRebuild
      (s.readAll s.armedSlots).armedSlots s.expiry.afterFault).placement.carried = some c := by
    unfold State.listFault State.reportRebuild at h
    dsimp only at h
    split at h <;> exact h
  obtain ⟨d, _, rfl⟩ := Option.map_eq_some_iff.mp
    (show Option.map (fun c : Carried => { c with overtaken := true, rebuildMember := true }) _ = some c from h')
  rfl

/-- The unit puts its record down when no record is PLACING any more. -/
theorem tied_putDown {s : State} (h : Tied none s) (c : Carried) (hn : ∀ i, (s.record i).sched ≠ .placing) :
    Tied none (s.putDown c) :=
  { h with
    placing := fun i _ hi => absurd hi (hn i)
    failed := fun hf => ⟨(h.failed hf).1, fun d hd => by cases hd⟩ }

/-- The end of a placement (R59, R61). -/
theorem tied_endPlacement {s : State} (h : Tied none s) (c : Carried) (hc : s.placement.carried = some c) :
    Tied none (s.endPlacement c) := by
  have alone : ∀ j, (s.record j).sched = .placing → j = c.slot ∧ s.stillCarried c = true := fun j hj => by
    obtain ⟨d, hd, h1, h2⟩ := h.placing j (by simp) hj
    rw [hc] at hd
    cases hd
    subst h1
    refine ⟨rfl, ?_⟩
    unfold State.stillCarried
    simp [hj, h2]
  unfold State.endPlacement
  dsimp only
  refine tied_reportRebuild (tied_putDown ?_ c ?_)
  · split
    · rename_i hs
      have hpl : (s.record c.slot).sched = .placing := by
        unfold State.stillCarried at hs
        simp at hs
        exact hs.1
      have o := h.opened c.slot (by rw [hpl]; decide) (by rw [hpl]; decide)
      split
      · have m := o.modified (fun r => { r with sched := .idle }) rfl
          ⟨fun e => (nomatch e), fun e => by rw [hpl] at e; cases e⟩ (fun e => by rw [hpl] at e; cases e)
        exact m.closed (by rw [State.record_modify_self]; exact nofun)
          (by rw [State.record_modify_self]; exact nofun) (by rw [State.record_modify_self]; exact nofun)
      · split
        · unfold State.returnOvertaken
          dsimp only
          refine o.seated _ _ ?_ (by rw [hpl]; decide)
          have := h.part
          split <;> omega
        · rename_i hov
          refine tied_insertArmed o (by rw [hpl]; decide) fun hf => ?_
          exact hov ((h.failed hf).2 c hc)
    · exact h
  · intro j
    split
    · rename_i hs
      have other : ∀ (f : Record → Record), j ≠ c.slot → ((s.modify c.slot f).record j).sched ≠ .placing :=
        fun f hj hp => by
          rw [State.record_modify_other _ _ _ _ hj] at hp
          exact hj (alone j hp).1
      have self : ∀ x : Sched, x ≠ .placing →
          ((s.modify c.slot fun r => { r with sched := x }).record j).sched ≠ .placing := fun x hx => by
        by_cases hj : j = c.slot
        · subst hj; rw [State.record_modify_self]; exact hx
        · exact other _ hj
      split
      · exact self .idle (by decide)
      · split
        · exact self .queued (by decide)
        · exact self .armed (by decide)
    · rename_i hs
      intro hp
      exact hs (alone j hp).2

/-- The walk to a position reads and nothing else. -/
theorem tied_walkFrom (due : Nat) : ∀ (l : List SlotIx) {s : State}, Tied none s → Tied none (walkFrom due l s).1
  | [], _, h => h
  | j :: l, s, h => by
    have h1 := tied_readSlot h j
    unfold walkFrom
    dsimp only
    split
    · exact tied_walkFrom due l h1
    · split
      · exact h1
      · split
        · exact tied_walkFrom due l h1
        · exact h1

theorem walkFrom_carried (due : Nat) : ∀ (l : List SlotIx) (s : State),
    (walkFrom due l s).1.placement.carried = s.placement.carried
  | [], _ => rfl
  | j :: l, s => by
    have e := (aside_readSlot s j).carried
    unfold walkFrom
    dsimp only
    split
    · rw [walkFrom_carried due l, e]
    · split
      · exact e
      · split
        · rw [walkFrom_carried due l, e]
        · exact e

theorem tied_placementReads {s : State} (h : Tied none s) (c : Carried) : Tied none (s.placementReads c).1 := by
  have h1 := tied_readSlot h c.slot
  unfold State.placementReads
  dsimp only
  split
  · exact tied_settleSince (tied_walkFrom _ _ h1)
  · exact tied_settleSince h1

theorem placementReads_carried (s : State) (c : Carried) :
    (s.placementReads c).1.placement.carried = s.placement.carried := by
  unfold State.placementReads
  dsimp only
  split
  · show (State.settleSince _ s).placement.carried = _
    rw [(moved_settleSince _ s).placement, walkFrom_carried, (aside_readSlot s _).carried]
  · show (State.settleSince _ s).placement.carried = _
    rw [(moved_settleSince _ s).placement, (aside_readSlot s _).carried]

theorem tied_endCarried {s : State} (h : Tied none s) : Tied none s.endCarried := by
  unfold State.endCarried
  split
  · exact h
  · rename_i c hc
    exact tied_endPlacement (tied_checkedRead h c.slot) c (by rw [checkedRead_carried s]; exact hc)

/-- The taking of the head of the placement queue (R57). -/
theorem tied_takeHead {s : State} (h : Tied none s) (i : SlotIx) (hc : s.placement.carried = none)
    (hf : s.expiry.listState ≠ .failed) : Tied none (s.takeHead i) := by
  have h1 := tied_checkedRead h i
  have hc1 : (s.checkedRead i).placement.carried = none := by rw [checkedRead_carried s]; exact hc
  have hf1 : (s.checkedRead i).expiry.listState ≠ .failed := fun e => hf (checkedRead_unfailed s i e)
  unfold State.takeHead
  dsimp only
  generalize s.checkedRead i = u at *
  split
  · rename_i hq
    have hfree : (u.record i).sched ≠ .free := by rw [hq]; decide
    have idle : ∀ t : State, Tied (some i) t → t.record i = u.record i → Tied none (t.setSched i .idle) := by
      intro t ht hr
      have m := ht.modified (fun r => { r with sched := .idle }) rfl
        ⟨fun e => (nomatch e), fun e => by rw [hr] at e; exact absurd e hfree⟩
        (fun e => by rw [hr] at e; exact absurd e hfree)
      exact m.closed (by rw [State.record_modify_self]; exact nofun)
        (by rw [State.record_modify_self]; exact nofun) (by rw [State.record_modify_self]; exact nofun)
    split
    · refine idle _ (tied_unqueue h1 hq) ?_
      unfold State.unqueue State.reportRebuild
      split <;> rfl
    · have o := tied_removeQueued h1 hq
      have m := o.modified (fun r => { r with sched := .placing }) rfl
        ⟨fun e => (nomatch e), fun e => absurd (show (u.record i).sched = .free from e) hfree⟩
        (fun e => absurd (show (u.record i).sched = .free from e) hfree)
      have none_placing : ∀ j, j ≠ i → (u.record j).sched ≠ .placing := fun j _ hj => by
        obtain ⟨d, hd, _⟩ := h1.placing j (by simp) hj
        rw [hc1] at hd
        cases hd
      have self : ((u.removeQueued i).setSched i .placing).record i = { u.record i with sched := .placing } :=
        State.record_modify_self _ _ _
      have other : ∀ j, j ≠ i → ((u.removeQueued i).setSched i .placing).record j = u.record j :=
        fun j hj => State.record_modify_other _ _ _ _ hj
      have taken : Tied none (u.carry i) := {
        wf := m.wf
        queueOnce := m.queueOnce
        queue := fun j _ => by
          by_cases e : j = i
          · subst e
            show j ∈ u.placement.queue.erase j ↔ (((u.removeQueued j).setSched j .placing).record j).sched = _
            rw [self]
            exact ⟨fun hj => absurd hj (o.out j rfl).1, fun hj => (nomatch hj)⟩
          · exact m.queue j (by simpa using e)
        part := m.part
        placing := fun j _ hj => by
          have hj' : (((u.removeQueued i).setSched i .placing).record j).sched = .placing := hj
          by_cases e : j = i
          · subst e
            refine ⟨_, rfl, rfl, ?_⟩
            show (u.record j).generation = (((u.removeQueued j).setSched j .placing).record j).generation
            rw [self]
          · rw [other j e] at hj'
            exact absurd hj' (none_placing j e)
        listOnce := m.listOnce
        list := fun j _ => by
          by_cases e : j = i
          · subst e
            show j ∈ u.listOrder ↔ (((u.removeQueued j).setSched j .placing).record j).sched = _
            rw [self]
            exact ⟨fun hj => absurd hj (o.out j rfl).2, fun hj => (nomatch hj)⟩
          · exact m.list j (by simpa using e)
        out := fun j hj => by cases hj
        sorted := m.sorted
        failed := fun e => absurd e hf1
        window := m.window
        slots := m.slots }
      exact taken
  · exact h1

/-! ### Firings -/

theorem quiet_fireNotice (s : State) (i : SlotIx) (r : Record) (early rangeEnd : Bool) :
    Quiet s (s.fireNotice i r early rangeEnd) := by
  unfold State.fireNotice
  dsimp only
  split
  · split
    · split
      · exact quiet_create s i _ _
      · exact quiet_block s i _
    · exact quiet_raiseOverrun s i 1
  · exact quiet_raiseOverrun s i 1

/-- The record of an open slot becomes IDLE, PAUSED or DAMAGED. -/
theorem Tied.parked {s : State} {i : SlotIx} (h : Tied (some i) s) (f : Record → Record)
    (hf : (s.record i).sched ≠ .free) (h1 : (f (s.record i)).owner = (s.record i).owner)
    (h2 : (f (s.record i)).sched = .idle ∨ (f (s.record i)).sched = .paused) :
    Tied none (s.modify i f) := by
  have out : ∀ x : Sched, x ≠ .idle → x ≠ .paused → (f (s.record i)).sched ≠ x := fun x a b e => by
    rw [e] at h2
    exact h2.elim a b
  have m := h.modified f h1 ⟨fun e => absurd e (out _ (by decide) (by decide)), fun e => absurd e hf⟩
    (fun e => absurd e hf)
  exact m.closed (by rw [State.record_modify_self]; exact out _ (by decide) (by decide))
    (by rw [State.record_modify_self]; exact out _ (by decide) (by decide))
    (by rw [State.record_modify_self]; exact out _ (by decide) (by decide))

/-- The schedule state of an open slot is settled after its firing (R71, R77 to R80). -/
theorem tied_settleSchedule {s : State} {i : SlotIx} (h : Tied (some i) s) (hf : (s.record i).sched ≠ .free)
    (plan : Reschedule) : Tied none (s.settleSchedule i plan) := by
  unfold State.settleSchedule
  split
  · exact h.parked _ hf rfl (.inl rfl)
  · exact h.parked _ hf rfl (.inl rfl)
  · rename_i d passed
    refine tied_enqueue (h.modified _ rfl (Iff.rfl) fun _ e => e) ?_
    rw [State.record_modify_self]
    exact hf

theorem tied_fire {s : State} {i : SlotIx} (h : Tied none s) (hi : (s.record i).sched = .armed) (early : Bool) :
    Tied none (s.fire i early) := by
  have u := tied_unlist h hi
  have q := quiet_fireNotice (s.unlist i) i (s.record i) early
    (decide ((s.record i).reschedule s.now = .rangeEnd))
  refine tied_settleSchedule (u.quiet q) ?_ _
  rw [q.sched]
  show (s.record i).sched ≠ .free
  rw [hi]
  decide

theorem tied_beginSearch {s : State} (h : Tied none s) (i : SlotIx) (r : Record) :
    Tied none (s.beginSearch i r) := by
  have sub : ((s.expiry.list.take Config.windowSize).map Member.slot).Sublist s.listOrder :=
    (List.take_sublist _ _).map _
  refine h.relisted s.expiry.listState s.expiry.restarts _ h.failed fun g hg => ?_
  split at hg
  · cases hg
  · rename_i hn
    cases hg
    exact ⟨hn, h.listOnce.sublist sub, fun j hj => sub.subset hj, (by decide : 0 < 8)⟩

theorem tied_fireHead {s : State} {i : SlotIx} (h : Tied none s) (hi : s.dueHead i = true) :
    Tied none (s.fireHead i) := by
  unfold State.dueHead at hi
  simp only [Bool.and_eq_true, decide_eq_true_eq] at hi
  exact tied_driveLines (tied_beginSearch (tied_fire h hi.1.1 false) i _)

theorem tied_execFiring {s t : State} (h : Tied none s) (e : execFiring s = .next t) : Tied none t := by
  unfold execFiring at e
  dsimp only at e
  split at e
  · split at e
    · cases e; exact h
    · rename_i m _ _
      have h1 := tied_checkedRead h m.slot
      split at e
      · rename_i hd
        split at e
        · cases e; exact tied_fireHead h1 hd
        · cases e; exact tied_listFault h1
      · cases e; exact h1
  · cases e; exact h

theorem tied_execMarkedHeadRemoval {s t : State} (h : Tied none s) (e : execMarkedHeadRemoval s = .next t) :
    Tied none t := by
  unfold execMarkedHeadRemoval at e
  dsimp only at e
  split at e
  · split at e
    · cases e; exact h
    · rename_i m _ _
      have h1 := tied_checkedRead h m.slot
      split at e
      · rename_i hd
        have ha : ((s.checkedRead m.slot).record m.slot).sched = .armed := by
          unfold State.markedHead at hd
          simp only [Bool.and_eq_true, decide_eq_true_eq] at hd
          exact hd.1
        split at e
        · cases e
          refine (tied_unlist h1 ha).parked _ ?_ rfl (.inl rfl)
          show ((s.checkedRead m.slot).record m.slot).sched ≠ .free
          rw [ha]
          decide
        · cases e; exact tied_listFault h1
      · cases e; exact h1
  · cases e; exact h

/-- The companion search ends, or goes on over fewer members (R82). -/
theorem tied_setSearch {s : State} (h : Tied none s) (f : Option Firing)
    (hf : ∀ g, f = some g → g.window ≠ [] ∧ g.window.Nodup ∧ (∀ i ∈ g.window, i ∈ s.listOrder) ∧ g.companions < 8) :
    Tied none (s.setSearch f) := h.relisted s.expiry.listState s.expiry.restarts f h.failed hf

/-- What is left of the window after one member. -/
theorem nextSearch_window {f g : Firing} {i : SlotIx} {b : Bool} (hw : f.window.Nodup) (hc : f.companions < 8)
    (h : nextSearch f i b = some g) :
    g.window ≠ [] ∧ g.window.Nodup ∧ (∀ j ∈ g.window, j ≠ i ∧ j ∈ f.window) ∧ g.companions < 8 := by
  rw [nextSearch_iff] at h
  split at h
  · cases h
  · rename_i hn
    rw [not_or] at hn
    cases h
    refine ⟨hn.1, hw.erase i, fun j hj => (List.Nodup.mem_erase_iff hw).mp hj, ?_⟩
    have := hn.2
    show f.companions + b.toNat < 8
    cases b <;> simp at this ⊢ <;> omega

theorem fire_listOrder (s : State) (i : SlotIx) (early : Bool) : (s.fire i early).listOrder = s.listOrder.erase i := by
  obtain ⟨u, r1, hu, e⟩ := fire_done s i early (s.record i) rfl
  have : (s.fire i early).expiry = (s.unlist i).expiry := by
    rw [e, (settleSchedule_facts u i _).2.2.1, hu.expiry]
  unfold State.listOrder
  rw [this]
  exact unlink_slots i _

theorem tied_consider {s : State} (h : Tied none s) (i : SlotIx) : Tied none (s.consider i) := by
  have h1 := tied_checkedRead h i
  unfold State.consider
  dsimp only
  generalize s.checkedRead i = u at *
  split
  · exact h1
  · rename_i f hf
    obtain ⟨a, b, c, d⟩ := h1.window f hf
    split
    · rename_i hcomp
      have hi : (u.record i).sched = .armed := by
        unfold State.isCompanion at hcomp
        simp only [Bool.and_eq_true, decide_eq_true_eq] at hcomp
        exact hcomp.1.1.1.1.1.1.1
      have h2 := tied_setSearch h1 none fun g hg => by cases hg
      have h3 := tied_fire (i := i) h2 hi true
      refine tied_driveLines (tied_setSearch h3 _ fun g hg => ?_)
      obtain ⟨x, y, z, w⟩ := nextSearch_window b d hg
      refine ⟨x, y, fun j hj => ?_, w⟩
      rw [fire_listOrder]
      exact (List.mem_erase_of_ne (z j hj).1).mpr (c j (z j hj).2)
    · refine tied_setSearch h1 _ fun g hg => ?_
      obtain ⟨x, y, z, w⟩ := nextSearch_window b d hg
      exact ⟨x, y, fun j hj => c j (z j hj).2, w⟩

theorem tied_execCompanionFiring {s t : State} (h : Tied none s) (e : execCompanionFiring s = .next t) :
    Tied none t := by
  unfold execCompanionFiring at e
  split at e
  · cases e; exact h
  · split at e
    · cases e; exact tied_setSearch h none fun g hg => by cases hg
    · split at e
      · cases e; exact tied_consider h _
      · cases e; exact tied_listFault h

/-! ### Sweeps and the scrubber -/

theorem quiet_markOne (w : Sweep) (s : State) (i : SlotIx) : Quiet s (s.markOne w i) := by
  unfold State.markOne
  split
  · rename_i hm
    refine quiet_modify s i _ rfl fun hf => ?_
    simp only [Bool.and_eq_true, decide_eq_true_eq] at hm
    unfold SweepKind.matchesRecord at hm
    simp only [Bool.and_eq_true, decide_eq_true_eq] at hm
    exact absurd hf hm.1.1
  · exact .refl s

theorem tied_withSweeps {s : State} (h : Tied none s) (b : SweepUnit) : Tied none (s.withSweeps b) :=
  h.quiet (.of_table rfl rfl rfl)

theorem tied_startSweep {s : State} (h : Tied none s) (w : Sweep) : Tied none (s.startSweep w) := by
  have h1 := tied_readSlots s.liveSlots h
  unfold State.startSweep
  dsimp only
  generalize s.readSlots s.liveSlots = u at *
  have h2 := tied_withSweeps h1 { u.sweeps with current := some ⟨w, 0, 0⟩ }
  exact tied_driveLines (tied_settleSince (h2.quiet (Quiet.foldl (State.markOne w) (quiet_markOne w) _ _)))

theorem tied_takeSweep {s : State} (h : Tied none s) : Tied none s.takeSweep := by
  unfold State.takeSweep
  split
  · exact h
  · split
    · exact tied_startSweep (tied_withSweeps h { s.sweeps with total := none }) _
    · exact tied_startSweep h _
    · exact h

theorem tied_queueSweep {s : State} (h : Tied none s) (k : SweepKind) : Tied none (s.queueSweep k) :=
  tied_takeSweep (tied_withSweeps h { s.sweeps.advanceNumber with
    places := s.sweeps.places ++ [⟨s.sweeps.nextNumber, k⟩] })

theorem tied_queuePortSweep {s : State} (h : Tied none s) (p : Port) : Tied none (s.queuePortSweep p) := by
  unfold State.queuePortSweep
  split
  · exact h
  · exact tied_queueSweep h _

theorem tied_visit {s : State} (h : Tied none s) (run : SweepRun) (i : SlotIx) : Tied none (s.visit run i) := by
  have h1 := tied_readSlot h i
  unfold State.visit
  dsimp only
  generalize run.sweep.retires ((s.readSlot i).record i) = b
  cases b
  · exact tied_withSweeps (tied_settleSince (s := s) h1) _
  · exact tied_withSweeps (tied_retire h1 i) _

theorem quiet_createSweepDone (s : State) (p : Port) (number : SweepNumber) (retired : Nat) (abandoned : Bool) :
    Quiet s (s.createSweepDone p number retired abandoned) := by
  rw [createSweepDone_shape]
  exact .of_table rfl rfl rfl

theorem quiet_comeUp (s : State) (p : Port) (window : Nat) : Quiet s (s.comeUp p window) :=
  Quiet.trans (t := State.form (s.modifyLink p _) p _) (.of_table rfl rfl rfl) (moved_settle _).quiet

theorem quiet_recover (s : State) (p : Port) : Quiet s (s.recover p) := by
  unfold State.recover
  split
  · exact quiet_comeUp s p _
  · exact .refl s

theorem quiet_endTotal_notices (s : State) : Quiet s s.emptyBlocked.freeNotices := by
  have a : Quiet s s.emptyBlocked :=
    Quiet.trans (.foldl _ (fun t b => quiet_setNotice t b.slot .clear none) s.notices.blocked s)
      (.of_table rfl rfl rfl)
  refine a.trans ?_
  refine Quiet.trans (.foldl _ (fun t e => ?_) s.emptyBlocked.entries s.emptyBlocked) (.of_table rfl rfl rfl)
  unfold State.clearNamed
  split
  · exact .refl t
  · exact quiet_setNotice t _ _ _

theorem quiet_abandonTagSweeps (s : State) : Quiet s s.abandonTagSweeps := by
  refine Quiet.trans (.foldl State.abandon (fun t w => ?_) _ s) (.of_table rfl rfl rfl)
  unfold State.abandon
  split
  · exact quiet_createSweepDone _ _ _ _ _
  · exact .refl t
  · exact .refl t

/-- The list is NORMAL again at the end of a TOTAL sweep (R136 step 5). -/
theorem tied_restoreList {s : State} (h : Tied none s) : Tied none s.restoreList :=
  { h with
    part := Nat.zero_le _
    placing := fun i hi hs => by
      obtain ⟨c, hc, h1, h2⟩ := h.placing i hi hs
      refine ⟨{ c with rebuildMember := false }, ?_, h1, h2⟩
      show s.placement.carried.map _ = _
      rw [hc]
      rfl
    failed := fun e => by cases e }

theorem tied_endTotal {s : State} (h : Tied none s) (run : SweepRun) : Tied none (s.endTotal run) := by
  have h2 := h.quiet (quiet_endTotal_notices s)
  unfold State.endTotal
  dsimp only
  generalize s.emptyBlocked.freeNotices = u at *
  have h3 : Tied none (u.withPools (u.pools.map fun _ => [])) := h2.quiet (.of_table rfl rfl rfl)
  have h5 := tied_restoreList (h3.quiet (quiet_abandonTagSweeps _))
  have h6 := h5.quiet (quiet_createSweepDone _
    (State.abandonTagSweeps (u.withPools (u.pools.map fun _ => []))).restoreList.portTable.supervisor
    run.sweep.number run.retired false)
  exact tied_driveLines (h6.quiet (.of_table rfl rfl rfl))

theorem tied_scrub {s : State} (h : Tied none s) : Tied none s.scrub := by
  have h1 := tied_checkedRead (s := s.withScrubber s.scrubber.visited) (h.quiet (.of_table rfl rfl rfl))
    s.scrubber.cursor
  unfold State.scrub
  dsimp only
  split
  · exact tied_listFault h1
  · exact h1

/-! ### The client link -/

theorem tied_treatLeaving {s : State} (h : Tied none s) (o : Bool) (e : Entry) :
    Tied none (s.treatLeaving o e) := by
  unfold State.treatLeaving
  split
  · exact h
  · rename_i i _
    have k := tied_serveBlocked (h.quiet (quiet_loseNotice s i))
    dsimp only
    split
    · exact h
    · exact k
    · split
      · exact k.quiet (quiet_raiseFault _ i)
      · exact (h.quiet (quiet_setNotice s i _ _)).quiet (moved_offer _ _ _).quiet
    · split
      · exact k.quiet (quiet_raiseFault _ i)
      · exact k

theorem tied_readNamed {s : State} (h : Tied none s) (e : Entry) : Tied none (s.readNamed e) := by
  unfold State.readNamed
  split
  · exact h
  · exact tied_readSlot h _

theorem tied_emptyPort {s : State} (h : Tied none s) (p : Port) : Tied none (s.emptyPort p) := by
  have queue : ∀ (l : List Entry) (t : State), Tied none t → Tied none (l.foldl (State.leaveQueueEntry p) t) := by
    intro l
    induction l with
    | nil => exact fun t ht => ht
    | cons e l ih =>
      intro t ht
      have r := tied_readNamed ht e
      refine ih _ ?_
      unfold State.leaveQueueEntry
      dsimp only
      split
      · exact tied_treatLeaving (r.quiet (moved_dropEntry _ _ e).quiet) _ _
      · exact r
  have set : ∀ (l : List Entry) (t : State), Tied none t →
      Tied none (l.foldl (State.leaveOutstandingEntry p) t) := by
    intro l
    induction l with
    | nil => exact fun t ht => ht
    | cons e l ih =>
      intro t ht
      have r := tied_readNamed ht e
      refine ih _ ?_
      unfold State.leaveOutstandingEntry
      dsimp only
      split
      · exact tied_treatLeaving (r.quiet (moved_dropEntry _ _ e).quiet) _ _
      · exact r
  exact set _ _ (queue _ _ h)

theorem tied_leaveUp {s : State} (h : Tied none s) (p : Port) (x : LinkState) (kept : List Outgoing) :
    Tied none (s.leaveUp p x kept) :=
  tied_settle (tied_queuePortSweep (tied_emptyPort (s := State.modifyLink s p _) (h.quiet (quiet_modifyLink s p _)) p)
    p)

theorem tied_modifyLink {s : State} (h : Tied none s) (p : Port) (f : Link → Link) : Tied none (s.modifyLink p f) :=
  h.quiet (quiet_modifyLink s p f)

theorem tied_receiveBad {s : State} (h : Tied none s) (p : Port) (reason : RejectReason) :
    Tied none (s.receiveBad p reason) := by
  unfold State.receiveBad
  split
  · exact h
  · exact tied_modifyLink h p _
  · exact tied_modifyLink h p _
  · split
    · exact tied_modifyLink (tied_modifyLink h p _) p _
    · exact tied_modifyLink (tied_leaveUp h p _ _) p _

theorem tied_openFromDown {s : State} (h : Tied none s) (p : Port) (window : Nat) :
    Tied none (s.openFromDown p window) := by
  unfold State.openFromDown
  split
  · exact tied_modifyLink (tied_modifyLink h p _) p _
  · exact h.quiet (quiet_comeUp s p window)

theorem tied_receiveLinkOpen {s : State} (h : Tied none s) (p : Port) (window : Nat) :
    Tied none (s.receiveLinkOpen p window) := by
  unfold State.receiveLinkOpen
  split
  · exact tied_modifyLink h p _
  · exact tied_openFromDown h p window
  · exact tied_modifyLink (tied_modifyLink h p _) p _
  · exact tied_openFromDown (tied_leaveUp h p _ _) p window

theorem tied_receiveLinkClose {s : State} (h : Tied none s) (p : Port) : Tied none (s.receiveLinkClose p) := by
  unfold State.receiveLinkClose
  split
  · exact h
  · exact tied_modifyLink h p _
  · exact tied_modifyLink (tied_modifyLink h p _) p _
  · exact tied_modifyLink (tied_leaveUp h p _ _) p _

theorem tied_receiveRequest {s : State} (h : Tied none s) (p : Port) (seq : SeqNumber) (payload : List Octet) :
    Tied none (s.receiveRequest p seq payload) := by
  unfold State.receiveRequest State.sequenceRequest State.formResponse
  split
  · exact h
  · exact tied_modifyLink h p _
  · exact tied_modifyLink h p _
  · have h1 := tied_modifyLink h p fun l => { l with badRun := 0 }
    split
    · exact tied_modifyLink h1 p _
    · split
      · split
        · exact tied_modifyLink h1 p _
        · exact tied_modifyLink h1 p _
      · exact tied_modifyLink h1 p _

/-! ### Requests -/

theorem tied_respond {s : State} (h : Tied none s) (p : Port) (r : Result) (b : List Octet) :
    Tied none (s.respond p r b) := h.quiet (quiet_respond s p r b)

/-- A slot that the set of FREE slots gives holds a FREE record (R7). -/
theorem lowestFree_free {s : State} {i : SlotIx} (h : Tied none s) (hi : s.lowestFree = some i) :
    (s.record i).sched = .free := by
  have least := leastFrom_spec s.table.occupied 0 h.wf.2.2.1 fun j _ => Nat.zero_le _
  unfold State.lowestFree at hi
  by_contra hn
  have hm := (h.slots.1 i).mpr hn
  refine least.2.1 i hm ?_
  unfold slotOf at hi
  split at hi
  · cases hi
    rfl
  · cases hi

/-- A FREE slot stays FREE when it is read (R139). -/
theorem checkedRead_free {s : State} {i : SlotIx} (hs : (s.record i).sched = .free) :
    ((s.checkedRead i).record i).sched = .free ∧ (s.checkedRead i).table.occupied = s.table.occupied := by
  refine ⟨?_, checkedRead_occupied s i⟩
  rw [checkedRead_record]
  unfold State.readSlot State.readWith
  dsimp only
  split
  · split
    · have : (s.rewriteFree i).record i = Record.blank := State.record_setRecord_self _ _ _
      rw [this]
      rfl
    · rw [(quiet_repairIdentity s i).sched]
      exact hs
  · rename_i h _
    rw [hs] at h
    cases h
  · rename_i h _
    rw [hs] at h
    cases h
  · rename_i h _ _
    exact absurd hs h

/-- OPEN creates a record in a FREE slot (R6 to R8). -/
theorem tied_createRecord {s : State} {i : SlotIx} (h : Tied none s) (hs : (s.record i).sched = .free) (p : Port)
    (f : OpenFields) : Tied none (s.createRecord p i f) := by
  have o := h.opened i (by rw [hs]; decide) (by rw [hs]; decide)
  obtain ⟨a, b, c⟩ := h.slots
  have self : (s.createRecord p i f).record i = f.record p (s.record i).generation := State.record_setRecord_self s i _
  have other : ∀ j, j ≠ i → (s.createRecord p i f).record j = s.record j :=
    fun j hj => State.record_setRecord_other s i j _ hj
  have member : ∀ j ∈ s.listOrder, (s.createRecord p i f).record j = s.record j := fun j hj =>
    other j (by rintro rfl; exact (o.out j rfl).2 hj)
  have t : Tied (some i) (s.createRecord p i f) := {
    wf := (confined_createRecord s p i f).table h.wf
    queueOnce := h.queueOnce
    queue := fun j hj => by rw [other j (by simpa using hj)]; exact o.queue j hj
    part := h.part
    placing := fun j hj hp => by
      rw [other j (by simpa using hj)] at hp ⊢
      exact o.placing j hj hp
    listOnce := h.listOnce
    list := fun j hj => by rw [other j (by simpa using hj)]; exact o.list j hj
    out := o.out
    sorted := h.sorted.imp_of_mem fun ha hb hd => by rw [member _ ha, member _ hb]; exact hd
    failed := h.failed
    window := h.window
    slots := by
      refine ⟨fun j => ?_, fun q j => ?_, fun j hj => ?_⟩
      · show j ∈ insertSlot i s.table.occupied ↔ _
        rw [mem_insertSlot]
        by_cases e : j = i
        · subst e
          rw [self]
          exact ⟨fun _ => (nofun : Sched.idle ≠ .free), fun _ => .inl rfl⟩
        · rw [other j e, ← a j]
          exact ⟨fun hj => hj.resolve_left e, .inr⟩
      · show j ∈ (s.table.owned.set p.val (insertSlot i s.table.owned[p]) p.isLt)[q] ↔ _
        by_cases e : q = p
        · subst e
          rw [set_port_same, mem_insertSlot]
          by_cases e : j = i
          · subst e
            rw [self]
            exact ⟨fun _ => rfl, fun _ => .inl rfl⟩
          · rw [other j e, ← b q j]
            exact ⟨fun hj => hj.resolve_left e, .inr⟩
        · rw [set_port_other _ _ _ _ e]
          by_cases e' : j = i
          · subst e'
            rw [self]
            refine ⟨fun hj => ?_, fun hj => absurd (Option.some.inj hj).symm e⟩
            rw [b q j, (c j hs).1] at hj
            cases hj
          · rw [other j e']
            exact b q j
      · by_cases e : j = i
        · subst e
          rw [self] at hj
          cases hj
        · rw [other j e] at hj ⊢
          exact c j hj }
  refine t.closed ?_ ?_ ?_ <;> · rw [self]; exact nofun

theorem tied_setDeadline {s : State} {i : SlotIx} (h : Tied (some i) s) (d : Tick) :
    Tied (some i) (s.setDeadline i d) := h.modified _ rfl Iff.rfl fun _ e => e

/-- A QUEUED record takes a new deadline in its place (R36). -/
theorem tied_setDeadline_queued {s : State} {i : SlotIx} (h : Tied none s) (hi : (s.record i).sched = .queued)
    (d : Tick) : Tied none (s.setDeadline i d) := by
  have self : (s.setDeadline i d).record i = { s.record i with deadline := some d, remaining := none } :=
    State.record_modify_self _ _ _
  have other : ∀ j, j ≠ i → (s.setDeadline i d).record j = s.record j :=
    fun j hj => State.record_modify_other _ _ _ _ hj
  have sched : ∀ j, ((s.setDeadline i d).record j).sched = (s.record j).sched := fun j => by
    by_cases e : j = i
    · subst e; rw [self]
    · rw [other j e]
  have member : ∀ j ∈ s.listOrder, (s.setDeadline i d).record j = s.record j := fun j hj =>
    other j (by
      rintro rfl
      rw [(h.list j (by simp)).mp hj] at hi
      cases hi)
  exact {
    wf := storeCell_wf _ i _ h.wf
    queueOnce := h.queueOnce
    queue := fun j hj => by rw [sched]; exact h.queue j hj
    part := h.part
    placing := fun j hj hp => by
      have e : j ≠ i := by
        rintro rfl
        rw [sched, hi] at hp
        cases hp
      rw [other j e] at hp ⊢
      exact h.placing j hj hp
    listOnce := h.listOnce
    list := fun j hj => by rw [sched]; exact h.list j hj
    out := fun j hj => by cases hj
    sorted := h.sorted.imp_of_mem fun ha hb hd => by rw [member _ ha, member _ hb]; exact hd
    failed := h.failed
    window := h.window
    slots := by
      obtain ⟨a, b, c⟩ := h.slots
      refine ⟨fun j => by rw [sched]; exact a j, fun p j => ?_, fun j hj => ?_⟩
      · by_cases e : j = i
        · subst e; rw [self]; exact b p j
        · rw [other j e]; exact b p j
      · rw [sched] at hj
        by_cases e : j = i
        · subst e
          rw [hi] at hj
          cases hj
        · rw [other j e]
          exact c j hj }

/-- ARM moves a record that is neither FREE nor PLACING into the placement queue (R34 to R37). -/
theorem tied_armRecord {s : State} {i : SlotIx} (h : Tied none s) (h1 : (s.record i).sched ≠ .free) (d : Tick) :
    Tied none (s.armRecord i d) := by
  unfold State.armRecord
  split
  · rename_i hq
    exact tied_setDeadline_queued h hq d
  · rename_i ha
    refine tied_enqueue (tied_setDeadline (tied_unlist h ha) d) ?_
    rw [State.setDeadline, State.record_modify_self]
    exact h1
  · rename_i hq ha
    refine tied_enqueue (tied_setDeadline (h.opened i hq ha) d) ?_
    rw [State.setDeadline, State.record_modify_self]
    exact h1

theorem tied_disarm {s : State} {i : SlotIx} (h : Tied none s) (h1 : (s.record i).sched ≠ .free) :
    Tied none (s.disarm i) :=
  (tied_leaveTiming h).parked _ (by rw [leaveTiming_record]; exact h1) rfl (.inl rfl)

theorem tied_withdraw {s : State} (h : Tied none s) (i : SlotIx) : Tied none (s.withdraw i) := by
  unfold State.withdraw
  split
  · exact h
  · exact h
  · exact (h.quiet (.of_table rfl rfl rfl : Quiet s (s.unblock i))).quiet (quiet_setNotice _ i _ _)
  · split
    · exact h
    · exact tied_settle (tied_serveBlocked ((h.quiet (moved_dropEntry s _ _).quiet).quiet (quiet_setNotice _ i _ _)))

theorem tied_deliver {s : State} (h : Tied none s) (p : Port) (e : Entry) : Tied none (s.deliver p e) := by
  have d := h.quiet (moved_dropEntry s (.queued p) e).quiet
  unfold State.deliver
  dsimp only
  split
  · exact d
  · exact d
  · exact tied_serveBlocked (d.quiet (quiet_setNotice _ _ _ _))
  · split
    · exact tied_serveBlocked (tied_dispose (d.quiet (quiet_setNotice _ _ _ _)) _)
    · exact (d.quiet (moved_modifyOutstanding _ p _).quiet).quiet (quiet_setNotice _ _ _ _)

theorem tied_deliverAll {s : State} (h : Tied none s) (p : Port) (es : List Entry) (b : Bool) :
    Tied none (s.deliverAll p es b) := by
  have fold : ∀ (l : List Entry) (t : State), Tied none t → Tied none (l.foldl (State.deliver p) t) := by
    intro l
    induction l with
    | nil => exact fun t ht => ht
    | cons e l ih => exact fun t ht => ih _ (tied_deliver ht p e)
  have f := fold es s h
  unfold State.deliverAll
  dsimp only
  split
  · exact tied_settle f
  · exact tied_driveLines f

theorem quiet_consume (s : State) (p : Port) (i : SlotIx) : Quiet s (s.consume p i) := by
  unfold State.consume
  split
  · exact quiet_setNotice s i _ _
  · exact (moved_dropEntry s _ _).quiet.trans (quiet_setNotice _ i _ _)

theorem tied_acknowledge {s : State} (h : Tied none s) (p : Port) (i : SlotIx) (rearm : Option Interval) :
    Tied none (s.acknowledge p i rearm) := by
  have c := h.quiet (quiet_consume s p i)
  unfold State.acknowledge
  dsimp only
  refine tied_settle ?_
  split
  · exact (tied_serveBlocked c).quiet (quiet_raiseFault _ i)
  · refine tied_serveBlocked ?_
    unfold State.rearmOrDispose
    split
    · rename_i hr
      unfold Record.rearms at hr
      simp only [Bool.and_eq_true, decide_eq_true_eq] at hr
      have idle := hr.1.2
      refine tied_enqueue (tied_setDeadline (c.opened i (by rw [idle]; decide) (by rw [idle]; decide)) _) ?_
      rw [State.setDeadline, State.record_modify_self]
      show ((s.consume p i).record i).sched ≠ .free
      rw [idle]
      decide
    · exact tied_dispose c i

theorem quiet_giveBack (s : State) (p : Port) (i : SlotIx) : Quiet s (s.giveBack p i) := by
  unfold State.giveBack
  split
  · exact .refl s
  · rename_i e _
    have a := (moved_dropEntry s (.outstanding p) e).quiet.trans (quiet_setNotice _ i .pending none)
    dsimp only
    split
    · exact (a.trans (moved_modifyQueue _ _ _).quiet).trans (moved_driveLines _).quiet
    · exact (a.trans (moved_reoffer _ _ _ _).quiet).trans (moved_settle _).quiet

/-! ### Supervision -/

theorem quiet_setLimit (s : State) (q : Port) (v : Nat) : Quiet s (s.setLimit q v) := by
  unfold State.setLimit
  dsimp only
  generalize { s.portTable with limit := s.portTable.limit.set q.val v q.isLt } = b
  have a : Quiet s (s.withPortTable b) := .of_table rfl rfl rfl
  split
  · exact a.trans (moved_settle _).quiet
  · exact a

theorem quiet_enable (s : State) (q : Port) : Quiet s (s.enable q) := by
  unfold State.enable
  split
  · exact .of_table rfl rfl rfl
  all_goals exact .refl s

theorem tied_disable {s : State} (h : Tied none s) (q : Port) : Tied none (s.disable q) := by
  have off : Tied none (s.setEnabled q false) := h.quiet (.of_table rfl rfl rfl)
  unfold State.disable
  split
  · exact h
  · exact tied_modifyLink (tied_leaveUp off _ _ _) _ _
  · exact tied_queuePortSweep (tied_modifyLink off _ _) _
  · exact tied_queuePortSweep (tied_modifyLink off _ _) _

/-! ### The clock -/

theorem quiet_clockTimeBase (s : State) : Quiet s s.clockTimeBase := by
  unfold State.clockTimeBase State.tickEvent
  repeat' split
  all_goals exact .of_table rfl rfl rfl

theorem tied_clockPort {s : State} (h : Tied none s) (p : Port) : Tied none (s.clockPort p) := by
  unfold State.clockPort
  split
  · exact h
  · split
    · exact h
    · split
      · exact tied_modifyLink h p _
      · exact tied_receiveBad (tied_modifyLink h p _) p _

theorem tied_strike {s : State} (h : Tied none s) (u : Upset) : Tied none (s.strike u) := by
  unfold State.strike
  split
  · exact h.quiet (quiet_modify s _ _ rfl fun _ e => e)
  · exact h.quiet (quiet_modify s _ _ rfl fun _ e => e)
  · exact h.quiet (quiet_modify s _ _ rfl fun _ e => e)
  · rename_i i
    have order : (s.expiry.list.map fun m => if m.slot = i then { m with linkHolds := false } else m).map Member.slot
        = s.listOrder := by
      rw [List.map_map]
      refine List.map_congr_left fun m _ => ?_
      show Member.slot (if m.slot = i then { m with linkHolds := false } else m) = m.slot
      split <;> rfl
    exact { h with
      listOnce := by
        show (List.map Member.slot _).Nodup
        rw [order]
        exact h.listOnce
      list := fun j hj => by
        show j ∈ List.map Member.slot _ ↔ _
        rw [order]
        exact h.list j hj
      out := fun j hj => by cases hj
      sorted := by
        show (List.map Member.slot _).Pairwise _
        rw [order]
        exact h.sorted
      failed := fun hf => by
        obtain ⟨a, b⟩ := h.failed hf
        refine ⟨?_, b⟩
        show s.expiry.list.map _ = []
        rw [a]
        rfl
      window := fun f hf => by
        obtain ⟨a, b, c, d⟩ := h.window f hf
        refine ⟨a, b, fun j hj => ?_, d⟩
        show j ∈ List.map Member.slot _
        rw [order]
        exact c j hj }

/-- Device reset leaves every slot where its record says: FREE, in no queue and no list. -/
theorem tied_reset : Tied none State.reset where
  wf := by decide +kernel
  queueOnce := List.nodup_nil
  queue i _ := ⟨fun h => (by cases h), fun h => (nomatch h)⟩
  part := Nat.le_refl _
  placing i _ h := (nomatch h)
  listOnce := List.nodup_nil
  list i _ := ⟨fun h => (by cases h), fun h => (nomatch h)⟩
  out i h := by cases h
  sorted := List.Pairwise.nil
  failed h := (nomatch h)
  window f h := by cases h
  slots := by
    have e : ∀ p : Port, State.reset.table.owned[p] = [] := by decide
    refine ⟨fun i => ⟨fun h => (by cases h), fun h => absurd rfl h⟩, fun p i => ⟨fun h => ?_, fun h => (nomatch h)⟩,
      fun i _ => ⟨rfl, rfl⟩⟩
    rw [e] at h
    cases h

end Sys2Proof.Machine
end

