-- ==== Sys2Proof/Laws/Noted.lean ====
section
/-! SUPPORT. The notice store and the blocked list follow the records: what keeps them so, one lemma per
operation, `noted_<operation>`. -/

namespace Sys2Proof.Machine

/-! ### Where entries lie -/

/-- The slots on the blocked list, head first. -/
abbrev State.waiting (s : State) : List SlotIx := s.notices.blocked.map BlockedPlace.slot

/-- The slots that entries name. -/
abbrev State.namedSlots (s : State) : List SlotIx := s.entries.filterMap Entry.slot

theorem mem_entries {s : State} {e : Entry} : e ∈ s.entries ↔ ∃ pl, e ∈ s.listAt pl := by
  have flat : ∀ {n : Nat} (v : Vector (List Entry) n), e ∈ v.toList.flatten ↔ ∃ k : Fin n, e ∈ v[k] := by
    intro n v
    rw [List.mem_flatten]
    constructor
    · rintro ⟨l, hl, he⟩
      obtain ⟨k, hk, rfl⟩ := Vector.mem_iff_getElem.mp (Vector.mem_toList_iff.mp hl)
      exact ⟨⟨k, hk⟩, he⟩
    · rintro ⟨k, hk⟩
      exact ⟨v[k], Vector.mem_toList_iff.mpr (Vector.getElem_mem _), hk⟩
  unfold State.entries
  rw [List.mem_append, List.mem_append, flat, flat, flat]
  constructor
  · rintro ((⟨p, h⟩ | ⟨p, h⟩) | ⟨k, h⟩)
    · exact ⟨.queued p, h⟩
    · exact ⟨.outstanding p, h⟩
    · exact ⟨.holding k, h⟩
  · rintro ⟨pl, h⟩
    cases pl with
    | queued p => exact .inl (.inl ⟨p, h⟩)
    | outstanding p => exact .inl (.inr ⟨p, h⟩)
    | holding k => exact .inr ⟨k, h⟩

/-- A search by slot that finds nothing: no entry names the slot. -/
theorem entryOf_none {s : State} {i : SlotIx} (h : s.entryOf i = none) : ∀ e ∈ s.entries, e.slot ≠ some i := by
  intro e he hs
  have found : ∀ {l : List Entry}, e ∈ l → l.find? (·.names i) ≠ none := by
    intro l hl hf
    have := List.find?_eq_none.mp hf e hl
    exact this (decide_eq_true hs)
  have every : ∀ p : Port, p ∈ allPorts := by decide
  have everyPool : ∀ k : Pool, k ∈ allPools := by decide
  unfold State.entryOf at h
  rw [Option.or_eq_none_iff, Option.or_eq_none_iff] at h
  obtain ⟨h1, h2, h3⟩ := h
  obtain ⟨pl, hm⟩ := mem_entries.mp he
  cases pl with
  | queued p =>
    have := List.findSome?_eq_none_iff.mp h1 p (every p)
    exact found hm (Option.map_eq_none_iff.mp this)
  | outstanding p =>
    have := List.findSome?_eq_none_iff.mp h2 p (every p)
    exact found hm (Option.map_eq_none_iff.mp this)
  | holding k =>
    have := List.findSome?_eq_none_iff.mp h3 k (everyPool k)
    exact found hm (Option.map_eq_none_iff.mp this)

/-- What a place holds when an entry joins a port's queue. -/
theorem mem_joinQueue_iff {s : State} {p : Port} {e x : Entry} {pl : EntryPlace} :
    x ∈ (s.joinQueue p e).listAt pl ↔ x ∈ s.listAt pl ∨ (pl = .queued p ∧ x = { e with assigned := some p }) := by
  cases pl with
  | queued q =>
    show x ∈ (s.modifyQueue p _).notices.queues[q] ↔ x ∈ s.notices.queues[q] ∨ _
    rw [queues_modifyQueue]
    by_cases h : q = p
    · subst h
      rw [if_pos rfl, mem_insertEntry]
      exact ⟨fun h => h.elim (fun e => .inr ⟨rfl, e⟩) .inl, fun h => h.elim .inr fun e => .inl e.2⟩
    · rw [if_neg h]
      refine ⟨.inl, fun hx => hx.elim id fun e => absurd ?_ h⟩
      injection e.1
  | outstanding q => exact ⟨.inl, fun h => h.elim id fun e => (nomatch e.1)⟩
  | holding k => exact ⟨.inl, fun h => h.elim id fun e => (nomatch e.1)⟩

/-- What a place holds when an entry joins a holding queue. -/
theorem mem_joinHolding_iff {s : State} {k : Pool} {e x : Entry} {pl : EntryPlace} :
    x ∈ (s.joinHolding k e).listAt pl ↔ x ∈ s.listAt pl ∨ (pl = .holding k ∧ x = { e with assigned := none }) := by
  cases pl with
  | queued q => exact ⟨.inl, fun h => h.elim id fun e => (nomatch e.1)⟩
  | outstanding q => exact ⟨.inl, fun h => h.elim id fun e => (nomatch e.1)⟩
  | holding m =>
    show x ∈ (s.notices.holding.set k.val (insertEntry { e with assigned := none } s.notices.holding[k]) k.isLt)[m]
      ↔ x ∈ s.notices.holding[m] ∨ _
    by_cases h : m = k
    · subst h
      rw [set_pool_same, mem_insertEntry]
      exact ⟨fun h => h.elim (fun e => .inr ⟨rfl, e⟩) .inl, fun h => h.elim .inr fun e => .inl e.2⟩
    · rw [set_pool_other _ _ _ _ h]
      refine ⟨.inl, fun hx => hx.elim id fun e => absurd ?_ h⟩
      injection e.1

theorem dropEntry_other {s : State} {place pl : EntryPlace} {e : Entry} (h : pl ≠ place) :
    (s.dropEntry place e).listAt pl = s.listAt pl := by
  cases place with
  | queued p =>
    cases pl with
    | queued q =>
      show (s.modifyQueue p _).notices.queues[q] = s.notices.queues[q]
      rw [queues_modifyQueue, if_neg (by rintro rfl; exact h rfl)]
    | outstanding q => rfl
    | holding k => rfl
  | outstanding p =>
    cases pl with
    | queued q => rfl
    | outstanding q => exact set_port_other s.notices.outstanding p q _ (by rintro rfl; exact h rfl)
    | holding k => rfl
  | holding k =>
    cases pl with
    | queued q => rfl
    | outstanding q => rfl
    | holding m => exact set_pool_other s.notices.holding k m _ (by rintro rfl; exact h rfl)

theorem dropEntry_same (s : State) (place : EntryPlace) (e : Entry) :
    (s.dropEntry place e).listAt place = (s.listAt place).erase e := by
  cases place with
  | queued p => exact set_port_same s.notices.queues p _
  | outstanding p => exact set_port_same s.notices.outstanding p _
  | holding k => exact set_pool_same s.notices.holding k _

/-- Two entries with one number are one, in one place. -/
theorem one_number {s : State} (h : (s.entries.map Entry.number).Nodup) {a b : EntryPlace} {e x : Entry}
    (ha : e ∈ s.listAt a) (hb : x ∈ s.listAt b) (hn : x.number = e.number) : b = a ∧ x = e := by
  have hd := (entries_dropEntry s a e ha).map Entry.number
  have hnd := hd.nodup_iff.mpr h
  rw [List.map_cons, List.nodup_cons] at hnd
  by_contra hc
  refine hnd.1 (List.mem_map.mpr ⟨x, mem_entries.mpr ⟨b, ?_⟩, hn⟩)
  by_cases hba : b = a
  · subst hba
    rw [dropEntry_same]
    exact (List.mem_erase_of_ne fun hx => hc ⟨rfl, hx⟩).mpr hb
  · rw [dropEntry_other hba]
    exact hb

/-- What a place holds when an entry has left. -/
theorem mem_dropEntry_iff {s : State} (h : (s.entries.map Entry.number).Nodup) {place pl : EntryPlace}
    {e x : Entry} (he : e ∈ s.listAt place) :
    x ∈ (s.dropEntry place e).listAt pl ↔ x ∈ s.listAt pl ∧ x ≠ e := by
  have hd := (entries_dropEntry s place e he).map Entry.number
  have hnd := hd.nodup_iff.mpr h
  rw [List.map_cons, List.nodup_cons] at hnd
  by_cases hp : pl = place
  · subst hp
    constructor
    · intro hx
      refine ⟨?_, ?_⟩
      · rw [dropEntry_same] at hx
        exact List.mem_of_mem_erase hx
      · rintro rfl
        exact hnd.1 (List.mem_map.mpr ⟨x, mem_entries.mpr ⟨pl, hx⟩, rfl⟩)
    · rintro ⟨hx, hne⟩
      rw [dropEntry_same]
      exact (List.mem_erase_of_ne hne).mpr hx
  · rw [dropEntry_other hp]
    refine ⟨fun hx => ⟨hx, ?_⟩, And.left⟩
    rintro rfl
    exact hp (one_number h he hx rfl).1

/-! ### The invariant -/

/-- The notice state and the holder of a record whose entry lies in a place. -/
def EntryPlace.standing : EntryPlace → NoticeState × Option Port
  | .queued _ => (.pending, none)
  | .outstanding p => (.outstanding, some p)
  | .holding _ => (.pending, none)

/-- An entry may lie in a place: its port is UP, or is the one that leaves UP, and its destination fits. -/
def State.suits (s : State) (l : Option Port) (pl : EntryPlace) (e : Entry) : Prop :=
  match pl with
  | .queued p => (s.isUp p = true ∨ l = some p) ∧ ∀ q, e.destination = .port q → q = p
  | .outstanding p => (s.isUp p = true ∨ l = some p) ∧ ∀ q, e.destination = .port q → q = p
  | .holding k => e.destination = .pool k

/-- Each record but an open one has the notice state that the collections give it; the open one is on no list and
named by no entry. A port `l` may be leaving UP with entries still to treat. -/
structure Noted (x : Option SlotIx) (l : Option Port) (s : State) : Prop where
  once : (s.waiting ++ s.namedSlots).Nodup
  numbers : (s.entries.map Entry.number).Nodup
  listed : ∀ pl, ∀ e ∈ s.listAt pl, ∀ i, e.slot = some i →
    some i ≠ x ∧ ((s.record i).notice, (s.record i).holder) = pl.standing
  waits : ∀ i ∈ s.waiting, some i ≠ x ∧ (s.record i).notice = .waiting ∧ (s.record i).holder = none
  clear : ∀ i, some i ≠ x → i ∉ s.waiting → (∀ e ∈ s.entries, e.slot ≠ some i) →
    (s.record i).notice = .clear ∧ (s.record i).holder = none
  kinds : ∀ e ∈ s.entries, e.slot = none ↔ e.kind = .sweepDone
  faults : ∀ e ∈ s.entries, ∀ i, e.kind = .fault → e.slot = some i →
    (s.record i).sched = .damaged ∧ e.faultPart = (s.record i).fault
  converted : ∀ pl, ∀ e ∈ s.listAt pl, ∀ i, e.slot = some i → pl.standing.1 = .pending →
    (s.record i).sched = .damaged → e.kind = .fault
  free : ∀ i, some i ≠ x → (s.record i).sched = .free → (s.record i).notice = .clear
  stays : ∀ pl, ∀ e ∈ s.listAt pl, pl.standing.1 = .outstanding → e.kind = .expiry
  homes : ∀ pl, ∀ e ∈ s.listAt pl, s.suits l pl e

namespace Noted

theorem named {s : State} {i : SlotIx} : i ∈ s.namedSlots ↔ ∃ e ∈ s.entries, e.slot = some i := by
  rw [List.mem_filterMap]

/-- A CLEAR record is on no list and named by no entry. -/
theorem of_clear {l} {s : State} (h : Noted none l s) {i : SlotIx} (hc : (s.record i).notice = .clear) :
    i ∉ s.waiting ∧ ∀ e ∈ s.entries, e.slot ≠ some i := by
  refine ⟨fun hw => ?_, fun e he hs => ?_⟩
  · have := (h.waits i hw).2.1
    rw [hc] at this
    cases this
  · obtain ⟨pl, hp⟩ := mem_entries.mp he
    have := congrArg Prod.fst (h.listed pl e hp i hs).2
    rw [show ((s.record i).notice, (s.record i).holder).1 = .clear from hc] at this
    cases pl <;> cases this

/-- A WAITING record is on the blocked list, and no entry names it. -/
theorem of_waiting {l} {s : State} (h : Noted none l s) {i : SlotIx} (hc : (s.record i).notice = .waiting) :
    i ∈ s.waiting ∧ ∀ e ∈ s.entries, e.slot ≠ some i := by
  have hn : ∀ e ∈ s.entries, e.slot ≠ some i := fun e he hs => by
    obtain ⟨pl, hp⟩ := mem_entries.mp he
    have := congrArg Prod.fst (h.listed pl e hp i hs).2
    rw [show ((s.record i).notice, (s.record i).holder).1 = .waiting from hc] at this
    cases pl <;> cases this
  refine ⟨?_, hn⟩
  by_contra hw
  have := (h.clear i (by simp) hw hn).1
  rw [hc] at this
  cases this

/-- A PENDING or OUTSTANDING record is named by an entry, which lies where its notice state says. -/
theorem of_entry {l} {s : State} (h : Noted none l s) {i : SlotIx} (h1 : (s.record i).notice ≠ .clear)
    (h2 : (s.record i).notice ≠ .waiting) :
    ∃ pl, ∃ e ∈ s.listAt pl, e.slot = some i ∧ ((s.record i).notice, (s.record i).holder) = pl.standing := by
  by_contra hc
  refine h1 (h.clear i (by simp) (fun hw => h2 (h.waits i hw).2.1) fun e he hs => ?_).1
  obtain ⟨pl, hp⟩ := mem_entries.mp he
  exact hc ⟨pl, e, hp, hs, (h.listed pl e hp i hs).2⟩

/-- An entry's slot is named by no other entry and is not on the blocked list. -/
theorem alone {x l} {s : State} (h : Noted x l s) {place : EntryPlace} {e : Entry} (he : e ∈ s.listAt place)
    {i : SlotIx} (hs : e.slot = some i) :
    i ∉ s.waiting ∧ ∀ y ∈ (s.dropEntry place e).entries, y.slot ≠ some i := by
  have hp := (entries_dropEntry s place e he).filterMap Entry.slot
  rw [List.filterMap_cons_some hs] at hp
  have hnd := ((List.perm_append_left_iff s.waiting).mpr hp).nodup_iff.mpr h.once
  rw [List.nodup_append', List.nodup_cons] at hnd
  refine ⟨fun hw => ?_, fun y hy hys => ?_⟩
  · exact hnd.2.2 hw (List.mem_cons_self ..)
  · exact hnd.2.1.1 (List.mem_filterMap.mpr ⟨y, hy, hys⟩)

end Noted

/-! ### Operations that move no notice -/

/-- The fields of a record that its notice follows. -/
def Record.face (r : Record) : NoticeState × Option Port × Bool × Bool × Option FaultPart :=
  (r.notice, r.holder, decide (r.sched = .free), decide (r.sched = .damaged), r.fault)

/-- `t` came from `s` by an operation that moves no notice entry and no record to or from the blocked list. -/
structure Hush (s t : State) : Prop where
  waiting : t.waiting = s.waiting
  queues : t.notices.queues = s.notices.queues
  outstanding : t.notices.outstanding = s.notices.outstanding
  holding : t.notices.holding = s.notices.holding
  face : ∀ i, (t.record i).face = (s.record i).face
  up : ∀ p, t.isUp p = s.isUp p

namespace Hush

theorem refl (s : State) : Hush s s := ⟨rfl, rfl, rfl, rfl, fun _ => rfl, fun _ => rfl⟩

theorem trans {s t u : State} (a : Hush s t) (b : Hush t u) : Hush s u :=
  ⟨b.waiting.trans a.waiting, b.queues.trans a.queues, b.outstanding.trans a.outstanding,
    b.holding.trans a.holding, fun i => (b.face i).trans (a.face i), fun p => (b.up p).trans (a.up p)⟩

theorem foldl {α : Type} (f : State → α → State) (h : ∀ s a, Hush s (f s a)) :
    ∀ (l : List α) (s : State), Hush s (l.foldl f s)
  | [], s => refl s
  | a :: l, s => (h s a).trans (foldl f h l (f s a))

theorem notice {s t : State} (h : Hush s t) (i : SlotIx) : (t.record i).notice = (s.record i).notice :=
  congrArg Prod.fst (h.face i)

theorem holder {s t : State} (h : Hush s t) (i : SlotIx) : (t.record i).holder = (s.record i).holder :=
  congrArg (fun x => x.2.1) (h.face i)

theorem isFree {s t : State} (h : Hush s t) (i : SlotIx) :
    (t.record i).sched = .free ↔ (s.record i).sched = .free := by
  have := congrArg (fun x => x.2.2.1) (h.face i)
  exact decide_eq_decide.mp this

theorem isDamaged {s t : State} (h : Hush s t) (i : SlotIx) :
    (t.record i).sched = .damaged ↔ (s.record i).sched = .damaged := by
  have := congrArg (fun x => x.2.2.2.1) (h.face i)
  exact decide_eq_decide.mp this

theorem fault {s t : State} (h : Hush s t) (i : SlotIx) : (t.record i).fault = (s.record i).fault :=
  congrArg (fun x => x.2.2.2.2) (h.face i)

theorem entries {s t : State} (h : Hush s t) : t.entries = s.entries :=
  entries_congr h.queues h.outstanding h.holding

theorem listAt {s t : State} (h : Hush s t) (pl : EntryPlace) : t.listAt pl = s.listAt pl := by
  cases pl with
  | queued p => show t.notices.queues[p] = _; rw [h.queues]; rfl
  | outstanding p => show t.notices.outstanding[p] = _; rw [h.outstanding]; rfl
  | holding k => show t.notices.holding[k] = _; rw [h.holding]; rfl

theorem suits {s t : State} (h : Hush s t) (l : Option Port) (pl : EntryPlace) (e : Entry) :
    t.suits l pl e ↔ s.suits l pl e := by
  unfold State.suits
  cases pl <;> simp only [h.up]

/-- The table, the notice unit and the links' states are untouched. -/
theorem of_table {s t : State} (h1 : t.table = s.table) (h2 : t.notices = s.notices)
    (h3 : ∀ p : Port, t.links[p].state = s.links[p].state) : Hush s t :=
  ⟨by unfold State.waiting; rw [h2], by rw [h2], by rw [h2], by rw [h2],
    fun i => by unfold State.record; rw [h1], fun p => by unfold State.isUp; rw [h3 p]⟩

end Hush

theorem hush_modify (s : State) (i : SlotIx) (f : Record → Record)
    (h : (f (s.record i)).face = (s.record i).face) : Hush s (s.modify i f) :=
  ⟨rfl, rfl, rfl, rfl, fun j => by
    by_cases e : j = i
    · subst e; rw [State.record_modify_self]; exact h
    · rw [State.record_modify_other _ _ _ _ e], fun _ => rfl⟩

/-- An operation that moves no notice keeps every record noted. -/
theorem Noted.hush {x l} {s t : State} (h : Noted x l s) (q : Hush s t) : Noted x l t where
  once := by unfold State.namedSlots; rw [q.waiting, q.entries]; exact h.once
  numbers := by rw [q.entries]; exact h.numbers
  listed pl e he i hs := by
    rw [q.listAt] at he
    rw [q.notice, q.holder]
    exact h.listed pl e he i hs
  waits i hi := by
    rw [q.waiting] at hi
    rw [q.notice, q.holder]
    exact h.waits i hi
  clear i h1 h2 h3 := by
    rw [q.waiting] at h2
    rw [q.entries] at h3
    rw [q.notice, q.holder]
    exact h.clear i h1 h2 h3
  kinds := by rw [q.entries]; exact h.kinds
  faults e he i hk hs := by
    rw [q.entries] at he
    rw [q.isDamaged, q.fault]
    exact h.faults e he i hk hs
  converted pl e he i hs hp hd := by
    rw [q.listAt] at he
    rw [q.isDamaged] at hd
    exact h.converted pl e he i hs hp hd
  free i hi hf := by
    rw [q.isFree] at hf
    rw [q.notice]
    exact h.free i hi hf
  stays pl e he := by
    rw [q.listAt] at he
    exact h.stays pl e he
  homes pl e he := by
    rw [q.listAt] at he
    rw [q.suits]
    exact h.homes pl e he

/-! ### Opening and closing a record -/

/-- A CLEAR record is open. -/
theorem Noted.opened {l} {s : State} (h : Noted none l s) {i : SlotIx} (hc : (s.record i).notice = .clear) :
    Noted (some i) l s := by
  obtain ⟨hw, he⟩ := h.of_clear hc
  exact { h with
    listed := fun pl e hm j hs => ⟨by
      rintro ⟨⟩
      exact he e (mem_entries.mpr ⟨pl, hm⟩) hs, (h.listed pl e hm j hs).2⟩
    waits := fun j hj => ⟨by
      rintro ⟨⟩
      exact hw hj, (h.waits j hj).2⟩
    clear := fun j _ => h.clear j (by simp)
    free := fun j _ => h.free j (by simp) }

/-- An open record that is CLEAR is closed. -/
theorem Noted.closed {l} {s : State} {i : SlotIx} (h : Noted (some i) l s) (h1 : (s.record i).notice = .clear)
    (h2 : (s.record i).holder = none) : Noted none l s :=
  { h with
    listed := fun pl e hm j hs => ⟨by simp, (h.listed pl e hm j hs).2⟩
    waits := fun j hj => ⟨by simp, (h.waits j hj).2⟩
    clear := fun j _ hw he => by
      by_cases e : j = i
      · subst e; exact ⟨h1, h2⟩
      · exact h.clear j (by simpa using e) hw he
    free := fun j _ hf => by
      by_cases e : j = i
      · subst e; exact h1
      · exact h.free j (by simpa using e) hf }

/-- An open record is changed in any way. -/
theorem Noted.edited {l} {s t : State} {i : SlotIx} (h : Noted (some i) l s) (hw : t.waiting = s.waiting)
    (h1 : t.notices.queues = s.notices.queues) (h2 : t.notices.outstanding = s.notices.outstanding)
    (h3 : t.notices.holding = s.notices.holding) (hr : ∀ j, j ≠ i → (t.record j).face = (s.record j).face)
    (hu : ∀ p, t.isUp p = s.isUp p) : Noted (some i) l t := by
  have he : t.entries = s.entries := entries_congr h1 h2 h3
  have hl : ∀ pl, t.listAt pl = s.listAt pl := fun pl => by
    cases pl with
    | queued p => show t.notices.queues[p] = _; rw [h1]; rfl
    | outstanding p => show t.notices.outstanding[p] = _; rw [h2]; rfl
    | holding k => show t.notices.holding[k] = _; rw [h3]; rfl
  have ne : ∀ {j : SlotIx}, some j ≠ some i → j ≠ i := fun hj e => hj (by rw [e])
  have notice : ∀ j, j ≠ i → (t.record j).notice = (s.record j).notice := fun j hj => congrArg Prod.fst (hr j hj)
  have holder : ∀ j, j ≠ i → (t.record j).holder = (s.record j).holder := fun j hj =>
    congrArg (fun x => x.2.1) (hr j hj)
  have free : ∀ j, j ≠ i → ((t.record j).sched = .free ↔ (s.record j).sched = .free) := fun j hj =>
    decide_eq_decide.mp (congrArg (fun x => x.2.2.1) (hr j hj))
  have damaged : ∀ j, j ≠ i → ((t.record j).sched = .damaged ↔ (s.record j).sched = .damaged) := fun j hj =>
    decide_eq_decide.mp (congrArg (fun x => x.2.2.2.1) (hr j hj))
  have fault : ∀ j, j ≠ i → (t.record j).fault = (s.record j).fault := fun j hj =>
    congrArg (fun x => x.2.2.2.2) (hr j hj)
  exact {
    once := by unfold State.namedSlots; rw [hw, he]; exact h.once
    numbers := by rw [he]; exact h.numbers
    listed := fun pl e hm j hs => by
      rw [hl] at hm
      obtain ⟨a, b⟩ := h.listed pl e hm j hs
      rw [notice j (ne a), holder j (ne a)]
      exact ⟨a, b⟩
    waits := fun j hj => by
      rw [hw] at hj
      obtain ⟨a, b⟩ := h.waits j hj
      rw [notice j (ne a), holder j (ne a)]
      exact ⟨a, b⟩
    clear := fun j a b c => by
      rw [hw] at b
      rw [he] at c
      rw [notice j (ne a), holder j (ne a)]
      exact h.clear j a b c
    kinds := by rw [he]; exact h.kinds
    faults := fun e hm j hk hs => by
      rw [he] at hm
      obtain ⟨pl, hp⟩ := mem_entries.mp hm
      have a := ne (h.listed pl e hp j hs).1
      rw [damaged j a, fault j a]
      exact h.faults e hm j hk hs
    converted := fun pl e hm j hs hp hd => by
      rw [hl] at hm
      have a := ne (h.listed pl e hm j hs).1
      rw [damaged j a] at hd
      exact h.converted pl e hm j hs hp hd
    free := fun j a hf => by
      rw [free j (ne a)] at hf
      rw [notice j (ne a)]
      exact h.free j a hf
    stays := fun pl e hm => by
      rw [hl] at hm
      exact h.stays pl e hm
    homes := fun pl e hm => by
      rw [hl] at hm
      have := h.homes pl e hm
      unfold State.suits at this ⊢
      cases pl <;> simp only [hu] <;> exact this }

theorem Noted.modified {l} {s : State} {i : SlotIx} (h : Noted (some i) l s) (f : Record → Record) :
    Noted (some i) l (s.modify i f) :=
  h.edited rfl rfl rfl rfl (fun j hj => by rw [State.record_modify_other _ _ _ _ hj]) fun _ => rfl

/-- An open record is made CLEAR. -/
theorem Noted.cleared {l} {s : State} {i : SlotIx} (h : Noted (some i) l s) :
    Noted none l (s.setNotice i .clear none) :=
  (h.modified _).closed (by rw [State.record_modify_self]) (by rw [State.record_modify_self])

theorem Noted.lost {l} {s : State} {i : SlotIx} (h : Noted (some i) l s) : Noted none l (s.loseNotice i) :=
  ((h.modified fun r => { r with overrun := saturate8 r.overrun 1 })).cleared

/-! ### Entries that leave and join -/

/-- An entry leaves, and the record it names is open. -/
theorem noted_dropEntry {l} {s : State} (h : Noted none l s) {place : EntryPlace} {e : Entry}
    (he : e ∈ s.listAt place) : Noted e.slot l (s.dropEntry place e) := by
  have m := moved_dropEntry s place e
  have perm := entries_dropEntry s place e he
  have hw : (s.dropEntry place e).waiting = s.waiting := by unfold State.waiting; rw [m.blocked]
  have sub : ∀ y, y ∈ (s.dropEntry place e).entries → y ∈ s.entries := fun y hy =>
    perm.mem_iff.mp (List.mem_cons_of_mem _ hy)
  have up : ∀ p, (s.dropEntry place e).isUp p = s.isUp p := fun p => (confined_dropEntry s place e).isUp p
  exact {
    once := by
      rw [hw]
      have hp := perm.filterMap Entry.slot
      have := ((List.perm_append_left_iff s.waiting).mpr hp).nodup_iff.mpr h.once
      refine this.sublist (List.Sublist.append (.refl _) ?_)
      exact (List.sublist_cons_self _ _).filterMap _
    numbers := by
      have := (perm.map Entry.number).nodup_iff.mpr h.numbers
      rw [List.map_cons, List.nodup_cons] at this
      exact this.2
    listed := fun pl y hy i hs => by
      have hy' := (mem_dropEntry_iff h.numbers he).mp hy
      rw [m.record]
      refine ⟨fun hx => ?_, (h.listed pl y hy'.1 i hs).2⟩
      exact (h.alone he hx.symm).2 y (mem_entries.mpr ⟨pl, hy⟩) hs
    waits := fun i hi => by
      rw [hw] at hi
      rw [m.record]
      refine ⟨fun hx => ?_, (h.waits i hi).2⟩
      exact (h.alone he hx.symm).1 hi
    clear := fun i hx hi hn => by
      rw [hw] at hi
      rw [m.record]
      refine h.clear i (by simp) hi fun y hy hs => ?_
      rcases List.mem_cons.mp (perm.mem_iff.mpr hy) with rfl | hy'
      · exact hx hs.symm
      · exact hn y hy' hs
    kinds := fun y hy => h.kinds y (sub y hy)
    faults := fun y hy i hk hs => by
      rw [m.record]
      exact h.faults y (sub y hy) i hk hs
    converted := fun pl y hy i hs hp hd => by
      rw [m.record] at hd
      exact h.converted pl y ((mem_dropEntry_iff h.numbers he).mp hy).1 i hs hp hd
    free := fun i _ hf => by
      rw [m.record] at hf ⊢
      exact h.free i (by simp) hf
    stays := fun pl y hy => h.stays pl y ((mem_dropEntry_iff h.numbers he).mp hy).1
    homes := fun pl y hy => by
      have := h.homes pl y ((mem_dropEntry_iff h.numbers he).mp hy).1
      unfold State.suits at this ⊢
      cases pl <;> simp only [up] <;> exact this }

/-- What an entry must be to join a place in a state. -/
structure Joins (s : State) (l : Option Port) (pl : EntryPlace) (e : Entry) : Prop where
  number : ∀ y ∈ s.entries, y.number ≠ e.number
  kind : e.slot = none ↔ e.kind = .sweepDone
  standing : ∀ i, e.slot = some i → ((s.record i).notice, (s.record i).holder) = pl.standing
  fault : ∀ i, e.kind = .fault → e.slot = some i → (s.record i).sched = .damaged ∧ e.faultPart = (s.record i).fault
  converted : ∀ i, e.slot = some i → pl.standing.1 = .pending → (s.record i).sched = .damaged → e.kind = .fault
  free : ∀ i, e.slot = some i → (s.record i).sched ≠ .free
  stay : pl.standing.1 = .outstanding → e.kind = .expiry
  home : s.suits l pl e

/-- An entry of an open record joins a place, and the record is closed. -/
theorem Noted.joined {l} {s t : State} {pl : EntryPlace} {e : Entry} (h : Noted e.slot l s) (j : Joins s l pl e)
    (hw : t.waiting = s.waiting) (hr : ∀ i, t.record i = s.record i) (hu : ∀ p, t.isUp p = s.isUp p)
    (hp : t.entries.Perm (e :: s.entries))
    (hm : ∀ q y, y ∈ t.listAt q ↔ y ∈ s.listAt q ∨ (q = pl ∧ y = e)) : Noted none l t where
  once := by
    rw [hw]
    have hp' := hp.filterMap Entry.slot
    refine ((List.perm_append_left_iff s.waiting).mpr hp').nodup_iff.mpr ?_
    cases hs : e.slot with
    | none => rw [List.filterMap_cons_none hs]; exact h.once
    | some i =>
      rw [List.filterMap_cons_some hs]
      refine (List.perm_middle.nodup_iff).mpr (List.nodup_cons.mpr ⟨fun hi => ?_, h.once⟩)
      rcases List.mem_append.mp hi with hi | hi
      · exact (h.waits i hi).1 hs.symm
      · obtain ⟨y, hy, hys⟩ := List.mem_filterMap.mp hi
        obtain ⟨q, hq⟩ := mem_entries.mp hy
        exact (h.listed q y hq i hys).1 hs.symm
  numbers := by
    refine (hp.map Entry.number).nodup_iff.mpr (List.nodup_cons.mpr ⟨fun hn => ?_, h.numbers⟩)
    obtain ⟨y, hy, hyn⟩ := List.mem_map.mp hn
    exact j.number y hy hyn
  listed q y hy i hs := by
    rw [hr]
    refine ⟨by simp, ?_⟩
    rcases (hm q y).mp hy with hy | ⟨rfl, rfl⟩
    · exact (h.listed q y hy i hs).2
    · exact j.standing i hs
  waits i hi := by
    rw [hw] at hi
    rw [hr]
    exact ⟨by simp, (h.waits i hi).2⟩
  clear i _ hi hn := by
    rw [hw] at hi
    rw [hr]
    refine h.clear i (fun hx => ?_) hi fun y hy => hn y (hp.mem_iff.mpr (List.mem_cons_of_mem _ hy))
    exact hn e (hp.mem_iff.mpr (List.mem_cons_self ..)) hx.symm
  kinds y hy := by
    rcases List.mem_cons.mp (hp.mem_iff.mp hy) with rfl | hy
    · exact j.kind
    · exact h.kinds y hy
  faults y hy i hk hs := by
    rw [hr]
    rcases List.mem_cons.mp (hp.mem_iff.mp hy) with rfl | hy
    · exact j.fault i hk hs
    · exact h.faults y hy i hk hs
  converted q y hy i hs hq hd := by
    rw [hr] at hd
    rcases (hm q y).mp hy with hy | ⟨rfl, rfl⟩
    · exact h.converted q y hy i hs hq hd
    · exact j.converted i hs hq hd
  free i _ hf := by
    rw [hr] at hf ⊢
    refine h.free i (fun hx => ?_) hf
    exact j.free i hx.symm hf
  stays q y hy hq := by
    rcases (hm q y).mp hy with hy | ⟨rfl, rfl⟩
    · exact h.stays q y hy hq
    · exact j.stay hq
  homes q y hy := by
    have up : ∀ (q : EntryPlace) y, t.suits l q y ↔ s.suits l q y := fun q y => by
      unfold State.suits
      cases q <;> simp only [hu]
    rw [up]
    rcases (hm q y).mp hy with hy | ⟨rfl, rfl⟩
    · exact h.homes q y hy
    · exact j.home

/-- A record joins the blocked list. -/
theorem noted_block {l} {s : State} {i : SlotIx} (h : Noted (some i) l s) (hf : (s.record i).sched ≠ .free)
    (kept : Kept) : Noted none l (s.block i kept) := by
  have self : (s.block i kept).record i = { s.record i with notice := .waiting, holder := none } := block_record s i kept
  have other : ∀ j, j ≠ i → (s.block i kept).record j = s.record j := fun j hj =>
    lookupCell_store_other _ _ _ _ hj
  have hw : (s.block i kept).waiting = s.waiting ++ [i] := by
    show (s.notices.blocked ++ [(⟨i, kept⟩ : BlockedPlace)]).map BlockedPlace.slot = _
    rw [List.map_append]
    rfl
  have hn : ∀ y ∈ s.entries, y.slot ≠ some i := fun y hy hs => by
    obtain ⟨q, hq⟩ := mem_entries.mp hy
    exact (h.listed q y hq i hs).1 rfl
  have hi : i ∉ s.waiting := fun hi => (h.waits i hi).1 rfl
  have ne : ∀ {pl : EntryPlace} {e : Entry} {j : SlotIx}, e ∈ s.listAt pl → e.slot = some j → j ≠ i := by
    rintro pl e j he hs rfl
    exact hn e (mem_entries.mpr ⟨pl, he⟩) hs
  exact {
    once := by
      rw [hw]
      refine ((List.perm_append_right_iff _).mpr (List.perm_append_singleton i s.waiting)).nodup_iff.mpr ?_
      refine List.nodup_cons.mpr ⟨fun hm => ?_, h.once⟩
      rcases List.mem_append.mp hm with hm | hm
      · exact hi hm
      · obtain ⟨y, hy, hys⟩ := List.mem_filterMap.mp hm
        exact hn y hy hys
    numbers := h.numbers
    listed := fun pl e he j hs => by
      rw [other j (ne he hs)]
      exact ⟨by simp, (h.listed pl e he j hs).2⟩
    waits := fun j hj => by
      rw [hw] at hj
      refine ⟨by simp, ?_⟩
      by_cases e : j = i
      · subst e; rw [self]; exact ⟨rfl, rfl⟩
      · rw [other j e]
        exact (h.waits j (by simpa [e] using hj)).2
    clear := fun j _ hj hn' => by
      rw [hw] at hj
      have e : j ≠ i := by rintro rfl; simp at hj
      rw [other j e]
      exact h.clear j (by simpa using e) (fun hm => hj (by simp [hm])) hn'
    kinds := h.kinds
    faults := fun e he j hk hs => by
      obtain ⟨pl, hp⟩ := mem_entries.mp he
      rw [other j (ne hp hs)]
      exact h.faults e he j hk hs
    converted := fun pl e he j hs hp hd => by
      rw [other j (ne he hs)] at hd
      exact h.converted pl e he j hs hp hd
    free := fun j _ hfree => by
      by_cases e : j = i
      · subst e
        rw [self] at hfree
        exact absurd hfree hf
      · rw [other j e] at hfree ⊢
        exact h.free j (by simpa using e) hfree
    stays := h.stays
    homes := h.homes }

/-- A record leaves the blocked list and is open. -/
theorem Noted.unwaited {l} {s t : State} {i : SlotIx} (h : Noted none l s) (hi : i ∈ s.waiting)
    (hw : t.waiting = s.waiting.erase i) (h1 : t.notices.queues = s.notices.queues)
    (h2 : t.notices.outstanding = s.notices.outstanding) (h3 : t.notices.holding = s.notices.holding)
    (hr : ∀ j, j ≠ i → (t.record j).face = (s.record j).face) (hu : ∀ p, t.isUp p = s.isUp p) :
    Noted (some i) l t := by
  have hn := (h.of_waiting (h.waits i hi).2.1).2
  have once := h.once
  rw [List.nodup_append'] at once
  have base : Noted (some i) l { s with notices := { s.notices with
      blocked := s.notices.blocked.filter fun b => decide (b.slot ≠ i) } } := by
    have hw' : (s.notices.blocked.filter fun b => decide (b.slot ≠ i)).map BlockedPlace.slot = s.waiting.erase i := by
      rw [List.Nodup.erase_eq_filter once.1]
      show _ = (s.notices.blocked.map BlockedPlace.slot).filter _
      rw [List.filter_map]
      congr 1
      refine List.filter_congr fun b _ => ?_
      simp [bne, BEq.beq]
    exact {
      once := by
        show (List.map BlockedPlace.slot _ ++ _).Nodup
        rw [hw']
        exact h.once.sublist (List.Sublist.append List.erase_sublist (.refl _))
      numbers := h.numbers
      listed := fun pl e he j hs => ⟨by
        rintro ⟨⟩
        exact hn e (mem_entries.mpr ⟨pl, he⟩) hs, (h.listed pl e he j hs).2⟩
      waits := fun j hj => by
        change j ∈ List.map BlockedPlace.slot _ at hj
        rw [hw', List.Nodup.mem_erase_iff once.1] at hj
        exact ⟨by simpa using hj.1, (h.waits j hj.2).2⟩
      clear := fun j hx hj hn' => by
        change j ∉ List.map BlockedPlace.slot _ at hj
        rw [hw', List.mem_erase_of_ne (by simpa using hx)] at hj
        exact h.clear j (by simp) hj hn'
      kinds := h.kinds
      faults := h.faults
      converted := h.converted
      free := fun j _ => h.free j (by simp)
      stays := h.stays
      homes := h.homes }
  refine base.edited ?_ h1 h2 h3 hr hu
  rw [hw]
  show _ = List.map BlockedPlace.slot _
  rw [List.Nodup.erase_eq_filter once.1]
  show (s.notices.blocked.map BlockedPlace.slot).filter _ = _
  rw [List.filter_map]
  congr 1
  refine List.filter_congr fun b _ => ?_
  simp [bne, BEq.beq]

/-! ### Entries that move -/

theorem Joins.assigned {s : State} {l : Option Port} {pl : EntryPlace} {e : Entry} (j : Joins s l pl e)
    (a : Option Port) : Joins s l pl { e with assigned := a } :=
  ⟨j.number, j.kind, j.standing, j.fault, j.converted, j.free, j.stay, by
    have := j.home
    unfold State.suits at this ⊢
    cases pl <;> exact this⟩

theorem noted_joinQueue {l} {s : State} {p : Port} {e : Entry} (h : Noted e.slot l s)
    (j : Joins s l (.queued p) e) : Noted none l (s.joinQueue p e) :=
  Noted.joined (e := { e with assigned := some p }) h (j.assigned _) rfl (fun _ => rfl) (fun _ => rfl)
    (entries_joinQueue s p e) fun _ _ => mem_joinQueue_iff

theorem noted_joinHolding {l} {s : State} {k : Pool} {e : Entry} (h : Noted e.slot l s)
    (j : Joins s l (.holding k) e) : Noted none l (s.joinHolding k e) :=
  Noted.joined (e := { e with assigned := none }) h (j.assigned _) rfl (fun _ => rfl) (fun _ => rfl)
    (entries_joinHolding s k e) fun _ _ => mem_joinHolding_iff

theorem noted_assign {l} {s : State} {k : Pool} {p : Port} {e : Entry} (h : Noted e.slot l s)
    (j : Joins s l (.queued p) e) : Noted none l (s.assign k p e) :=
  noted_joinQueue (s := s.setPool k (s.pools[k].erase p ++ [p])) (h.hush (.of_table rfl rfl fun _ => rfl))
    ⟨j.number, j.kind, j.standing, j.fault, j.converted, j.free, j.stay, j.home⟩

/-- No other entry has the number of an entry, and the record it names is not FREE. -/
theorem Noted.leaver {l} {s : State} (h : Noted none l s) {place : EntryPlace} {e : Entry}
    (he : e ∈ s.listAt place) :
    (∀ y ∈ (s.dropEntry place e).entries, y.number ≠ e.number)
      ∧ ∀ i, e.slot = some i → (s.record i).sched ≠ .free := by
  have hd := ((entries_dropEntry s place e he).map Entry.number).nodup_iff.mpr h.numbers
  rw [List.map_cons, List.nodup_cons] at hd
  refine ⟨fun y hy hn => hd.1 (List.mem_map.mpr ⟨y, hy, hn⟩), fun i hs hf => ?_⟩
  have a := congrArg Prod.fst (h.listed place e he i hs).2
  rw [show ((s.record i).notice, (s.record i).holder).1 = .clear from h.free i (by simp) hf] at a
  cases place <;> cases a

/-- An entry that has left its place may join another of the same standing. -/
theorem Noted.rejoins {l} {s : State} (h : Noted none l s) {place pl : EntryPlace} {e : Entry}
    (he : e ∈ s.listAt place) (hs : pl.standing = place.standing) (home : s.suits l pl e) :
    Joins (s.dropEntry place e) l pl e := by
  have m := moved_dropEntry s place e
  have up : ∀ p, (s.dropEntry place e).isUp p = s.isUp p := fun p => (confined_dropEntry s place e).isUp p
  obtain ⟨a, b⟩ := h.leaver he
  have mem := mem_entries.mpr ⟨place, he⟩
  exact {
    number := a
    kind := h.kinds e mem
    standing := fun i hi => by rw [m.record, hs]; exact (h.listed place e he i hi).2
    fault := fun i hk hi => by rw [m.record]; exact h.faults e mem i hk hi
    converted := fun i hi hp hd => by
      rw [m.record] at hd
      rw [hs] at hp
      exact h.converted place e he i hi hp hd
    free := fun i hi => by rw [m.record]; exact b i hi
    stay := fun hp => by rw [hs] at hp; exact h.stays place e he hp
    home := by
      unfold State.suits at home ⊢
      cases pl <;> simp only [up] <;> exact home }

theorem nodup_listAt {s : State} (h : (s.entries.map Entry.number).Nodup) (k : Pool) :
    s.notices.holding[k].Nodup := by
  have := List.Nodup.of_map _ h
  unfold State.entries at this
  have := (List.nodup_append'.mp this).2.1
  refine (List.nodup_flatten.mp this).1 _ ?_
  exact Vector.mem_toList_iff.mpr (Vector.getElem_mem _)

/-- The service of a holding queue moves entries to ports that are UP (R118). -/
theorem noted_servePoolFrom {l} (k : Pool) : ∀ (es : List Entry) {s : State}, Noted none l s → es.Nodup →
    (∀ e ∈ es, e ∈ s.notices.holding[k]) → Noted none l (servePoolFrom k es s)
  | [], _, h, _, _ => h
  | e :: es, s, h, hn, hm => by
    have hn' := List.nodup_cons.mp hn
    have he : e ∈ s.listAt (.holding k) := hm e (List.mem_cons_self ..)
    unfold servePoolFrom
    split
    · exact noted_servePoolFrom k es h hn'.2 fun x hx => hm x (List.mem_cons_of_mem _ hx)
    · split
      · exact h
      · rename_i p hp
        have up : s.isUp p = true := accepting_up (List.find?_some hp)
        refine noted_servePoolFrom k es ?_ hn'.2 fun x hx => ?_
        · refine noted_assign (noted_dropEntry h he) (h.rejoins he rfl ⟨.inl up, fun q hq => ?_⟩)
          have := h.homes _ e he
          rw [show e.destination = .pool k from this] at hq
          cases hq
        · rw [holding_assign, holding_dropEntry]
          refine (List.mem_erase_of_ne ?_).mpr (hm x (List.mem_cons_of_mem _ hx))
          rintro rfl
          exact hn'.1 hx

theorem noted_servePool {l} {s : State} (h : Noted none l s) (k : Pool) : Noted none l (s.servePool k) :=
  noted_servePoolFrom k _ h (nodup_listAt h.numbers k) fun _ he => he

theorem hush_driveLines (s : State) : Hush s s.driveLines := by
  have up : ∀ p, s.driveLines.isUp p = s.isUp p := fun p => (confined_driveLines s).isUp p
  obtain ⟨ls, e⟩ := driveLines_eq s
  rw [e] at up ⊢
  exact ⟨rfl, rfl, rfl, rfl, fun _ => rfl, up⟩

theorem noted_settle {l} {s : State} (h : Noted none l s) : Noted none l s.settle := by
  have fold : ∀ (ks : List Pool) (t : State), Noted none l t → Noted none l (ks.foldl State.servePool t) := by
    intro ks
    induction ks with
    | nil => exact fun _ ht => ht
    | cons k ks ih => exact fun t ht => ih _ (noted_servePool ht k)
  exact (fold allPools s h).hush (hush_driveLines _)

theorem noted_settleSince {l} {s t : State} (h : Noted none l t) : Noted none l (t.settleSince s) := by
  unfold State.settleSince
  split
  · exact h
  · exact noted_settle h

theorem noted_offer {l} {s : State} {k : Pool} {e : Entry} (h : Noted e.slot l s)
    (jh : Joins s l (.holding k) e)
    (jq : ∀ p, s.isUp p = true → Joins s l (.queued p) e) : Noted none l (s.offer k e) := by
  have held := noted_joinHolding h jh
  unfold State.offer
  split
  · exact held
  · split
    · exact noted_servePool held k
    · split
      · exact held
      · rename_i p hp
        exact noted_assign h (jq p (accepting_up (List.find?_some hp)))

/-! ### Notices created and lost -/

theorem noted_create {l} {s : State} {i : SlotIx} (h : Noted (some i) l s) {n : Nat}
    (hn : ∀ y ∈ s.entries, y.number ≠ n) {e : Entry} (hs : e.slot = some i) (hk : e.kind ≠ .sweepDone)
    (hf : e.kind = .fault → (s.record i).sched = .damaged ∧ e.faultPart = (s.record i).fault)
    (hc : (s.record i).sched = .damaged → e.kind = .fault) (free : (s.record i).sched ≠ .free)
    (hd : ∀ p, e.destination = .port p → s.isUp p = true) : Noted none l (s.create i n e) := by
  unfold State.create
  generalize hx : ({ e with number := n, stamp := s.notices.stamp } : Entry) = x
  have xs : x.slot = some i := by rw [← hx]; exact hs
  have xd : x.destination = e.destination := by rw [← hx]
  generalize ht : (s.advanceStamp.modify i fun r => { r with notice := .pending, holder := none, overrun := 0 }) = t
  have t1 : Noted (some i) l t := by
    rw [← ht]
    exact (h.hush (⟨rfl, rfl, rfl, rfl, fun _ => rfl, fun _ => rfl⟩ : Hush s s.advanceStamp)).modified _
  have tr : t.record i = { s.record i with notice := .pending, holder := none, overrun := 0 } := by
    rw [← ht, State.record_modify_self]
    rfl
  have te : t.entries = s.entries := by rw [← ht]; rfl
  have tu : ∀ p, t.isUp p = s.isUp p := fun p => by rw [← ht]; rfl
  have joins : ∀ pl : EntryPlace, pl.standing = (.pending, none) → t.suits l pl x → Joins t l pl x := by
    intro pl hp home
    have slot : ∀ j, x.slot = some j → j = i := fun j hj => by rw [xs] at hj; exact (Option.some.inj hj).symm
    exact {
      number := fun y hy => by
        rw [te] at hy
        rw [← hx]
        exact hn y hy
      kind := by
        rw [xs, ← hx]
        exact ⟨fun e => (nomatch e), fun e => absurd e hk⟩
      standing := fun j hj => by
        rw [slot j hj, tr, hp]
      fault := fun j hk' hj => by
        rw [slot j hj, tr, ← hx]
        rw [← hx] at hk'
        exact hf hk'
      converted := fun j hj _ hd' => by
        rw [slot j hj, tr] at hd'
        rw [← hx]
        exact hc hd'
      free := fun j hj => by
        rw [slot j hj, tr]
        exact free
      stay := fun ho => by rw [hp] at ho; cases ho
      home := home }
  unfold State.place
  have ho : Noted x.slot l t := by rw [xs]; exact t1
  split
  · rename_i p hp
    refine noted_joinQueue ho (joins _ rfl ⟨.inl ?_, fun q hq => ?_⟩)
    · rw [tu]; exact hd p (xd ▸ hp)
    · rw [hp] at hq
      exact (Target.port.inj hq).symm
  · rename_i k hk
    refine noted_offer ho (joins _ rfl hk) fun p hp => joins _ rfl ⟨.inl hp, fun q hq => ?_⟩
    rw [hk] at hq
    cases hq

theorem noted_createFault {l} {s : State} {i : SlotIx} (h : Noted (some i) l s) {n : Nat}
    (hn : ∀ y ∈ s.entries, y.number ≠ n) (hd : (s.record i).sched = .damaged)
    (hu : s.isUp (s.faultPort (s.record i)) = true) (delayed : Bool) :
    Noted none l (s.createFault i n delayed) := by
  have c := noted_create h hn (e := s.faultEntry i (s.record i) delayed) rfl (by exact nofun)
    (fun _ => ⟨hd, rfl⟩) (fun _ => rfl) (by rw [hd]; decide) fun p hp => by
      rw [show (s.faultEntry i (s.record i) delayed).destination = .port (s.faultPort (s.record i)) from rfl] at hp
      rw [← Target.port.inj hp]
      exact hu
  exact c.hush (.of_table rfl rfl fun _ => rfl)

theorem freeGeneral_fresh {s : State} {n : Nat} (h : s.freeGeneral = some n) : ∀ y ∈ s.entries, y.number ≠ n :=
  (freeNumber_some s _ _ n h).2

/-- A CLEAR record's notice is lost. -/
theorem noted_loseNotice {l} {s : State} {i : SlotIx} (h : Noted none l s) (hc : (s.record i).notice = .clear) :
    Noted none l (s.loseNotice i) := (h.opened hc).lost

theorem noted_raiseFault {l} {s : State} {i : SlotIx} (h : Noted none l s) (hc : (s.record i).notice = .clear)
    (hd : (s.record i).sched = .damaged) : Noted none l (s.raiseFault i) := by
  unfold State.raiseFault
  dsimp only
  split
  · rename_i hu
    split
    · exact noted_block (h.opened hc) (by rw [hd]; decide) _
    · rename_i n hn
      exact noted_createFault (h.opened hc) (freeGeneral_fresh hn) hd hu false
  · exact noted_loseNotice h hc

/-! ### Damage -/

/-- `t` came from `s` by an operation that moves no entry and changes the face of no record but that in slot `i`. -/
structure Redress (i : SlotIx) (s t : State) : Prop where
  waiting : t.waiting = s.waiting
  queues : t.notices.queues = s.notices.queues
  outstanding : t.notices.outstanding = s.notices.outstanding
  holding : t.notices.holding = s.notices.holding
  face : ∀ j, j ≠ i → (t.record j).face = (s.record j).face
  up : ∀ p, t.isUp p = s.isUp p

theorem Redress.entries {i : SlotIx} {s t : State} (r : Redress i s t) : t.entries = s.entries :=
  entries_congr r.queues r.outstanding r.holding

theorem Redress.listAt {i : SlotIx} {s t : State} (r : Redress i s t) (pl : EntryPlace) :
    t.listAt pl = s.listAt pl := by
  cases pl with
  | queued p => show t.notices.queues[p] = _; rw [r.queues]; rfl
  | outstanding p => show t.notices.outstanding[p] = _; rw [r.outstanding]; rfl
  | holding k => show t.notices.holding[k] = _; rw [r.holding]; rfl

theorem Hush.redress {s t : State} (h : Hush s t) (i : SlotIx) : Redress i s t :=
  ⟨h.waiting, h.queues, h.outstanding, h.holding, fun j _ => h.face j, h.up⟩

theorem Noted.redressed {l} {s t : State} {i : SlotIx} (h : Noted (some i) l s) (r : Redress i s t) :
    Noted (some i) l t := h.edited r.waiting r.queues r.outstanding r.holding r.face r.up

/-- The record of a slot that no entry in a queue or a holding queue names keeps its notice through any change that
keeps its notice state and holder. -/
theorem Noted.kept {l} {s t : State} {i : SlotIx} (h : Noted none l s) (r : Redress i s t)
    (hn : (t.record i).notice = (s.record i).notice) (hh : (t.record i).holder = (s.record i).holder)
    (hp : (s.record i).notice ≠ .pending) (hf : (t.record i).sched ≠ .free ∨ (s.record i).notice = .clear) :
    Noted none l t := by
  have notice : ∀ j, (t.record j).notice = (s.record j).notice := fun j => by
    by_cases e : j = i
    · rw [e]; exact hn
    · exact congrArg Prod.fst (r.face j e)
  have holder : ∀ j, (t.record j).holder = (s.record j).holder := fun j => by
    by_cases e : j = i
    · rw [e]; exact hh
    · exact congrArg (fun x => x.2.1) (r.face j e)
  have free : ∀ j, j ≠ i → ((t.record j).sched = .free ↔ (s.record j).sched = .free) := fun j hj =>
    decide_eq_decide.mp (congrArg (fun x => x.2.2.1) (r.face j hj))
  have damaged : ∀ j, j ≠ i → ((t.record j).sched = .damaged ↔ (s.record j).sched = .damaged) := fun j hj =>
    decide_eq_decide.mp (congrArg (fun x => x.2.2.2.1) (r.face j hj))
  have fault : ∀ j, j ≠ i → (t.record j).fault = (s.record j).fault := fun j hj =>
    congrArg (fun x => x.2.2.2.2) (r.face j hj)
  have out : ∀ pl, ∀ e ∈ s.listAt pl, e.slot = some i → pl.standing.1 = .outstanding := fun pl e he hs => by
    have := congrArg Prod.fst (h.listed pl e he i hs).2
    cases pl with
    | outstanding p => rfl
    | queued p => exact absurd this hp
    | holding k => exact absurd this hp
  exact {
    once := by unfold State.namedSlots; rw [r.waiting, r.entries]; exact h.once
    numbers := by rw [r.entries]; exact h.numbers
    listed := fun pl e he j hs => by
      rw [r.listAt] at he
      rw [notice, holder]
      exact h.listed pl e he j hs
    waits := fun j hj => by
      rw [r.waiting] at hj
      rw [notice, holder]
      exact h.waits j hj
    clear := fun j h1 h2 h3 => by
      rw [r.waiting] at h2
      rw [r.entries] at h3
      rw [notice, holder]
      exact h.clear j h1 h2 h3
    kinds := by rw [r.entries]; exact h.kinds
    faults := fun e he j hk hs => by
      rw [r.entries] at he
      have e' : j ≠ i := by
        rintro rfl
        obtain ⟨pl, hm⟩ := mem_entries.mp he
        rw [h.stays pl e hm (out pl e hm hs)] at hk
        cases hk
      rw [damaged j e', fault j e']
      exact h.faults e he j hk hs
    converted := fun pl e he j hs hst hd => by
      rw [r.listAt] at he
      have e' : j ≠ i := by
        rintro rfl
        rw [out pl e he hs] at hst
        cases hst
      rw [damaged j e'] at hd
      exact h.converted pl e he j hs hst hd
    free := fun j hj hfree => by
      rw [notice]
      by_cases e : j = i
      · subst e
        exact hf.elim (fun hx => absurd hfree hx) id
      · rw [free j e] at hfree
        exact h.free j hj hfree
    stays := fun pl e he => by
      rw [r.listAt] at he
      exact h.stays pl e he
    homes := fun pl e he => by
      rw [r.listAt] at he
      have := h.homes pl e he
      unfold State.suits at this ⊢
      cases pl <;> simp only [r.up] <;> exact this }

/-- The notice unit finds for a slot what its record says (R143 step 3). -/
theorem Noted.found {l} {s : State} (h : Noted none l s) (i : SlotIx) :
    s.foundNotice i = ((s.record i).notice, (s.record i).holder) := by
  have any : (s.notices.blocked.any fun b => decide (b.slot = i)) = true ↔ i ∈ s.waiting := by
    rw [List.any_eq_true]
    constructor
    · rintro ⟨b, hb, e⟩
      exact List.mem_map.mpr ⟨b, hb, of_decide_eq_true e⟩
    · intro hi
      obtain ⟨b, hb, e⟩ := List.mem_map.mp hi
      exact ⟨b, hb, decide_eq_true e⟩
  unfold State.foundNotice
  split
  · rename_i p e he
    obtain ⟨a, b⟩ := entryOf_mem he
    exact ((h.listed _ e a i b).2).symm
  · rename_i x hne he
    obtain ⟨pl, e⟩ := x
    obtain ⟨a, b⟩ := entryOf_mem he
    rw [(h.listed _ e a i b).2]
    cases pl with
    | outstanding p => exact absurd rfl (hne p e)
    | queued p => rfl
    | holding k => rfl
  · rename_i he
    have hn := entryOf_none he
    split
    · rename_i ha
      have := h.waits i (any.mp ha)
      rw [this.2.1, this.2.2]
    · rename_i ha
      have := h.clear i (by simp) (fun hw => ha (any.mpr hw)) hn
      rw [this.1, this.2]

theorem waiting_keepFault (l : List BlockedPlace) (i : SlotIx) (part : FaultPart) :
    (l.map fun b => if b.slot = i then { b with kept := .damage part } else b).map BlockedPlace.slot
      = l.map BlockedPlace.slot := by
  rw [List.map_map]
  refine List.map_congr_left fun b _ => ?_
  show BlockedPlace.slot (if b.slot = i then _ else b) = b.slot
  split <;> rfl

theorem redress_declareDamaged (s : State) (i : SlotIx) (part : FaultPart) :
    Redress i s (s.declareDamaged i part) := by
  have e := declareDamaged_notices s i part
  refine ⟨?_, by rw [e], by rw [e], by rw [e], fun j hj => by rw [only_declareDamaged s i part j hj],
    fun p => (confined_declareDamaged s i part).isUp p⟩
  unfold State.waiting
  rw [e]
  exact waiting_keepFault _ i part

theorem declareIdentityLost_notices (s : State) (i : SlotIx) : (s.declareIdentityLost i).notices = { s.notices with
    blocked := s.notices.blocked.map fun b => if b.slot = i then { b with kept := .damage .identity } else b } := by
  unfold State.declareIdentityLost State.loseIdentity State.dropOwned
  dsimp only
  split <;> rfl

theorem redress_declareIdentityLost (s : State) (i : SlotIx) : Redress i s (s.declareIdentityLost i) := by
  have e := declareIdentityLost_notices s i
  refine ⟨?_, by rw [e], by rw [e], by rw [e], fun j hj => by rw [only_declareIdentityLost s i j hj],
    fun p => (confined_declareIdentityLost s i).isUp p⟩
  unfold State.waiting
  rw [e]
  exact waiting_keepFault _ i .identity

theorem declareIdentityLost_record (s : State) (i : SlotIx) : (s.declareIdentityLost i).record i =
    { s.record i with generation := 0, owner := none, tag := 0, mark := none, fault := some .identity } :=
  loseIdentity_record s i

/-- A record that becomes DAMAGED keeps its notice state and its holder. -/
theorem declareDamaged_face {l} {s : State} (h : Noted none l s) (i : SlotIx) (part : FaultPart) :
    ((s.declareDamaged i part).record i).face
      = ((s.record i).notice, (s.record i).holder, false, true, some part) := by
  have f := h.found i
  cases part
  · rw [declareTiming_record, f]; rfl
  · rw [declareIdentity_record, f]; rfl

theorem hush_repairIdentity (s : State) (i : SlotIx) : Hush s (s.repairIdentity i) := by
  unfold State.repairIdentity
  dsimp only
  split
  · exact .refl s
  · exact (hush_modify s i (fun _ => { s.record i with copyA := .passing, copyB := .passing }) rfl).trans
      (.of_table rfl rfl fun _ => rfl)

theorem hush_repairTiming (s : State) (i : SlotIx) : Hush s (s.repairTiming i) := by
  unfold State.repairTiming
  dsimp only
  split
  · exact (hush_modify s i (fun _ => { s.record i with timingCheck := .passing }) rfl).trans
      (.of_table rfl rfl fun _ => rfl)
  · exact .refl s

/-! ### The blocked list -/

/-- The read of a WAITING record leaves it WAITING, whatever the read finds (R143 step 5). -/
theorem noted_readBlocked {l} {s : State} {i : SlotIx} (h : Noted none l s) (hi : i ∈ s.waiting) :
    let t := s.readWith i (fun t part => t.declareDamaged i part) fun t => t.declareIdentityLost i
    Noted none l t ∧ Redress i s t
      ∧ (t.notices.blocked = s.notices.blocked
          ∨ ∃ part, t.notices.blocked
            = s.notices.blocked.map fun b => if b.slot = i then { b with kept := .damage part } else b) := by
  intro t
  have wait : ∀ u : State, Noted none l u → u.waiting = s.waiting → (u.record i).notice = .waiting := fun u hu e =>
    (hu.waits i (e ▸ hi)).2.1
  have nf : (s.record i).sched ≠ .free := fun hf => by
    have a := h.free i (by simp) hf
    rw [(h.waits i hi).2.1] at a
    cases a
  have declared : ∀ (u : State) part, Hush s u →
      Noted none l (u.declareDamaged i part) ∧ Redress i s (u.declareDamaged i part)
        ∧ (u.declareDamaged i part).notices.blocked
            = u.notices.blocked.map fun b => if b.slot = i then { b with kept := .damage part } else b := by
    intro u part q
    have hu := h.hush q
    have r := redress_declareDamaged u i part
    have f := declareDamaged_face hu i part
    have r' : Redress i s (u.declareDamaged i part) :=
      ⟨r.waiting.trans q.waiting, r.queues.trans q.queues, r.outstanding.trans q.outstanding,
        r.holding.trans q.holding, fun j hj => (r.face j hj).trans (q.face j), fun p => (r.up p).trans (q.up p)⟩
    refine ⟨hu.kept r (congrArg Prod.fst f) (congrArg (fun x => x.2.1) f) ?_ (.inl ?_), r', ?_⟩
    · rw [wait u hu q.waiting]; decide
    · have := congrArg (fun x => x.2.2.2.1) f
      rw [show ((u.declareDamaged i part).record i).sched = .damaged from of_decide_eq_true this]
      decide
    · rw [declareDamaged_notices]
  have silent : ∀ u : State, Hush s u → u.notices = s.notices →
      Noted none l u ∧ Redress i s u ∧ u.notices.blocked = s.notices.blocked := fun u q e =>
    ⟨h.hush q, q.redress i, by rw [e]⟩
  have a := hush_repairIdentity s i
  have b := hush_repairTiming s i
  show Noted none l (State.readWith s i _ _) ∧ Redress i s (State.readWith s i _ _) ∧ _
  simp only [show t = State.readWith s i _ _ from rfl]
  unfold State.readWith
  dsimp only
  split
  · rename_i hf
    exact absurd hf nf
  · split
    · exact ⟨h, (Hush.refl s).redress i, .inl rfl⟩
    · obtain ⟨x, y, z⟩ := silent _ b (notices_repairTiming s i)
      exact ⟨x, y, .inl z⟩
  · rename_i hd _
    split
    · have r := redress_declareIdentityLost s i
      have e := declareIdentityLost_record s i
      refine ⟨h.kept r (by rw [e]) (by rw [e]) ?_ (.inl (by rw [e]; exact nf)), r, .inr ⟨.identity, ?_⟩⟩
      · rw [wait s h rfl]; decide
      · rw [declareIdentityLost_notices]
    · obtain ⟨x, y, z⟩ := silent _ a (notices_repairIdentity s i)
      exact ⟨x, y, .inl z⟩
  · split
    · obtain ⟨x, y, z⟩ := declared _ .identity b
      exact ⟨x, y, .inr ⟨.identity, by rw [z, notices_repairTiming]⟩⟩
    · split
      · obtain ⟨x, y, z⟩ := declared _ .timing a
        exact ⟨x, y, .inr ⟨.timing, by rw [z, notices_repairIdentity]⟩⟩
      · obtain ⟨x, y, z⟩ := silent _ (a.trans (hush_repairTiming _ i))
          ((notices_repairTiming _ i).trans (notices_repairIdentity s i))
        exact ⟨x, y, .inl z⟩

/-- The head of the blocked list is read and taken off. -/
theorem noted_takeBlocked {l} {s : State} (h : Noted none l s) {b : BlockedPlace} {rest : List BlockedPlace}
    (hb : s.notices.blocked = b :: rest) :
    Noted (some b.slot) l (s.takeBlocked b.slot) ∧ (s.takeBlocked b.slot).notices.blocked = rest
      ∧ (s.takeBlocked b.slot).entries = s.entries
      ∧ ((s.takeBlocked b.slot).record b.slot).sched ≠ .free := by
  have hw : s.waiting = b.slot :: rest.map BlockedPlace.slot := by unfold State.waiting; rw [hb]; rfl
  have hi : b.slot ∈ s.waiting := by rw [hw]; exact List.mem_cons_self ..
  obtain ⟨n, r, k⟩ := noted_readBlocked h hi
  have once := (List.nodup_append'.mp h.once).1
  rw [hw, List.nodup_cons] at once
  generalize ht : s.readWith b.slot (fun t part => t.declareDamaged b.slot part)
    (fun t => t.declareIdentityLost b.slot) = t at n r k
  have shape : s.takeBlocked b.slot
      = t.withNotices { t.notices with blocked := t.notices.blocked.drop 1 } := by
    unfold State.takeBlocked
    rw [ht]
  have tail : t.notices.blocked.drop 1 = rest := by
    rcases k with k | ⟨part, k⟩
    · rw [k, hb]; rfl
    · rw [k, hb, List.map_cons, List.drop_succ_cons, List.drop_zero]
      conv_rhs => rw [← List.map_id rest]
      refine List.map_congr_left fun c hc => ?_
      rw [if_neg fun e => once.1 (List.mem_map.mpr ⟨c, hc, e⟩)]
      rfl
  have wt : b.slot ∈ t.waiting := by rw [r.waiting]; exact hi
  refine ⟨?_, ?_, ?_, ?_⟩
  · rw [shape]
    refine n.unwaited wt ?_ rfl rfl rfl (fun _ _ => rfl) fun _ => rfl
    show (t.notices.blocked.drop 1).map BlockedPlace.slot = _
    rw [tail, r.waiting, hw, List.erase_cons_head]
  · rw [shape]; exact tail
  · rw [shape]; exact r.entries
  · rw [shape]
    intro hf
    have a := n.free b.slot (by simp) hf
    rw [(n.waits _ wt).2.1] at a
    cases a

theorem noted_serveBlockedFrom {l} (n : Nat) : ∀ (list : List BlockedPlace) {s : State}, Noted none l s →
    s.notices.blocked = list → (∀ y ∈ s.entries, y.number ≠ n) → Noted none l (serveBlockedFrom n list s)
  | [], _, h, _, _ => h
  | b :: rest, s, h, hb, hn => by
    obtain ⟨o, hr, he, nf⟩ := noted_takeBlocked h hb
    have hn' : ∀ y ∈ (s.takeBlocked b.slot).entries, y.number ≠ n := fun y hy => hn y (he ▸ hy)
    have skipped := noted_serveBlockedFrom n rest o.cleared hr hn'
    have lost := noted_serveBlockedFrom n rest o.lost hr hn'
    rw [serveBlockedFrom_cons n b rest _ s rfl]
    dsimp only
    split
    · exact skipped
    · split
      · rename_i hd
        split
        · rename_i hu
          exact noted_createFault o hn' hd hu true
        · exact lost
      · rename_i hd
        split
        · rename_i hu
          split
          · refine noted_create o hn' rfl nofun nofun (fun e => absurd e hd) nf fun p hp => ?_
            unfold State.reachable at hu
            rw [show ((s.takeBlocked b.slot).record b.slot).target = .port p from hp] at hu
            exact hu
          · exact skipped
        · exact lost

theorem noted_serveBlocked {l} {s : State} (h : Noted none l s) : Noted none l s.serveBlocked := by
  unfold State.serveBlocked
  split
  · exact h
  · rename_i n hn
    exact noted_serveBlockedFrom n _ h rfl (freeGeneral_fresh hn)

/-! ### Reads -/

/-- The entry of a DAMAGED record moves to its FAULT destination, or is freed (Table 9-3). -/
theorem noted_moveToFaultPort {l} {s : State} {i : SlotIx} {place : EntryPlace} {e e' : Entry} {p : Port}
    (h : Noted (some i) l (s.dropEntry place e)) (j : s.isUp p = true → Joins (s.dropEntry place e) l (.queued p) e')
    (hs : e'.slot = some i) : Noted none l (s.moveToFaultPort i place e e' p) := by
  unfold State.moveToFaultPort
  split
  · rename_i hu
    exact noted_joinQueue (by rw [hs]; exact h) (j hu)
  · exact noted_serveBlocked h.lost

/-- The notice of a record that a read has found damaged is treated (R143 step 5, R146). -/
theorem noted_treated {l} {s t : State} {i : SlotIx} {part : FaultPart} (h : Noted none l s)
    (r : Redress i s t)
    (ht : (t.record i).face = ((s.record i).notice, (s.record i).holder, false, true, some part))
    (f : Entry → Entry) (p : Port)
    (hf : ∀ place e, e ∈ s.listAt place → e.slot = some i → place.standing.1 = .pending →
      (f e).slot = e.slot ∧ (f e).number = e.number ∧ (f e).kind = .fault ∧ (f e).faultPart = some part
        ∧ (f e).destination = .port p) :
    Noted none l (match (t.record i).notice, t.entryOf i with
      | .clear, _ => t.raiseFault i
      | .pending, some (place, e) => t.moveToFaultPort i place e (f e) p
      | _, _ => t) := by
  have hn : (t.record i).notice = (s.record i).notice := congrArg Prod.fst ht
  have hh : (t.record i).holder = (s.record i).holder := congrArg (fun x => x.2.1) ht
  have hd : (t.record i).sched = .damaged := of_decide_eq_true (congrArg (fun x => x.2.2.2.1) ht)
  have hp : (t.record i).fault = some part := congrArg (fun x => x.2.2.2.2) ht
  have free : (t.record i).sched ≠ .free := by rw [hd]; decide
  have stays : (s.record i).notice ≠ .pending → Noted none l t := fun hne => h.kept r hn hh hne (.inl free)
  split
  · rename_i hc
    exact noted_raiseFault (stays (by rw [← hn, hc]; decide)) hc hd
  · rename_i place e hc he
    obtain ⟨a, b⟩ := entryOf_mem he
    rw [r.listAt] at a
    have standing := (h.listed place e a i b).2
    have pend : place.standing.1 = .pending := by
      rw [← congrArg Prod.fst standing]
      show (s.record i).notice = _
      rw [← hn, hc]
    obtain ⟨f1, f2, f3, f4, f5⟩ := hf place e a b pend
    have dr := moved_dropEntry t place e
    have ds := moved_dropEntry s place e
    have same : Redress i (s.dropEntry place e) (t.dropEntry place e) := by
      have q1 : (t.dropEntry place e).notices.queues = (s.dropEntry place e).notices.queues := by
        cases place with
        | queued q =>
          show t.notices.queues.set q.val _ q.isLt = s.notices.queues.set q.val _ q.isLt
          rw [r.queues]
        | outstanding q => exact r.queues
        | holding k => exact r.queues
      have q2 : (t.dropEntry place e).notices.outstanding = (s.dropEntry place e).notices.outstanding := by
        cases place with
        | outstanding q =>
          show t.notices.outstanding.set q.val _ q.isLt = s.notices.outstanding.set q.val _ q.isLt
          rw [r.outstanding]
        | queued q => exact r.outstanding
        | holding k => exact r.outstanding
      have q3 : (t.dropEntry place e).notices.holding = (s.dropEntry place e).notices.holding := by
        cases place with
        | holding k =>
          show t.notices.holding.set k.val _ k.isLt = s.notices.holding.set k.val _ k.isLt
          rw [r.holding]
        | queued q => exact r.holding
        | outstanding q => exact r.holding
      exact ⟨by unfold State.waiting; rw [dr.blocked, ds.blocked]; exact r.waiting, q1, q2, q3,
        fun j hj => by rw [dr.record, ds.record]; exact r.face j hj,
        fun q => ((confined_dropEntry t place e).isUp q).trans
          ((r.up q).trans ((confined_dropEntry s place e).isUp q).symm)⟩
    have open' : Noted (some i) l (s.dropEntry place e) := b ▸ noted_dropEntry h a
    refine noted_moveToFaultPort (open'.redressed same) (fun hu => ?_) (f1.trans b)
    exact {
      number := fun y hy => by
        rw [same.entries] at hy
        rw [f2]
        exact (h.leaver a).1 y hy
      kind := by
        rw [f1, b, f3]
        exact ⟨nofun, nofun⟩
      standing := fun j hj => by
        rw [f1, b] at hj
        rw [← Option.some.inj hj, dr.record, hn, hh, standing]
        cases place with
        | outstanding q => cases pend
        | queued q => rfl
        | holding k => rfl
      fault := fun j _ hj => by
        rw [f1, b] at hj
        rw [← Option.some.inj hj, dr.record, f4, hp]
        exact ⟨hd, rfl⟩
      converted := fun _ _ _ _ => f3
      free := fun j hj => by
        rw [f1, b] at hj
        rw [← Option.some.inj hj, dr.record]
        exact free
      stay := fun e => by cases e
      home := by
        refine ⟨.inl ?_, fun q hq => ?_⟩
        · exact ((confined_dropEntry t place e).isUp p).trans hu
        · rw [f5] at hq
          exact (Target.port.inj hq).symm }
  · rename_i h1 h2
    refine stays fun hp => ?_
    obtain ⟨pl, e, he, hs, _⟩ := h.of_entry (i := i) (by rw [hp]; decide) (by rw [hp]; decide)
    cases hx : t.entryOf i with
    | none => exact entryOf_none hx e (by rw [r.entries]; exact mem_entries.mpr ⟨pl, he⟩) hs
    | some x => exact h2 x.1 x.2 (hn.trans hp) hx

theorem noted_damage {l} {s : State} {i : SlotIx} (h : Noted none l s) (part : FaultPart) :
    Noted none l (s.damage i part) := by
  have ht := declareDamaged_face h i part
  have hp : ((s.declareDamaged i part).record i).fault = some part := congrArg (fun x => x.2.2.2.2) ht
  exact noted_treated h (redress_declareDamaged s i part) ht
    (fun e => e.converted (((s.declareDamaged i part).record i).fault.getD .timing)
      ((s.declareDamaged i part).faultPort ((s.declareDamaged i part).record i)))
    _ fun _ _ _ _ _ => ⟨rfl, rfl, rfl, by rw [hp]; rfl, rfl⟩

theorem noted_escalate {l} {s : State} {i : SlotIx} (h : Noted none l s) (hd : (s.record i).sched = .damaged) :
    Noted none l (s.escalate i) := by
  have e := declareIdentityLost_record s i
  refine noted_treated (part := .identity) h (redress_declareIdentityLost s i) ?_
    (fun x => x.escalated ((s.declareIdentityLost i).faultPort ((s.declareIdentityLost i).record i)))
    _ fun place x hx hs hp => ⟨rfl, rfl, h.converted place x hx i hs hp hd, rfl, rfl⟩
  rw [e]
  unfold Record.face
  simp only [hd]
  rfl

theorem noted_readSlot {l} {s : State} (h : Noted none l s) (i : SlotIx) : Noted none l (s.readSlot i) := by
  have a := hush_repairIdentity s i
  have b := hush_repairTiming s i
  unfold State.readSlot State.readWith
  dsimp only
  split
  · rename_i hf
    split
    · have hc := h.free i (by simp) hf
      have o := (h.opened hc).modified fun _ => Record.blank
      have c := o.closed (by rw [State.record_modify_self]; rfl) (by rw [State.record_modify_self]; rfl)
      exact c.hush (.of_table rfl rfl fun _ => rfl)
    · exact h.hush a
  · split
    · exact h
    · exact h.hush b
  · rename_i hd _
    split
    · exact noted_escalate h hd
    · exact h.hush a
  · split
    · exact noted_damage (h.hush b) _
    · split
      · exact noted_damage (h.hush a) _
      · exact (h.hush a).hush (hush_repairTiming _ i)

theorem noted_checkedRead {l} {s : State} (h : Noted none l s) (i : SlotIx) : Noted none l (s.checkedRead i) :=
  noted_settleSince (noted_readSlot h i)

theorem noted_readSlots {l} (is : List SlotIx) : ∀ {s : State}, Noted none l s → Noted none l (s.readSlots is) := by
  induction is with
  | nil => exact fun h => h
  | cons i is ih => exact fun h => ih (noted_readSlot h i)

end Sys2Proof.Machine
end

