-- ==== Sys2Proof/Laws/NotedCommands.lean ====
section
/-! SUPPORT. The commands' own operations keep the notice store and the blocked list with the records: one lemma per
operation, `noted_<operation>`. -/

namespace Sys2Proof.Machine

/-! ### Timing -/

/-- A record that is neither FREE nor DAMAGED takes another such schedule state. -/
theorem hush_retimed (s : State) (i : SlotIx) (f : Record → Record) (h1 : (s.record i).sched ≠ .free)
    (h2 : (s.record i).sched ≠ .damaged) (h3 : (f (s.record i)).sched ≠ .free) (h4 : (f (s.record i)).sched ≠ .damaged)
    (h5 : (f (s.record i)).notice = (s.record i).notice) (h6 : (f (s.record i)).holder = (s.record i).holder)
    (h7 : (f (s.record i)).fault = (s.record i).fault) : Hush s (s.modify i f) :=
  hush_modify s i f (by unfold Record.face; simp only [h1, h2, h3, h4, h5, h6, h7])

theorem hush_leaveTiming (s : State) (i : SlotIx) : Hush s (s.leaveTiming i) := by
  rw [leaveTiming_eq]
  exact .of_table rfl rfl fun _ => rfl

theorem hush_unlist (s : State) (i : SlotIx) : Hush s (s.unlist i) := .of_table rfl rfl fun _ => rfl

theorem hush_reportRebuild (s : State) : Hush s s.reportRebuild := by
  unfold State.reportRebuild
  split
  · exact .of_table rfl rfl fun _ => rfl
  · exact .refl s

theorem hush_unqueue (s : State) (i : SlotIx) : Hush s (s.unqueue i) :=
  Hush.trans (t := s.removeQueued i) (.of_table rfl rfl fun _ => rfl) (hush_reportRebuild _)

theorem hush_enqueue (s : State) (i : SlotIx) (h1 : (s.record i).sched ≠ .free)
    (h2 : (s.record i).sched ≠ .damaged) : Hush s (s.enqueue i) :=
  Hush.trans (t := s.withPlacement { s.placement with queue := s.placement.queue ++ [i] })
    (.of_table rfl rfl fun _ => rfl) (hush_retimed (s.withPlacement _) i
      (fun r => { r with sched := .queued }) h1 h2 nofun nofun rfl rfl rfl)

theorem hush_setDeadline (s : State) (i : SlotIx) (d : Tick) : Hush s (s.setDeadline i d) := hush_modify s i _ rfl

theorem setDeadline_sched (s : State) (i : SlotIx) (d : Tick) :
    ((s.setDeadline i d).record i).sched = (s.record i).sched := by
  unfold State.setDeadline
  rw [State.record_modify_self]

theorem hush_armRecord (s : State) (i : SlotIx) (d : Tick) (h1 : (s.record i).sched ≠ .free)
    (h2 : (s.record i).sched ≠ .damaged) : Hush s (s.armRecord i d) := by
  unfold State.armRecord
  split
  · exact hush_setDeadline s i d
  · exact ((hush_unlist s i).trans (hush_setDeadline _ i d)).trans
      (hush_enqueue _ i (by rw [setDeadline_sched]; exact h1) (by rw [setDeadline_sched]; exact h2))
  · exact (hush_setDeadline s i d).trans
      (hush_enqueue _ i (by rw [setDeadline_sched]; exact h1) (by rw [setDeadline_sched]; exact h2))

theorem hush_disarm (s : State) (i : SlotIx) (h1 : (s.record i).sched ≠ .free)
    (h2 : (s.record i).sched ≠ .damaged) : Hush s (s.disarm i) :=
  (hush_leaveTiming s i).trans (hush_retimed _ i _ (by rw [leaveTiming_record]; exact h1)
    (by rw [leaveTiming_record]; exact h2) nofun nofun rfl rfl rfl)

theorem hush_settleSchedule (s : State) (i : SlotIx) (plan : Reschedule) (h1 : (s.record i).sched ≠ .free)
    (h2 : (s.record i).sched ≠ .damaged) : Hush s (s.settleSchedule i plan) := by
  unfold State.settleSchedule
  split
  · exact hush_retimed s i _ h1 h2 nofun nofun rfl rfl rfl
  · exact hush_retimed s i _ h1 h2 nofun nofun rfl rfl rfl
  · exact (hush_modify s i _ rfl).trans (hush_enqueue _ i (by rw [State.record_modify_self]; exact h1)
      (by rw [State.record_modify_self]; exact h2))

theorem hush_startRebuild (s : State) (after : ListState × Nat) :
    Hush s ((s.queueAll s.armedSlots).startRebuild s.armedSlots after) := by
  obtain ⟨shape, kept, moved⟩ := queueAll_facts s.armedSlots s
  have mem := mem_armedSlots s
  have face : ∀ i, ((s.queueAll s.armedSlots).record i).face = (s.record i).face := fun i => by
    by_cases hi : i ∈ s.armedSlots
    · rw [moved i hi]
      unfold Record.face
      simp only [(mem i).mp hi]
      rfl
    · rw [kept i hi]
  refine Hush.trans (t := s.queueAll s.armedSlots) ?_ (.of_table rfl rfl fun _ => rfl)
  rw [shape]
  rw [shape] at face
  exact ⟨rfl, rfl, rfl, rfl, face, fun _ => rfl⟩

theorem noted_listFault {l} {s : State} (h : Noted none l s) : Noted none l s.listFault :=
  ((noted_settleSince (noted_readSlots _ h)).hush (hush_startRebuild _ s.expiry.afterFault)).hush
    (hush_reportRebuild _)

theorem hush_putDown (s : State) (c : Carried) : Hush s (s.putDown c) := by
  refine ⟨rfl, rfl, rfl, rfl, fun _ => rfl, fun p => ?_⟩
  unfold State.isUp State.putDown State.releaseHeldOn
  simp [State.withPlacement]

theorem hush_endPlacement (s : State) (c : Carried) : Hush s (s.endPlacement c) := by
  unfold State.endPlacement
  dsimp only
  refine Hush.trans (Hush.trans ?_ (hush_putDown _ c)) (hush_reportRebuild _)
  split
  · rename_i hs
    have hpl : (s.record c.slot).sched = .placing := by
      unfold State.stillCarried at hs
      simp at hs
      exact hs.1
    have h1 : (s.record c.slot).sched ≠ .free := by rw [hpl]; decide
    have h2 : (s.record c.slot).sched ≠ .damaged := by rw [hpl]; decide
    split
    · exact hush_retimed s _ _ h1 h2 nofun nofun rfl rfl rfl
    · split
      · unfold State.returnOvertaken
        dsimp only
        generalize hb : ({ s.placement with queue := _, rebuildPart := _ } : PlacementUnit) = b
        exact Hush.trans (t := s.withPlacement b) (.of_table rfl rfl fun _ => rfl)
          (hush_retimed (s.withPlacement b) _ _ h1 h2 nofun nofun rfl rfl rfl)
      · unfold State.insertArmed
        generalize hb : ({ s.expiry with list := _ } : Expiry) = b
        exact Hush.trans (t := s.withExpiry b) (.of_table rfl rfl fun _ => rfl)
          (hush_retimed (s.withExpiry b) _ _ h1 h2 nofun nofun rfl rfl rfl)
  · exact .refl s

theorem noted_walkFrom {l} (due : Nat) : ∀ (is : List SlotIx) {s : State}, Noted none l s →
    Noted none l (walkFrom due is s).1
  | [], _, h => h
  | j :: is, s, h => by
    have h1 := noted_readSlot h j
    unfold walkFrom
    dsimp only
    split
    · exact noted_walkFrom due is h1
    · split
      · exact h1
      · split
        · exact noted_walkFrom due is h1
        · exact h1

theorem noted_placementReads {l} {s : State} (h : Noted none l s) (c : Carried) :
    Noted none l (s.placementReads c).1 := by
  have h1 := noted_readSlot h c.slot
  unfold State.placementReads
  dsimp only
  split
  · exact noted_settleSince (noted_walkFrom _ _ h1)
  · exact noted_settleSince h1

theorem noted_endCarried {l} {s : State} (h : Noted none l s) : Noted none l s.endCarried := by
  unfold State.endCarried
  split
  · exact h
  · exact (noted_checkedRead h _).hush (hush_endPlacement _ _)

theorem noted_takeHead {l} {s : State} (h : Noted none l s) (i : SlotIx) : Noted none l (s.takeHead i) := by
  have h1 := noted_checkedRead h i
  unfold State.takeHead
  dsimp only
  split
  · rename_i hq
    have f1 : ((s.checkedRead i).record i).sched ≠ .free := by rw [hq]; decide
    have f2 : ((s.checkedRead i).record i).sched ≠ .damaged := by rw [hq]; decide
    split
    · refine h1.hush ((hush_unqueue _ i).trans ?_)
      have hr : ((s.checkedRead i).unqueue i).record i = (s.checkedRead i).record i := by
        unfold State.unqueue State.reportRebuild
        split <;> rfl
      exact hush_retimed _ i _ (by rw [hr]; exact f1) (by rw [hr]; exact f2) nofun nofun rfl rfl rfl
    · unfold State.carry
      generalize hb : ({ ((s.checkedRead i).removeQueued i).placement with carried := _ } : PlacementUnit) = b
      exact h1.hush (Hush.trans (t := ((s.checkedRead i).removeQueued i).withPlacement b)
        (.of_table rfl rfl fun _ => rfl) (hush_retimed _ i _ f1 f2 nofun nofun rfl rfl rfl))
  · exact h1

/-! ### Firings -/

theorem noted_fireNotice {l} {s : State} {i : SlotIx} (h : Noted none l s) (h1 : (s.record i).sched ≠ .free)
    (h2 : (s.record i).sched ≠ .damaged) (early rangeEnd : Bool) :
    Noted none l (s.fireNotice i (s.record i) early rangeEnd) := by
  unfold State.fireNotice
  dsimp only
  split
  · rename_i hc
    have o := h.opened hc
    split
    · rename_i hu
      split
      · rename_i n hn
        refine noted_create o (freeGeneral_fresh hn) rfl nofun nofun (fun e => absurd e h2) h1 fun p hp => ?_
        unfold State.reachable at hu
        rw [show (s.record i).target = .port p from hp] at hu
        exact hu
      · exact noted_block o h1 _
    · exact h.hush (hush_modify s i _ rfl)
  · exact h.hush (hush_modify s i _ rfl)

theorem noted_fire {l} {s : State} {i : SlotIx} (h : Noted none l s) (ha : (s.record i).sched = .armed)
    (early : Bool) : Noted none l (s.fire i early) := by
  have a := h.hush (hush_unlist s i)
  have hr : (s.unlist i).record i = s.record i := rfl
  have f := noted_fireNotice (i := i) a (by rw [hr, ha]; decide) (by rw [hr, ha]; decide) early
    (decide ((s.record i).reschedule s.now = .rangeEnd))
  have hs := (quiet_fireNotice (s.unlist i) i (s.record i) early
    (decide ((s.record i).reschedule s.now = .rangeEnd))).sched i
  exact f.hush (hush_settleSchedule _ i _ (hs ▸ by rw [hr, ha]; decide) (hs ▸ by rw [hr, ha]; decide))

/-! ### Records that end -/

theorem noted_freeSlot {l} {s : State} {i : SlotIx} (h : Noted (some i) l s) : Noted none l (s.freeSlot i) := by
  have e := freeSlot_eq s i
  have up : ∀ p, (s.freeSlot i).isUp p = s.isUp p := fun p => (confined_freeSlot s i).isUp p
  have n := freeSlot_notices s i
  refine (h.edited (by unfold State.waiting; rw [n]) (by rw [n]) (by rw [n]) (by rw [n]) (fun j hj => ?_) up).closed
    ?_ ?_
  · unfold State.freeSlot
    rw [State.record_setRecord_other _ _ _ _ hj]
    exact congrArg Record.face (dropOwned_record s _ i j)
  · rw [freeSlot_record]; rfl
  · rw [freeSlot_record]; rfl

theorem noted_dispose {l} {s : State} {i : SlotIx} (h : Noted none l s) (hc : (s.record i).notice = .clear) :
    Noted none l (s.dispose i) := by
  unfold State.dispose
  dsimp only
  split
  · exact noted_freeSlot (h.opened hc)
  · exact h

/-- A WAITING record's place on the blocked list is taken away. -/
theorem noted_unblock {l} {s : State} {i : SlotIx} (h : Noted none l s) (hi : (s.record i).notice = .waiting) :
    Noted (some i) l (s.unblock i) := by
  have once := (List.nodup_append'.mp h.once).1
  refine h.unwaited (h.of_waiting hi).1 ?_ rfl rfl rfl (fun _ _ => rfl) fun _ => rfl
  rw [List.Nodup.erase_eq_filter once]
  show List.map BlockedPlace.slot (s.notices.blocked.filter _) = (s.notices.blocked.map BlockedPlace.slot).filter _
  rw [List.filter_map]
  congr 1
  refine List.filter_congr fun b _ => ?_
  simp [bne, BEq.beq]

theorem hush_unblock {l} {s : State} {i : SlotIx} (h : Noted none l s) (hi : (s.record i).notice ≠ .waiting) :
    Hush s (s.unblock i) := by
  refine ⟨?_, rfl, rfl, rfl, fun _ => rfl, fun _ => rfl⟩
  show (s.notices.blocked.filter _).map BlockedPlace.slot = _
  rw [List.filter_eq_self.mpr]
  intro b hb
  refine decide_eq_true fun e => hi ?_
  exact (h.waits i (List.mem_map.mpr ⟨b, hb, e⟩)).2.1

theorem noted_retireCore {l} {s : State} (h : Noted none l s) (i : SlotIx) : Noted none l (s.retireCore i) := by
  have a := h.hush (hush_leaveTiming s i)
  unfold State.retireCore
  dsimp only
  generalize s.leaveTiming i = u at a
  by_cases hw : (u.record i).notice = .waiting
  · have o := noted_unblock a hw
    have none' : (u.unblock i).entryOf i = none := by
      cases hx : (u.unblock i).entryOf i with
      | none => rfl
      | some x =>
        obtain ⟨m, n⟩ := entryOf_mem (place := x.1) (e := x.2) hx
        exact absurd n ((a.of_waiting hw).2 x.2 (mem_entries.mpr ⟨x.1, m⟩))
    rw [none']
    exact noted_freeSlot o
  · have b := a.hush (hush_unblock a hw)
    have hw' : ((u.unblock i).record i).notice ≠ .waiting := hw
    generalize u.unblock i = v at b hw'
    split
    · rename_i hx
      have hn := entryOf_none hx
      have hc : (v.record i).notice = .clear := by
        by_contra hc
        obtain ⟨pl, e, he, hs, _⟩ := b.of_entry hc hw'
        exact hn e (mem_entries.mpr ⟨pl, he⟩) hs
      exact noted_freeSlot (b.opened hc)
    · rename_i place e hx
      obtain ⟨m, n⟩ := entryOf_mem hx
      exact noted_serveBlocked (noted_freeSlot (n ▸ noted_dropEntry b m))

theorem noted_retire {l} {s : State} (h : Noted none l s) (i : SlotIx) : Noted none l (s.retire i) :=
  noted_settle (noted_retireCore h i)

theorem noted_withdraw {l} {s : State} (h : Noted none l s) (i : SlotIx) : Noted none l (s.withdraw i) := by
  unfold State.withdraw
  split
  · exact h
  · exact h
  · rename_i hw
    exact (noted_unblock h hw).cleared
  · split
    · exact h
    · rename_i place e hx
      obtain ⟨m, n⟩ := entryOf_mem hx
      exact noted_settle (noted_serveBlocked (Noted.cleared (n ▸ noted_dropEntry h m)))

/-! ### Delivery -/

/-- An entry in a queue is delivered. -/
theorem noted_deliver {l} {s : State} {p : Port} {e : Entry} (h : Noted none l s)
    (he : e ∈ s.notices.queues[p]) : Noted none l (s.deliver p e) := by
  have hm : e ∈ s.listAt (.queued p) := he
  have d := noted_dropEntry h hm
  have k := h.kinds e (mem_entries.mpr ⟨_, hm⟩)
  unfold State.deliver
  dsimp only
  split
  · rename_i hk
    rw [k.mpr hk] at d
    exact d
  · rename_i hs _
    rw [hs] at d
    exact d
  · rename_i i _ hs
    rw [hs] at d
    exact noted_serveBlocked d.cleared
  · rename_i i hk hs
    have d' := d
    rw [hs] at d'
    split
    · refine noted_serveBlocked (noted_dispose d'.cleared ?_)
      unfold State.setNotice
      rw [State.record_modify_self]
    · generalize hu : s.dropEntry (.queued p) e = u at d'
      have m := moved_dropEntry s (.queued p) e
      rw [hu] at m
      have x := d'.modified fun r => { r with notice := .outstanding, holder := some p }
      have shape : (u.modifyOutstanding p (· ++ [e.delivered])).setNotice i .outstanding (some p)
          = (u.setNotice i .outstanding (some p)).modifyOutstanding p (· ++ [e.delivered]) := rfl
      rw [shape]
      generalize hv : u.setNotice i .outstanding (some p) = v
      have hv' : Noted (some i) l v := by rw [← hv]; exact x
      have rv : v.record i = { s.record i with notice := .outstanding, holder := some p } := by
        rw [← hv]
        unfold State.setNotice
        rw [State.record_modify_self, m.record]
      have ev : v.entries = u.entries := by rw [← hv]; rfl
      have hl := h.leaver hm
      rw [hu] at hl
      have up : ∀ q, v.isUp q = s.isUp q := fun q => by
        rw [← hv, ← hu]
        exact (confined_dropEntry s (.queued p) e).isUp q
      refine Noted.joined (e := e.delivered) (pl := .outstanding p) (s := v)
        (show Noted e.slot l v by rw [hs]; exact hv') ?_ rfl (fun _ => rfl) (fun _ => rfl) ?_ ?_
      · exact {
          number := fun y hy => by rw [ev] at hy; exact hl.1 y hy
          kind := k
          standing := fun j hj => by
            have hj' : e.slot = some j := hj
            rw [hs] at hj'
            rw [← Option.some.inj hj', rv]
            rfl
          fault := fun j hk' _ => by
            have : e.kind = .fault := hk'
            rw [hk] at this
            cases this
          converted := fun _ _ hp _ => by cases hp
          free := fun j hj => by
            have hj' : e.slot = some j := hj
            have := hl.2 j hj'
            rw [hs] at hj'
            rw [← Option.some.inj hj', rv]
            rw [← Option.some.inj hj'] at this
            exact this
          stay := fun _ => hk
          home := by
            have := h.homes _ e hm
            unfold State.suits at this ⊢
            simp only [up]
            exact this }
      · have g := vector_gain v.notices.outstanding p.val p.isLt (y := v.notices.outstanding[p] ++ [e.delivered])
          (List.perm_append_singleton _ _)
        have g := (g.append_left v.notices.queues.toList.flatten).append_right v.notices.holding.toList.flatten
        exact g.trans (List.perm_middle.append_right _)
      · intro q y
        cases q with
        | outstanding q =>
          show y ∈ (v.notices.outstanding.set p.val (v.notices.outstanding[p] ++ [e.delivered]) p.isLt)[q]
            ↔ y ∈ v.notices.outstanding[q] ∨ _
          by_cases hq : q = p
          · subst hq
            rw [set_port_same, List.mem_append, List.mem_singleton]
            exact ⟨fun h => h.imp_right fun e => ⟨rfl, e⟩, fun h => h.imp_right And.right⟩
          · rw [set_port_other _ _ _ _ hq]
            refine ⟨.inl, fun h => h.elim id fun x => absurd ?_ hq⟩
            injection x.1
        | queued q => exact ⟨.inl, fun h => h.elim id fun e => (nomatch e.1)⟩
        | holding q => exact ⟨.inl, fun h => h.elim id fun e => (nomatch e.1)⟩

theorem noted_deliverAll {l} {s : State} {p : Port} {es : List Entry} (h : Noted none l s) (hn : es.Nodup)
    (hm : ∀ e ∈ es, e ∈ s.notices.queues[p]) (b : Bool) : Noted none l (s.deliverAll p es b) := by
  have fold : ∀ (es : List Entry) (t : State), Noted none l t → es.Nodup → (∀ e ∈ es, e ∈ t.notices.queues[p]) →
      Noted none l (es.foldl (State.deliver p) t) := by
    intro es
    induction es with
    | nil => exact fun _ ht _ _ => ht
    | cons e es ih =>
      intro t ht hn hm
      have hn' := List.nodup_cons.mp hn
      refine ih _ (noted_deliver ht (hm e (List.mem_cons_self ..))) hn'.2 fun x hx => ?_
      refine (deliver_outs t p e).2.2 p x (hm x (List.mem_cons_of_mem _ hx)) (.inr ?_)
      rintro rfl
      exact hn'.1 hx
  have f := fold es s h hn hm
  unfold State.deliverAll
  dsimp only
  split
  · exact noted_settle f
  · exact f.hush (hush_driveLines _)

/-- The entry of a record OUTSTANDING at a port is found in that port's outstanding set. -/
theorem Noted.outstanding_found {l} {s : State} {i : SlotIx} {p : Port} (h : Noted none l s)
    (h1 : (s.record i).notice = .outstanding) (h2 : (s.record i).holder = some p) :
    ∃ e, s.notices.outstanding[p].find? (·.names i) = some e ∧ e ∈ s.listAt (.outstanding p) ∧ e.slot = some i := by
  obtain ⟨pl, e, he, hs, hst⟩ := h.of_entry (i := i) (by rw [h1]; decide) (by rw [h1]; decide)
  rw [h1, h2] at hst
  cases pl with
  | queued q => cases hst
  | holding k => cases hst
  | outstanding q =>
    cases hst
    cases hf : s.notices.outstanding[p].find? (·.names i) with
    | none => exact absurd (decide_eq_true hs) (List.find?_eq_none.mp hf e he)
    | some x =>
      have a := List.find?_some hf
      exact ⟨x, rfl, List.mem_of_find?_eq_some hf, of_decide_eq_true a⟩

theorem noted_consume {l} {s : State} {i : SlotIx} {p : Port} (h : Noted none l s)
    (h1 : (s.record i).notice = .outstanding) (h2 : (s.record i).holder = some p) :
    Noted none l (s.consume p i) := by
  obtain ⟨e, hf, he, hs⟩ := h.outstanding_found h1 h2
  unfold State.consume
  rw [hf]
  exact (hs ▸ noted_dropEntry h he : Noted (some i) l _).cleared

theorem consume_notice (s : State) (p : Port) (i : SlotIx) : ((s.consume p i).record i).notice = .clear := by
  unfold State.consume State.setNotice
  split <;> rw [State.record_modify_self]

theorem noted_acknowledge {l} {s : State} {i : SlotIx} {p : Port} (h : Noted none l s)
    (h1 : (s.record i).notice = .outstanding) (h2 : (s.record i).holder = some p) (hf : (s.record i).sched ≠ .free)
    (rearm : Option Interval) : Noted none l (s.acknowledge p i rearm) := by
  have c := noted_consume h h1 h2
  have hc := consume_notice s p i
  have hs := (quiet_consume s p i).sched i
  unfold State.acknowledge
  dsimp only
  generalize s.consume p i = u at c hc hs
  refine noted_settle ?_
  split
  · rename_i hd
    have hw : ∀ b ∈ u.notices.blocked, b.slot ≠ i := fun b hb e =>
      (c.of_clear hc).1 (List.mem_map.mpr ⟨b, hb, e⟩)
    have same : u.serveBlocked.record i = u.record i := by
      obtain ⟨k, hk⟩ : ∃ k : SlotIx, i ≠ k := ⟨i + 1, by simp⟩
      exact (near_serveBlocked k u).records i hk hw
    refine noted_raiseFault (noted_serveBlocked c) ?_ ?_
    · rw [same]; exact hc
    · rw [same, hs]; exact hd
  · rename_i hd
    refine noted_serveBlocked ?_
    unfold State.rearmOrDispose
    split
    · have f1 : ((u.setDeadline i (BitVec.ofNat 56 (u.now + (rearm.getD 0).toNat))).record i).sched
          = (s.record i).sched := by rw [setDeadline_sched, hs]
      exact c.hush ((hush_setDeadline u i _).trans (hush_enqueue _ i (f1 ▸ hf) (f1 ▸ hd)))
    · exact noted_dispose c hc

theorem noted_reoffer {l} {s : State} {k : Pool} {p : Port} {e : Entry} (h : Noted e.slot l s)
    (jh : Joins s l (.holding k) e)
    (jq : ∀ p, s.isUp p = true → Joins s l (.queued p) e) : Noted none l (s.reoffer k p e) := by
  have held := noted_joinHolding h jh
  unfold State.reoffer
  split
  · exact noted_servePool held k
  · split
    · exact held
    · rename_i q hq
      refine noted_assign h (jq q (accepting_up ?_))
      unfold State.releaseMember at hq
      rcases Option.or_eq_some_iff.mp hq with hq | ⟨_, hq⟩
      · exact (Bool.and_eq_true _ _ ▸ List.find?_some hq).2
      · exact (Bool.and_eq_true _ _ ▸ List.find?_some hq).2

theorem noted_giveBack {l} {s : State} {i : SlotIx} {p : Port} (h : Noted none l s)
    (h1 : (s.record i).notice = .outstanding) (h2 : (s.record i).holder = some p)
    (hd : (s.record i).sched ≠ .damaged) (hl : l = none) : Noted none l (s.giveBack p i) := by
  subst hl
  obtain ⟨e, hf, he, hs⟩ := h.outstanding_found h1 h2
  have lv := h.leaver he
  have m := moved_dropEntry s (.outstanding p) e
  have o := (hs ▸ noted_dropEntry h he : Noted (some i) none _).modified fun r =>
    { r with notice := .pending, holder := none }
  have hk := h.stays _ e he rfl
  have home : (s.isUp p = true ∨ none = some p) ∧ ∀ q, e.destination = .port q → q = p := h.homes _ e he
  have up : ∀ q, ((s.dropEntry (.outstanding p) e).setNotice i .pending none).isUp q = s.isUp q := fun q =>
    (confined_dropEntry s (.outstanding p) e).isUp q
  unfold State.giveBack
  rw [hf]
  dsimp only
  generalize hu : (s.dropEntry (.outstanding p) e).setNotice i .pending none = u at up
  have o' : Noted e.slot none u := by rw [hs, ← hu]; exact o
  have ru : u.record i = { s.record i with notice := .pending, holder := none } := by
    rw [← hu]
    unfold State.setNotice
    rw [State.record_modify_self, m.record]
  have eu : u.entries = (s.dropEntry (.outstanding p) e).entries := by rw [← hu]; rfl
  have joins : ∀ pl : EntryPlace, pl.standing = (.pending, none) → u.suits none pl e → Joins u none pl e := by
    intro pl hp home
    exact {
      number := fun y hy => by rw [eu] at hy; exact lv.1 y hy
      kind := h.kinds e (mem_entries.mpr ⟨_, he⟩)
      standing := fun j hj => by
        rw [hs] at hj
        rw [← Option.some.inj hj, ru, hp]
      fault := fun j hk' _ => by rw [hk] at hk'; cases hk'
      converted := fun j hj _ hd' => by
        rw [hs] at hj
        rw [← Option.some.inj hj, ru] at hd'
        exact absurd hd' hd
      free := fun j hj => by
        have := lv.2 j hj
        rw [hs] at hj
        rw [← Option.some.inj hj] at this ⊢
        rw [ru]
        exact this
      stay := fun ho => by rw [hp] at ho; cases ho
      home := home }
  split
  · rename_i q hq
    have e' := home.2 q hq
    subst e'
    refine (noted_joinQueue o' (joins (.queued q) rfl ⟨.inl ?_, home.2⟩)).hush (hush_driveLines _)
    rw [up]
    exact home.1.resolve_right nofun
  · rename_i k hk'
    refine noted_settle (noted_reoffer o' (joins _ rfl hk') fun q hq => joins _ rfl ⟨.inl hq, fun r hr => ?_⟩)
    rw [hk'] at hr
    cases hr

/-! ### Links -/

theorem hush_modifyLink (s : State) (p : Port) (f : Link → Link) (h : ∀ l, (f l).state = l.state) :
    Hush s (s.modifyLink p f) := by
  refine .of_table rfl rfl fun q => ?_
  by_cases e : q = p
  · subst e
    rw [State.modifyLink_self]
    exact h _
  · rw [State.modifyLink_other _ _ _ _ e]

theorem hush_form (s : State) (p : Port) (f : Frame) : Hush s (s.form p f) := hush_modifyLink s p _ fun _ => rfl

/-- A port's link state changes: its entries are still to be treated. -/
theorem Noted.relinked {s : State} (h : Noted none none s) (p : Port) (f : Link → Link) :
    Noted none (some p) (s.modifyLink p f) :=
  { h with
    homes := fun pl e he => by
      have := h.homes pl e he
      have up : ∀ q, s.isUp q = true ∨ none = some q → (s.modifyLink p f).isUp q = true ∨ some p = some q := by
        intro q hq
        by_cases e : p = q
        · exact .inr (by rw [e])
        · refine .inl ?_
          unfold State.isUp
          rw [State.modifyLink_other _ _ _ _ (Ne.symm e)]
          exact hq.resolve_right nofun
      unfold State.suits at this ⊢
      cases pl with
      | queued q => exact ⟨up q this.1, this.2⟩
      | outstanding q => exact ⟨up q this.1, this.2⟩
      | holding k => exact this }

/-- The port that leaves UP has no entries any more. -/
theorem Noted.emptied {s : State} {p : Port} (h : Noted none (some p) s) (h1 : s.notices.queues[p] = [])
    (h2 : s.notices.outstanding[p] = []) : Noted none none s :=
  { h with
    homes := fun pl e he => by
      have := h.homes pl e he
      have up : ∀ q, q ≠ p → s.isUp q = true ∨ some p = some q → s.isUp q = true ∨ none = some q := fun q hq hu =>
        .inl (hu.resolve_right fun x => hq (Option.some.inj x).symm)
      unfold State.suits at this ⊢
      cases pl with
      | queued q =>
        refine ⟨up q ?_ this.1, this.2⟩
        rintro rfl
        have he' : e ∈ s.notices.queues[q] := he
        rw [h1] at he'
        cases he'
      | outstanding q =>
        refine ⟨up q ?_ this.1, this.2⟩
        rintro rfl
        have he' : e ∈ s.notices.outstanding[q] := he
        rw [h2] at he'
        cases he'
      | holding k => exact this }

/-- A port that is UP leaves nothing to treat. -/
theorem Noted.arrived {s : State} {p : Port} (h : Noted none (some p) s) (hu : s.isUp p = true) :
    Noted none none s :=
  { h with
    homes := fun pl e he => by
      have := h.homes pl e he
      have up : ∀ q, s.isUp q = true ∨ some p = some q → s.isUp q = true ∨ none = some q := fun q hq =>
        .inl (hq.elim id fun x => by rw [← Option.some.inj x]; exact hu)
      unfold State.suits at this ⊢
      cases pl with
      | queued q => exact ⟨up q this.1, this.2⟩
      | outstanding q => exact ⟨up q this.1, this.2⟩
      | holding k => exact this }

/-- A port that is not UP has no entries (R112). -/
theorem Noted.deserted {s : State} {p : Port} (h : Noted none none s) (hu : s.isUp p = false) :
    s.notices.queues[p] = [] ∧ s.notices.outstanding[p] = [] := by
  refine ⟨List.eq_nil_iff_forall_not_mem.mpr fun e he => ?_, List.eq_nil_iff_forall_not_mem.mpr fun e he => ?_⟩
  · have : (s.isUp p = true ∨ none = some p) ∧ _ := h.homes (.queued p) e he
    rw [hu] at this
    exact this.1.elim nofun nofun
  · have : (s.isUp p = true ∨ none = some p) ∧ _ := h.homes (.outstanding p) e he
    rw [hu] at this
    exact this.1.elim nofun nofun

/-- A port that is not UP changes its link state. -/
theorem noted_relink {s : State} {p : Port} (h : Noted none none s) (hu : s.isUp p = false) (f : Link → Link) :
    Noted none none (s.modifyLink p f) :=
  (h.relinked p f).emptied (h.deserted hu).1 (h.deserted hu).2

theorem noted_comeUp {s : State} (h : Noted none none s) (p : Port) (window : Nat) :
    Noted none none (s.comeUp p window) := by
  unfold State.comeUp
  refine noted_settle (Noted.hush (Noted.arrived (h.relinked p _) ?_) (hush_form _ p _))
  unfold State.isUp
  rw [State.modifyLink_self]
  rfl

/-! ### Leaving UP (R112) -/

theorem noted_treatLeaving {l} {s : State} {place : EntryPlace} {e : Entry} (h : Noted none l s)
    (he : e ∈ s.listAt place) (o : Bool) :
    Noted none l ((s.dropEntry place e).treatLeaving o e) := by
  have d := noted_dropEntry h he
  have m := moved_dropEntry s place e
  have lv := h.leaver he
  have k := h.kinds e (mem_entries.mpr ⟨place, he⟩)
  unfold State.treatLeaving
  split
  · rename_i hs
    rw [hs] at d
    exact d
  · rename_i i hs
    rw [hs] at d
    have lost := noted_serveBlocked d.lost
    have faulted : ((s.dropEntry place e).record i).sched = .damaged →
        Noted none l ((((s.dropEntry place e).loseNotice i).serveBlocked).raiseFault i) := by
      intro hd
      have lr : (((s.dropEntry place e).loseNotice i).record i).notice = .clear
          ∧ (((s.dropEntry place e).loseNotice i).record i).sched = .damaged := by
        unfold State.loseNotice State.setNotice State.raiseOverrun
        rw [State.record_modify_self, State.record_modify_self]
        exact ⟨rfl, hd⟩
      have hw : ∀ b ∈ ((s.dropEntry place e).loseNotice i).notices.blocked, b.slot ≠ i := fun b hb x =>
        (d.lost.of_clear lr.1).1 (List.mem_map.mpr ⟨b, hb, x⟩)
      obtain ⟨j, hj⟩ : ∃ j : SlotIx, i ≠ j := ⟨i + 1, by simp⟩
      have same := (near_serveBlocked j ((s.dropEntry place e).loseNotice i)).records i hj hw
      exact noted_raiseFault lost (by rw [same]; exact lr.1) (by rw [same]; exact lr.2)
    dsimp only
    split
    · rename_i hk
      rw [k.mpr hk] at hs
      cases hs
    · exact lost
    · rename_i k' hk hd
      split
      · rename_i hdam
        exact faulted (of_decide_eq_true hdam)
      · rename_i hdam
        have nd : ((s.dropEntry place e).record i).sched ≠ .damaged := fun x => hdam (decide_eq_true x)
        generalize hu : (s.dropEntry place e).setNotice i .pending none = u
        have o' : Noted e.slot l u := by rw [hs, ← hu]; exact d.modified _
        have ru : u.record i = { s.record i with notice := .pending, holder := none } := by
          rw [← hu]
          unfold State.setNotice
          rw [State.record_modify_self, m.record]
        have eu : u.entries = (s.dropEntry place e).entries := by rw [← hu]; rfl
        have joins : ∀ pl : EntryPlace, pl.standing = (.pending, none) → u.suits l pl e → Joins u l pl e := by
          intro pl hp home
          exact {
            number := fun y hy => by rw [eu] at hy; exact lv.1 y hy
            kind := k
            standing := fun j hj => by
              rw [hs] at hj
              rw [← Option.some.inj hj, ru, hp]
            fault := fun j hk' _ => by rw [hk] at hk'; cases hk'
            converted := fun j hj _ hd' => by
              rw [hs] at hj
              rw [← Option.some.inj hj, ru] at hd'
              rw [m.record] at nd
              exact absurd hd' nd
            free := fun j hj => by
              have := lv.2 j hj
              rw [hs] at hj
              rw [← Option.some.inj hj] at this ⊢
              rw [ru]
              exact this
            stay := fun ho => by rw [hp] at ho; cases ho
            home := home }
        refine noted_offer o' (joins _ rfl hd) fun q hq => joins _ rfl ⟨.inl hq, fun r hr => ?_⟩
        rw [hd] at hr
        cases hr
    · split
      · rename_i hc
        have := (Bool.and_eq_true _ _ ▸ hc).1
        exact faulted (of_decide_eq_true this)
      · exact lost

theorem noted_readNamed {l} {s : State} (h : Noted none l s) (e : Entry) : Noted none l (s.readNamed e) := by
  unfold State.readNamed
  split
  · exact h
  · exact noted_readSlot h _

theorem noted_emptyPort {l} {s : State} (h : Noted none l s) (p : Port) : Noted none l (s.emptyPort p) := by
  have fold : ∀ (f : State → Entry → State), (∀ t e, Noted none l t → Noted none l (f t e)) →
      ∀ (es : List Entry) (t : State), Noted none l t → Noted none l (es.foldl f t) := by
    intro f hf es
    induction es with
    | nil => exact fun _ ht => ht
    | cons e es ih => exact fun t ht => ih _ (hf t e ht)
  unfold State.emptyPort
  dsimp only
  refine fold _ (fun t e ht => ?_) _ _ (fold _ (fun t e ht => ?_) _ _ h)
  · have r := noted_readNamed ht e
    unfold State.leaveOutstandingEntry
    dsimp only
    split
    · rename_i hm
      exact noted_treatLeaving (place := .outstanding p) r hm true
    · exact r
  · have r := noted_readNamed ht e
    unfold State.leaveQueueEntry
    dsimp only
    split
    · rename_i hm
      exact noted_treatLeaving (place := .queued p) r hm false
    · exact r

/-! ### Sweeps -/

theorem hush_markOne (w : Sweep) (s : State) (i : SlotIx) : Hush s (s.markOne w i) := by
  unfold State.markOne
  split
  · exact hush_modify s i _ rfl
  · exact .refl s

theorem noted_startSweep {l} {s : State} (h : Noted none l s) (w : Sweep) : Noted none l (s.startSweep w) := by
  have h1 := noted_readSlots s.liveSlots h
  unfold State.startSweep
  dsimp only
  generalize s.readSlots s.liveSlots = u at *
  have h2 : Noted none l (u.withSweeps { u.sweeps with current := some ⟨w, 0, 0⟩ }) :=
    h1.hush (.of_table rfl rfl fun _ => rfl)
  exact (noted_settleSince (h2.hush (Hush.foldl (State.markOne w) (hush_markOne w) _ _))).hush (hush_driveLines _)

theorem noted_withSweeps {l} {s : State} (h : Noted none l s) (b : SweepUnit) : Noted none l (s.withSweeps b) :=
  h.hush (.of_table rfl rfl fun _ => rfl)

theorem noted_takeSweep {l} {s : State} (h : Noted none l s) : Noted none l s.takeSweep := by
  unfold State.takeSweep
  split
  · exact h
  · split
    · exact noted_startSweep (noted_withSweeps h { s.sweeps with total := none }) _
    · exact noted_startSweep h _
    · exact h

theorem noted_queueSweep {l} {s : State} (h : Noted none l s) (k : SweepKind) : Noted none l (s.queueSweep k) :=
  noted_takeSweep (noted_withSweeps h { s.sweeps.advanceNumber with
    places := s.sweeps.places ++ [⟨s.sweeps.nextNumber, k⟩] })

theorem noted_queuePortSweep {l} {s : State} (h : Noted none l s) (p : Port) : Noted none l (s.queuePortSweep p) := by
  unfold State.queuePortSweep
  split
  · exact h
  · exact noted_queueSweep h _

theorem noted_leaveUp {s : State} (h : Noted none none s) (p : Port) (x : LinkState) (hx : x ≠ .up)
    (kept : List Outgoing) : Noted none none (s.leaveUp p x kept) := by
  have r := h.relinked p (·.leave x kept)
  have down : (s.modifyLink p (·.leave x kept)).isUp p = false := by
    unfold State.isUp
    rw [State.modifyLink_self]
    exact decide_eq_false hx
  obtain ⟨a, b, _⟩ := emptyPort_facts _ p down
  exact noted_settle (noted_queuePortSweep ((noted_emptyPort r p).emptied a b) p)

theorem noted_visit {l} {s : State} (h : Noted none l s) (run : SweepRun) (i : SlotIx) :
    Noted none l (s.visit run i) := by
  have h1 := noted_readSlot h i
  unfold State.visit
  dsimp only
  generalize run.sweep.retires ((s.readSlot i).record i) = b
  cases b
  · exact noted_withSweeps (noted_settleSince (s := s) h1) _
  · exact noted_withSweeps (noted_retire h1 i) _

theorem noted_createSweepDone {s : State} (h : Noted none none s) (p : Port) (number : SweepNumber) (retired : Nat)
    (abandoned : Bool) : Noted none none (s.createSweepDone p number retired abandoned) := by
  unfold State.createSweepDone
  split
  · rename_i hu
    split
    · exact h
    · rename_i n hn
      have fresh := (freeNumber_some s _ _ n hn).2
      generalize he : Entry.mk n _ _ _ _ _ _ _ _ _ _ _ _ _ _ _ _ _ _ _ _ _ = e
      have es : e.slot = none := by rw [← he]
      have ek : e.kind = .sweepDone := by rw [← he]
      have en : e.number = n := by rw [← he]
      have ed : e.destination = .port p := by rw [← he]
      have a : Noted none none s.advanceStamp := h.hush ⟨rfl, rfl, rfl, rfl, fun _ => rfl, fun _ => rfl⟩
      refine noted_joinQueue (by rw [es]; exact a) ?_
      exact {
        number := fun y hy => by rw [en]; exact fresh y hy
        kind := ⟨fun _ => ek, fun _ => es⟩
        standing := fun i hi => by rw [es] at hi; cases hi
        fault := fun i _ hi => by rw [es] at hi; cases hi
        converted := fun i hi => by rw [es] at hi; cases hi
        free := fun i hi => by rw [es] at hi; cases hi
        stay := fun x => by cases x
        home := ⟨.inl hu, fun q hq => by rw [ed] at hq; exact (Target.port.inj hq).symm⟩ }
  · exact h

theorem noted_abandonTagSweeps {s : State} (h : Noted none none s) : Noted none none s.abandonTagSweeps := by
  have fold : ∀ (ws : List Sweep) (t : State), Noted none none t → Noted none none (ws.foldl State.abandon t) := by
    intro ws
    induction ws with
    | nil => exact fun _ ht => ht
    | cons w ws ih =>
      intro t ht
      refine ih _ ?_
      unfold State.abandon
      split
      · exact noted_createSweepDone ht _ _ _ _
      · exact ht
      · exact ht
  unfold State.abandonTagSweeps
  dsimp only
  exact noted_withSweeps (fold _ s h) _

/-- The first two steps at the end of a TOTAL sweep leave every record CLEAR and SWEEP-DONE entries alone (R136). -/
theorem noted_emptied {s : State} (h : Noted none none s) : Noted none none s.emptyBlocked.freeNotices := by
  have e1 : s.emptyBlocked = (clearSlots s.waiting s).withNotices { s.notices with blocked := [] } := by
    obtain ⟨shape, _, _⟩ := clearSlots_facts s.waiting s
    unfold State.emptyBlocked
    dsimp only
    rw [blocked_clearSlots]
    show (clearSlots s.waiting s).withNotices _ = _
    congr 1
    have : (clearSlots s.waiting s).notices = s.notices := by rw [shape]
    rw [this]
  obtain ⟨shape, kept, cleared⟩ := clearSlots_facts s.waiting s
  generalize clearSlots s.waiting s = u at e1 shape kept cleared
  have e2 : s.emptyBlocked.entries = s.entries := by rw [e1]; rfl
  have e3 : ∀ i, s.emptyBlocked.record i = u.record i := fun i => by rw [e1]; rfl
  obtain ⟨shape', kept', cleared'⟩ := clearSlots_facts (s.entries.filterMap Entry.slot) s.emptyBlocked
  have e4 : s.emptyBlocked.entries.foldl State.clearNamed s.emptyBlocked
      = clearSlots (s.entries.filterMap Entry.slot) s.emptyBlocked := by rw [entries_clearSlots, e2]
  have record : ∀ i, (s.emptyBlocked.freeNotices.record i).notice = .clear
      ∧ (s.emptyBlocked.freeNotices.record i).holder = none
      ∧ ((s.emptyBlocked.freeNotices.record i).sched = .free ↔ (s.record i).sched = .free) := by
    intro i
    have e5 : s.emptyBlocked.freeNotices.record i
        = (clearSlots (s.entries.filterMap Entry.slot) s.emptyBlocked).record i := by
      unfold State.freeNotices
      dsimp only
      rw [e4]
      rfl
    rw [e5]
    by_cases hn : i ∈ s.entries.filterMap Entry.slot
    · rw [cleared' i hn, e3]
      refine ⟨rfl, rfl, ?_⟩
      by_cases hw : i ∈ s.waiting
      · rw [cleared i hw]
      · rw [kept i hw]
    · rw [kept' i hn, e3]
      by_cases hw : i ∈ s.waiting
      · rw [cleared i hw]
        exact ⟨rfl, rfl, Iff.rfl⟩
      · rw [kept i hw]
        have := h.clear i (by simp) hw fun e he hs => hn (List.mem_filterMap.mpr ⟨e, he, hs⟩)
        exact ⟨this.1, this.2, Iff.rfl⟩
  have notices : (clearSlots (s.entries.filterMap Entry.slot) s.emptyBlocked).notices
      = { s.notices with blocked := [] } := by
    rw [shape', e1]
    rfl
  have shapeN : s.emptyBlocked.freeNotices.notices = { s.notices with
      blocked := [], queues := s.notices.queues.map (·.filter isSweepDone),
      outstanding := s.notices.outstanding.map (·.filter isSweepDone),
      holding := s.notices.holding.map (·.filter isSweepDone) } := by
    unfold State.freeNotices
    dsimp only
    rw [e4]
    show ({ (clearSlots _ s.emptyBlocked).notices with
      queues := _, outstanding := _, holding := _ } : NoticeUnit) = _
    rw [notices]
  have up : ∀ p, s.emptyBlocked.freeNotices.isUp p = s.isUp p := by
    intro p
    have : s.emptyBlocked.freeNotices.links = s.links := by
      unfold State.freeNotices
      dsimp only
      rw [e4]
      show (clearSlots _ s.emptyBlocked).links = _
      rw [shape', e1]
      show u.links = _
      rw [shape]
    unfold State.isUp
    rw [this]
  have lists : ∀ pl, s.emptyBlocked.freeNotices.listAt pl = (s.listAt pl).filter isSweepDone := by
    intro pl
    cases pl with
    | queued p => show s.emptyBlocked.freeNotices.notices.queues[p] = _; rw [shapeN]; simp [State.listAt]
    | outstanding p => show s.emptyBlocked.freeNotices.notices.outstanding[p] = _; rw [shapeN]; simp [State.listAt]
    | holding k => show s.emptyBlocked.freeNotices.notices.holding[k] = _; rw [shapeN]; simp [State.listAt]
  have sub : ∀ pl, ∀ e ∈ s.emptyBlocked.freeNotices.listAt pl, e ∈ s.listAt pl ∧ e.kind = .sweepDone ∧ e.slot = none := by
    intro pl e he
    rw [lists, List.mem_filter] at he
    have hk : e.kind = .sweepDone := of_decide_eq_true he.2
    exact ⟨he.1, hk, (h.kinds e (mem_entries.mpr ⟨pl, he.1⟩)).mpr hk⟩
  have subE : ∀ e ∈ s.emptyBlocked.freeNotices.entries, e ∈ s.entries ∧ e.kind = .sweepDone ∧ e.slot = none := by
    intro e he
    obtain ⟨pl, hp⟩ := mem_entries.mp he
    obtain ⟨a, b⟩ := sub pl e hp
    exact ⟨mem_entries.mpr ⟨pl, a⟩, b⟩
  have flat : ∀ {n : Nat} (v : Vector (List Entry) n),
      (v.map (·.filter isSweepDone)).toList.flatten.Sublist v.toList.flatten := by
    intro n v
    rw [Vector.toList_map]
    generalize v.toList = ls
    induction ls with
    | nil => exact .slnil
    | cons a ls ih =>
      rw [List.map_cons, List.flatten_cons, List.flatten_cons]
      exact List.Sublist.append List.filter_sublist ih
  have sublist : s.emptyBlocked.freeNotices.entries.Sublist s.entries := by
    unfold State.entries
    rw [shapeN]
    exact ((flat _).append (flat _)).append (flat _)
  have waitingNil : s.emptyBlocked.freeNotices.waiting = [] := by unfold State.waiting; rw [shapeN]; rfl
  exact {
    once := by
      rw [waitingNil, List.nil_append]
      have : s.emptyBlocked.freeNotices.namedSlots = [] :=
        List.filterMap_eq_nil_iff.mpr fun e he => (subE e he).2.2
      rw [this]
      exact List.nodup_nil
    numbers := h.numbers.sublist (sublist.map _)
    listed := fun pl e he i hs => by rw [(sub pl e he).2.2] at hs; cases hs
    waits := fun i hi => by rw [waitingNil] at hi; cases hi
    clear := fun i _ _ _ => ⟨(record i).1, (record i).2.1⟩
    kinds := fun e he => h.kinds e (subE e he).1
    faults := fun e he i _ hs => by rw [(subE e he).2.2] at hs; cases hs
    converted := fun pl e he i hs => by rw [(sub pl e he).2.2] at hs; cases hs
    free := fun i _ _ => (record i).1
    stays := fun pl e he => h.stays pl e (sub pl e he).1
    homes := fun pl e he => by
      have := h.homes pl e (sub pl e he).1
      unfold State.suits at this ⊢
      cases pl <;> simp only [up] <;> exact this }

theorem noted_endTotal {s : State} (h : Noted none none s) (run : SweepRun) : Noted none none (s.endTotal run) := by
  unfold State.endTotal
  dsimp only
  have a := noted_emptied h
  generalize s.emptyBlocked.freeNotices = u at a
  have b : Noted none none (u.withPools (u.pools.map fun _ => [])) := a.hush (.of_table rfl rfl fun _ => rfl)
  have c : Noted none none (u.withPools (u.pools.map fun _ => [])).abandonTagSweeps.restoreList :=
    (noted_abandonTagSweeps b).hush (.of_table rfl rfl fun _ => rfl)
  exact (noted_withSweeps (noted_createSweepDone c _ _ _ _) _).hush (hush_driveLines _)

theorem noted_recover {s : State} (h : Noted none none s) (p : Port) : Noted none none (s.recover p) := by
  unfold State.recover
  split
  · exact noted_comeUp h p _
  · exact h

theorem noted_scrub {l} {s : State} (h : Noted none l s) : Noted none l s.scrub := by
  have a : Noted none l ((s.withScrubber s.scrubber.visited).checkedRead s.scrubber.cursor) :=
    noted_checkedRead (h.hush (.of_table rfl rfl fun _ => rfl : Hush s (s.withScrubber s.scrubber.visited))) _
  unfold State.scrub
  dsimp only
  split
  · exact noted_listFault a
  · exact a

end Sys2Proof.Machine
end

