-- ==== Sys2Proof/Laws/Lines.lean ====
section
/-! SUPPORT. The attention lines stand as their conditions ask: what keeps them so (R110). -/

namespace Sys2Proof.Machine

/-- Every attention line is asserted exactly while its condition holds (R110). -/
def State.Lit (s : State) : Prop := ∀ p : Port, s.links[p].attention = s.attentionDue p

theorem lit_iff (s : State) : s.Lit ↔ ∀ p : Port, s.links[p].attention = true ↔
    ∃ e ∈ s.notices.queues[p], s.marked e = false ∧ s.notices.thresholds[p] ≤ e.urgency := by
  unfold State.Lit
  refine forall_congr' fun p => ?_
  rw [attentionDue_eq, Bool.eq_iff_iff, decide_eq_true_iff]

theorem lit_driveLines (s : State) : s.driveLines.Lit := by
  intro p
  rw [driveLines_links]
  obtain ⟨ls, h⟩ := driveLines_eq s
  rw [h]
  rfl

theorem lit_settle (s : State) : s.settle.Lit := lit_driveLines _

/-! ### Operations that touch no line -/

/-- `t` came from `s` by an operation that changes no queue, no threshold, no mark and no attention line. -/
structure Calm (s t : State) : Prop where
  queues : t.notices.queues = s.notices.queues
  thresholds : t.notices.thresholds = s.notices.thresholds
  attention : ∀ p : Port, t.links[p].attention = s.links[p].attention
  mark : ∀ i, (t.record i).mark = (s.record i).mark

namespace Calm

theorem refl (s : State) : Calm s s := ⟨rfl, rfl, fun _ => rfl, fun _ => rfl⟩

theorem trans {s t u : State} (a : Calm s t) (b : Calm t u) : Calm s u :=
  ⟨b.queues.trans a.queues, b.thresholds.trans a.thresholds, fun p => (b.attention p).trans (a.attention p),
    fun i => (b.mark i).trans (a.mark i)⟩

theorem foldl {α : Type} (f : State → α → State) (h : ∀ s a, Calm s (f s a)) :
    ∀ (l : List α) (s : State), Calm s (l.foldl f s)
  | [], s => refl s
  | a :: l, s => (h s a).trans (foldl f h l (f s a))

/-- The table, the queues, the thresholds and the links are untouched. -/
theorem of_table {s t : State} (h1 : t.table = s.table) (h2 : t.notices.queues = s.notices.queues)
    (h3 : t.notices.thresholds = s.notices.thresholds) (h4 : t.links = s.links) : Calm s t :=
  ⟨h2, h3, fun p => by rw [h4], fun i => by unfold State.record; rw [h1]⟩

end Calm

theorem State.Lit.calm {s t : State} (h : s.Lit) (c : Calm s t) : t.Lit := by
  intro p
  have marked : ∀ e, t.marked e = s.marked e := fun e => by
    unfold State.marked
    split
    · rfl
    · rw [c.mark]
  have due : t.attentionDue p = s.attentionDue p := by
    unfold State.attentionDue State.deliverable
    rw [c.queues, c.thresholds]
    simp only [marked]
  rw [c.attention, due]
  exact h p

theorem calm_modify (s : State) (i : SlotIx) (f : Record → Record) (h : (f (s.record i)).mark = (s.record i).mark) :
    Calm s (s.modify i f) :=
  ⟨rfl, rfl, fun _ => rfl, fun j => by
    by_cases e : j = i
    · subst e; rw [State.record_modify_self]; exact h
    · rw [State.record_modify_other _ _ _ _ e]⟩

theorem calm_modifyLink (s : State) (p : Port) (f : Link → Link) (h : ∀ l, (f l).attention = l.attention) :
    Calm s (s.modifyLink p f) := by
  refine ⟨rfl, rfl, fun q => ?_, fun _ => rfl⟩
  by_cases e : q = p
  · subst e
    rw [State.modifyLink_self]
    exact h _
  · rw [State.modifyLink_other _ _ _ _ e]

theorem calm_form (s : State) (p : Port) (f : Frame) : Calm s (s.form p f) := calm_modifyLink s p _ fun _ => rfl

theorem calm_respond (s : State) (p : Port) (r : Result) (b : List Octet) : Calm s (s.respond p r b) := by
  unfold State.respond
  split
  · exact .refl s
  · exact calm_modifyLink s p _ fun _ => rfl

theorem calm_reportRebuild (s : State) : Calm s s.reportRebuild := by
  unfold State.reportRebuild
  split
  · exact .of_table rfl rfl rfl rfl
  · exact .refl s

theorem calm_unqueue (s : State) (i : SlotIx) : Calm s (s.unqueue i) :=
  Calm.trans (t := s.removeQueued i) (.of_table rfl rfl rfl rfl) (calm_reportRebuild _)

theorem calm_leaveTiming (s : State) (i : SlotIx) : Calm s (s.leaveTiming i) := by
  rw [leaveTiming_eq]
  exact .of_table rfl rfl rfl rfl

theorem calm_setSched (s : State) (i : SlotIx) (x : Sched) : Calm s (s.setSched i x) := calm_modify s i _ rfl

theorem calm_setDeadline (s : State) (i : SlotIx) (d : Tick) : Calm s (s.setDeadline i d) := calm_modify s i _ rfl

theorem calm_enqueue (s : State) (i : SlotIx) : Calm s (s.enqueue i) :=
  Calm.trans (t := s.withPlacement { s.placement with queue := s.placement.queue ++ [i] })
    (.of_table rfl rfl rfl rfl) (calm_setSched _ i _)

theorem calm_armRecord (s : State) (i : SlotIx) (d : Tick) : Calm s (s.armRecord i d) := by
  unfold State.armRecord
  split
  · exact calm_setDeadline s i d
  · have a : Calm s (s.unlist i) := .of_table rfl rfl rfl rfl
    exact (a.trans (calm_setDeadline _ i d)).trans (calm_enqueue _ i)
  · exact (calm_setDeadline s i d).trans (calm_enqueue _ i)

theorem calm_disarm (s : State) (i : SlotIx) : Calm s (s.disarm i) :=
  (calm_leaveTiming s i).trans (calm_modify _ i _ rfl)

theorem calm_startRebuild (s : State) (l m : List SlotIx) (after : ListState × Nat) :
    Calm s ((s.queueAll l).startRebuild m after) :=
  Calm.trans (Calm.foldl (fun t i => t.setSched i .queued) (fun t i => calm_setSched t i _) l s)
    (.of_table rfl rfl rfl rfl)

theorem calm_putDown (s : State) (c : Carried) : Calm s (s.putDown c) := by
  refine ⟨rfl, rfl, fun p => ?_, fun _ => rfl⟩
  unfold State.putDown State.releaseHeldOn
  simp [State.withPlacement]

theorem calm_endPlacement (s : State) (c : Carried) : Calm s (s.endPlacement c) := by
  unfold State.endPlacement
  dsimp only
  refine Calm.trans (Calm.trans ?_ (calm_putDown _ c)) (calm_reportRebuild _)
  split
  · split
    · exact calm_setSched s _ _
    · split
      · unfold State.returnOvertaken
        dsimp only
        generalize hb : ({ s.placement with queue := _, rebuildPart := _ } : PlacementUnit) = b
        exact Calm.trans (t := s.withPlacement b) (.of_table rfl rfl rfl rfl) (calm_setSched _ _ _)
      · unfold State.insertArmed
        generalize hb : ({ s.expiry with list := _ } : Expiry) = b
        exact Calm.trans (t := s.withExpiry b) (.of_table rfl rfl rfl rfl) (calm_setSched _ _ _)
  · exact .refl s

/-! ### Reads -/

/-- The record is DAMAGED and its identity is lost. -/
def Record.Nameless (r : Record) : Prop := r.sched = .damaged ∧ r.fault = some .identity

/-- `t` came from `s` by reads: a mark goes only with the identity of its record. -/
structure Fades (s t : State) : Prop where
  keeps : ∀ i, (s.record i).Nameless → (t.record i).Nameless ∧ (t.record i).mark = (s.record i).mark
  mark : ∀ i, (t.record i).mark = (s.record i).mark ∨ (t.record i).Nameless
  attention : ∀ p : Port, t.links[p].attention = s.links[p].attention
  thresholds : t.notices.thresholds = s.notices.thresholds

namespace Fades

theorem refl (s : State) : Fades s s := ⟨fun _ h => ⟨h, rfl⟩, fun _ => .inl rfl, fun _ => rfl, rfl⟩

theorem trans {s t u : State} (a : Fades s t) (b : Fades t u) : Fades s u where
  keeps i h := ⟨(b.keeps i (a.keeps i h).1).1, (b.keeps i (a.keeps i h).1).2.trans (a.keeps i h).2⟩
  mark i := by
    rcases a.mark i with x | x
    · exact (b.mark i).imp_left fun y => y.trans x
    · exact .inr (b.keeps i x).1
  attention p := (b.attention p).trans (a.attention p)
  thresholds := b.thresholds.trans a.thresholds

end Fades

/-- The lines need no new look when reads have left the notice unit as it was. -/
theorem lit_settleSince {s t : State} (hs : Noted none none s) (ht : Noted none none t) (f : Fades s t)
    (h : s.Lit) : (t.settleSince s).Lit := by
  unfold State.settleSince
  split
  · rename_i same
    intro p
    have marked : ∀ e ∈ s.notices.queues[p], t.marked e = s.marked e := by
      intro e he
      unfold State.marked
      split
      · rfl
      · rename_i i hi
        rcases f.mark i with x | x
        · rw [x]
        · have he' : e ∈ t.listAt (.queued p) := by
            show e ∈ t.notices.queues[p]
            rw [same]
            exact he
          have kind := ht.converted _ e he' i hi rfl x.1
          have part := (ht.faults e (mem_entries.mpr ⟨_, he'⟩) i kind hi).2
          have old := hs.faults e (mem_entries.mpr ⟨.queued p, he⟩) i kind hi
          rw [(f.keeps i ⟨old.1, by rw [← old.2, part]; exact x.2⟩).2]
    rw [f.attention, h p]
    unfold State.attentionDue State.deliverable
    rw [same, Bool.eq_iff_iff, List.any_eq_true, List.any_eq_true]
    constructor
    · rintro ⟨e, he, x⟩
      exact ⟨e, he, by rw [marked e he]; exact x⟩
    · rintro ⟨e, he, x⟩
      exact ⟨e, he, by rw [marked e he] at x; exact x⟩
  · exact lit_settle t

/-- What reads may do to one record's mark. -/
def Fade (r q : Record) : Prop :=
  (r.Nameless → q.Nameless ∧ q.mark = r.mark) ∧ (q.mark = r.mark ∨ q.Nameless)

theorem Fade.refl (r : Record) : Fade r r := ⟨fun h => ⟨h, rfl⟩, .inl rfl⟩

theorem Fade.trans {a b c : Record} (x : Fade a b) (y : Fade b c) : Fade a c :=
  ⟨fun h => ⟨(y.1 (x.1 h).1).1, (y.1 (x.1 h).1).2.trans (x.1 h).2⟩,
    x.2.elim (fun e => y.2.imp_left fun f => f.trans e) fun n => .inr (y.1 n).1⟩

/-- A change that keeps the schedule state, the fault part and the mark. -/
theorem Fade.of_eq {r q : Record} (h1 : q.sched = r.sched) (h2 : q.fault = r.fault) (h3 : q.mark = r.mark) :
    Fade r q := ⟨fun h => ⟨⟨h1.trans h.1, h2.trans h.2⟩, h3⟩, .inl h3⟩

/-- No FREE slot is marked. -/
def State.FreeUnmarked (s : State) : Prop := ∀ i, (s.record i).sched = .free → (s.record i).mark = none

/-- An operation by which a mark goes only with the identity of its record. -/
def Marks (s t : State) : Prop :=
  s.FreeUnmarked → t.FreeUnmarked ∧ ∀ i, Fade (s.record i) (t.record i)

namespace Marks

theorem refl (s : State) : Marks s s := fun h => ⟨h, fun _ => .refl _⟩

theorem trans {s t u : State} (a : Marks s t) (b : Marks t u) : Marks s u := fun h =>
  ⟨(b (a h).1).1, fun i => ((a h).2 i).trans ((b (a h).1).2 i)⟩

theorem of_records {s t : State} (h : ∀ i, t.record i = s.record i) : Marks s t := fun f =>
  ⟨fun i hi => by rw [h] at hi ⊢; exact f i hi, fun i => by rw [h]; exact .refl _⟩

/-- The operation changes one record. -/
theorem of_one {s t : State} {i : SlotIx} (h : s.SameBut t i)
    (h1 : ((s.record i).sched = .free → (s.record i).mark = none) →
      ((t.record i).sched = .free → (t.record i).mark = none) ∧ Fade (s.record i) (t.record i)) : Marks s t := fun f =>
  ⟨fun j hj => by
    by_cases e : j = i
    · subst e; exact (h1 (f j)).1 hj
    · rw [h j e] at hj ⊢; exact f j hj,
  fun j => by
    by_cases e : j = i
    · subst e; exact (h1 (f j)).2
    · rw [h j e]; exact .refl _⟩

end Marks

theorem marks_modify (s : State) (i : SlotIx) (f : Record → Record) (h1 : (f (s.record i)).sched = (s.record i).sched)
    (h2 : (f (s.record i)).fault = (s.record i).fault) (h3 : (f (s.record i)).mark = (s.record i).mark) :
    Marks s (s.modify i f) :=
  .of_one (only_modify s i f) fun hf => by
    rw [State.record_modify_self]
    exact ⟨fun e => by rw [h1] at e; rw [h3]; exact hf e, .of_eq h1 h2 h3⟩

theorem marks_loseNotice (s : State) (i : SlotIx) : Marks s (s.loseNotice i) :=
  (marks_modify s i _ rfl rfl rfl).trans (marks_modify _ i _ rfl rfl rfl)

theorem marks_create (s : State) (i : SlotIx) (n : Nat) (e : Entry) : Marks s (s.create i n e) := by
  have a : Marks s s.advanceStamp := .of_records fun _ => rfl
  have b := marks_modify s.advanceStamp i
    (fun r => { r with notice := .pending, holder := none, overrun := 0 }) rfl rfl rfl
  exact (a.trans b).trans (.of_records (moved_place _ _).record)

theorem marks_createFault (s : State) (i : SlotIx) (n : Nat) (delayed : Bool) :
    Marks s (s.createFault i n delayed) :=
  (marks_create s i n (s.faultEntry i (s.record i) delayed)).trans (.of_records fun _ => rfl)

theorem marks_block (s : State) (i : SlotIx) (kept : Kept) : Marks s (s.block i kept) :=
  Marks.trans (t := s.withNotices { s.notices with blocked := s.notices.blocked ++ [⟨i, kept⟩] })
    (.of_records fun _ => rfl) (marks_modify _ i _ rfl rfl rfl)

theorem marks_raiseFault (s : State) (i : SlotIx) : Marks s (s.raiseFault i) := by
  unfold State.raiseFault
  dsimp only
  split
  · split
    · exact marks_block s i _
    · exact marks_createFault s i _ false
  · exact marks_loseNotice s i

theorem marks_repairIdentity (s : State) (i : SlotIx) : Marks s (s.repairIdentity i) := by
  unfold State.repairIdentity
  dsimp only
  split
  · exact .refl s
  · exact (marks_modify s i (fun _ => { s.record i with copyA := .passing, copyB := .passing }) rfl rfl rfl).trans
      (.of_records fun _ => rfl)

theorem marks_repairTiming (s : State) (i : SlotIx) : Marks s (s.repairTiming i) := by
  unfold State.repairTiming
  dsimp only
  split
  · exact (marks_modify s i (fun _ => { s.record i with timingCheck := .passing }) rfl rfl rfl).trans
      (.of_records fun _ => rfl)
  · exact .refl s

theorem marks_declareDamaged (s : State) (i : SlotIx) (part : FaultPart) (h : (s.record i).sched ≠ .damaged) :
    Marks s (s.declareDamaged i part) := by
  refine .of_one (only_declareDamaged s i part) fun _ => ?_
  cases part
  · rw [declareTiming_record]
    exact ⟨nofun, fun n => absurd n.1 h, .inl rfl⟩
  · rw [declareIdentity_record]
    exact ⟨nofun, fun n => absurd n.1 h, .inr ⟨rfl, rfl⟩⟩

theorem marks_declareIdentityLost (s : State) (i : SlotIx) (h : (s.record i).sched = .damaged)
    (hf : (s.record i).fault ≠ some .identity) : Marks s (s.declareIdentityLost i) := by
  refine .of_one (only_declareIdentityLost s i) fun _ => ?_
  rw [declareIdentityLost_record]
  exact ⟨fun _ => rfl, fun n => absurd n.2 hf, .inr ⟨h, rfl⟩⟩

/-- The record of a slot after its identity part is repaired keeps its schedule state. -/
theorem repaired_sched (s : State) (i : SlotIx) :
    ((s.repairIdentity i).record i).sched = (s.record i).sched
      ∧ ((s.repairTiming i).record i).sched = (s.record i).sched :=
  ⟨(quiet_repairIdentity s i).sched i, (quiet_repairTiming s i).sched i⟩

theorem marks_readWith (s : State) (i : SlotIx) (damage : State → FaultPart → State) (escalate : State → State)
    (hd : ∀ (t : State) part, (t.record i).sched ≠ .damaged → Marks t (damage t part))
    (he : ∀ t : State, (t.record i).sched = .damaged → (t.record i).fault ≠ some .identity → Marks t (escalate t)) :
    Marks s (s.readWith i damage escalate) := by
  have a := marks_repairIdentity s i
  have b := marks_repairTiming s i
  have r := repaired_sched s i
  unfold State.readWith
  dsimp only
  split
  · rename_i hf
    split
    · refine Marks.trans (t := s.setRecord i Record.blank) (.of_one (only_setRecord s i _) fun h => ?_)
        (.of_records fun _ => rfl)
      rw [State.record_setRecord_self]
      exact ⟨fun _ => rfl, fun n => absurd (hf.symm.trans n.1) (by decide), .inl (h hf).symm⟩
    · exact a
  · split
    · exact .refl s
    · exact b
  · rename_i hs hf
    split
    · exact he s hs hf
    · exact a
  · rename_i hs _
    split
    · exact b.trans (hd _ _ (by rw [r.2]; exact hs))
    · split
      · exact a.trans (hd _ _ (by rw [r.1]; exact hs))
      · exact a.trans (marks_repairTiming _ i)

theorem marks_takeBlocked (s : State) (i : SlotIx) : Marks s (s.takeBlocked i) :=
  Marks.trans (t := s.readWith i (fun t part => t.declareDamaged i part) fun t => t.declareIdentityLost i)
    (marks_readWith s i _ _ (fun t part => marks_declareDamaged t i part) (fun t => marks_declareIdentityLost t i))
    (.of_records fun _ => rfl)

theorem marks_serveBlockedFrom (n : Nat) : ∀ (l : List BlockedPlace) (s : State), Marks s (serveBlockedFrom n l s)
  | [], s => .refl s
  | b :: rest, s => by
    have h0 := marks_takeBlocked s b.slot
    have skipped := (h0.trans (marks_modify _ b.slot (fun r => { r with notice := .clear, holder := none })
      rfl rfl rfl)).trans (marks_serveBlockedFrom n rest _)
    have lost := (h0.trans (marks_loseNotice _ b.slot)).trans (marks_serveBlockedFrom n rest _)
    rw [serveBlockedFrom_cons n b rest _ s rfl]
    dsimp only
    split
    · exact skipped
    · split
      · split
        · exact h0.trans (marks_createFault _ _ _ _)
        · exact lost
      · split
        · split
          · exact h0.trans (marks_create _ _ _ _)
          · exact skipped
        · exact lost

theorem marks_serveBlocked (s : State) : Marks s s.serveBlocked := by
  unfold State.serveBlocked
  split
  · exact .refl s
  · exact marks_serveBlockedFrom _ _ s

theorem marks_moveToFaultPort (s : State) (i : SlotIx) (place : EntryPlace) (e e' : Entry) (p : Port) :
    Marks s (s.moveToFaultPort i place e e' p) := by
  have d : Marks s (s.dropEntry place e) := .of_records (moved_dropEntry s place e).record
  unfold State.moveToFaultPort
  split
  · exact d.trans (.of_records (moved_modifyQueue _ p _).record)
  · exact (d.trans (marks_loseNotice _ i)).trans (marks_serveBlocked _)

theorem marks_readSlot (s : State) (i : SlotIx) : Marks s (s.readSlot i) := by
  refine marks_readWith s i _ _ (fun t part h => ?_) fun t h hf => ?_
  · unfold State.damage State.treatNotice
    refine (marks_declareDamaged t i part h).trans ?_
    dsimp only
    split
    · exact marks_raiseFault _ i
    · exact marks_moveToFaultPort _ i _ _ _ _
    · exact .refl _
  · unfold State.escalate
    refine (marks_declareIdentityLost t i h hf).trans ?_
    dsimp only
    split
    · exact marks_raiseFault _ i
    · exact marks_moveToFaultPort _ i _ _ _ _
    · exact .refl _

theorem Fades.of {s t : State} (m : Marks s t) (a : t.links = s.links)
    (c : t.notices.thresholds = s.notices.thresholds) (hs : s.SlotsTied) : Fades s t := by
  have h := (m fun i hi => (hs.2.2 i hi).2).2
  exact ⟨fun i n => (h i).1 n, fun i => (h i).2, fun p => by rw [a], c⟩

theorem fades_readSlot {s : State} (h : s.SlotsTied) (i : SlotIx) : Fades s (s.readSlot i) :=
  .of (marks_readSlot s i) (aside_readSlot s i).links (confined_readSlot s i).thresholds h

theorem fades_readSlots (l : List SlotIx) : ∀ {s : State}, Tied none s → Fades s (s.readSlots l) := by
  induction l with
  | nil => exact fun _ => .refl _
  | cons i l ih => exact fun h => (fades_readSlot h.slots i).trans (ih (tied_readSlot h i))

theorem fades_walkFrom (due : Nat) : ∀ (l : List SlotIx) {s : State}, Tied none s → Fades s (walkFrom due l s).1
  | [], s, _ => .refl s
  | j :: l, s, h => by
    have a := fades_readSlot h.slots j
    have h1 := tied_readSlot h j
    unfold walkFrom
    dsimp only
    split
    · exact a.trans (fades_walkFrom due l h1)
    · split
      · exact a
      · split
        · exact a.trans (fades_walkFrom due l h1)
        · exact a

/-! ### Whole states -/

/-- Every block of the state follows the records, and the lines are lit as their conditions ask. -/
structure Whole (s : State) : Prop where
  tied : Tied none s
  noted : Noted none none s
  lit : s.Lit

/-- The notice store and the blocked list follow the records, and each entry lies where it may. -/
theorem noted_iff (s : State) : Noted none none s ↔ s.NoticesTied
    ∧ (∀ p : Port, ∀ e ∈ s.notices.queues[p] ++ s.notices.outstanding[p],
      s.links[p].state = .up ∧ ∀ q, e.destination = .port q → q = p)
    ∧ ∀ k : Pool, ∀ e ∈ s.notices.holding[k], e.destination = .pool k := by
  constructor
  · intro h
    have once := List.nodup_append'.mp h.once
    refine ⟨⟨once.1, fun i => ⟨fun hi => (h.waits i hi).2.1, fun hi => (h.of_waiting hi).1⟩, h.numbers, once.2.1,
      fun i => ⟨fun hi => ?_, ?_⟩, fun i p => ⟨?_, ?_⟩, fun i => ⟨fun hi => ?_, fun hi => ?_⟩, h.kinds,
      fun p e he => h.stays (.outstanding p) e he rfl, h.faults, fun i hi =>
        ⟨fun p e he hs => h.converted (.queued p) e he i hs rfl hi,
          fun k e he hs => h.converted (.holding k) e he i hs rfl hi⟩, fun i => h.free i (by simp)⟩, ?_, ?_⟩
    · obtain ⟨pl, e, he, hs, hst⟩ := h.of_entry (i := i) (by rw [hi]; decide) (by rw [hi]; decide)
      rw [hi] at hst
      cases pl with
      | queued p => exact .inl ⟨p, e, he, hs⟩
      | outstanding p => cases hst
      | holding k => exact .inr ⟨k, e, he, hs⟩
    · rintro (⟨p, e, he, hs⟩ | ⟨k, e, he, hs⟩)
      · exact congrArg Prod.fst (h.listed (.queued p) e he i hs).2
      · exact congrArg Prod.fst (h.listed (.holding k) e he i hs).2
    · rintro ⟨e, he, hs⟩
      have := (h.listed (.outstanding p) e he i hs).2
      exact ⟨congrArg Prod.fst this, congrArg Prod.snd this⟩
    · rintro ⟨h1, h2⟩
      obtain ⟨e, _, he, hs⟩ := h.outstanding_found h1 h2
      exact ⟨e, he, hs⟩
    · obtain ⟨pl, e, he, hs, hst⟩ := h.of_entry (i := i) (by rw [hi]; decide) (by rw [hi]; decide)
      cases pl with
      | queued p => rw [hi] at hst; cases hst
      | outstanding p => exact fun hn => nomatch hn.symm.trans (congrArg Prod.snd hst)
      | holding k => rw [hi] at hst; cases hst
    · by_cases hw : i ∈ s.waiting
      · exact absurd (h.waits i hw).2.2 hi
      · by_contra hn
        refine hi (h.clear i (by simp) hw fun e he hs => ?_).2
        obtain ⟨pl, hp⟩ := mem_entries.mp he
        have hst := (h.listed pl e hp i hs).2
        cases pl with
        | queued p => exact hi (congrArg Prod.snd hst)
        | outstanding p => exact hn (congrArg Prod.fst hst)
        | holding k => exact hi (congrArg Prod.snd hst)
    · intro p e he
      have home : (s.isUp p = true ∨ none = some p) ∧ ∀ q, e.destination = .port q → q = p := by
        rcases List.mem_append.mp he with he | he
        · exact h.homes (.queued p) e he
        · exact h.homes (.outstanding p) e he
      exact ⟨of_decide_eq_true (home.1.resolve_right nofun), home.2⟩
    · exact fun k e he => h.homes (.holding k) e he
  · rintro ⟨⟨a, b, c, d, e, f, g, j, m, n, o, q⟩, homes, pools⟩
    have other : ∀ i x, (s.record i).notice = x → x ≠ .outstanding → (s.record i).holder = none := by
      intro i x hx hne
      by_contra hn
      exact hne (hx.symm.trans ((g i).mpr hn))
    have listed : ∀ pl, ∀ e ∈ s.listAt pl, ∀ i, e.slot = some i →
        ((s.record i).notice, (s.record i).holder) = pl.standing := by
      intro pl x hx i hs
      cases pl with
      | queued p =>
        have := (e i).mpr (.inl ⟨p, x, hx, hs⟩)
        rw [this, other i _ this (by decide)]
        rfl
      | outstanding p =>
        have := (f i p).mp ⟨x, hx, hs⟩
        rw [this.1, this.2]
        rfl
      | holding k =>
        have := (e i).mpr (.inr ⟨k, x, hx, hs⟩)
        rw [this, other i _ this (by decide)]
        rfl
    exact {
      once := List.nodup_append'.mpr ⟨a, d, fun i h1 h2 => by
        obtain ⟨x, hx, hs⟩ := List.mem_filterMap.mp h2
        obtain ⟨pl, hp⟩ := mem_entries.mp hx
        have := congrArg Prod.fst (listed pl x hp i hs)
        rw [show ((s.record i).notice, (s.record i).holder).1 = .waiting from (b i).mp h1] at this
        cases pl <;> cases this⟩
      numbers := c
      listed := fun pl x hx i hs => ⟨by simp, listed pl x hx i hs⟩
      waits := fun i hi => ⟨by simp, (b i).mp hi, other i _ ((b i).mp hi) (by decide)⟩
      clear := fun i _ h1 h2 => by
        have clear : (s.record i).notice = .clear := by
          cases hx : (s.record i).notice with
          | clear => rfl
          | waiting => exact absurd ((b i).mpr hx) h1
          | pending =>
            rcases (e i).mp hx with ⟨p, x, hm, hs⟩ | ⟨k, x, hm, hs⟩
            · exact absurd hs (h2 x (mem_entries.mpr ⟨.queued p, hm⟩))
            · exact absurd hs (h2 x (mem_entries.mpr ⟨.holding k, hm⟩))
          | outstanding =>
            obtain ⟨p, hp⟩ := Option.ne_none_iff_exists'.mp ((g i).mp hx)
            obtain ⟨x, hm, hs⟩ := (f i p).mpr ⟨hx, hp⟩
            exact absurd hs (h2 x (mem_entries.mpr ⟨.outstanding p, hm⟩))
        exact ⟨clear, other i _ clear (by decide)⟩
      kinds := j
      faults := n
      converted := fun pl x hx i hs hp hd => by
        cases pl with
        | queued p => exact (o i hd).1 p x hx hs
        | outstanding p => cases hp
        | holding k => exact (o i hd).2 k x hx hs
      free := fun i _ => q i
      stays := fun pl x hx hp => by
        cases pl with
        | outstanding p => exact m p x hx
        | queued p => cases hp
        | holding k => cases hp
      homes := fun pl x hx => by
        cases pl with
        | queued p =>
          have := homes p x (List.mem_append.mpr (.inl hx))
          exact ⟨.inl (decide_eq_true this.1), this.2⟩
        | outstanding p =>
          have := homes p x (List.mem_append.mpr (.inr hx))
          exact ⟨.inl (decide_eq_true this.1), this.2⟩
        | holding k => exact pools k x hx }

theorem whole_iff (s : State) :
    Whole s ↔ s.table.wf ∧ s.QueueTied ∧ s.ListTied ∧ s.SlotsTied ∧ s.NoticesTied ∧ s.LinesTied := by
  constructor
  · intro h
    obtain ⟨a, b, c, d⟩ := (tied_iff s).mp h.tied
    obtain ⟨e, f, g⟩ := (noted_iff s).mp h.noted
    exact ⟨a, b, c, d, e, f, g, (lit_iff s).mp h.lit⟩
  · rintro ⟨a, b, c, d, e, f, g, l⟩
    exact ⟨(tied_iff s).mpr ⟨a, b, c, d⟩, (noted_iff s).mpr ⟨e, f, g⟩, (lit_iff s).mpr l⟩

/-- A state with the same table, placement unit, list, notice unit and links. -/
theorem Whole.same {s t : State} (h : Whole s) (h1 : t.table = s.table) (h2 : t.placement = s.placement)
    (h3 : t.expiry = s.expiry) (h4 : t.notices = s.notices) (h5 : t.links = s.links) : Whole t :=
  ⟨h.tied.quiet (.of_table h1 h2 h3), h.noted.hush (.of_table h1 h4 fun _ => by rw [h5]),
    h.lit.calm (.of_table h1 (by rw [h4]) (by rw [h4]) h5)⟩

theorem whole_checkedRead {s : State} (h : Whole s) (i : SlotIx) : Whole (s.checkedRead i) :=
  ⟨tied_checkedRead h.tied i, noted_checkedRead h.noted i,
    lit_settleSince h.noted (noted_readSlot h.noted i) (fades_readSlot h.tied.slots i) h.lit⟩

theorem whole_tested {s : State} (h : Whole s) (pl : List Octet) : Whole (s.tested pl) := by
  unfold State.tested
  split
  · exact h
  · exact whole_checkedRead h _

theorem whole_readAll {s : State} (h : Whole s) (l : List SlotIx) : Whole (s.readAll l) :=
  ⟨tied_settleSince (tied_readSlots l h.tied), noted_settleSince (noted_readSlots l h.noted),
    lit_settleSince h.noted (noted_readSlots l h.noted) (fades_readSlots l h.tied) h.lit⟩

theorem whole_listFault {s : State} (h : Whole s) : Whole s.listFault :=
  ⟨tied_listFault h.tied, noted_listFault h.noted,
    ((whole_readAll h s.armedSlots).lit.calm (calm_startRebuild _ _ _ s.expiry.afterFault)).calm
      (calm_reportRebuild _)⟩

theorem whole_endPlacement {s : State} (h : Whole s) (c : Carried) (hc : s.placement.carried = some c) :
    Whole (s.endPlacement c) :=
  ⟨tied_endPlacement h.tied c hc, h.noted.hush (hush_endPlacement s c), h.lit.calm (calm_endPlacement s c)⟩

theorem whole_endCarried {s : State} (h : Whole s) : Whole s.endCarried := by
  unfold State.endCarried
  split
  · exact h
  · rename_i c hc
    exact whole_endPlacement (whole_checkedRead h c.slot) c (by rw [checkedRead_carried s]; exact hc)

theorem whole_placementReads {s : State} (h : Whole s) (c : Carried) : Whole (s.placementReads c).1 := by
  refine ⟨tied_placementReads h.tied c, noted_placementReads h.noted c, ?_⟩
  have h1 := noted_readSlot h.noted c.slot
  have f1 := fades_readSlot h.tied.slots c.slot
  unfold State.placementReads
  dsimp only
  split
  · exact lit_settleSince h.noted (noted_walkFrom _ _ h1)
      (f1.trans (fades_walkFrom _ _ (tied_readSlot h.tied c.slot))) h.lit
  · exact lit_settleSince h.noted h1 f1 h.lit

theorem whole_takeHead {s : State} (h : Whole s) (i : SlotIx) (hc : s.placement.carried = none)
    (hf : s.expiry.listState ≠ .failed) : Whole (s.takeHead i) := by
  refine ⟨tied_takeHead h.tied i hc hf, noted_takeHead h.noted i, ?_⟩
  have l := (whole_checkedRead h i).lit
  unfold State.takeHead
  dsimp only
  split
  · split
    · exact l.calm ((calm_unqueue _ i).trans (calm_setSched _ i _))
    · unfold State.carry
      generalize hb : ({ ((s.checkedRead i).removeQueued i).placement with carried := _ } : PlacementUnit) = b
      exact l.calm (Calm.trans (t := ((s.checkedRead i).removeQueued i).withPlacement b)
        (.of_table rfl rfl rfl rfl) (calm_setSched _ i _))
  · exact l

/-! ### Firings -/

theorem noted_beginSearch {l} {s : State} (h : Noted none l s) (i : SlotIx) (r : Record) :
    Noted none l (s.beginSearch i r) := h.hush (.of_table rfl rfl fun _ => rfl)

theorem noted_setSearch {l} {s : State} (h : Noted none l s) (f : Option Firing) : Noted none l (s.setSearch f) :=
  h.hush (.of_table rfl rfl fun _ => rfl)

theorem whole_fireHead {s : State} (h : Whole s) (i : SlotIx) (ht : Tied none (s.fireHead i))
    (ha : (s.record i).sched = .armed) : Whole (s.fireHead i) :=
  ⟨ht, (noted_beginSearch (noted_fire h.noted ha false) i (s.record i)).hush (hush_driveLines _), lit_driveLines _⟩

theorem whole_consider {s : State} (h : Whole s) (i : SlotIx) : Whole (s.consider i) := by
  refine ⟨tied_consider h.tied i, ?_, ?_⟩
  · have n := (whole_checkedRead h i).noted
    unfold State.consider
    dsimp only
    split
    · exact n
    · split
      · rename_i hcomp
        have ha : ((s.checkedRead i).record i).sched = .armed := by
          unfold State.isCompanion at hcomp
          simp only [Bool.and_eq_true, decide_eq_true_eq] at hcomp
          exact hcomp.1.1.1.1.1.1.1
        exact (noted_setSearch (noted_fire (noted_setSearch n none) ha true) _).hush (hush_driveLines _)
      · exact noted_setSearch n _
  · have l := (whole_checkedRead h i).lit
    unfold State.consider
    dsimp only
    split
    · exact l
    · split
      · exact lit_driveLines _
      · exact l.calm (.of_table rfl rfl rfl rfl)

/-! ### Sweeps and links -/

theorem whole_withSweeps {s : State} (h : Whole s) (b : SweepUnit) : Whole (s.withSweeps b) :=
  ⟨tied_withSweeps h.tied b, noted_withSweeps h.noted b, h.lit.calm (.of_table rfl rfl rfl rfl)⟩

theorem lit_takeSweep {s : State} (h : s.Lit) : s.takeSweep.Lit := by
  unfold State.takeSweep
  split
  · exact h
  · split
    · exact lit_driveLines _
    · exact lit_driveLines _
    · exact h

theorem whole_takeSweep {s : State} (h : Whole s) : Whole s.takeSweep :=
  ⟨tied_takeSweep h.tied, noted_takeSweep h.noted, lit_takeSweep h.lit⟩

theorem whole_queueSweep {s : State} (h : Whole s) (k : SweepKind) : Whole (s.queueSweep k) :=
  whole_takeSweep (whole_withSweeps h _)

theorem whole_queuePortSweep {s : State} (h : Whole s) (p : Port) : Whole (s.queuePortSweep p) := by
  unfold State.queuePortSweep
  split
  · exact h
  · exact whole_queueSweep h _

theorem whole_visit {s : State} (h : Whole s) (run : SweepRun) (i : SlotIx) : Whole (s.visit run i) := by
  refine ⟨tied_visit h.tied run i, noted_visit h.noted run i, ?_⟩
  have f := fades_readSlot h.tied.slots i
  have n := noted_readSlot h.noted i
  unfold State.visit
  dsimp only
  generalize run.sweep.retires ((s.readSlot i).record i) = b
  cases b
  · exact (lit_settleSince h.noted n f h.lit).calm (.of_table rfl rfl rfl rfl)
  · have l : ((s.readSlot i).retire i).Lit := lit_settle _
    generalize (s.readSlot i).retire i = u at l
    exact l.calm (.of_table rfl rfl rfl rfl)

theorem whole_endTotal {s : State} (h : Whole s) (run : SweepRun) : Whole (s.endTotal run) :=
  ⟨tied_endTotal h.tied run, noted_endTotal h.noted run, lit_driveLines _⟩

theorem whole_comeUp {s : State} (h : Whole s) (p : Port) (window : Nat) : Whole (s.comeUp p window) :=
  ⟨h.tied.quiet (quiet_comeUp s p window), noted_comeUp h.noted p window, lit_settle _⟩

theorem whole_recover {s : State} (h : Whole s) (p : Port) : Whole (s.recover p) := by
  unfold State.recover
  split
  · exact whole_comeUp h p _
  · exact h

theorem whole_scrub {s : State} (h : Whole s) : Whole s.scrub := by
  have h0 : Whole (s.withScrubber s.scrubber.visited) :=
    ⟨h.tied.quiet (.of_table rfl rfl rfl), h.noted.hush (.of_table rfl rfl fun _ => rfl),
      h.lit.calm (.of_table rfl rfl rfl rfl)⟩
  have a := whole_checkedRead h0 s.scrubber.cursor
  unfold State.scrub
  dsimp only
  split
  · exact whole_listFault a
  · exact a

/-- A port's own items change, its link state and its attention line apart. -/
theorem whole_modifyLink {s : State} (h : Whole s) (p : Port) (f : Link → Link) (h1 : ∀ l, (f l).state = l.state)
    (h2 : ∀ l, (f l).attention = l.attention) : Whole (s.modifyLink p f) :=
  ⟨tied_modifyLink h.tied p f, h.noted.hush (hush_modifyLink s p f h1), h.lit.calm (calm_modifyLink s p f h2)⟩

theorem whole_form {s : State} (h : Whole s) (p : Port) (f : Frame) : Whole (s.form p f) :=
  whole_modifyLink h p _ (fun _ => rfl) fun _ => rfl

/-- A port that is not UP changes its link state. -/
theorem whole_relink {s : State} {p : Port} (h : Whole s) (hu : s.links[p].state ≠ .up) (f : Link → Link)
    (h2 : ∀ l, (f l).attention = l.attention) : Whole (s.modifyLink p f) :=
  ⟨tied_modifyLink h.tied p f, noted_relink h.noted (decide_eq_false hu) f, h.lit.calm (calm_modifyLink s p f h2)⟩

theorem whole_leaveUp {s : State} (h : Whole s) (p : Port) (x : LinkState) (hx : x ≠ .up) (kept : List Outgoing) :
    Whole (s.leaveUp p x kept) :=
  ⟨tied_leaveUp h.tied p x kept, noted_leaveUp h.noted p x hx kept, lit_settle _⟩

theorem whole_receiveBad {s : State} (h : Whole s) (p : Port) (reason : RejectReason) :
    Whole (s.receiveBad p reason) := by
  unfold State.receiveBad
  split
  · exact h
  · exact whole_form h p _
  · exact whole_form h p _
  · split
    · refine whole_form ?_ p _
      exact whole_modifyLink h p _ (fun _ => rfl) fun _ => rfl
    · exact whole_form (whole_leaveUp h p _ (by decide) _) p _

theorem whole_openFromDown {s : State} (h : Whole s) (p : Port) (hu : s.links[p].state ≠ .up) (window : Nat) :
    Whole (s.openFromDown p window) := by
  unfold State.openFromDown
  split
  · refine whole_form ?_ p _
    exact whole_relink h hu _ fun _ => rfl
  · exact whole_comeUp h p window

theorem whole_receiveLinkOpen {s : State} (h : Whole s) (p : Port) (window : Nat) :
    Whole (s.receiveLinkOpen p window) := by
  unfold State.receiveLinkOpen
  split
  · exact whole_form h p _
  · rename_i e
    exact whole_openFromDown h p (by rw [e]; decide) window
  · rename_i e
    refine whole_form ?_ p _
    exact whole_relink h (by rw [e]; decide) _ fun _ => rfl
  · refine whole_openFromDown (whole_leaveUp h p _ (by decide) _) p ?_ window
    rw [leaveUp_state_self]
    decide

theorem whole_receiveLinkClose {s : State} (h : Whole s) (p : Port) : Whole (s.receiveLinkClose p) := by
  unfold State.receiveLinkClose
  split
  · exact h
  · exact whole_form h p _
  · rename_i e
    refine whole_form ?_ p _
    exact whole_relink h (by rw [e]; decide) _ fun _ => rfl
  · exact whole_form (whole_leaveUp h p _ (by decide) _) p _

theorem whole_receiveRequest {s : State} (h : Whole s) (p : Port) (seq : SeqNumber) (payload : List Octet) :
    Whole (s.receiveRequest p seq payload) := by
  unfold State.receiveRequest State.sequenceRequest State.formResponse
  split
  · exact h
  · exact whole_form h p _
  · exact whole_form h p _
  · have h1 := whole_modifyLink h p (fun l => { l with badRun := 0 }) (fun _ => rfl) fun _ => rfl
    split
    · exact whole_form h1 p _
    · split
      · split
        · exact whole_modifyLink h1 p _ (fun _ => rfl) fun _ => rfl
        · exact whole_form h1 p _
      · exact whole_form h1 p _

/-! ### Requests and the clock -/

theorem whole_respond {s : State} (h : Whole s) (p : Port) (r : Result) (b : List Octet) :
    Whole (s.respond p r b) := by
  refine ⟨tied_respond h.tied p r b, h.noted.hush ?_, h.lit.calm (calm_respond s p r b)⟩
  unfold State.respond
  split
  · exact .refl s
  · exact hush_modifyLink s p _ fun _ => rfl

theorem whole_createRecord {s : State} {i : SlotIx} (h : Whole s) (hs : (s.record i).sched = .free) (p : Port)
    (f : OpenFields) : Whole (s.createRecord p i f) := by
  have self : (s.createRecord p i f).record i = f.record p (s.record i).generation := State.record_setRecord_self s i _
  have other : ∀ j, j ≠ i → (s.createRecord p i f).record j = s.record j :=
    fun j hj => State.record_setRecord_other s i j _ hj
  have hc := h.noted.free i (by simp) hs
  refine ⟨tied_createRecord h.tied hs p f, ?_, h.lit.calm ⟨rfl, rfl, fun _ => rfl, fun j => ?_⟩⟩
  · have o : Noted (some i) none (s.createRecord p i f) :=
      (h.noted.opened hc).edited rfl rfl rfl rfl (fun j hj => by rw [other j hj]) fun _ => rfl
    exact o.closed (by rw [self]; rfl) (by rw [self]; rfl)
  · by_cases e : j = i
    · subst e
      rw [self, (h.tied.slots.2.2 j hs).2]
      rfl
    · rw [other j e]

theorem whole_retire {s : State} (ht : Tied none s) (hn : Noted none none s) (i : SlotIx) : Whole (s.retire i) :=
  ⟨tied_retire ht i, noted_retire hn i, lit_settle _⟩

theorem lit_withdraw {s : State} (h : s.Lit) (i : SlotIx) : (s.withdraw i).Lit := by
  unfold State.withdraw
  split
  · exact h
  · exact h
  · exact h.calm (Calm.trans (t := s.unblock i) (.of_table rfl rfl rfl rfl) (calm_modify _ i _ rfl))
  · split
    · exact h
    · exact lit_settle _

theorem lit_deliverAll (s : State) (p : Port) (es : List Entry) (b : Bool) : (s.deliverAll p es b).Lit := by
  unfold State.deliverAll
  dsimp only
  split
  · exact lit_settle _
  · exact lit_driveLines _

theorem lit_giveBack {s : State} (h : s.Lit) (p : Port) (i : SlotIx) : (s.giveBack p i).Lit := by
  unfold State.giveBack
  split
  · exact h
  · dsimp only
    split
    · exact lit_driveLines _
    · exact lit_settle _

theorem whole_setThreshold {s : State} (h : Whole s) (p : Port) (v : Fin 8) : Whole (s.setThreshold p v) := by
  unfold State.setThreshold
  generalize hu : s.withNotices { s.notices with thresholds := s.notices.thresholds.set p.val v p.isLt } = u
  have ht : Tied none u := by rw [← hu]; exact h.tied.quiet (.of_table rfl rfl rfl)
  have hn : Noted none none u := by
    rw [← hu]
    exact h.noted.hush ⟨rfl, rfl, rfl, rfl, fun _ => rfl, fun _ => rfl⟩
  refine ⟨tied_modifyLink ht p _, hn.hush (hush_modifyLink u p _ fun _ => rfl), fun q => ?_⟩
  have due : (u.driveLine p).attentionDue q = u.attentionDue q := rfl
  rw [due]
  unfold State.driveLine
  by_cases e : q = p
  · subst e
    rw [State.modifyLink_self]
  · rw [State.modifyLink_other _ _ _ _ e, ← hu]
    show s.links[q].attention = _
    rw [h.lit q]
    unfold State.attentionDue State.deliverable
    have t : (s.notices.thresholds.set p.val v p.isLt)[q] = s.notices.thresholds[q] := set_port_other _ _ _ _ e
    show _ = s.notices.queues[q].any fun e => !s.marked e
      && decide ((s.notices.thresholds.set p.val v p.isLt)[q] ≤ e.urgency)
    rw [t]

theorem whole_setLimit {s : State} (h : Whole s) (q : Port) (v : Nat) : Whole (s.setLimit q v) := by
  refine ⟨h.tied.quiet (quiet_setLimit s q v), ?_, ?_⟩
  · unfold State.setLimit
    dsimp only
    generalize { s.portTable with limit := s.portTable.limit.set q.val v q.isLt } = b
    have a : Noted none none (s.withPortTable b) := h.noted.hush (.of_table rfl rfl fun _ => rfl)
    split
    · exact noted_settle a
    · exact a
  · unfold State.setLimit
    dsimp only
    generalize { s.portTable with limit := s.portTable.limit.set q.val v q.isLt } = b
    split
    · exact lit_settle _
    · exact h.lit.calm (.of_table rfl rfl rfl rfl)

theorem whole_setEnabled {s : State} (h : Whole s) (q : Port) (b : Bool) : Whole (s.setEnabled q b) :=
  ⟨h.tied.quiet (.of_table rfl rfl rfl), h.noted.hush (.of_table rfl rfl fun _ => rfl),
    h.lit.calm (.of_table rfl rfl rfl rfl)⟩

theorem whole_disable {s : State} (h : Whole s) (q : Port) : Whole (s.disable q) := by
  have off := whole_setEnabled h q false
  unfold State.disable
  split
  · exact h
  · refine whole_form ?_ q _
    exact whole_leaveUp off q _ (by decide) _
  · rename_i e
    refine whole_queuePortSweep ?_ q
    refine whole_relink off ?_ _ fun _ => rfl
    show s.links[q].state ≠ .up
    rw [e]
    decide
  · rename_i e
    refine whole_queuePortSweep ?_ q
    refine whole_relink off ?_ _ fun _ => rfl
    show s.links[q].state ≠ .up
    rw [e]
    decide

theorem whole_enable {s : State} (h : Whole s) (q : Port) : Whole (s.enable q) := by
  unfold State.enable
  split
  · rename_i e
    refine whole_relink (whole_setEnabled h q true) ?_ _ fun _ => rfl
    show s.links[q].state ≠ .up
    rw [e]
    decide
  all_goals exact h

theorem whole_clockPort {s : State} (h : Whole s) (p : Port) : Whole (s.clockPort p) := by
  unfold State.clockPort
  split
  · exact h
  · split
    · exact h
    · split
      · exact whole_modifyLink h p _ (fun _ => rfl) fun _ => rfl
      · unfold State.cutOff
        refine whole_receiveBad ?_ p _
        exact whole_modifyLink h p _ (fun _ => rfl) fun _ => rfl

theorem whole_strike {s : State} (h : Whole s) (u : Upset) : Whole (s.strike u) := by
  refine ⟨tied_strike h.tied u, ?_, ?_⟩
  · unfold State.strike
    split
    · exact h.noted.hush (hush_modify s _ _ rfl)
    · exact h.noted.hush (hush_modify s _ _ rfl)
    · exact h.noted.hush (hush_modify s _ _ rfl)
    · exact h.noted.hush (.of_table rfl rfl fun _ => rfl)
  · unfold State.strike
    split
    · exact h.lit.calm (calm_modify s _ _ rfl)
    · exact h.lit.calm (calm_modify s _ _ rfl)
    · exact h.lit.calm (calm_modify s _ _ rfl)
    · exact h.lit.calm (.of_table rfl rfl rfl rfl)

end Sys2Proof.Machine
end

