-- ==== Sys2Proof/WellFormed.lean ====
section
/-! DEFINITION. Which commands are well formed: a frame row carries no more octets than the longest
frame has after its start octet (Table 12-1), and FRAME_START carries at least one received bit.
Ports and slots are in range by their types. -/

namespace Sys2Proof

/-- The octets after a start octet: header, length, up to 250 of payload, two of check (R176). A frame
whose length octet is above 250 ends at that octet (R153). -/
def frameOctetsWellFormed (octets : List Octet) : Bool :=
  decide (octets.length ≤ Config.payloadMax + 4)

/-- A command that the link or the part can present. Every other command has no operand that could be
out of range. -/
def Instr.wellFormed : Instr → Bool
  | .badFrame _ os | .linkOpen _ os | .linkClose _ os | .requestFrame _ os => frameOctetsWellFormed os
  | .frameStart _ bits => !bits.isEmpty
  | .deviceReset | .tick | .scrubVisit | .listFault _ | .placementTake | .placementEnd => true
  | .firing | .companionFiring | .markedHeadRemoval | .sweepStart | .sweepVisit => true
  | .tagSweepEnd | .portSweepEnd | .totalSweepEnd | .frameCutOff _ | .frameSent _ => true
  | .openRecord _ | .closeRecord _ | .readRecord _ | .setRecord _ | .arm _ | .cancel _ => true
  | .pause _ | .resume _ | .take _ | .ack _ | .release _ | .attentionSet _ | .poolSet _ => true
  | .retireTag _ | .clearAll _ | .timeRead _ | .timeSet _ | .timeRun _ | .timeFreeze _ => true
  | .prescale _ | .scrubSet _ | .quotaSet _ | .portLimitSet _ | .portDisable _ | .portEnable _ => true
  | .handOver _ | .forceClose _ | .status _ | .echo _ | .unknownRequestCode _ => true

end Sys2Proof
end

