-- ==== Sys2Proof/Tests/Slice0.lean ====
section
/-! SUPPORT. The model's own tests: ill-formed commands, one small step of every command, and for every
statement with hypotheses a state and operands that meet them, clause by clause. -/

namespace Sys2Proof.Tests

set_option Elab.async false

open Sys2Proof Sys2Proof.Machine

/-! ### Small states -/

/-- What a function reads of the state a command answers. -/
def after {α : Type} (c : Instr) (s : State) (f : State → α) : Option α :=
  match exec c s with
  | .next t => some (f t)
  | .fault _ => none
  | .refused _ => none

/-- A port made UP with a window of four. -/
def raised (p : Port) (s : State) : State := s.modifyLink p fun l => { l with state := .up, window := 4 }

/-- Ports 0 and 1 are UP, port 0 is the supervisor port, and no record exists. -/
def world : State := raised 1 (raised 0 State.reset)

/-- The port's only request waits and has this payload. -/
def asking (p : Port) (payload : List Octet) (s : State) : State :=
  s.modifyLink p fun l => { l with requests := [⟨0, payload, .waiting⟩] }

/-- The payload of the last frame formed at a port. -/
def reply (p : Port) (s : State) : Option (List Octet) := s.links[p].transmit.getLast?.map (·.frame.payload)

/-- `Asks` as a test that can be evaluated. -/
def asks (s : State) (p : Port) (payload : List Octet) : Bool :=
  match s.nextRequest p with
  | none => false
  | some q => decide (q.condition = .waiting) && decide (q.payload = payload)

theorem asks_iff (s : State) (p : Port) (payload : List Octet) : s.Asks p payload ↔ asks s p payload = true := by
  unfold State.Asks asks
  cases s.nextRequest p with
  | none => simp
  | some q => simp

/-- A record of port 0 in slot 3, generation 5, whose notices go to port 1. -/
def sample : Record :=
  { Record.blank with generation := 5, owner := some 0, tag := 2, sched := .idle, target := .port 1,
                      urgency := 3, cookie := 9 }

/-- The record stands in slot 3. -/
def put (r : Record) (s : State) : State :=
  ((s.setRecord 3 r).setOccupied [3]).modifyOwned 0 fun _ => [3]

/-- An IDLE record. -/
def idle : State := put sample world

/-- A QUEUED record, due at 100. -/
def queued : State :=
  { put { sample with sched := .queued, deadline := some 100 } world with
    placement := { queue := [3], rebuildPart := 0, carried := none } }

/-- A PLACING record, due at 100. -/
def placing : State :=
  { put { sample with sched := .placing, deadline := some 100 } world with
    placement := { queue := [], rebuildPart := 0, carried := some ⟨3, 5, false, false⟩ } }

/-- An ARMED record, due at 100, with its link as given; the time is 100 and runs. -/
def armedWith (r : Record) (holds : Bool) : State :=
  { put { r with sched := .armed, deadline := some 100 } world with
    expiry := { list := [⟨3, holds⟩], listState := .normal, restarts := 0, firing := none }
    timeBase := { now := 100, mode := .running, prescaler := 1, pendingPrescaler := none, phase := 0 } }

/-- An ARMED record that is due. -/
def armed : State := armedWith sample true

/-- A PAUSED record with 40 ticks left. -/
def paused : State := put { sample with sched := .paused, deadline := some 100, remaining := some 40 } world

/-- The EXPIRY entry of the sample record, PLAIN. -/
def entry : Entry :=
  { expiryEntry 3 sample 100 100 false false false false with assigned := some 1 }

/-- The sample record's notice lies in the queue of port 1. -/
def pending : State :=
  (put { sample with notice := .pending } world).modifyQueue 1 fun _ => [entry]

/-- The sample record's notice, HELD, is outstanding at port 1. -/
def outstanding : State :=
  (put { sample with cls := .held, notice := .outstanding, holder := some 1 } world).modifyOutstanding 1
    fun _ => [{ entry with cls := .held, deliveries := 1 }]

/-- The sample record is on the blocked list. -/
def blocked : State :=
  { put { sample with notice := .waiting } world with
    notices := { world.notices with blocked := [⟨3, .firing 100 100 false false⟩] } }

/-- The handle of the sample record behind a request code. -/
def onSample (code : Octet) (rest : List Octet) : List Octet := code :: 0 :: 3 :: 5 :: rest

/-- The sweep unit walks, at a cursor, a sweep of the kind given. -/
def sweeping (kind : SweepKind) (cursor : Nat) (s : State) : State :=
  { s with sweeps := { places := [⟨7, kind⟩], total := none, current := some ⟨⟨7, kind⟩, 2, cursor⟩,
                       nextNumber := 8 } }

/-- A port that has found a start octet. -/
def begun (p : Port) (bits : List Bool) (s : State) : State := s.setReceiver p (.receiving bits 0)

/-- A good frame's octets after its start octet. -/
def good (f : Frame) : List Octet := f.afterStart

/-! ### Ill-formed commands, which the check refuses -/

theorem test_ill_formed_badFrame : (Instr.badFrame 0 (List.replicate 255 0)).wellFormed = false := by decide +kernel
theorem test_ill_formed_linkOpen : (Instr.linkOpen 0 (List.replicate 255 0)).wellFormed = false := by decide +kernel
theorem test_ill_formed_linkClose : (Instr.linkClose 0 (List.replicate 255 0)).wellFormed = false := by decide +kernel
theorem test_ill_formed_requestFrame : (Instr.requestFrame 0 (List.replicate 255 0)).wellFormed = false := by decide +kernel
theorem test_ill_formed_frameStart : (Instr.frameStart 0 []).wellFormed = false := by decide +kernel
theorem test_longest_frame_is_well_formed : (Instr.requestFrame 0 (List.replicate 254 0)).wellFormed = true := by
  decide +kernel

/-! ### The part's own events -/

theorem test_deviceReset : after .deviceReset (asking 0 [0x28] armed) id = some State.reset := by decide +kernel

theorem test_tick_reaches_time_max :
    after .tick { world with timeBase := ⟨0xFFFFFFFFFFFFFE, .running, 1, some 4, 0⟩ } State.timeBase
      = some ⟨0xFFFFFFFFFFFFFF, .exhausted, 4, none, 0⟩ := by decide +kernel
theorem test_tick_makes_a_visit_due :
    after .tick { world with
        timeBase := ⟨9, .running, 1, none, 0⟩, scrubber := ⟨5, 4, 0, 0, 0⟩ } State.scrubber
      = some ⟨5, 0, 0, 0, 1⟩ := by decide +kernel

/-- A scrubber with one visit due at a slot, in a mode of the time base. -/
def visiting (mode : TimeMode) (cursor : SlotIx) (s : State) : State :=
  { s with timeBase := { s.timeBase with mode := mode }, scrubber := ⟨1, 0, cursor, 0, 1⟩ }

theorem test_scrubVisit_wraps_while_running :
    (after .scrubVisit (visiting .running 1023 world) State.scrubber = some ⟨1, 0, 0, 0, 0⟩)
      ∧ ∀ mode ∈ [TimeMode.frozen, .exhausted],
        after .scrubVisit (visiting mode 1023 world) State.scrubber = some ⟨1, 0, 1023, 0, 1⟩ := by decide +kernel
theorem test_scrubVisit_repairs :
    after .scrubVisit (visiting .running 3 (put { sample with copyA := .correctable } world))
      (fun t => (t.scrubber.corrections, (t.record 3).copyA)) = some (1, .passing) := by decide +kernel

theorem test_listFault_moves_the_list :
    after (.listFault .scrubber) armed
      (fun t => (t.expiry.list, t.expiry.listState, t.placement.queue, t.placement.rebuildPart))
      = some ([], .rebuilding, [3], 1) := by decide +kernel
theorem test_third_listFault_fails :
    after (.listFault .expiryEngine) { armed with
        expiry := { armed.expiry with listState := .rebuilding, restarts := 2 } }
      (fun t => (t.expiry.listState, t.expiry.restarts)) = some (.failed, 3) := by decide +kernel

theorem test_placementTake :
    after .placementTake queued (fun t => ((t.record 3).sched, t.placement.queue, t.placement.carried))
      = some (.placing, [], some ⟨3, 5, false, false⟩) := by decide +kernel
theorem test_placementEnd :
    after .placementEnd placing (fun t => ((t.record 3).sched, t.expiry.list, t.placement.carried))
      = some (.armed, [⟨3, true⟩], none) := by decide +kernel

theorem test_firing_creates_the_notice :
    after .firing armed
      (fun t => ((t.record 3).sched, (t.record 3).notice, t.notices.queues[(1 : Port)], t.expiry.list))
      = some (.idle, .pending, [entry], []) := by decide +kernel
theorem test_firing_of_a_periodic_record :
    after .firing (armedWith { sample with period := some 30 } true)
      (fun t => ((t.record 3).sched, (t.record 3).deadline, t.placement.queue))
      = some (.queued, some 130, [3]) := by decide +kernel

/-- A companion search that has yet to consider slot 3. -/
def searching (r : Record) : State :=
  { armedWith r true with
    timeBase := ⟨90, .running, 1, none, 0⟩
    expiry := { list := [⟨3, true⟩], listState := .normal, restarts := 0,
                firing := some ⟨4, 0, .port 1, [3], 0⟩ } }

/-- A companion search that has yet to consider slots 3 and 4. -/
def searchingTwo (r : Record) : State :=
  { (searching r).setRecord 4 { sample with sched := .armed, deadline := some 100 } with
    expiry := { list := [⟨3, true⟩, ⟨4, true⟩], listState := .normal, restarts := 0,
                firing := some ⟨5, 0, .port 1, [3, 4], 0⟩ } }

theorem test_companionFiring_is_early :
    after .companionFiring (searching { sample with slack := 10 })
      (fun t => (t.notices.queues[(1 : Port)].map fun e => (e.early, e.slot), t.expiry.firing))
      = some ([(true, some 3)], none) := by decide +kernel
theorem test_companionFiring_outside_slack :
    after .companionFiring (searching { sample with slack := 9 })
      (fun t => ((t.record 3).sched, t.expiry.firing)) = some (.armed, none) := by decide +kernel

theorem test_markedHeadRemoval :
    after .markedHeadRemoval (armedWith { sample with mark := some 7 } true)
      (fun t => ((t.record 3).sched, (t.record 3).deadline, t.expiry.list, t.entries))
      = some (.idle, some 100, [], []) := by decide +kernel

theorem test_sweepStart_marks :
    after .sweepStart { idle with sweeps := ⟨[⟨7, .tag 0 2 1⟩], none, none, 8⟩ }
      (fun t => ((t.record 3).mark, t.sweeps.current)) = some (some 7, some ⟨⟨7, .tag 0 2 1⟩, 0, 0⟩) := by
  decide +kernel
theorem test_sweepVisit_retires :
    after .sweepVisit (sweeping (.port 0) 3 (put { sample with mark := some 7 } world))
      (fun t => (t.record 3, t.sweeps.current, t.freeSlots))
      = some ({ Record.blank with generation := 6 }, some ⟨⟨7, .port 0⟩, 3, 4⟩, 1024) := by decide +kernel
theorem test_tagSweepEnd :
    after .tagSweepEnd (sweeping (.tag 0 2 1) 1024 world)
      (fun t => (t.notices.queues[(1 : Port)].map fun e => (e.number, e.sweepNumber, e.retired), t.sweeps.places))
      = some ([(250, some 7, 2)], []) := by decide +kernel
theorem test_portSweepEnd_brings_the_port_up :
    after .portSweepEnd (sweeping (.port 2) 1024
        (world.modifyLink 2 fun l => { l with state := .recovering, pendingWindow := some 3 }))
      (fun t => (t.links[(2 : Port)].state, t.links[(2 : Port)].window, reply 2 t))
      = some (.up, 3, some [2, 3, 0]) := by decide +kernel
theorem test_totalSweepEnd :
    after .totalSweepEnd (sweeping .total 1024 pending)
      (fun t => (t.entries.map (·.kind), (t.record 3).notice, t.sweeps.current))
      = some ([.sweepDone], .clear, none) := by decide +kernel

/-! ### Frames -/

/-- The check value of CRC-16 with initial value FFFFh over the octets "123456789". -/
theorem test_check_code :
    crc16 [0x31, 0x32, 0x33, 0x34, 0x35, 0x36, 0x37, 0x38, 0x39] = 0x29B1 := by decide +kernel

/-- A REQUEST with sequence number 2 that asks for the time, written out octet by octet (Table 12-1). -/
theorem test_request_octets :
    (Frame.octets ⟨.request, 2, [0x28]⟩).take 4 = [0xA5, 0x21, 0x01, 0x28] := by decide +kernel

theorem test_frameStart_brings_further_bits :
    after (.frameStart 0 (bitsOfOctets [0x21])) (world.setReceiver 0 (.receiving [true] 65000))
      (fun t => t.links[(0 : Port)].receiver) = some (.receiving (true :: bitsOfOctets [0x21]) 0) := by decide +kernel
theorem test_frameStart_at_any_bit :
    after (.frameStart 0 ([true, false, true] ++ bitsOfOctets [0xA5])) world
      (fun t => t.links[(0 : Port)].receiver) = some (.receiving [] 0) := by decide +kernel
theorem test_frameCutOff :
    after (.frameCutOff 0) (begun 0 (bitsOfOctets [0x21]) world) (reply 0) = some (some [1]) := by decide +kernel
theorem test_badFrame :
    after (.badFrame 0 [0x21, 0x00, 0x00, 0x00]) (begun 0 [] world)
      (fun t => (reply 0 t, t.links[(0 : Port)].badRun)) = some (some [3], 1) := by decide +kernel
theorem test_eighth_badFrame_leaves_up :
    after (.badFrame 1 [0x21, 0xFF])
      (begun 1 [] (pending.modifyLink 1 fun l => { l with badRun := 7 }))
      (fun t => (t.links[(1 : Port)].state, t.links[(1 : Port)].transmit.map (·.frame.kind),
        t.notices.queues[(1 : Port)], (t.record 3).overrun))
      = some (.down, [.reject, .linkClose], [], 1) := by decide +kernel
theorem test_linkOpen :
    after (.linkOpen 2 (good ⟨.linkOpen, 0, [4]⟩)) (begun 2 [] world)
      (fun t => (t.links[(2 : Port)].state, t.links[(2 : Port)].window, reply 2 t))
      = some (.up, 4, some [2, 4, 0]) := by decide +kernel
theorem test_linkOpen_waits_for_the_sweep :
    after (.linkOpen 1 (good ⟨.linkOpen, 0, [1]⟩)) (begun 1 [] world)
      (fun t => (t.links[(1 : Port)].state, t.links[(1 : Port)].pendingWindow,
        t.links[(1 : Port)].transmit.map (·.frame.kind)))
      = some (.recovering, some 1, [.linkWait]) := by decide +kernel
theorem test_linkClose :
    after (.linkClose 1 (good ⟨.linkClose, 0, []⟩)) (begun 1 [] world)
      (fun t => (t.links[(1 : Port)].state, t.hasPortSweep 1, t.links[(1 : Port)].transmit.map (·.frame.kind)))
      = some (.down, true, [.linkClose]) := by decide +kernel
theorem test_requestFrame :
    after (.requestFrame 0 (good ⟨.request, 0, [0x28]⟩)) (begun 0 [] world)
      (fun t => (t.links[(0 : Port)].requests, t.links[(0 : Port)].expected))
      = some ([⟨0, [0x28], .waiting⟩], 1) := by decide +kernel
theorem test_requestFrame_out_of_sequence :
    after (.requestFrame 0 (good ⟨.request, 9, [0x28]⟩)) (begun 0 [] world) (reply 0)
      = some (some [0x0D, 0]) := by decide +kernel
theorem test_frameSent :
    after (.frameSent 0) (world.modifyLink 0 fun l => { l with
        requests := [⟨0, [0x28], .answered⟩], transmit := [⟨⟨.response, 0, [0]⟩, .response⟩] })
      (fun t => (t.links[(0 : Port)].requests, t.links[(0 : Port)].transmit)) = some ([], []) := by
  decide +kernel

/-! ### Record requests -/

/-- OPEN with tag 2, target pool 1, HELD, urgency 7, all fields given. -/
def openPayload : List Octet :=
  [0x01, 0, 2, 9, 1, 7, 31, 0, 0, 0, 9, 0, 6, 0, 0, 0, 0, 0, 50, 1, 1]

theorem test_openRecord :
    after (.openRecord 0) (asking 0 openPayload world)
      (fun t => (reply 0 t, t.record 0, t.freeSlots, t.ownedCount 0))
      = some (some [0, 0, 0, 0, 0x00],
          { Record.blank with owner := some 0, tag := 2, sched := .idle, target := .pool 1, cls := .held,
                              urgency := 7, cookie := 9, slack := 6, period := some 50, policy := .skip,
                              disposal := .closeAfter }, 1023, 1) := by decide +kernel
theorem test_openRecord_at_the_quota :
    after (.openRecord 0) (asking 0 openPayload { idle with
        portTable := { idle.portTable with quota := Vector.replicate 4 1 } }) (reply 0)
      = some (some [0x06]) := by decide +kernel
theorem test_closeRecord :
    after (.closeRecord 0) (asking 0 (onSample 0x02 []) idle)
      (fun t => (reply 0 t, t.record 3, t.freeSlots))
      = some (some [0x00, 0x10], { Record.blank with generation := 6 }, 1024) := by decide +kernel
theorem test_readRecord :
    after (.readRecord 1) (asking 1 (onSample 0x03 []) idle) (fun t => (reply 1 t).map (·.take 12))
      = some (some [0x00, 0, 3, 5, 0, 0, 2, 1, 0, 3, 0, 0]) := by decide +kernel
theorem test_setRecord :
    after (.setRecord 0) (asking 0 (onSample 0x04
        [0x02, 0, 0, 0, 0, 7, 0, 0, 0, 0, 0, 0, 0, 0, 0, 0, 0, 0]) idle)
      (fun t => (reply 0 t, t.record 3)) = some (some [0x00, 0x10], { sample with urgency := 7 }) := by
  decide +kernel
theorem test_arm_relative :
    after (.arm 0) (asking 0 (onSample 0x05 [1, 0, 0, 0, 0, 0, 0, 0, 50]) idle)
      (fun t => (reply 0 t, (t.record 3).deadline, t.placement.queue))
      = some (some [0x00, 0x10], some 50, [3]) := by decide +kernel
theorem test_arm_of_a_placing_record_is_held :
    after (.arm 0) (asking 0 (onSample 0x05 [1, 0, 0, 0, 0, 0, 0, 0, 50]) placing)
      (fun t => (reply 0 t, t.links[(0 : Port)].requests.map (·.condition)))
      = some (none, [.held 3]) := by decide +kernel
theorem test_cancel :
    after (.cancel 0) (asking 0 (onSample 0x06 [0]) queued)
      (fun t => (reply 0 t, (t.record 3).sched, t.placement.queue))
      = some (some [0x00, 0x20], .idle, []) := by decide +kernel
theorem test_cancel_withdraws :
    after (.cancel 0) (asking 0 (onSample 0x06 [1]) pending)
      (fun t => (reply 0 t, (t.record 3).notice, t.entries)) = some (some [0x00, 0x12], .clear, []) := by
  decide +kernel
theorem test_pause :
    after (.pause 0) (asking 0 (onSample 0x07 []) queued)
      (fun t => ((t.record 3).sched, (t.record 3).remaining)) = some (.paused, some 100) := by decide +kernel
theorem test_resume :
    after (.resume 0) (asking 0 (onSample 0x08 []) paused)
      (fun t => ((t.record 3).sched, (t.record 3).deadline, t.placement.queue))
      = some (.queued, some 40, [3]) := by decide +kernel

/-! ### Notices -/

theorem test_take_frees_a_plain_notice :
    after (.take 1) (asking 1 [0x10, 1] pending)
      (fun t => ((reply 1 t).map (·.take 8), (t.record 3).notice, t.entries))
      = some (some [0x00, 1, 0, 1, 3, 0, 3, 5], .clear, []) := by decide +kernel
theorem test_ack :
    after (.ack 1) (asking 1 (onSample 0x11 [0, 0, 0, 0, 0, 0, 0]) outstanding)
      (fun t => (reply 1 t, (t.record 3).notice, t.entries)) = some (some [0x00, 0x13, 0], .clear, []) := by
  decide +kernel
theorem test_ack_rearms :
    after (.ack 1) (asking 1 (onSample 0x11 [1, 0, 0, 0, 0, 0, 70]) outstanding)
      (fun t => (reply 1 t, (t.record 3).deadline, t.placement.queue))
      = some (some [0x00, 0x13, 1], some 70, [3]) := by decide +kernel
theorem test_release :
    after (.release 1) (asking 1 (onSample 0x12 []) outstanding)
      (fun t => ((t.record 3).notice, t.notices.queues[(1 : Port)].map (·.deliveries),
        t.notices.outstanding[(1 : Port)])) = some (.pending, [1], []) := by decide +kernel
theorem test_attentionSet :
    after (.attentionSet 1) (asking 1 [0x13, 3] pending)
      (fun t => (reply 1 t, t.links[(1 : Port)].attention)) = some (some [0x00, 0], true) := by decide +kernel
theorem test_attentionSet_above_the_queue :
    after (.attentionSet 1) (asking 1 [0x13, 4] pending) (fun t => t.links[(1 : Port)].attention)
      = some false := by decide +kernel

/-- The sample record's notice is held by pool 5, which has no member. -/
def held : State :=
  (put { sample with target := .pool 5, notice := .pending } world).modifyHolding 5
    fun _ => [{ entry with destination := .pool 5, assigned := none }]

theorem test_poolSet_serves :
    after (.poolSet 0) (asking 0 [0x18, 5, 2, 1] held)
      (fun t => (reply 0 t, t.pools[(5 : Pool)], t.notices.queues[(1 : Port)].map (·.slot),
        t.notices.holding[(5 : Pool)])) = some (some [0x00, 0], [2, 1], [some 3], []) := by decide +kernel

/-! ### Sweep requests -/

theorem test_retireTag :
    after (.retireTag 0) (asking 0 [0x20, 0, 0, 2] idle)
      (fun t => (reply 0 t, (t.record 3).mark, t.sweeps.nextNumber)) = some (some [0x00, 1], some 1, 2) := by
  decide +kernel
theorem test_retireTag_busy :
    after (.retireTag 0) (asking 0 [0x20, 0, 0, 2] { idle with
        sweeps := ⟨[⟨1, .tag 0 1 0⟩, ⟨2, .tag 0 1 0⟩], none, none, 3⟩ }) (reply 0) = some (some [0x0B]) := by
  decide +kernel
theorem test_clearAll :
    after (.clearAll 0) (asking 0 [0x21] idle)
      (fun t => (reply 0 t, (t.record 3).mark, t.sweeps.total)) = some (some [0x00, 1], some 1, none) := by
  decide +kernel

/-! ### The time base, the scrubber and supervision -/

theorem test_timeRead :
    after (.timeRead 1) (asking 1 [0x28] armed) (reply 1)
      = some (some [0x00, 0, 0, 0, 0, 0, 0, 0, 100, 1, 0, 1, 0, 0]) := by decide +kernel
theorem test_timeSet :
    after (.timeSet 0) (asking 0 [0x29, 0, 0, 0, 0, 0, 0, 1, 0] armed)
      (fun t => (reply 0 t, t.timeBase.now, t.timeBase.mode))
      = some (some [0x00, 0, 0, 0, 0, 0, 0, 0, 100, 1], 256, .running) := by decide +kernel
theorem test_timeRun :
    after (.timeRun 0) (asking 0 [0x2A] world) (fun t => t.timeBase.mode) = some .running := by decide +kernel
theorem test_timeFreeze :
    after (.timeFreeze 0) (asking 0 [0x2B] armed) (fun t => (t.timeBase.mode, t.timeBase.now))
      = some (.frozen, 100) := by decide +kernel
theorem test_prescale :
    after (.prescale 0) (asking 0 [0x2C, 0x10, 0] world) (fun t => (reply 0 t, t.timeBase.pendingPrescaler))
      = some (some [0x00, 0, 1], some 4096) := by decide +kernel
theorem test_scrubSet :
    after (.scrubSet 0) (asking 0 [0x30, 0xFF, 0xFF] world) (fun t => t.scrubber.interval) = some 65535 := by
  decide +kernel
theorem test_quotaSet :
    after (.quotaSet 0) (asking 0 [0x38, 3, 4, 0] world) (fun t => (reply 0 t, t.portTable.quota[(3 : Port)]))
      = some (some [0x00, 1, 0], 1024) := by decide +kernel
theorem test_portLimitSet :
    after (.portLimitSet 0) (asking 0 [0x39, 3, 248] world)
      (fun t => (reply 0 t, t.portTable.limit[(3 : Port)])) = some (some [0x00, 64], 248) := by decide +kernel
theorem test_portDisable :
    after (.portDisable 0) (asking 0 [0x3A, 1] world)
      (fun t => (reply 0 t, t.links[(1 : Port)].state, t.portTable.enabled[(1 : Port)], t.hasPortSweep 1))
      = some (some [0x00, 3], .disabled, false, true) := by decide +kernel
theorem test_portDisable_of_itself :
    after (.portDisable 0) (asking 0 [0x3A, 0] world) (reply 0) = some (some [0x04]) := by decide +kernel
theorem test_portEnable :
    after (.portEnable 0) (asking 0 [0x3B, 2] (world.disable 2))
      (fun t => (reply 0 t, t.links[(2 : Port)].state, t.portTable.enabled[(2 : Port)]))
      = some (some [0x00, 0], .down, true) := by decide +kernel
theorem test_handOver :
    after (.handOver 0) (asking 0 [0x3C, 1] world) (fun t => (reply 0 t, t.portTable.supervisor))
      = some (some [0x00, 0], 1) := by decide +kernel
theorem test_handOver_to_a_port_down :
    after (.handOver 0) (asking 0 [0x3C, 2] world) (reply 0) = some (some [0x04]) := by decide +kernel
theorem test_forceClose :
    after (.forceClose 0) (asking 0 (onSample 0x3D []) (put { sample with owner := some 1 } world))
      (fun t => (reply 0 t, (t.record 3).sched)) = some (some [0x00, 0x10], .free) := by decide +kernel
theorem test_forceClose_denied :
    after (.forceClose 1) (asking 1 (onSample 0x3D []) idle) (reply 1) = some (some [0x0A]) := by decide +kernel
theorem test_status :
    after (.status 1) (asking 1 [0x3E] idle) (reply 1)
      = some (some [0x00, 3, 255, 0, 0, 1, 0, 64, 248, 0, 0, 0, 0, 0, 0, 0, 0, 0, 0, 0, 0, 0, 0, 0, 0]) := by
  decide +kernel
theorem test_echo :
    after (.echo 1) (asking 1 [0x3F, 1, 2, 3] idle) (reply 1) = some (some [0x00, 1, 2, 3]) := by decide +kernel
theorem test_unknownRequestCode :
    after (.unknownRequestCode 1) (asking 1 [0x40] idle) (reply 1) = some (some [0x0F]) := by decide +kernel

/-! ### Every statement's hypotheses are met, clause by clause -/

theorem test_meets_IdleStepIsClockPeriod :
    armed.pending = [] ∧ idle.timeBase.mode ≠ .running
      ∧ ({ armed.timeBase with prescaler := 2 } : TimeBase).phase + 1 < 2
      ∧ armed.timeBase.mode = .running ∧ armed.timeBase.prescaler ≤ armed.timeBase.phase + 1
      ∧ armed.timeBase.now.toNat + 1 ≠ Config.timeMax ∧ idle.pending = []
      ∧ armed.upsets = [] ∧ idle.upsets = [] ∧ (∀ p : Port, ∃ w, armed.links[p].receiver = .searching w)
      ∧ ∀ p : Port, ∃ w, idle.links[p].receiver = .searching w := by
  have h1 : ∀ p : Port, armed.links[p].receiver = .searching [] := by decide +kernel
  have h2 : ∀ p : Port, idle.links[p].receiver = .searching [] := by decide +kernel
  refine ⟨?_, ?_, ?_, ?_, ?_, ?_, ?_, ?_, ?_, fun p => ⟨[], h1 p⟩, fun p => ⟨[], h2 p⟩⟩ <;> decide +kernel

/-- What one step leaves. -/
def stepped {α : Type} (s : State) (f : State → α) : Option α :=
  match step s with
  | .next t => some (f t)
  | _ => none

/-- The clock's own tick at the prescaler in force, with a prescaler pending, the scrubber at its interval and an error
to strike the sole member's link; and the tick to time max. -/
theorem test_clock_ticks :
    stepped { armed with
          timeBase := { armed.timeBase with prescaler := 2, phase := 1, pendingPrescaler := some 9 }
          scrubber := { armed.scrubber with interval := 4, ticks := 3 }, upsets := [.link 3] }
        (fun t => decide (t.timeBase.phase = 0 ∧ t.timeBase.prescaler = 9 ∧ t.timeBase.pendingPrescaler = none
          ∧ t.scrubber.ticks = 0 ∧ t.scrubber.visitsDue = 1
          ∧ t.expiry.list.map Member.linkHolds = [false])) = some true
      ∧ stepped { armed with timeBase := { armed.timeBase with now := BitVec.ofNat 56 (Config.timeMax - 1) } }
        (fun t => decide (t.timeBase.mode = .exhausted)) = some true := by decide +kernel

/-- Port 1 has begun a frame, and this many periods have passed without a bit. -/
def quietFor (n : Nat) : State := world.setReceiver 1 (.receiving [true] n)

theorem test_meets_IdleStepIsClockPeriod_frames :
    takeFrame [true] = none ∧ (quietFor 65535).upsets = [] ∧ (quietFor 65534).pending = []
      ∧ (quietFor 65534).clockPeriod.links[(1 : Port)].receiver = .receiving [true] 65535
      ∧ (quietFor 65535).clockPeriod.links[(1 : Port)].receiver = .searching []
      ∧ ∀ q : Port, q ≠ 1 → (quietFor 65535).links[q].receiver = .searching [] := by decide +kernel

/-- A state in which the record in slot 3 has an entry and the attention lines stand. -/
def noticed : State := pending.driveLines

/-- With no record PLACING, no list FAILED and no search, four clauses of the ties are about nothing. -/
theorem tied_of {s : State} (h1 : s.placement.queue.Nodup ∧ (∀ i, i ∈ s.placement.queue ↔ (s.record i).sched = .queued)
      ∧ s.placement.rebuildPart ≤ s.placement.queue.length ∧ ∀ i, (s.record i).sched ≠ .placing)
    (h2 : s.listOrder.Nodup ∧ (∀ i, i ∈ s.listOrder ↔ (s.record i).sched = .armed)
      ∧ s.listOrder.Pairwise (fun i j => (s.record i).due ≤ (s.record j).due) ∧ s.expiry.listState ≠ .failed
      ∧ s.expiry.firing = none) : s.QueueTied ∧ s.ListTied := by
  obtain ⟨a1, a2, a3, a4⟩ := h1
  obtain ⟨b1, b2, b3, b4, b5⟩ := h2
  refine ⟨⟨a1, a2, a3, fun i h => absurd h (a4 i)⟩, b1, b2, b3, fun h => absurd h b4, fun f h => ?_⟩
  rw [b5] at h
  cases h

theorem test_meets_TableStaysCanonical :
    armed.table.wf ∧ (armed.QueueTied ∧ armed.ListTied) ∧ armed.SlotsTied ∧ step armed = .next armed.clockPeriod :=
  ⟨by decide +kernel, tied_of (by decide +kernel) (by decide +kernel), by decide +kernel, rfl⟩
theorem test_meets_TimeBaseStaysInRange : armed.timeBase.Sound ∧ step armed = .next armed.clockPeriod :=
  ⟨by decide +kernel, rfl⟩
theorem test_meets_PortsStayInAgreement : armed.PortsAgree ∧ step armed = .next armed.clockPeriod :=
  ⟨by decide +kernel, rfl⟩
theorem test_meets_LinksStayInRange :
    noticed.LinksSound ∧ noticed.table.wf ∧ (noticed.QueueTied ∧ noticed.ListTied) ∧ noticed.SlotsTied
      ∧ noticed.NoticesTied ∧ noticed.LinesTied ∧ step noticed = .next noticed.clockPeriod := by
  have ties := tied_of (s := noticed) (by decide +kernel) (by decide +kernel)
  have notices : noticed.NoticesTied := by and_intros <;> decide +kernel
  refine ⟨?_, ?_, ties, ?_, notices, ?_, rfl⟩ <;> decide +kernel

theorem test_meets_FramesReadBack :
    (List.replicate 250 (0 : Octet)).length ≤ 250 ∧ 1 ≤ (1 : Octet).toNat ∧ (4 : Octet).toNat ≤ 4 := by decide +kernel

/-- A port whose reply history holds as many responses as given. -/
def replied (n : Nat) : State :=
  (asking 0 [0x28] world).modifyLink 0 fun l => { l with history := List.replicate n ⟨0, [0]⟩ }

theorem test_meets_ResponseIsFormedAndStored :
    (replied 3).nextRequest 0 = some ⟨0, [0x28], .waiting⟩ ∧ (replied 3).links[(0 : Port)].history.length < 4
      ∧ (replied 4).nextRequest 0 = some ⟨0, [0x28], .waiting⟩
      ∧ 4 ≤ (replied 4).links[(0 : Port)].history.length := by decide +kernel

theorem test_meets_RequestsWaitTheirTurn :
    requestRow (.timeRead 0) = some (0, .timeRead)
      ∧ (∀ q, (asking 0 [0x29] world).nextRequest 0 = some q →
          q.condition ≠ .waiting ∨ requestOf q.payload ≠ some .timeRead)
      ∧ ∀ q, ((asking 0 [0x28] world).hold 0 3).nextRequest 0 = some q →
          q.condition ≠ .waiting ∨ requestOf q.payload ≠ some .timeRead := by
  have h1 : (asking 0 [0x29] world).nextRequest 0 = some ⟨0, [0x29], .waiting⟩ := by decide +kernel
  have h2 : ((asking 0 [0x28] world).hold 0 3).nextRequest 0 = some ⟨0, [0x28], .held 3⟩ := by decide +kernel
  rw [h1, h2]
  refine ⟨rfl, fun q h => ?_, fun q h => ?_⟩
  · cases h; exact .inr (by decide)
  · cases h; exact .inl (by decide)

theorem test_meets_FormatThenRight :
    (requestRow (.arm 0) = some (0, .arm) ∧ (asking 0 [0x05] world).Asks 0 [0x05]
      ∧ requestOf [0x05] = some .arm ∧ (asking 0 [0x05] world).LetsThrough .arm [0x05]
      ∧ RequestCode.formatHolds .arm [0x05] = false ∧ (namedSlotField [0x05]).bind slotOf = none)
    ∧ ((asking 0 [0x05, 0, 3] idle).Asks 0 [0x05, 0, 3] ∧ (asking 0 [0x05, 0, 3] idle).LetsThrough .arm [0x05, 0, 3]
      ∧ RequestCode.formatHolds .arm [0x05, 0, 3] = false ∧ RequestCode.interlocked .arm = true
      ∧ (namedSlotField [0x05, 0, 3]).bind slotOf = some 3)
    ∧ (requestRow (.take 1) = some (1, .take) ∧ (asking 1 [0x10, 0] world).Asks 1 [0x10, 0]
      ∧ requestOf [0x10, 0] = some .take ∧ RequestCode.interlocked .take = false
      ∧ RequestCode.formatHolds .take [0x10, 0] = false)
    ∧ (requestRow (.timeRun 1) = some (1, .timeRun) ∧ (asking 1 [0x2A] world).Asks 1 [0x2A]
      ∧ requestOf [0x2A] = some .timeRun ∧ RequestCode.formatHolds .timeRun [0x2A] = true
      ∧ (asking 1 [0x2A] world).portTable.supervisor ≠ 1 ∧ RequestCode.needsRight .timeRun = true)
    ∧ ((asking 1 [0x20, 3, 0, 2] world).Asks 1 [0x20, 3, 0, 2]
      ∧ RequestCode.formatHolds .retireTag [0x20, 3, 0, 2] = true
      ∧ parseRetireTag [0x20, 3, 0, 2] = some (3, 2) ∧ (3 : Port) ≠ 1)
    ∧ ((asking 1 [] world).Asks 1 [] ∧ requestOf [] = none)
    ∧ (asking 1 [0x40] world).Asks 1 [0x40] ∧ requestOf [0x40] = none := by
  simp only [asks_iff]; decide +kernel

theorem test_meets_InterlockHoldsRequests :
    requestRow (.closeRecord 0) = some (0, .closeRecord)
      ∧ (asking 0 [0x02, 0, 3] placing).Asks 0 [0x02, 0, 3] ∧ requestOf [0x02, 0, 3] = some .closeRecord
      ∧ RequestCode.interlocked .closeRecord = true
      ∧ (namedSlotField [0x02, 0, 3]).bind slotOf = some 3
      ∧ (((asking 0 [0x02, 0, 3] placing).checkedRead 3).record 3).sched = .placing := by
  simp only [asks_iff]; decide +kernel

/-- The hypotheses of checks 3 to 6 for a PAUSE of slot 3 at port 0. -/
def pauseChecked (s : State) : Prop :=
  (asking 0 (onSample 0x07 []) s).Asks 0 (onSample 0x07 [])
    ∧ (asking 0 (onSample 0x07 []) s).LetsThrough .pause (onSample 0x07 [])

/-- The record a PAUSE of slot 3 at port 0 finds. -/
def pauseFinds (s : State) : Record := ((asking 0 (onSample 0x07 []) s).checkedRead 3).record 3

theorem test_meets_RecordChecksInOrder :
    (requestRow (.pause 0) = some (0, .pause) ∧ requestOf (onSample 0x07 []) = some .pause
      ∧ RequestCode.formatHolds .pause (onSample 0x07 []) = true ∧ RequestCode.changesRecord .pause = true
      ∧ RequestCode.needsRight .pause = false ∧ parseHandle (onSample 0x07 []) 1 = some ⟨3, 5⟩
      ∧ RequestCode.checksDamage .pause = true ∧ RequestCode.checksOwner .pause = true)
    ∧ (pauseChecked world ∧ (pauseFinds world).sched = .free)
    ∧ (pauseChecked (put { sample with generation := 6 } world)
      ∧ (pauseFinds (put { sample with generation := 6 } world)).generation ≠ 5)
    ∧ (pauseChecked (put { sample with mark := some 1 } world)
      ∧ (pauseFinds (put { sample with mark := some 1 } world)).mark ≠ none)
    ∧ (pauseChecked (put { sample with sched := .damaged, fault := some .timing } world)
      ∧ (pauseFinds (put { sample with sched := .damaged, fault := some .timing } world)).sched = .damaged)
    ∧ (pauseChecked (put { sample with owner := some 1 } world)
      ∧ (pauseFinds (put { sample with owner := some 1 } world)).owner ≠ some 0)
    ∧ (asking 1 (onSample 0x03 []) world).Asks 1 (onSample 0x03 [])
    ∧ requestOf (onSample 0x03 []) = some .readRecord ∧ parseHandleOnly (onSample 0x03 []) = some ⟨3, 5⟩
    ∧ (((asking 1 (onSample 0x03 []) world).checkedRead 3).record 3).sched = .free := by
  unfold pauseChecked
  simp only [asks_iff]; decide +kernel

/-- A FREE slot whose identity copies both fail. -/
def freeLost : State :=
  put { Record.blank with generation := 4, copyA := .uncorrectable, copyB := .uncorrectable } world

theorem test_meets_ReadRepairs :
    (idle.record 3).ChecksPass
    ∧ ((put { sample with copyA := .uncorrectable, copyB := .correctable, timingCheck := .correctable } world
        ).record 3).copyB ≠ .uncorrectable
    ∧ ((put { sample with copyA := .uncorrectable, copyB := .correctable } world).record 3).sched ≠ .free
    ∧ (freeLost.record 3).sched = .free ∧ (freeLost.record 3).copyA = .uncorrectable
    ∧ (freeLost.record 3).copyB = .uncorrectable := by decide +kernel

/-- Slot 3 as a FREE slot, or a DAMAGED record, whose parts stand as given. -/
def partly (sched : Sched) (fault : Option FaultPart) (a b t : Check) (lost : Bool) : Record :=
  (put { sample with sched := sched, fault := fault, copyA := a, copyB := b, timingCheck := t, timingLost := lost }
    world).record 3

theorem test_meets_ReadRepairs_parts :
    (partly .free none .uncorrectable .correctable .passing false).sched = .free
      ∧ (partly .damaged (some .timing) .correctable .passing .passing true).fault = some .timing
      ∧ (partly .damaged (some .identity) .uncorrectable .uncorrectable .correctable false).timingCheck = .correctable
      ∧ (partly .damaged (some .identity) .uncorrectable .uncorrectable .uncorrectable false).timingCheck ≠ .correctable
      ∧ (partly .damaged (some .identity) .uncorrectable .uncorrectable .correctable true).timingLost = true := by
  decide +kernel

/-- The sample record with a timing part beyond repair. -/
def timingLost (s : State) : State := s.modify 3 fun r => { r with timingCheck := .uncorrectable }

/-- A port whose link is DOWN. -/
def down (p : Port) (s : State) : State := s.modifyLink p fun l => { l with state := .down }

/-- All 248 general entries are in use. -/
def full (s : State) : State :=
  s.modifyQueue 0 fun _ => (List.range 248).map fun n => { entry with number := n, slot := some 8 }

theorem test_meets_TimingDamage :
    (((timingLost queued).record 3).sched ≠ .free ∧ ((timingLost queued).record 3).sched ≠ .damaged
      ∧ ((timingLost queued).record 3).copyA ≠ .uncorrectable
      ∧ ((timingLost queued).record 3).timingCheck = .uncorrectable
      ∧ ((timingLost queued).record 3).owner = some 0 ∧ (timingLost queued).entryOf 3 = none
      ∧ (∀ b ∈ (timingLost queued).notices.blocked, b.slot ≠ 3) ∧ (timingLost queued).isUp 0 = true
      ∧ (timingLost queued).freeGeneral = some 0)
    ∧ (down 0 (timingLost queued)).isUp 0 = false
    ∧ (timingLost (full queued)).freeGeneral = none ∧ (timingLost (full queued)).entryOf 3 = none
    ∧ (∀ s ∈ [timingLost pending, down 0 (timingLost pending)], s.entryOf 3 = some (.queued 1, entry)
      ∧ (s.record 3).sched = .idle ∧ (s.record 3).copyA = .passing ∧ (s.record 3).timingCheck = .uncorrectable
      ∧ (s.record 3).owner = some 0 ∧ s.notices.blocked = [])
    ∧ (timingLost pending).isUp 0 = true ∧ (down 0 (timingLost pending)).isUp 0 = false := by
  decide +kernel

/-- The sample record with both identity copies beyond repair. -/
def identityLost (s : State) : State :=
  s.modify 3 fun r => { r with copyA := .uncorrectable, copyB := .uncorrectable }

theorem test_meets_IdentityDamage :
    (∀ s ∈ [identityLost idle, down 0 (identityLost idle), identityLost (full idle), identityLost pending,
        down 0 (identityLost pending), identityLost blocked, identityLost outstanding],
      (s.record 3).sched ≠ .free ∧ (s.record 3).sched ≠ .damaged ∧ (s.record 3).copyA = .uncorrectable
        ∧ (s.record 3).copyB = .uncorrectable ∧ (s.record 3).owner = some 0 ∧ s.portTable.supervisor = 0
        ∧ (s.record 3).timingCheck ≠ .uncorrectable ∧ (s.record 3).timingLost = false)
      ∧ (identityLost idle).entryOf 3 = none ∧ (identityLost idle).notices.blocked = []
      ∧ (identityLost idle).isUp 0 = true ∧ (down 0 (identityLost idle)).isUp 0 = false
      ∧ (identityLost idle).freeGeneral = some 0 ∧ (identityLost (full idle)).freeGeneral = none
      ∧ (identityLost (full idle)).entryOf 3 = none
      ∧ (identityLost pending).entryOf 3 = some (.queued 1, entry) ∧ (identityLost pending).notices.blocked = []
      ∧ (down 0 (identityLost pending)).entryOf 3 = some (.queued 1, entry)
      ∧ (∀ s ∈ [identityLost blocked, timingLost blocked], s.entryOf 3 = none ∧ ∃ b ∈ s.notices.blocked, b.slot = 3)
      ∧ (∀ s ∈ [identityLost outstanding, timingLost outstanding],
        s.entryOf 3 = some (.outstanding 1, { entry with cls := .held, deliveries := 1 }))
      ∧ ∀ s ∈ [timingLost blocked, timingLost outstanding],
        (s.record 3).copyA ≠ .uncorrectable ∧ (s.record 3).timingCheck = .uncorrectable := by decide +kernel

/-- The sample record DAMAGED with fault part TIMING, its identity beyond repair too. -/
def lostAfter (s : State) : State :=
  identityLost (s.modify 3 fun r => { r with sched := .damaged, fault := some .timing, timingLost := true })

theorem test_meets_IdentityDamage_escalates :
    (∀ s ∈ [lostAfter idle, lostAfter (full idle), lostAfter pending, lostAfter blocked, lostAfter outstanding],
      (s.record 3).sched = .damaged ∧ (s.record 3).fault = some .timing ∧ (s.record 3).copyA = .uncorrectable
        ∧ (s.record 3).copyB = .uncorrectable ∧ (s.record 3).owner = some 0 ∧ s.portTable.supervisor = 0
        ∧ s.isUp 0 = true ∧ (down 0 s).isUp 0 = false)
      ∧ ((lostAfter pending).record 3).notice = .pending ∧ (lostAfter pending).entryOf 3 = some (.queued 1, entry)
      ∧ (lostAfter pending).notices.blocked = [] ∧ ((lostAfter idle).record 3).notice = .clear
      ∧ (lostAfter idle).notices.blocked = [] ∧ (lostAfter idle).freeGeneral = some 0
      ∧ (lostAfter (full idle)).freeGeneral = none ∧ ((lostAfter blocked).record 3).notice = .waiting
      ∧ ((lostAfter outstanding).record 3).notice = .outstanding := by decide +kernel

/-- No slot is FREE. -/
def fullTable : State := world.setOccupied (List.finRange 1024)

theorem test_meets_OpenCreatesRecord :
    ((asking 0 openPayload idle).Asks 0 openPayload ∧ requestOf openPayload = some .openRecord
      ∧ (parseOpen openPayload).isSome = true
      ∧ (asking 0 openPayload idle).ownedCount 0 < (asking 0 openPayload idle).portTable.quota[(0 : Port)]
      ∧ (asking 0 openPayload idle).lowestFree = some 0
      ∧ (0 : SlotIx) ∉ ((asking 0 openPayload idle).checkedRead 0).table.owned[(0 : Port)]
      ∧ (0 : SlotIx) ∉ ((asking 0 openPayload idle).checkedRead 0).table.occupied)
    ∧ (∃ q : Vector Nat 4, q[(0 : Port)] ≤ (asking 0 openPayload idle).ownedCount 0)
    ∧ fullTable.lowestFree = none ∧ idle.table.wf := by
  simp only [asks_iff]
  exact ⟨by decide +kernel, ⟨Vector.replicate 4 1, by decide +kernel⟩, by decide +kernel, by decide +kernel⟩

/-- READ of slot 3 at port 1. -/
def reading (s : State) : State := asking 1 (onSample 0x03 []) s

theorem test_meets_ReadReportsRecord :
    (reading idle).Asks 1 (onSample 0x03 []) ∧ parseHandleOnly (onSample 0x03 []) = some ⟨3, 5⟩
      ∧ (((reading idle).checkedRead 3).record 3).generation = 5
      ∧ (((reading idle).checkedRead 3).record 3).fault = none
      ∧ (((reading (timingLost idle)).checkedRead 3).record 3).fault = some .timing
      ∧ (((reading (timingLost idle)).checkedRead 3).record 3).timingLost = true
      ∧ (((reading (identityLost idle)).checkedRead 3).record 3).fault = some .identity
      ∧ (((reading (identityLost idle)).checkedRead 3).record 3).timingCheck = .passing
      ∧ (((reading (identityLost idle)).checkedRead 3).record 3).timingLost = false
      ∧ (((reading (identityLost (timingLost idle))).checkedRead 3).record 3).timingCheck
          = .uncorrectable
      ∧ (((reading (identityLost (timingLost idle))).checkedRead 3).record 3).fault = some .identity
      ∧ (((reading (identityLost (timingLost idle))).checkedRead 3).record 3).timingLost = false
      ∧ (((reading (lostAfter idle)).checkedRead 3).record 3).fault = some .identity
      ∧ (((reading (lostAfter idle)).checkedRead 3).record 3).timingLost = true := by
  simp only [asks_iff]; decide +kernel

/-- A SET of slot 3 at port 0 that selects the class. -/
def setPayload : List Octet := onSample 0x04 [0x10, 0, 0, 0, 0, 0, 0, 0, 0, 1, 0, 0, 0, 0, 0, 0, 0, 0]

theorem test_meets_SetWritesSelectedFields :
    (asking 0 setPayload pending).Asks 0 setPayload ∧ requestOf setPayload = some .setRecord
      ∧ (parseSet setPayload).map (fun f => (f.handle, f.cls, f.cookie)) = some (⟨3, 5⟩, some .held, none)
      ∧ (asking 0 setPayload pending).LetsThrough .setRecord setPayload
      ∧ (((asking 0 setPayload pending).checkedRead 3).record 3).OpenTo 0 ⟨3, 5⟩
      ∧ (((asking 0 setPayload pending).checkedRead 3).record 3).notice ≠ .clear
      ∧ (((asking 0 setPayload idle).checkedRead 3).record 3).notice = .clear
      ∧ (((asking 0 setPayload idle).checkedRead 3).record 3).OpenTo 0 ⟨3, 5⟩ := by
  simp only [asks_iff]; decide +kernel

theorem test_meets_CloseRetiresRecord :
    ((asking 0 (onSample 0x02 []) pending).Asks 0 (onSample 0x02 [])
      ∧ requestOf (onSample 0x02 []) = some .closeRecord
      ∧ (asking 0 (onSample 0x02 []) pending).LetsThrough .closeRecord (onSample 0x02 [])
      ∧ (((asking 0 (onSample 0x02 []) pending).readSlot 3).record 3).OpenTo 0 ⟨3, 5⟩
      ∧ ((asking 0 (onSample 0x02 []) pending).readSlot 3).NoOtherBlocked 3
      ∧ ((asking 0 (onSample 0x02 []) pending).readSlot 3).entryOf 3 = some (.queued 1, entry)
      ∧ ((asking 0 (onSample 0x02 []) idle).readSlot 3).entryOf 3 = none)
    ∧ (asking 0 (onSample 0x3D []) (identityLost idle)).Asks 0 (onSample 0x3D [])
      ∧ requestOf (onSample 0x3D []) = some .forceClose
      ∧ (asking 0 (onSample 0x3D []) (identityLost idle)).portTable.supervisor = 0
      ∧ (((asking 0 (onSample 0x3D []) (identityLost idle)).readSlot 3).record 3).fault = some .identity := by
  simp only [asks_iff]; decide +kernel

/-- An ARM of slot 3 at an absolute time, time max. -/
def armAbsolute : List Octet := onSample 0x05 [0, 0, 255, 255, 255, 255, 255, 255, 255]

/-- An ARM of slot 3 with the longest interval. -/
def armRelative : List Octet := onSample 0x05 [1, 0, 0, 0, 255, 255, 255, 255, 255]

theorem test_meets_ArmQueuesRecord :
    ∀ s ∈ [idle, queued, armed, paused],
      (asking 0 armAbsolute s).Asks 0 armAbsolute ∧ requestOf armAbsolute = some .arm
        ∧ parseArm armAbsolute = some (⟨3, 5⟩, .absolute 0xFFFFFFFFFFFFFF)
        ∧ (asking 0 armAbsolute s).LetsThrough .arm armAbsolute
        ∧ (((asking 0 armAbsolute s).checkedRead 3).record 3).OpenTo 0 ⟨3, 5⟩
        ∧ ((asking 0 armAbsolute s).checkedRead 3).expiry.listState ≠ .failed
        ∧ parseArm armRelative = some (⟨3, 5⟩, .relative 0xFFFFFFFFFF)
        ∧ (asking 0 armRelative s).timeBase.now.toNat + (0xFFFFFFFFFF : Interval).toNat ≤ Config.timeMax := by
  simp only [asks_iff]; decide +kernel

/-- The deadline list has failed. -/
def failed (s : State) : State := { s with expiry := { s.expiry with listState := .failed } }

/-- The time is time max. -/
def atTimeMax (s : State) : State := { s with timeBase := { s.timeBase with now := 0xFFFFFFFFFFFFFF } }

theorem test_meets_ArmingIsRefused :
    (∀ s ∈ [failed idle, atTimeMax idle], (asking 0 armRelative s).Asks 0 armRelative
      ∧ (asking 0 armRelative s).LetsThrough .arm armRelative
      ∧ (((asking 0 armRelative s).checkedRead 3).record 3).OpenTo 0 ⟨3, 5⟩)
    ∧ ((asking 0 armRelative (failed idle)).checkedRead 3).expiry.listState = .failed
    ∧ Config.timeMax < (atTimeMax idle).timeBase.now.toNat + (0xFFFFFFFFFF : Interval).toNat
    ∧ (∀ s ∈ [idle, failed paused, atTimeMax paused], (asking 0 (onSample 0x08 []) s).Asks 0 (onSample 0x08 [])
      ∧ (asking 0 (onSample 0x08 []) s).LetsThrough .resume (onSample 0x08 [])
      ∧ (((asking 0 (onSample 0x08 []) s).checkedRead 3).record 3).OpenTo 0 ⟨3, 5⟩)
    ∧ (asking 0 (onSample 0x07 []) idle).Asks 0 (onSample 0x07 [])
    ∧ requestOf (onSample 0x07 []) = some .pause ∧ requestOf (onSample 0x08 []) = some .resume
    ∧ parseHandleOnly (onSample 0x07 []) = some ⟨3, 5⟩
    ∧ (idle.record 3).sched ≠ .armed ∧ (idle.record 3).sched ≠ .queued ∧ (idle.record 3).sched ≠ .paused
    ∧ ((atTimeMax paused).record 3).remaining = some 40
    ∧ Config.timeMax < (atTimeMax paused).timeBase.now.toNat + (40 : Tick).toNat := by
  simp only [asks_iff]; decide +kernel

theorem test_meets_CancelMakesIdle :
    (∀ s ∈ [idle, queued, armed, paused, blocked, pending], (asking 0 (onSample 0x06 [1]) s).Asks 0 (onSample 0x06 [1])
      ∧ (asking 0 (onSample 0x06 [1]) s).LetsThrough .cancel (onSample 0x06 [1])
      ∧ (((asking 0 (onSample 0x06 [1]) s).checkedRead 3).record 3).OpenTo 0 ⟨3, 5⟩)
    ∧ requestOf (onSample 0x06 [1]) = some .cancel
    ∧ parseCancel (onSample 0x06 [1]) = some (⟨3, 5⟩, true) ∧ parseCancel (onSample 0x06 [0]) = some (⟨3, 5⟩, false)
    ∧ (((asking 0 (onSample 0x06 [1]) blocked).checkedRead 3).record 3).notice = .waiting
    ∧ (((asking 0 (onSample 0x06 [1]) pending).checkedRead 3).record 3).notice = .pending
    ∧ ((asking 0 (onSample 0x06 [1]) pending).checkedRead 3).entryOf 3 = some (.queued 1, entry)
    ∧ ((asking 0 (onSample 0x06 [1]) pending).checkedRead 3).notices.blocked = [] := by
  simp only [asks_iff]; decide +kernel

theorem test_meets_PauseAndResumeKeepInterval :
    (∀ s ∈ [queued, armed], (asking 0 (onSample 0x07 []) s).Asks 0 (onSample 0x07 [])
      ∧ (asking 0 (onSample 0x07 []) s).LetsThrough .pause (onSample 0x07 [])
      ∧ (((asking 0 (onSample 0x07 []) s).checkedRead 3).record 3).OpenTo 0 ⟨3, 5⟩
      ∧ (((asking 0 (onSample 0x07 []) s).checkedRead 3).record 3).deadline = some 100)
    ∧ (asking 0 (onSample 0x08 []) paused).Asks 0 (onSample 0x08 [])
    ∧ (((asking 0 (onSample 0x08 []) paused).checkedRead 3).record 3).OpenTo 0 ⟨3, 5⟩
    ∧ (((asking 0 (onSample 0x08 []) paused).checkedRead 3).record 3).sched = .paused
    ∧ (((asking 0 (onSample 0x08 []) paused).checkedRead 3).record 3).remaining = some 40
    ∧ ((asking 0 (onSample 0x08 []) paused).checkedRead 3).expiry.listState ≠ .failed
    ∧ (Config.timeMax - 40) + (40 : Tick).toNat ≤ Config.timeMax := by
  simp only [asks_iff]; decide +kernel

/-- The QUEUED record is the rebuild part of a REBUILDING list. -/
def rebuilding (s : State) : State :=
  { s with expiry := { s.expiry with listState := .rebuilding, restarts := 2 },
           placement := { s.placement with rebuildPart := 1 } }

theorem test_cancel_ends_rebuild :
    after (.cancel 0) (asking 0 (onSample 0x06 [0]) (rebuilding queued))
        (fun t => (t.placement.rebuildPart, t.expiry.listState, t.expiry.restarts)) = some (0, .normal, 0)
      ∧ after (.cancel 0) (asking 0 (onSample 0x06 [0]) (rebuilding idle))
        (fun t => (t.placement.rebuildPart, t.expiry.listState, t.expiry.restarts)) = some (1, .rebuilding, 2) := by
  decide +kernel

/-- Pool 5 has ports 2 and 1, of which port 1 alone is UP. -/
def pooled (s : State) : State := s.setPool 5 [2, 1]

theorem test_meets_EntriesJoinInOrder :
    (pooled idle).notices.holding[(5 : Pool)] = [] ∧ (pooled idle).marked entry = false
      ∧ (pooled idle).pools[(5 : Pool)] = [2] ++ 1 :: [] ∧ (pooled idle).accepting 2 = false
      ∧ (pooled idle).accepting 1 = true ∧ (∀ m ∈ idle.pools[(5 : Pool)], idle.accepting m = false)
      ∧ (put { sample with mark := some 1 } world).marked entry = true
      ∧ ((held.settle).notices.holding[(5 : Pool)]).length = 1
      ∧ held.notices.holding[(5 : Pool)] ≠ [] ∧ held.marked { entry with slot := some 4 } = false
      ∧ idle.freeGeneral = some 0 ∧ (full idle).freeGeneral = none
      ∧ idle.freeReserve 3 = some 254
      ∧ (idle.modifyQueue 3 fun _ => [{ entry with number := 254 }, { entry with number := 255 }]).freeReserve 3
          = none := by
  decide +kernel

/-- Pools 0 and 5 hold entries for ports 2 and 1, the head of pool 5 with a marked record; port 1 has room for one. -/
def shared : State :=
  let held0 := { entry with slot := some 3, destination := .pool 0, assigned := none }
  let held5 := { entry with slot := some 5, destination := .pool 5, assigned := none, number := 1 }
  (((((put sample world).setRecord 4 { sample with mark := some 1 }).setPool 0 [2, 1]).setPool 5 [2, 1]).modifyHolding 0
    fun _ => [held0]).modifyHolding 5 fun _ => [{ held5 with slot := some 4, number := 2 }, held5]

/-- The head's entry is passed over, the entry behind it goes to the first accepting member, and pool 0 goes first. -/
theorem test_meets_EntriesJoinInOrder_service :
    (∃ front e back, shared.notices.holding[(5 : Pool)] = front ++ e :: back ∧ front ≠ []
      ∧ (∀ x ∈ front, shared.marked x = true) ∧ shared.marked e = false)
    ∧ shared.pools[(5 : Pool)] = [2] ++ 1 :: [] ∧ shared.accepting 2 = false ∧ shared.accepting 1 = true
    ∧ (shared.servePool 5).notices.holding[(5 : Pool)].map Entry.slot = [some 4]
    ∧ (shared.servePool 5).notices.queues[(1 : Port)].map Entry.slot = [some 5]
    ∧ (shared.servePool 5).pools[(5 : Pool)] = [2, 1]
    ∧ (State.settle { shared with portTable := { shared.portTable with limit := Vector.replicate 4 1 } }).notices.queues[
        (1 : Port)].map Entry.slot = [some 3] :=
  ⟨⟨[_], _, [], rfl, by simp, by decide +kernel, by decide +kernel⟩, by decide +kernel⟩

/-- The head of the blocked list with a record as given. -/
def blockedWith (r : Record) : State := { put r world with notices := blocked.notices }

/-- A DAMAGED record whose identity is lost: its copies stay uncorrectable. -/
def noIdentity : Record :=
  { sample with sched := .damaged, fault := some .identity, generation := 0, owner := none, tag := 0,
                copyA := .uncorrectable, copyB := .uncorrectable }

theorem test_meets_BlockedHeadIsServed :
    (∀ r ∈ [sample, { sample with mark := some 1 }, { sample with sched := .damaged, fault := some .timing },
        { sample with sched := .damaged, fault := some .timing, owner := some 2 },
        { sample with target := .port 2 }],
      (blockedWith r).notices.blocked = [⟨3, .firing 100 100 false false⟩]
        ∧ (blockedWith r).freeGeneral = some 0 ∧ ((blockedWith r).record 3).ChecksPass
        ∧ ((blockedWith r).record 3).sched ≠ .free)
    ∧ (∀ r ∈ [noIdentity, { noIdentity with timingCheck := .uncorrectable },
        { noIdentity with timingLost := true, timingCheck := .correctable }],
      (blockedWith r).notices.blocked = [⟨3, .firing 100 100 false false⟩]
        ∧ (blockedWith r).freeGeneral = some 0 ∧ ¬ ((blockedWith r).record 3).ChecksPass
        ∧ (blockedWith r).checkedRead 3 = blockedWith r
        ∧ ((blockedWith r).record 3).sched = .damaged ∧ ((blockedWith r).record 3).mark = none
        ∧ ((blockedWith r).record 3).fault = some .identity)
    ∧ world.isUp (world.faultPort noIdentity) = true
    ∧ (∀ s ∈ [{ blockedWith noIdentity with portTable := { world.portTable with supervisor := 2 } }],
      s.checkedRead 3 = s ∧ s.freeGeneral = some 0 ∧ s.isUp (s.faultPort (s.record 3)) = false)
    ∧ world.isUp (world.faultPort { sample with sched := .damaged, fault := some .timing }) = true
    ∧ world.isUp (world.faultPort { sample with sched := .damaged, fault := some .timing, owner := some 2 })
        = false
    ∧ world.isUp 1 = true ∧ world.isUp 2 = false := by
  decide +kernel

/-- The sample record's notice is queued at port 1 with a HELD notice of slot 4 and a SWEEP-DONE entry behind it. -/
def several : State :=
  (pending.setRecord 4 { sample with cls := .held, notice := .pending }).modifyQueue 1 fun _ =>
    [entry, { entry with number := 1, slot := some 4, cls := .held, stamp := 1 },
     { entry with number := 250, kind := .sweepDone, slot := none, stamp := 2 }]

theorem test_meets_TakeDelivers :
    (∀ n ∈ [1, 8], (asking 1 [0x10, n] several).Asks 1 [0x10, n] ∧ requestOf [0x10, n] = some .take
      ∧ (parseTake [0x10, n]).isSome = true)
    ∧ ((asking 1 [0x10, 8] several).readSlots ((asking 1 [0x10, 8] several).queuedSlots 1)).notices.queues[(1 : Port)]
        = several.notices.queues[(1 : Port)]
    ∧ (several.notices.queues[(1 : Port)].map fun e => (e.kind, e.cls, e.slot))
        = [(.expiry, .plain, some 3), (.expiry, .held, some 4), (.sweepDone, .plain, none)]
    ∧ (∀ e ∈ several.notices.queues[(1 : Port)], several.marked e = false) ∧ several.notices.blocked = []
    ∧ (∀ i ∈ [(3 : SlotIx), 4], ∃ e,
        several.notices.queues[(1 : Port)].filter (fun x => decide (x.slot = some i)) = [e])
    ∧ (asking 1 [0x10, 8] idle).notices.queues[(1 : Port)] = []
    ∧ ¬ ((several.record 3).disposal = .closeAfter ∧ (several.record 3).sched = .idle
        ∧ (several.record 3).period = none) := by
  simp only [asks_iff]
  have one : ∀ i ∈ [(3 : SlotIx), 4],
      (several.notices.queues[(1 : Port)].filter fun x => decide (x.slot = some i)).length = 1 := by decide +kernel
  refine ⟨by decide +kernel, ?_, ?_, ?_, ?_, fun i h => List.length_eq_one_iff.mp (one i h), ?_, ?_⟩ <;> decide +kernel

theorem test_take_of_several :
    after (.take 1) (asking 1 [0x10, 8] several)
      (fun t => ((reply 1 t).map (·.take 3), (t.record 3).notice, (t.record 4).notice,
        t.entries.map (·.number))) = some (some [0x00, 3, 0], .clear, .outstanding, [1]) := by decide +kernel

/-- A FAULT entry of the sample record. -/
def faultEntry (part : FaultPart) : Entry :=
  { entry with kind := .fault, firedDeadline := none, firedAt := none, faultPart := some part }

/-- A SWEEP-DONE entry. -/
def sweepEntry : Entry :=
  { entry with kind := .sweepDone, slot := none, firedDeadline := none, firedAt := none,
               sweepNumber := some 255, retired := 1024 }

theorem test_meets_DescriptorLayout :
    (entry.kind = .expiry ∧ entry.slot = some 3 ∧ entry.firedDeadline = some 100 ∧ entry.firedAt = some 100
      ∧ entry.abandoned = false ∧ entry.faultPart = none)
    ∧ (∀ part ∈ [FaultPart.timing, .identity], (faultEntry part).kind = .fault ∧ (faultEntry part).slot = some 3
      ∧ (faultEntry part).firedDeadline = none ∧ (faultEntry part).firedAt = none ∧ (faultEntry part).late = false
      ∧ (faultEntry part).early = false ∧ (faultEntry part).rangeEnd = false
      ∧ (faultEntry part).abandoned = false ∧ (faultEntry part).faultPart = some part)
    ∧ sweepEntry.kind = .sweepDone ∧ sweepEntry.slot = none ∧ sweepEntry.sweepNumber = some 255
    ∧ sweepEntry.firedAt = none ∧ sweepEntry.late = false ∧ sweepEntry.early = false ∧ sweepEntry.delayed = false
    ∧ sweepEntry.rangeEnd = false ∧ sweepEntry.faultPart = none := by decide +kernel

/-- An ACK of slot 3 with the longest rearm interval. -/
def ackRearm : List Octet := onSample 0x11 [1, 0, 255, 255, 255, 255, 255]

/-- An ACK of slot 3 without a rearm interval. -/
def ackPlain : List Octet := onSample 0x11 [0, 0, 0, 0, 0, 0, 0]

/-- The outstanding record with changes. -/
def outstandingWith (f : Record → Record) : State := outstanding.modify 3 f

theorem test_meets_AckConsumesNotice :
    (∀ pl ∈ [ackPlain, ackRearm], ∀ s ∈ [outstanding, pending, failed outstanding, atTimeMax outstanding,
        outstandingWith fun r => { r with disposal := .closeAfter },
        outstandingWith fun r => { r with period := some 9 },
        outstandingWith fun r => { r with sched := .damaged, fault := some .timing },
        outstandingWith fun r => { r with sched := .damaged, fault := some .timing, owner := some 2 }],
      (asking 1 pl s).Asks 1 pl ∧ requestOf pl = some .ack
        ∧ (((asking 1 pl s).readSlot 3).record 3).sched ≠ .free
        ∧ (((asking 1 pl s).readSlot 3).record 3).generation = 5
        ∧ (((asking 1 pl s).readSlot 3).record 3).mark = none)
    ∧ parseAck ackPlain = some (⟨3, 5⟩, none) ∧ parseAck ackRearm = some (⟨3, 5⟩, some 0xFFFFFFFFFF)
    ∧ (pending.record 3).notice ≠ .outstanding
    ∧ ((outstandingWith fun r => { r with holder := some 0 }).record 3).holder ≠ some 1
    ∧ ((asking 1 ackPlain outstanding).readSlot 3).notices.outstanding[(1 : Port)].find?
        (fun x => decide (x.slot = some 3)) = some { entry with cls := .held, deliveries := 1 }
    ∧ Config.timeMax < (atTimeMax outstanding).timeBase.now.toNat + (0xFFFFFFFFFF : Interval).toNat
    ∧ outstanding.timeBase.now.toNat + (0xFFFFFFFFFF : Interval).toNat ≤ Config.timeMax
    ∧ (∀ b ∈ outstanding.notices.blocked, b.slot ≠ 3) ∧ outstanding.expiry.listState ≠ .failed
    ∧ (failed outstanding).expiry.listState = .failed
    ∧ outstanding.isUp (outstanding.faultPort { sample with sched := .damaged, fault := some .timing }) = true
    ∧ outstanding.isUp (outstanding.faultPort { sample with sched := .damaged, fault := some .timing, owner := some 2 })
        = false := by
  simp only [asks_iff]; decide +kernel

/-- The outstanding notice was aimed at pool 5. -/
def outstandingOfPool (order : List Port) : State :=
  (outstanding.modifyOutstanding 1 fun _ =>
    [{ entry with cls := .held, deliveries := 1, destination := .pool 5 }]).setPool 5 order

theorem test_meets_ReleaseGivesBack :
    (∀ s ∈ [outstanding, pending, outstandingOfPool [1, 0], outstandingOfPool [1], outstandingOfPool []],
      (asking 1 (onSample 0x12 []) s).Asks 1 (onSample 0x12 [])
        ∧ (((asking 1 (onSample 0x12 []) s).checkedRead 3).record 3).sched = .idle
        ∧ (((asking 1 (onSample 0x12 []) s).checkedRead 3).record 3).generation = 5
        ∧ (((asking 1 (onSample 0x12 []) s).checkedRead 3).record 3).mark = none)
    ∧ requestOf (onSample 0x12 []) = some .release ∧ parseHandleOnly (onSample 0x12 []) = some ⟨3, 5⟩
    ∧ (pending.record 3).notice ≠ .outstanding ∧ (outstanding.record 3).holder = some 1
    ∧ ((outstandingWith fun r => { r with holder := some 0 }).record 3).holder ≠ some 1
    ∧ (outstandingOfPool [1, 0]).pools[(5 : Pool)].find?
        (fun m => decide (m ≠ 1) && (outstandingOfPool [1, 0]).accepting m) = some 0
    ∧ (outstandingOfPool [1]).pools[(5 : Pool)].find?
        (fun m => decide (m ≠ 1) && (outstandingOfPool [1]).accepting m) = none
    ∧ (1 : Port) ∈ (outstandingOfPool [1]).pools[(5 : Pool)]
    ∧ (outstandingOfPool [1]).notices.queues[(1 : Port)].length
        + (outstandingOfPool [1]).notices.outstanding[(1 : Port)].length ≤ 64
    ∧ (1 : Port) ∉ (outstandingOfPool []).pools[(5 : Pool)]
    ∧ ∀ m : Pool, (outstandingOfPool [1]).notices.holding[m] = [] := by
  simp only [asks_iff]; decide +kernel

theorem test_meets_ThresholdIsSet :
    (∀ v ∈ [0, 7], (asking 1 [0x13, v] pending).Asks 1 [0x13, v] ∧ requestOf [0x13, v] = some .attentionSet
      ∧ (parseThreshold [0x13, v]).isSome = true)
    ∧ (asking 1 [0x13, 8] pending).Asks 1 [0x13, 8] ∧ parseThreshold [0x13, 8] = none
    ∧ 7 < octetAt [0x13, 8] 1 ∧ exec .deviceReset idle ≠ exec .tick idle := by
  simp only [asks_iff]
  refine ⟨by decide +kernel, by decide +kernel, by decide +kernel, by decide +kernel, ?_⟩
  intro h
  have := congrArg (fun o => match o with
    | Host.Outcome.next t => t.table.occupied
    | Host.Outcome.fault _ => []
    | Host.Outcome.refused _ => []) h
  exact absurd this (by decide +kernel)

theorem test_meets_PoolIsSet :
    (∀ pl ∈ [[0x18, 0], [0x18, 7, 3, 2, 1, 0]], ∀ s ∈ [idle, held],
      (asking 0 pl s).Asks 0 pl ∧ requestOf pl = some .poolSet ∧ (parsePoolSet pl).isSome = true
        ∧ (asking 0 pl s).portTable.supervisor = 0)
      ∧ (∀ m : Pool, idle.notices.holding[m] = []) ∧ held.notices.holding[(5 : Pool)] ≠ [] := by
  simp only [asks_iff]; decide +kernel

theorem test_meets_TimeReadReports :
    (∀ q, ((asking 1 [0x28] armed).hold 1 3).nextRequest 1 = some q →
        q.condition ≠ .waiting ∨ requestOf q.payload ≠ some .timeRead)
    ∧ (asking 1 [0x28] armed).Asks 1 [0x28] ∧ requestOf [0x28] = some .timeRead
    ∧ (asking 1 [0x28, 0] armed).Asks 1 [0x28, 0] ∧ (asking 1 [0x28] armed).timeBase.mode = .running := by
  have h : ((asking 1 [0x28] armed).hold 1 3).nextRequest 1 = some ⟨0, [0x28], .held 3⟩ := by decide +kernel
  rw [h]
  simp only [asks_iff]
  refine ⟨fun q e => ?_, by decide +kernel⟩
  cases e; exact .inl (by decide)

/-- A FROZEN time base with two periods to a tick, at a phase. -/
def frozen (phase : Nat) : State := { world with timeBase := ⟨5, .frozen, 2, none, phase⟩ }

theorem test_meets_TimeRunStartsTicks :
    (∀ s ∈ [frozen 0, frozen 1, atTimeMax world, armed], (asking 0 [0x2A] s).Asks 0 [0x2A]
      ∧ (asking 0 [0x2A] s).portTable.supervisor = 0)
    ∧ requestOf [0x2A] = some .timeRun ∧ (asking 1 [0x2A] world).Asks 1 [0x2A]
    ∧ (frozen 0).timeBase.phase + 1 < (frozen 0).timeBase.prescaler
    ∧ (frozen 1).timeBase.prescaler ≤ (frozen 1).timeBase.phase + 1
    ∧ (atTimeMax world).timeBase.now.toNat = Config.timeMax ∧ (atTimeMax world).timeBase.mode = .frozen
    ∧ armed.timeBase.mode ≠ .frozen := by
  simp only [asks_iff]; decide +kernel

/-- A TIME-SET to time max. -/
def timeSetMax : List Octet := [0x29, 0, 255, 255, 255, 255, 255, 255, 255]

theorem test_meets_TimeBaseIsWritten :
    (∀ pl ∈ [timeSetMax, [0x29, 0, 0, 0, 0, 0, 0, 0, 0], [0x2B], [0x2C, 0, 1], [0x2C, 16, 0]],
      ∀ s ∈ [world, armed], (asking 0 pl s).Asks 0 pl ∧ (asking 0 pl s).portTable.supervisor = 0)
    ∧ requestOf timeSetMax = some .timeSet ∧ timeSetMax.length = 9
    ∧ (0xFFFFFFFFFFFFFF : Tick).toNat = fieldAt timeSetMax 1 8 ∧ (0xFFFFFFFFFFFFFF : Tick).toNat = Config.timeMax
    ∧ requestOf [0x2B] = some .timeFreeze ∧ requestOf [0x2C, 0, 1] = some .prescale
    ∧ fieldAt [0x2C, 0, 1] 1 2 = 1 ∧ fieldAt [0x2C, 16, 0] 1 2 = 4096 := by
  simp only [asks_iff]; decide +kernel

/-- A RUNNING time base one tick below time max, with a scrubber as given. -/
def lastTick (interval ticks : Nat) : State :=
  { world with timeBase := ⟨0xFFFFFFFFFFFFFE, .running, 1, none, 0⟩, scrubber := ⟨interval, ticks, 0, 0, 0⟩ }

theorem test_meets_TickAdvancesTime :
    world.timeBase.mode ≠ .running ∧ (lastTick 0 0).timeBase.mode = .running
      ∧ (lastTick 0 0).timeBase.now.toNat < Config.timeMax ∧ (lastTick 0 0).scrubber.interval = 0
      ∧ (lastTick 2 0).scrubber.ticks + 1 < (lastTick 2 0).scrubber.interval
      ∧ (lastTick 2 1).scrubber.interval ≤ (lastTick 2 1).scrubber.ticks + 1
      ∧ (lastTick 1 0).scrubber.interval ≤ (lastTick 1 0).scrubber.ticks + 1 := by decide +kernel

theorem test_meets_ScrubberVisits :
    (∀ pl ∈ [[0x30, 0, 0], [0x30, 255, 255]], (asking 0 pl world).Asks 0 pl ∧ requestOf pl = some .scrubSet
      ∧ (asking 0 pl world).portTable.supervisor = 0)
    ∧ world.scrubber.visitsDue = 0 ∧ (visiting .frozen 3 armed).timeBase.mode ≠ .running
    ∧ 0 < (visiting .running 3 armed).scrubber.visitsDue ∧ (visiting .running 3 armed).timeBase.mode = .running
    ∧ ((({ armedWith sample false with scrubber := ⟨1, 0, 4, 0, 0⟩ } : State).checkedRead 3).record 3).sched = .armed
    ∧ (∃ m ∈ (armedWith sample false).expiry.list, m.slot = 3 ∧ m.linkHolds = false)
    ∧ (armedWith sample false).expiry.listState ≠ .failed
    ∧ ¬ ∃ m ∈ armed.expiry.list, m.slot = 3 ∧ m.linkHolds = false := by
  simp only [asks_iff]; decide +kernel

theorem test_meets_PlacementTakesHead :
    placing.placement.carried ≠ none ∧ (failed queued).expiry.listState = .failed
      ∧ idle.placement.queue = [] ∧ queued.placement.carried = none ∧ queued.expiry.listState ≠ .failed
      ∧ queued.placement.queue = 3 :: [] ∧ ((queued.checkedRead 3).record 3).sched = .queued
      ∧ ((queued.checkedRead 3).record 3).mark = none
      ∧ (((timingLost queued).checkedRead 3).record 3).sched ≠ .queued
      ∧ (((queued.modify 3 fun r => { r with mark := some 1 }).checkedRead 3).record 3).mark ≠ none := by
  decide +kernel

/-- The placement of slot 3 with a record as given, behind a member of slot 4 whose link may have failed. -/
def placingWith (f : Record → Record) (holds overtaken : Bool) : State :=
  { (placing.modify 3 f).setRecord 4 { sample with sched := .armed, deadline := some 100 } with
    placement := { queue := [], rebuildPart := 0, carried := some ⟨3, 5, false, overtaken⟩ }
    expiry := { list := [⟨4, holds⟩], listState := .normal, restarts := 0, firing := none } }

theorem test_meets_PlacementEnds :
    ((placingWith id false false).placementReads ⟨3, 5, false, false⟩).2 = true
      ∧ ((placingWith id true false).placementReads ⟨3, 5, false, false⟩).2 = false
      ∧ (placingWith id true false).placement.carried = some ⟨3, 5, false, false⟩
      ∧ (((placingWith id true false).placementReads ⟨3, 5, false, false⟩).1.record 3).sched = .placing
      ∧ (((placingWith id true false).placementReads ⟨3, 5, false, false⟩).1.record 3).mark = none
      ∧ (placingWith id true false).listOrder.Nodup ∧ ((placingWith id true false).record 3).ChecksPass
      ∧ (∀ m ∈ (placingWith id true false).expiry.list, ((placingWith id true false).record m.slot).ChecksPass
        ∧ ((placingWith id true false).record m.slot).sched = .armed)
      ∧ ((placingWith id true true).placementReads ⟨3, 5, false, true⟩).2 = false
      ∧ ((placingWith (fun r => { r with mark := some 1 }) true false).placementReads ⟨3, 5, false, false⟩).2 = false
      ∧ ((placingWith (fun r => { r with mark := some 1 }) true false).readSlot 3).record 3
          = { sample with sched := .placing, deadline := some 100, mark := some 1 }
      ∧ ((placingWith (fun r => { r with generation := 6 }) true false).placementReads ⟨3, 5, false, false⟩).2 = false
      ∧ (((placingWith (fun r => { r with generation := 6 }) true false).readSlot 3).record 3).generation ≠ 5
      ∧ ((((timingLost (placingWith id true false))).readSlot 3).record 3).sched ≠ .placing := by
  decide +kernel

theorem test_meets_ListFaultRebuilds :
    idle.expiry.list = [] ∧ (failed armed).expiry.listState = .failed ∧ armed.expiry.list ≠ []
      ∧ armed.expiry.listState ≠ .failed ∧ armed.placement.carried = none
      ∧ (placingWith id true false).placement.carried ≠ none ∧ (armed.readAll armed.armedSlots).table.wf
      ∧ (armed.readAll armed.armedSlots).armedSlots = [3]
      ∧ ((timingLost armed).readAll (timingLost armed).armedSlots).armedSlots = [] := by decide +kernel

/-- A record due at 100 with a period and a policy. -/
def periodic (d : Tick) (v : Interval) (p : Policy) : Record :=
  { sample with deadline := some d, period := some v, policy := p }

theorem test_meets_NextDeadlineFollowsPolicy :
    sample.period = none ∧ (periodic 100 30 .aligned).period = some 30
      ∧ (130 : Tick).toNat = (periodic 100 30 .aligned).due + (30 : Interval).toNat
      ∧ Config.timeMax < (periodic 0xFFFFFFFFFFFFFF 1 .aligned).due + (1 : Interval).toNat
      ∧ (periodic 100 30 .skip).policy = .skip ∧ (30 : Interval) ≠ 0
      ∧ (periodic 100 30 .skip).reschedule 130 = .next 160 1
      ∧ (periodic 100 30 .skip).reschedule 129 = .next 130 0
      ∧ (periodic 0xFFFFFFFFFFFFFF 1 .skip).reschedule Config.timeMax = .rangeEnd := by decide +kernel

theorem test_meets_DueHeadFires :
    idle.expiry.list = [] ∧ (armedWith sample true).expiry.list = ⟨3, true⟩ :: []
      ∧ (armed.record 3).due ≤ armed.timeBase.now.toNat ∧ (armed.record 3).mark = none
      ∧ ({ armed with timeBase := ⟨99, .running, 1, none, 0⟩ } : State).timeBase.now.toNat < (armed.record 3).due
      ∧ (armedWith sample false).expiry.list = ⟨3, false⟩ :: []
      ∧ ((armed.checkedRead 3).record 3).sched = .armed ∧ ((armed.checkedRead 3).record 3).notice = .clear
      ∧ (∃ m ∈ (armedWith sample false).expiry.list, m.slot = 3 ∧ m.linkHolds = false)
      ∧ (∀ m ∈ armed.expiry.list, m.slot = 3 → m.linkHolds = true)
      ∧ (((timingLost armed).checkedRead 3).record 3).sched ≠ .armed
      ∧ (((armedWith { sample with mark := some 7 } true).checkedRead 3).record 3).mark ≠ none
      ∧ (armed.checkedRead 3).freeGeneral = some 0 ∧ ((full armed).checkedRead 3).freeGeneral = none
      ∧ (armedWith { sample with notice := .waiting } true).listOrder = [3]
      ∧ armed.isUp 2 = false ∧ ((armed.record 3).reschedule 100 = .oneShot)
      ∧ ((armedWith { sample with period := some 30 } true).record 3).reschedule 100 = .next 130 0 := by
  decide +kernel

theorem test_meets_CompanionsFireEarly :
    armed.expiry.firing = none ∧ (searching sample).expiry.firing = some ⟨4, 0, .port 1, [3], 0⟩
      ∧ (∀ m ∈ (searching sample).expiry.list, m.slot = 3 → m.linkHolds = true)
      ∧ (∃ m ∈ (armedWith sample false).expiry.list, m.slot = 3 ∧ m.linkHolds = false)
      ∧ (((searching { sample with slack := 10 }).checkedRead 3).record 3).target = .port 1
      ∧ (((searching { sample with slack := 10 }).checkedRead 3).record 3).due
          ≤ (searching { sample with slack := 10 }).timeBase.now.toNat + (10 : BitVec 16).toNat
      ∧ (searching { sample with slack := 9 }).timeBase.now.toNat + (9 : BitVec 16).toNat
          < (((searching { sample with slack := 9 }).checkedRead 3).record 3).due
      ∧ (((searching sample).checkedRead 3).record 3).sched = .armed
      ∧ ((searching sample).checkedRead 3).freeGeneral = some 0
      ∧ ((timingLost (searching sample)).checkedRead 3).expiry.firing = none
      ∧ (((timingLost (searching sample)).checkedRead 3).record 3).sched ≠ .armed
      ∧ ((timingLost (searchingTwo sample)).checkedRead 3).expiry.firing = some ⟨5, 0, .port 1, [4], 0⟩
      ∧ (searching sample).isUp 1 = true := by decide +kernel

theorem test_meets_MarkedHeadIsRemoved :
    armed.expiry.list = ⟨3, true⟩ :: [] ∧ armed.expiry.listState = .normal ∧ armed.expiry.firing = none
      ∧ ((armed.checkedRead 3).record 3).mark = none ∧ (searching sample).expiry.firing ≠ none
      ∧ (((armedWith { sample with mark := some 7 } true).checkedRead 3).record 3).mark ≠ none
      ∧ (armedWith { sample with mark := some 7 } false).expiry.list = ⟨3, false⟩ :: []
      ∧ (((armedWith { sample with mark := some 7 } true).checkedRead 3).record 3).sched = .armed
      ∧ (((timingLost (armedWith { sample with mark := some 7 } true)).checkedRead 3).record 3).sched ≠ .armed := by
  decide +kernel

/-- A sweep of the kind given is queued first. -/
def sweepQueued (kind : SweepKind) (s : State) : State := { s with sweeps := ⟨[⟨7, kind⟩], none, none, 8⟩ }

theorem test_meets_SweepStartMarks :
    (sweeping .total 0 idle).sweeps.current ≠ none ∧ idle.sweeps.places = [] ∧ idle.sweeps.total = none
      ∧ (sweepQueued (.port 0) idle).sweeps.current = none
      ∧ (sweepQueued (.port 0) idle).sweeps.places = ⟨7, .port 0⟩ :: []
      ∧ ({ idle with sweeps := ⟨[], some ⟨7, .total⟩, none, 8⟩ } : State).sweeps.total = some ⟨7, .total⟩
      ∧ ((idle.readSlots idle.liveSlots).record 3).owner = some 0 ∧ ((idle.readSlots idle.liveSlots).record 3).tag = 2
      ∧ (((identityLost idle).readSlots (identityLost idle).liveSlots).record 3).fault = some .identity
      ∧ ((idle.readSlots idle.liveSlots).record 4).sched = .free
      ∧ (idle.readSlots idle.liveSlots).notices = idle.notices
      ∧ ((timingLost idle).readSlots (timingLost idle).liveSlots).notices ≠ (timingLost idle).notices := by
  decide +kernel

/-- Two TAG sweeps of port 0 and a TOTAL sweep are queued. -/
def sweepsFull : State :=
  { idle with sweeps := ⟨[⟨1, .tag 0 1 0⟩, ⟨2, .tag 0 1 0⟩], some ⟨3, .total⟩, none, 255⟩ }

theorem test_meets_SweepRequestsQueue :
    (∀ s ∈ [idle, sweepsFull, sweeping .total 0 idle], (asking 0 [0x20, 3, 0, 2] s).Asks 0 [0x20, 3, 0, 2]
      ∧ (asking 0 [0x21] s).Asks 0 [0x21] ∧ (asking 0 [0x21] s).portTable.supervisor = 0)
    ∧ requestOf [0x20, 3, 0, 2] = some .retireTag ∧ parseRetireTag [0x20, 3, 0, 2] = some (3, 2)
    ∧ requestOf [0x21] = some .clearAll
    ∧ 2 ≤ (sweepsFull.sweeps.places.filter (isTagSweepOf 0)).length
    ∧ (idle.sweeps.places.filter (isTagSweepOf 0)).length < 2
    ∧ sweepsFull.sweeps.total ≠ none ∧ idle.sweeps.total = none ∧ sweepsFull.sweeps.nextNumber = 255
    ∧ (sweeping .total 0 idle).sweeps.current ≠ none := by
  simp only [asks_iff]; decide +kernel

theorem test_meets_SweepVisitRetires :
    idle.sweeps.current = none ∧ (sweeping (.port 0) 1024 idle).sweeps.current = some ⟨⟨7, .port 0⟩, 2, 1024⟩
      ∧ (sweeping (.port 0) 1023 idle).sweeps.current = some ⟨⟨7, .port 0⟩, 2, (1023 : SlotIx).val⟩
      ∧ (((sweeping (.port 0) 1023 idle).readSlot 1023).record 1023).sched = .free
      ∧ (((sweeping (.port 0) 3 idle).readSlot 3).record 3).mark ≠ some 7
      ∧ (((sweeping (.port 0) 3 (put { sample with mark := some 7 } world)).readSlot 3).record 3).mark = some 7
      ∧ (((sweeping .total 3 (identityLost idle)).readSlot 3).record 3).fault = some .identity := by
  decide +kernel

theorem test_meets_TagAndPortSweepsEnd :
    (sweeping (.tag 0 2 1) 1023 world).sweeps.current = some ⟨⟨7, .tag 0 2 1⟩, 2, 1023⟩
      ∧ (sweeping (.tag 0 2 1) 1024 world).sweeps.current = some ⟨⟨7, .tag 0 2 1⟩, 2, 1024⟩
      ∧ world.isUp 1 = true ∧ world.freeReserve 1 = some 250 ∧ world.isUp 2 = false
      ∧ world.links[(2 : Port)].state ≠ .recovering
      ∧ (world.modifyLink 2 fun l => { l with state := .recovering, pendingWindow := some 4 }).links[(2 : Port)].pendingWindow
          = some 4
      ∧ ∀ k : Pool, world.notices.holding[k] = [] := by decide +kernel

/-- A TOTAL sweep at its end, with a TAG sweep of port 1 queued behind it. -/
def totalEnding : State :=
  { sweeping .total 1024 pending with
    sweeps := ⟨[⟨6, .tag 0 2 1⟩, ⟨5, .port 0⟩], none, some ⟨⟨7, .total⟩, 2, 1024⟩, 8⟩ }

theorem test_meets_TotalSweepEnds :
    totalEnding.sweeps.current = some ⟨⟨7, .total⟩, 2, 1024⟩
      ∧ totalEnding.sweeps.places.filter (isTagSweepOf 1) = [⟨6, .tag 0 2 1⟩]
      ∧ totalEnding.isUp 1 = true ∧ totalEnding.freeReserve 1 ≠ none
      ∧ totalEnding.portTable.supervisor = 0 ∧ totalEnding.sweeps.places.filter (isTagSweepOf 0) = []
      ∧ totalEnding.isUp 0 = true ∧ totalEnding.freeReserve 0 ≠ none
      ∧ (∃ e ∈ totalEnding.entries, e.slot = some 3) ∧ ∀ e ∈ totalEnding.entries, e.slot ≠ some 4 := by
  decide +kernel

/-- The TOTAL sweep at its end, with the TAG sweeps given still queued. -/
def totalEndingWith (places : List Sweep) : State :=
  { totalEnding with sweeps := { totalEnding.sweeps with places := places } }

theorem test_meets_TotalSweepEnds_reserve :
    (∀ l ∈ [[⟨5, .tag 0 1 0⟩, ⟨6, .tag 0 2 1⟩, ⟨8, .tag 0 3 1⟩], [⟨5, .tag 0 1 0⟩]], ∀ q ∈ [(0 : Port), 1],
      (totalEndingWith l).isUp q = true ∧ (totalEndingWith l).sweeps.current = some ⟨⟨7, .total⟩, 2, 1024⟩
        ∧ (totalEndingWith l).isUp 2 = false ∧ (totalEndingWith l).portTable.supervisor = 0
        ∧ l.filter (isTagSweepOf 0) = [⟨5, .tag 0 1 0⟩]
        ∧ ∀ e ∈ (totalEndingWith l).entries, e.number ≠ 248 + 2 * q.val ∧ e.number ≠ 249 + 2 * q.val)
      ∧ [⟨5, .tag 0 1 0⟩, ⟨6, .tag 0 2 1⟩, ⟨8, .tag 0 3 1⟩].filter (isTagSweepOf 1)
          = [⟨6, .tag 0 2 1⟩, ⟨8, .tag 0 3 1⟩] := by decide +kernel

theorem test_meets_TotalSweepEnds_full : ∀ n ∈ [250, 251],
    ∃ e ∈ (totalEnding.modifyQueue 1 fun l => l ++ [{ sweepEntry with number := 250 },
      { sweepEntry with number := 251 }]).entries, e.kind = .sweepDone ∧ e.number = n := by decide +kernel

/-- The octets of a READ of slot 3: those of the states, the holder, the mark, the fault part and the report. -/
def lastOctets (s : State) : List Octet := (((s.checkedRead 3).record 3).report 3).drop 40

theorem test_report_of_lost_notice :
    lastOctets (lostAfter outstanding) = [0x63, 1, 0, 2, 12]
      ∧ lastOctets (identityLost (timingLost outstanding)) = [0x60, 0, 0, 2, 12] := by decide +kernel

theorem test_meets_FramesBeginAndAreCutOff :
    (begun 0 [true] world).links[(0 : Port)].receiver = .receiving [true] 0
      ∧ world.links[(0 : Port)].receiver = .searching []
      ∧ ([] : List Bool) ++ bitsOfOctets [0xA5] = [] ++ startBits ++ []
      ∧ takeFrame [] = none ∧ (65534 : Nat) + 1 < 65536 ∧ 65536 ≤ (65535 : Nat) + 1
      ∧ (takeFrame (bitsOfOctets (good ⟨.linkClose, 0, []⟩))).isSome = true := by decide +kernel

theorem test_meets_BadFramesAreRejected :
    takeFrame (((begun 0 [] world).links[(0 : Port)].receiver.held) ++ bitsOfOctets [0x21, 251])
        = some (.bad .length, [])
      ∧ (begun 0 [] world).links[(0 : Port)].state = .up ∧ (begun 2 [] world).links[(2 : Port)].state = .down
      ∧ (world.disable 2).links[(2 : Port)].state = .disabled
      ∧ (world.modifyLink 0 fun l => { l with badRun := 6 }).links[(0 : Port)].badRun < 7
      ∧ 7 ≤ (world.modifyLink 0 fun l => { l with badRun := 7 }).links[(0 : Port)].badRun
      ∧ takeFrame (bitsOfOctets (good ⟨.linkClose, 0, []⟩)) = some (.linkClose, [])
      ∧ octetsOf 2 (crc16 [0x22, 0]).toNat ≠ [0, 0] ∧ (0x22 : Octet).toNat % 16 = 2
      ∧ 250 < (251 : Octet).toNat ∧ (∀ w : Octet, [5] = [w] → w.toNat = 0 ∨ 4 < w.toNat) := by
  have five : ∀ w : Octet, [5] = [w] → w.toNat = 0 ∨ 4 < w.toNat := by
    rintro w ⟨⟩
    decide
  simp only [eq_true five, and_true]
  decide +kernel

/-- The sample record is DAMAGED with fault part TIMING. -/
def damagedIn (s : State) : State := s.modify 3 fun r => { r with sched := .damaged, fault := some .timing }

theorem test_meets_LeavingUpEmptiesPort :
    pending.hasPortSweep 1 = false ∧ (sweeping (.port 1) 0 pending).hasPortSweep 1 = true
      ∧ (∀ s ∈ [pending, damagedIn pending], (s.readSlot 3).notices.queues[(1 : Port)] = [entry]
        ∧ s.notices.queues[(1 : Port)] = [entry] ∧ s.notices.outstanding[(1 : Port)] = []
        ∧ (s.readSlot 3).notices.blocked = [])
      ∧ (∀ s ∈ [outstanding, outstandingOfPool [], damagedIn (outstandingOfPool [])],
        s.notices.queues[(1 : Port)] = [] ∧ s.notices.outstanding[(1 : Port)].length = 1
          ∧ (s.readSlot 3).notices.outstanding[(1 : Port)] = s.notices.outstanding[(1 : Port)])
      ∧ entry.slot = some 3 ∧ entry.kind = .expiry ∧ entry.destination = .port 1
      ∧ (pending.record 3).sched ≠ .damaged ∧ ((damagedIn pending).record 3).sched = .damaged
      ∧ (outstandingOfPool []).notices.outstanding[(1 : Port)].map (·.destination) = [.pool 5]
      ∧ world.isUp (world.faultPort { sample with sched := .damaged, fault := some .timing }) = true
      ∧ (down 0 world).isUp (world.faultPort { sample with sched := .damaged, fault := some .timing }) = false := by
  decide +kernel

theorem test_meets_LinksOpenAndClose :
    (∀ w ∈ [1, 4], takeFrame (bitsOfOctets (good ⟨.linkOpen, 0, [octet w]⟩)) = some (.linkOpen w, []))
      ∧ (begun 2 [] world).links[(2 : Port)].receiver.held = []
      ∧ (world.disable 2).links[(2 : Port)].state = .disabled
      ∧ (world.modifyLink 2 fun l => { l with state := .recovering }).links[(2 : Port)].state = .recovering
      ∧ world.links[(2 : Port)].state = .down ∧ world.hasPortSweep 2 = false
      ∧ (sweeping (.port 2) 0 world).hasPortSweep 2 = true ∧ world.links[(0 : Port)].state = .up
      ∧ takeFrame (bitsOfOctets (good ⟨.linkClose, 0, []⟩)) = some (.linkClose, [])
      ∧ takeFrame (bitsOfOctets [0x21, 251]) = some (.bad .length, [])
      ∧ ∀ k : Pool, world.notices.holding[k] = [] := by decide +kernel

theorem test_meets_RequestFramesAreSequenced :
    takeFrame (bitsOfOctets (good ⟨.request, 0, [0x28]⟩)) = some (.request 0 [0x28], [])
      ∧ (begun 0 [] world).links[(0 : Port)].receiver.held = []
      ∧ (world.disable 2).links[(2 : Port)].state = .disabled ∧ world.links[(2 : Port)].state = .down
      ∧ world.links[(0 : Port)].state = .up ∧ world.links[(0 : Port)].expected = 0
      ∧ (replied 1).links[(0 : Port)].history.find? (fun h => decide (h.seq = 0)) = some ⟨0, [0]⟩
      ∧ world.links[(0 : Port)].history = [] ∧ (0 : Nat) < world.links[(0 : Port)].window
      ∧ (world.modifyLink 0 fun l => { l with window := 1, requests := [⟨15, [0x28], .waiting⟩] }).links[(0 : Port)].window
          ≤ 1
      ∧ takeFrame (bitsOfOctets [0x21, 251]) = some (.bad .length, []) := by decide +kernel

theorem test_meets_SendingEnds :
    world.links[(0 : Port)].transmit = []
      ∧ (world.form 0 linkCloseFrame).links[(0 : Port)].transmit = ⟨linkCloseFrame, .other⟩ :: []
      ∧ ((asking 0 [0x28] world).accept 0 []).links[(0 : Port)].transmit
          = ⟨⟨.response, 0, [0]⟩, .response⟩ :: [] := by decide +kernel

theorem test_meets_PortTableIsWritten :
    (∀ pl ∈ [[0x38, 3, 0, 0], [0x38, 3, 4, 0], [0x39, 3, 1], [0x39, 3, 248], [0x3C, 1], [0x3C, 2]],
      (asking 0 pl held).Asks 0 pl ∧ (asking 0 pl held).portTable.supervisor = 0)
    ∧ parseQuotaSet [0x38, 3, 0, 0] = some (3, 0) ∧ parseQuotaSet [0x38, 3, 4, 0] = some (3, 1024)
    ∧ parsePortLimitSet [0x39, 3, 1] = some (3, 1) ∧ parsePortLimitSet [0x39, 3, 248] = some (3, 248)
    ∧ held.portTable.limit[(3 : Port)] = 64 ∧ parsePortOnly [0x3C, 1] = some 1
    ∧ requestOf [0x38, 3, 0, 0] = some .quotaSet ∧ requestOf [0x39, 3, 1] = some .portLimitSet
    ∧ requestOf [0x3C, 1] = some .handOver
    ∧ held.links[(1 : Port)].state = .up ∧ held.links[(2 : Port)].state ≠ .up := by
  simp only [asks_iff]; decide +kernel

theorem test_meets_PortsAreDisabledAndEnabled :
    (∀ pl ∈ [[0x3A, 0], [0x3A, 1], [0x3A, 2], [0x3B, 1], [0x3B, 2]],
      ∀ s ∈ [idle, idle.disable 2, sweeping (.port 2) 0 idle],
      (asking 0 pl s).Asks 0 pl ∧ (asking 0 pl s).portTable.supervisor = 0)
    ∧ parsePortOnly [0x3A, 0] = some 0 ∧ parsePortOnly [0x3A, 3] = some 3
    ∧ requestOf [0x3A, 0] = some .portDisable ∧ requestOf [0x3B, 1] = some .portEnable
    ∧ idle.links[(1 : Port)].state = .up ∧ idle.links[(2 : Port)].state = .down
    ∧ (idle.disable 2).links[(2 : Port)].state = .disabled ∧ idle.hasPortSweep 2 = false
    ∧ (sweeping (.port 2) 0 idle).hasPortSweep 2 = true := by
  simp only [asks_iff]; decide +kernel

theorem test_meets_StatusAndEchoAnswer :
    (asking 1 [0x3E] idle).Asks 1 [0x3E] ∧ requestOf [0x3E] = some .status
      ∧ (∀ n ∈ [0, 249], (asking 1 (0x3F :: List.replicate n 1) idle).Asks 1 (0x3F :: List.replicate n 1)
        ∧ requestOf (0x3F :: List.replicate n 1) = some .echo
        ∧ (0x3F :: List.replicate n (1 : Octet)).length ≤ 250) := by
  simp only [asks_iff]; decide +kernel

end Sys2Proof.Tests
end

