-- ==== Sys2Proof/Proofs/TimeRun.lean ====
section
/-! The obligation on TIME-RUN (R30): the three rows of Table 2-2 for the time base it leaves, the clock period
that follows, the due test, and the frame of the request. -/

namespace Sys2Proof.Machine

/-! ### The time base after a TIME-RUN -/

/-- A FROZEN time base below time max starts to run, with the tick phase it held (Table 2-2). -/
theorem TimeBase.run_of_frozen {b : TimeBase} (hm : b.mode = .frozen) (hn : b.now.toNat < Config.timeMax) :
    b.run = { b with mode := .running } := by
  unfold TimeBase.run
  rw [if_pos hm, if_neg hn.ne]

/-- A FROZEN time base at time max has no tick left to make (Table 2-2). -/
theorem TimeBase.run_of_timeMax {b : TimeBase} (hm : b.mode = .frozen) (hn : b.now.toNat = Config.timeMax) :
    b.run = { b with mode := .exhausted, phase := 0 } := by
  unfold TimeBase.run
  rw [if_pos hm, if_pos hn]

theorem TimeBase.run_of_not_frozen {b : TimeBase} (hm : b.mode ≠ .frozen) : b.run = b := if_neg hm

@[simp] theorem TimeBase.run_now (b : TimeBase) : b.run.now = b.now := by
  unfold TimeBase.run
  split
  · split <;> rfl
  · rfl

/-! ### The clock period that follows -/

/-- A clock period that does not complete the interval raises the phase and leaves the time (R22). -/
theorem clockTimeBase_counts {t : State} (hm : t.timeBase.mode = .running)
    (hp : t.timeBase.phase + 1 < t.timeBase.prescaler) :
    t.clockTimeBase.timeBase.phase = t.timeBase.phase + 1
      ∧ t.clockTimeBase.timeBase.now = t.timeBase.now := by
  rw [clock_counts hm hp]
  exact ⟨rfl, rfl⟩

/-- A clock period that completes the interval returns the phase to 0 and raises the time (R22). -/
theorem clockTimeBase_ticks {t : State} (hm : t.timeBase.mode = .running)
    (hp : t.timeBase.prescaler ≤ t.timeBase.phase + 1) :
    t.clockTimeBase.timeBase.phase = 0 ∧ t.clockTimeBase.timeBase.now = t.timeBase.now + 1 := by
  rw [clock_ticks hm hp]
  exact ⟨rfl, rfl⟩

/-! ### The request -/

/-- The due test reads the record and the time, and nothing else of the time base (R24). -/
theorem dueHead_congr {s t : State} {i : SlotIx} (hr : t.record i = s.record i)
    (hn : t.timeBase.now = s.timeBase.now) : t.dueHead i = s.dueHead i := by
  unfold State.dueHead State.now
  rw [hr, hn]

/-- What an accepted TIME-RUN leaves: the time base run, and the prior one reported. -/
def State.timeRun (s : State) (p : Port) : State :=
  (s.withTimeBase s.timeBase.run).accept p s.timeBase.prior

@[simp] theorem State.timeRun_timeBase (s : State) (p : Port) : (s.timeRun p).timeBase = s.timeBase.run :=
  State.accept_timeBase ..

@[simp] theorem State.timeRun_record (s : State) (p : Port) (i : SlotIx) :
    (s.timeRun p).record i = s.record i := State.accept_record ..

/-- TIME-RUN changes the time base and the links alone. -/
theorem State.timeRun_eq (s : State) (p : Port) :
    s.timeRun p = { s with timeBase := (s.timeRun p).timeBase, links := (s.timeRun p).links } := by
  rw [State.timeRun_timeBase]
  exact State.accept_eq ..

/-- An accepted TIME-RUN reports the time and the state just before (Table 12-4). -/
theorem answered_timeRun {s : State} {p : Port} {pl : List Octet} (h : s.Asks p pl) :
    s.Answered (s.timeRun p) p .ok s.timeBase.prior :=
  answered_of_links (t := s.withTimeBase s.timeBase.run) rfl h s.timeBase.prior

/-- A TIME-RUN whose turn has come, its payload the request code alone, is tested for the supervisor right alone. -/
theorem exec_timeRun_asks {s : State} {p : Port} {pl : List Octet} (h : s.Asks p pl)
    (hc : requestOf pl = some .timeRun) (hl : pl.length = 1) :
    exec (.timeRun p) s = .next (s.supervised p (s.timeRun p)) := by
  rw [exec_timeRun, execTimeRun, applying_asks _ h hc, parseNothing_one hl]
  rfl

/-- The time base after a TIME-RUN from FROZEN below time max, and the clock period that follows it: the
interrupted interval is completed with the periods still missing from it (R30). -/
theorem timeRun_resumes {s : State} (p : Port) (hm : s.timeBase.mode = .frozen)
    (hn : s.timeBase.now.toNat < Config.timeMax) :
    (s.timeRun p).timeBase = { s.timeBase with mode := .running }
      ∧ (s.timeBase.phase + 1 < s.timeBase.prescaler →
        (s.timeRun p).clockTimeBase.timeBase.phase = s.timeBase.phase + 1
          ∧ (s.timeRun p).clockTimeBase.timeBase.now = (s.timeRun p).timeBase.now)
      ∧ (s.timeBase.prescaler ≤ s.timeBase.phase + 1 →
        (s.timeRun p).clockTimeBase.timeBase.phase = 0
          ∧ (s.timeRun p).clockTimeBase.timeBase.now = (s.timeRun p).timeBase.now + 1) := by
  have hb : (s.timeRun p).timeBase = { s.timeBase with mode := .running } := by
    rw [State.timeRun_timeBase, TimeBase.run_of_frozen hm hn]
  have hrun : (s.timeRun p).timeBase.mode = .running := by rw [hb]
  have hphase : (s.timeRun p).timeBase.phase = s.timeBase.phase := by rw [hb]
  have hpre : (s.timeRun p).timeBase.prescaler = s.timeBase.prescaler := by rw [hb]
  rw [← hphase, ← hpre]
  exact ⟨hb, clockTimeBase_counts hrun, clockTimeBase_ticks hrun⟩

/-- Settles O36: the request is tested for the supervisor right alone, and its effect on the time base is one
row of Table 2-2 by the state and the time that it finds. -/
theorem timeRunStartsTicks : Obligations.TimeRunStartsTicks := by
  unfold Obligations.TimeRunStartsTicks
  intro s p pl h hc hl
  rw [exec_timeRun_asks h hc hl]
  refine ⟨fun hd => by rw [supervised_denied _ hd], fun hs => ?_⟩
  rw [supervised_by _ hs]
  refine ⟨s.timeRun p, rfl, ?report, ?frozen, ?timeMax, ?unchanged, ?due, s.timeRun_eq p⟩
  case report => exact answered_timeRun h
  case frozen => exact timeRun_resumes p
  case timeMax =>
    intro hm hn
    rw [State.timeRun_timeBase, TimeBase.run_of_timeMax hm hn]
  case unchanged =>
    intro hm
    rw [State.timeRun_timeBase, TimeBase.run_of_not_frozen hm]
  case due =>
    intro i
    exact dueHead_congr (s.timeRun_record p i) (by rw [State.timeRun_timeBase, TimeBase.run_now])

end Sys2Proof.Machine
end

