-- ==== Sys2Proof/Proofs/Threshold.lean ====
section
/-! The obligation on ATTENTION-SET (R111): what the request writes, drives and answers, the refusal of a payload
that breaks its format, and which commands can change a port's threshold at all. -/

namespace Sys2Proof.Machine

/-! ### The payload (Table 12-3) -/

theorem parseThreshold_above {pl : List Octet} (h : 7 < octetAt pl 1) : parseThreshold pl = none := by
  unfold parseThreshold parseUrgency
  split
  · exact dif_neg (by omega)
  · rfl

/-! ### The write of a threshold and the line it drives -/

@[simp] theorem State.setThreshold_self (s : State) (p : Port) (v : Fin 8) :
    (s.setThreshold p v).notices.thresholds[p] = v := set_port_same ..

theorem State.setThreshold_other (s : State) {p r : Port} (v : Fin 8) (h : r ≠ p) :
    (s.setThreshold p v).notices.thresholds[r] = s.notices.thresholds[r] := set_port_other _ _ _ _ h

/-- The write reaches the thresholds and the links alone. -/
theorem State.setThreshold_eq (s : State) (p : Port) (v : Fin 8) :
    s.setThreshold p v = { s with
      notices := { s.notices with thresholds := (s.setThreshold p v).notices.thresholds }
      links := (s.setThreshold p v).links } := rfl

/-- The line is driven by the condition of R110 with the threshold just written. -/
theorem State.setThreshold_link_self (s : State) (p : Port) (v : Fin 8) :
    (s.setThreshold p v).links[p] = { s.links[p] with
      attention := decide (∃ e ∈ s.notices.queues[p], s.marked e = false ∧ v ≤ e.urgency) } := by
  have written : (s.setThreshold p v).attentionDue p
      = decide (∃ e ∈ s.notices.queues[p], s.marked e = false ∧ v ≤ e.urgency) := by
    rw [attentionDue_eq, State.setThreshold_self]
    rfl
  rw [← written]
  exact State.modifyLink_self ..

theorem State.setThreshold_link_other (s : State) {p r : Port} (v : Fin 8) (h : r ≠ p) :
    (s.setThreshold p v).links[r] = s.links[r] := State.modifyLink_other _ _ _ _ h

/-- No link differs but by its attention line. -/
theorem State.setThreshold_links (s : State) (p : Port) (v : Fin 8) (r : Port) :
    (s.setThreshold p v).links[r] = { s.links[r] with attention := (s.setThreshold p v).links[r].attention } := by
  by_cases h : r = p
  · subst h
    rw [State.setThreshold_link_self]
  · rw [State.setThreshold_link_other s v h]

/-! ### The request -/

/-- What an accepted ATTENTION-SET leaves: the threshold written, the line driven, and the prior threshold
reported. -/
def State.attentionSet (s : State) (p : Port) (v : Fin 8) : State :=
  (s.setThreshold p v).accept p [octet s.notices.thresholds[p].val]

theorem exec_attentionSet_accepted {s : State} {p : Port} {pl : List Octet} {v : Fin 8} (h : s.Asks p pl)
    (hc : requestOf pl = some .attentionSet) (hv : parseThreshold pl = some v) :
    exec (.attentionSet p) s = .next (s.attentionSet p v) := by
  rw [exec_attentionSet, execAttentionSet, applying_asks _ h hc, hv]
  rfl

theorem exec_attentionSet_refused {s : State} {p : Port} {pl : List Octet} (h : s.Asks p pl)
    (hc : requestOf pl = some .attentionSet) (hv : parseThreshold pl = none) :
    exec (.attentionSet p) s = .next (s.refuse p .format) := by
  rw [exec_attentionSet, execAttentionSet, applying_asks _ h hc, hv]

@[simp] theorem State.attentionSet_notices (s : State) (p : Port) (v : Fin 8) :
    (s.attentionSet p v).notices = (s.setThreshold p v).notices := State.accept_notices ..

/-- ATTENTION-SET changes the thresholds and the links alone. -/
theorem State.attentionSet_eq (s : State) (p : Port) (v : Fin 8) :
    s.attentionSet p v = { s with
      notices := { s.notices with thresholds := (s.attentionSet p v).notices.thresholds }
      links := (s.attentionSet p v).links } := by
  rw [State.attentionSet_notices]
  exact State.accept_eq ..

/-- An answer drives no attention line. -/
theorem State.attentionSet_attention (s : State) (p : Port) (v : Fin 8) (r : Port) :
    (s.attentionSet p v).links[r].attention = (s.setThreshold p v).links[r].attention :=
  (calm_respond (s.setThreshold p v) p .ok _).attention r

/-- The request is answered with the threshold before (Table 12-4). -/
theorem answered_attentionSet {s : State} {p : Port} {pl : List Octet} (h : s.Asks p pl) (v : Fin 8) :
    s.Answered (s.attentionSet p v) p .ok [octet s.notices.thresholds[p].val] :=
  answered_respond h (s.setThreshold_links p v) .ok _

/-- The requesting port's link: the answer formed, and the line driven in the same event (R110, R111). -/
theorem attentionSet_link_self {s : State} {p : Port} {pl : List Octet} (h : s.Asks p pl) (v : Fin 8) :
    ∃ q, s.nextRequest p = some q ∧ (s.attentionSet p v).links[p] =
      { s.links[p].answer q [Result.ok.code, octet s.notices.thresholds[p].val] with
        attention := decide (∃ e ∈ s.notices.queues[p], s.marked e = false ∧ v ≤ e.urgency) } := by
  obtain ⟨q, next, own, _⟩ := answered_attentionSet h v
  rw [State.attentionSet_attention, State.setThreshold_link_self] at own
  exact ⟨q, next, own⟩

theorem attentionSet_link_other {s : State} {p r : Port} {pl : List Octet} (h : s.Asks p pl) (v : Fin 8)
    (hr : r ≠ p) : (s.attentionSet p v).links[r] = s.links[r] := by
  obtain ⟨_, _, _, others⟩ := answered_attentionSet h v
  rw [others r hr, State.attentionSet_attention, State.setThreshold_link_other s v hr]

/-! ### Which commands change a threshold -/

theorem Goes.ruled {s : State} {o : Host.Outcome State Fault Refusal} (h : Goes Linked s o) : Goes Ruled s o :=
  h.imp fun _ => Linked.ruled

/-- Every command but device reset and ATTENTION-SET keeps what `Ruled` names, the thresholds among it. -/
theorem goes_ruled (s : State) : ∀ c : Instr, c ≠ .deviceReset → (∀ p, c ≠ .attentionSet p) →
    Goes Ruled s (exec c s)
  | .deviceReset, h, _ => absurd rfl h
  | .attentionSet p, _, h => absurd rfl (h p)
  | .tick, _, _ => goes_tick s
  | .timeSet p, _, _ => goes_timeSet p s
  | .timeRun p, _, _ => goes_timeRun p s
  | .timeFreeze p, _, _ => goes_timeFreeze p s
  | .prescale p, _, _ => goes_prescale p s
  | .scrubVisit, _, _ => (goes_scrubVisit s).ruled
  | .listFault finder, _, _ => (goes_listFault finder s).ruled
  | .placementTake, _, _ => (goes_placementTake s).ruled
  | .placementEnd, _, _ => (goes_placementEnd s).ruled
  | .firing, _, _ => (goes_firing s).ruled
  | .companionFiring, _, _ => (goes_companionFiring s).ruled
  | .markedHeadRemoval, _, _ => (goes_markedHeadRemoval s).ruled
  | .sweepStart, _, _ => (goes_sweepStart s).ruled
  | .sweepVisit, _, _ => (goes_sweepVisit s).ruled
  | .tagSweepEnd, _, _ => (goes_tagSweepEnd s).ruled
  | .portSweepEnd, _, _ => (goes_portSweepEnd s).ruled
  | .totalSweepEnd, _, _ => (goes_totalSweepEnd s).ruled
  | .frameCutOff p, _, _ => (goes_frameCutOff p s).ruled
  | .badFrame p os, _, _ => (goes_badFrame p os s).ruled
  | .linkOpen p os, _, _ => (goes_linkOpen p os s).ruled
  | .linkClose p os, _, _ => (goes_linkClose p os s).ruled
  | .requestFrame p os, _, _ => (goes_requestFrame p os s).ruled
  | .frameSent p, _, _ => (goes_frameSent p s).ruled
  | .openRecord p, _, _ => (goes_open p s).ruled
  | .closeRecord p, _, _ => (goes_close p s).ruled
  | .readRecord p, _, _ => (goes_read p s).ruled
  | .setRecord p, _, _ => (goes_set p s).ruled
  | .arm p, _, _ => (goes_arm p s).ruled
  | .cancel p, _, _ => (goes_cancel p s).ruled
  | .pause p, _, _ => (goes_pause p s).ruled
  | .resume p, _, _ => (goes_resume p s).ruled
  | .take p, _, _ => (goes_take p s).ruled
  | .ack p, _, _ => (goes_ack p s).ruled
  | .release p, _, _ => (goes_release p s).ruled
  | .poolSet p, _, _ => (goes_poolSet p s).ruled
  | .retireTag p, _, _ => (goes_retireTag p s).ruled
  | .clearAll p, _, _ => (goes_clearAll p s).ruled
  | .timeRead p, _, _ => (goes_timeRead p s).ruled
  | .scrubSet p, _, _ => (goes_scrubSet p s).ruled
  | .quotaSet p, _, _ => (goes_quotaSet p s).ruled
  | .portLimitSet p, _, _ => (goes_portLimitSet p s).ruled
  | .portDisable p, _, _ => (goes_portDisable p s).ruled
  | .portEnable p, _, _ => (goes_portEnable p s).ruled
  | .handOver p, _, _ => (goes_handOver p s).ruled
  | .forceClose p, _, _ => (goes_forceClose p s).ruled
  | .status p, _, _ => (goes_status p s).ruled
  | .echo p, _, _ => (goes_echo p s).ruled
  | .frameStart p bits, _, _ => (goes_frameStart p bits s).ruled
  | .unknownRequestCode p, _, _ => (goes_unknownRequestCode p s).ruled

/-- The threshold of port `p` is the same in both states. -/
def SameThreshold (p : Port) (s t : State) : Prop := t.notices.thresholds[p] = s.notices.thresholds[p]

theorem SameThreshold.refl (p : Port) (s : State) : SameThreshold p s s := rfl

/-- ATTENTION-SET writes no other port's threshold, whether it is applied, refused or does not take place. -/
theorem goes_attentionSet_other {p r : Port} (h : r ≠ p) (s : State) :
    Goes (SameThreshold r) s (exec (.attentionSet p) s) := by
  rw [exec_attentionSet]
  refine goes_applying s p _ _ (SameThreshold.refl r s) fun pl => ?_
  unfold SameThreshold
  split
  · rw [(linked_refuse s p .format).thresholds]
  · rw [State.accept_notices, State.setThreshold_other s _ h]

/-- A port's threshold is changed by device reset and by its own ATTENTION-SET alone. -/
theorem goes_sameThreshold {c : Instr} {p : Port} (hr : c ≠ .deviceReset) (ha : c ≠ .attentionSet p) (s : State) :
    Goes (SameThreshold p) s (exec c s) := by
  by_cases other : ∃ q, c = .attentionSet q
  · obtain ⟨q, rfl⟩ := other
    exact goes_attentionSet_other (fun e => ha (by rw [e])) s
  · refine (goes_ruled s c hr fun q e => other ⟨q, e⟩).imp fun t ruled => ?_
    unfold SameThreshold
    rw [ruled.thresholds]

theorem reset_thresholds (p : Port) : State.reset.notices.thresholds[p] = 0 := Vector.getElem_replicate ..

/-- Settles O33: the row's two answers by the parse of its payload, and the frame of every other command from
what each keeps. -/
theorem thresholdIsSet : Obligations.ThresholdIsSet := by
  unfold Obligations.ThresholdIsSet
  refine ⟨fun s p pl h hc => ?request, fun c s t ht => ⟨?reset, ?others⟩⟩
  case request =>
    refine ⟨fun v hv => ?_, exec_attentionSet_refused h hc, fun _ => parseThreshold_above⟩
    refine ⟨s.attentionSet p v, exec_attentionSet_accepted h hc hv, attentionSet_link_self h v,
      fun r => attentionSet_link_other h v, ?own, ?rest, s.attentionSet_eq p v⟩
    case own => rw [State.attentionSet_notices, State.setThreshold_self]
    case rest =>
      intro r hr
      rw [State.attentionSet_notices, State.setThreshold_other s v hr]
  case reset =>
    rintro rfl p
    obtain rfl : _ = t := by simpa [execDeviceReset] using ht
    exact reset_thresholds p
  case others =>
    intro hr p ha
    obtain ⟨u, hu, same⟩ := goes_sameThreshold hr ha s
    obtain rfl : u = t := by simpa [hu] using ht
    exact same

end Sys2Proof.Machine
end

