-- ==== Sys2Proof/Proofs/Steps.lean ====
section
/-! The obligations on what every step does and keeps: the front of the queue, the answer of every command, and
the invariants of the table, the time base, the ports, the links and the notice store. Each invariant is kept by
every command, and by the period of the reference clock that passes on an empty queue. -/

namespace Sys2Proof.Machine

/-! ### A step -/

theorem step_cons (c : Instr) (rest : List Instr) (s : State) :
    step { s with pending := c :: rest } = exec c { s with pending := rest } := rfl

/-- A step on an empty queue is one period of the reference clock (log 2). -/
theorem step_of_idle {s : State} (h : s.pending = []) : step s = .next s.clockPeriod := by
  unfold step
  rw [h]

theorem step_of_pending {s : State} {c : Instr} {rest : List Instr} (h : s.pending = c :: rest) :
    step s = exec c { s with pending := rest } := by
  unfold step
  rw [h]

/-- Settles O1: by the step's own equation on a queue with a front. -/
theorem stepRunsFront : Obligations.StepRunsFront := step_cons

/-! ### What every command keeps -/

theorem goes_upkeep (s : State) (c : Instr) : Goes Upkeep s (exec c s) := by
  by_cases reset : c = .deviceReset
  · subst reset
    exact goes_deviceReset s
  by_cases threshold : ∃ p, c = .attentionSet p
  · obtain ⟨p, rfl⟩ := threshold
    exact goes_attentionSet p s
  · exact (goes_ruled s c reset fun p e => threshold ⟨p, e⟩).imp fun _ => Ruled.upkeep

/-- Settles O3: every command goes to a next state, and `Upkeep` keeps the queue. -/
theorem everyCommandCompletes : Obligations.EveryCommandCompletes := by
  intro c s
  obtain ⟨t, ht, keeps⟩ := goes_upkeep s c
  exact ⟨t, ht, keeps.pending⟩

/-- A property that the period of the clock keeps, and every command, and that does not speak of the queue of
commands, is kept by a step. -/
theorem step_keeps {I : State → Prop} (queue : ∀ (s : State) rest, I s → I { s with pending := rest })
    (clock : ∀ s, I s → I s.clockPeriod) (command : ∀ s c, Goes (fun a b => I a → I b) s (exec c s))
    {s t : State} (h : I s) (ht : step s = .next t) : I t := by
  cases hp : s.pending with
  | nil =>
    rw [step_of_idle hp] at ht
    cases ht
    exact clock s h
  | cons c rest =>
    rw [step_of_pending hp] at ht
    obtain ⟨u, hu, keeps⟩ := command { s with pending := rest } c
    rw [hu] at ht
    cases ht
    exact keeps (queue s rest h)

theorem step_table {s t : State} (h : s.table.wf) (ht : step s = .next t) : t.table.wf :=
  step_keeps (I := fun s => s.table.wf) (fun _ _ => id) (fun s => (upkeep_clockPeriod s).table)
    (fun s c => (goes_upkeep s c).imp fun _ => Upkeep.table) h ht

theorem step_linksSound {s t : State} (h : s.LinksSound) (ht : step s = .next t) : t.LinksSound :=
  step_keeps (I := State.LinksSound) (fun _ _ => id) (fun s => (upkeep_clockPeriod s).linksSound)
    (fun s c => (goes_upkeep s c).imp fun _ => Upkeep.linksSound) h ht

/-- Settles O5: by what every command and every clock period keep of the time base. -/
theorem timeBaseStaysInRange : Obligations.TimeBaseStaysInRange := fun _ _ =>
  step_keeps (I := fun s => s.timeBase.Sound) (fun _ _ => id) (fun s => (upkeep_clockPeriod s).timeSound)
    fun s c => (goes_upkeep s c).imp fun _ => Upkeep.timeSound

/-- Settles O6: by what every command and every clock period keep of the ports. -/
theorem portsStayInAgreement : Obligations.PortsStayInAgreement := fun _ _ =>
  step_keeps (I := State.PortsAgree) (fun _ _ => id) (fun s => (upkeep_clockPeriod s).portsAgree)
    fun s c => (goes_upkeep s c).imp fun _ => Upkeep.portsAgree

/-! ### The two invariants of the collections

`Tied none` ties the placement unit, the list and the slot sets to the records; `Whole` adds the notice store and
the attention lines. Every command keeps the one and the other, in the same cases. -/

/-- The invariants that `s` meets hold in `t` too. -/
structure Keeps (s t : State) : Prop where
  tied : Tied none s → Tied none t
  whole : Whole s → Whole t

namespace Keeps

theorem refl (s : State) : Keeps s s := ⟨id, id⟩

theorem trans {s t u : State} (a : Keeps s t) (b : Keeps t u) : Keeps s u := ⟨b.tied ∘ a.tied, b.whole ∘ a.whole⟩

theorem ite {c : Prop} [Decidable c] {s t u : State} (a : c → Keeps s t) (b : ¬ c → Keeps s u) :
    Keeps s (if c then t else u) := by
  split
  · exact a ‹_›
  · exact b ‹_›

theorem foldl {α : Type} (f : State → α → State) (h : ∀ s a, Keeps s (f s a)) :
    ∀ (l : List α) (s : State), Keeps s (l.foldl f s)
  | [], s => .refl s
  | a :: l, s => (h s a).trans (foldl f h l (f s a))

/-- The blocks that the invariants speak of are the same in both states. -/
theorem same {s t : State} (h1 : t.table = s.table) (h2 : t.placement = s.placement) (h3 : t.expiry = s.expiry)
    (h4 : t.notices = s.notices) (h5 : t.links = s.links) : Keeps s t :=
  ⟨fun h => h.quiet (.of_table h1 h2 h3), fun h => h.same h1 h2 h3 h4 h5⟩

/-- An operation that leaves every record and its notice where they are, and ends by a look at the attention
lines. -/
theorem settled {s t : State} (q : Quiet s t) (h : Noted none none s → Noted none none t) (l : t.Lit) : Keeps s t :=
  ⟨fun a => a.quiet q, fun a => ⟨a.tied.quiet q, h a.noted, l⟩⟩

end Keeps

theorem keeps_checkedRead (s : State) (i : SlotIx) : Keeps s (s.checkedRead i) :=
  ⟨fun h => tied_checkedRead h i, fun h => whole_checkedRead h i⟩

theorem keeps_listFault (s : State) : Keeps s s.listFault := ⟨tied_listFault, whole_listFault⟩

theorem keeps_endCarried (s : State) : Keeps s s.endCarried := ⟨tied_endCarried, whole_endCarried⟩

theorem keeps_takeSweep (s : State) : Keeps s s.takeSweep := ⟨tied_takeSweep, whole_takeSweep⟩

theorem keeps_queueSweep (s : State) (k : SweepKind) : Keeps s (s.queueSweep k) :=
  ⟨fun h => tied_queueSweep h k, fun h => whole_queueSweep h k⟩

theorem keeps_respond (s : State) (p : Port) (r : Result) (b : List Octet) : Keeps s (s.respond p r b) :=
  ⟨fun h => tied_respond h p r b, fun h => whole_respond h p r b⟩

theorem keeps_refuse (s : State) (p : Port) (r : Result) : Keeps s (s.refuse p r) := keeps_respond s p r []

theorem keeps_accept (s : State) (p : Port) (b : List Octet) : Keeps s (s.accept p b) := keeps_respond s p .ok b

/-- A port's own items change, its link state and its attention line apart. -/
theorem keeps_modifyLink (s : State) (p : Port) (f : Link → Link) (h1 : ∀ l, (f l).state = l.state)
    (h2 : ∀ l, (f l).attention = l.attention) : Keeps s (s.modifyLink p f) :=
  ⟨fun h => tied_modifyLink h p f, fun h => whole_modifyLink h p f h1 h2⟩

theorem keeps_setReceiver (s : State) (p : Port) (r : Receiver) : Keeps s (s.setReceiver p r) :=
  keeps_modifyLink s p _ (fun _ => rfl) fun _ => rfl

theorem keeps_hold (s : State) (p : Port) (i : SlotIx) : Keeps s (s.hold p i) :=
  keeps_modifyLink s p _ (fun _ => rfl) fun _ => rfl

theorem keeps_refuseTested (s : State) (p : Port) (pl : List Octet) (r : Result) :
    Keeps s ((s.tested pl).refuse p r) :=
  Keeps.trans ⟨fun h => tied_tested h pl, fun h => whole_tested h pl⟩ (keeps_refuse _ p r)

/-! ### The table and the placement unit -/

theorem whole_reset : Whole State.reset := by
  have queues (p : Port) : State.reset.notices.queues[p] = [] := Vector.getElem_replicate ..
  have outstanding (p : Port) : State.reset.notices.outstanding[p] = [] := Vector.getElem_replicate ..
  have holding (k : Pool) : State.reset.notices.holding[k] = [] := Vector.getElem_replicate ..
  have listAt (pl : EntryPlace) : State.reset.listAt pl = [] := by cases pl <;> simp only [State.listAt, *]
  have entries : State.reset.entries = [] := rfl
  have nobody (pl : EntryPlace) {e : Entry} : e ∉ State.reset.listAt pl := by rw [listAt]; exact List.not_mem_nil
  refine ⟨tied_reset, ?_, fun p => ?_⟩
  · exact {
      once := List.nodup_nil
      numbers := List.nodup_nil
      listed := fun pl _ he => absurd he (nobody pl)
      waits := fun _ hi => absurd hi List.not_mem_nil
      clear := fun _ _ _ _ => ⟨rfl, rfl⟩
      kinds := fun _ he => absurd he (entries ▸ List.not_mem_nil)
      faults := fun _ he => absurd he (entries ▸ List.not_mem_nil)
      converted := fun pl _ he => absurd he (nobody pl)
      free := fun _ _ _ => rfl
      stays := fun pl _ he => absurd he (nobody pl)
      homes := fun pl _ he => absurd he (nobody pl) }
  · rw [reset_links]
    unfold State.attentionDue
    rw [queues]
    rfl

theorem keeps_execDeviceReset (s : State) : Goes Keeps s (execDeviceReset s) :=
  .next ⟨fun _ => tied_reset.quiet (.of_table rfl rfl rfl), fun _ => whole_reset.same rfl rfl rfl rfl rfl⟩

theorem keeps_tickEvent (s : State) : Keeps s s.tickEvent := by
  unfold State.tickEvent
  exact .ite (fun _ => .same rfl rfl rfl rfl rfl) fun _ => .refl s

theorem keeps_execScrubVisit (s : State) : Goes Keeps s (execScrubVisit s) := by
  unfold execScrubVisit
  split
  · exact .next (.refl s)
  · exact .next ⟨tied_scrub, whole_scrub⟩

theorem keeps_execListFault (finder : Finder) (s : State) : Goes Keeps s (execListFault finder s) := by
  unfold execListFault
  split
  · split
    · split
      · exact .next (.refl s)
      · exact .next ((keeps_listFault s).trans (keeps_endCarried _))
    · exact .next (keeps_listFault s)
    · exact .next (keeps_listFault s)
  · exact .next (.refl s)

theorem keeps_execPlacementTake (s : State) : Goes Keeps s (execPlacementTake s) := by
  unfold execPlacementTake
  split
  · rename_i idle
    split
    · exact .next (.refl s)
    · exact .next ⟨fun h => tied_takeHead h _ idle.1 idle.2, fun h => whole_takeHead h _ idle.1 idle.2⟩
  · exact .next (.refl s)

theorem keeps_execPlacementEnd (s : State) : Goes Keeps s (execPlacementEnd s) := by
  unfold execPlacementEnd
  split
  · exact .next (.refl s)
  · rename_i c hc
    have reads : Keeps s (s.placementReads c).1 :=
      ⟨fun h => tied_placementReads h c, fun h => whole_placementReads h c⟩
    have carried := (placementReads_carried s c).trans hc
    dsimp only
    split
    · exact .next (reads.trans ((keeps_listFault _).trans (keeps_endCarried _)))
    · exact .next (reads.trans ⟨fun h => tied_endPlacement h c carried, fun h => whole_endPlacement h c carried⟩)

/-! ### The expiry engine -/

theorem State.dueHead_armed {s : State} {i : SlotIx} (h : s.dueHead i = true) : (s.record i).sched = .armed := by
  unfold State.dueHead at h
  simp only [Bool.and_eq_true, decide_eq_true_eq] at h
  exact h.1.1

theorem State.markedHead_armed {s : State} {i : SlotIx} (h : s.markedHead i = true) :
    (s.record i).sched = .armed := by
  unfold State.markedHead at h
  simp only [Bool.and_eq_true, decide_eq_true_eq] at h
  exact h.1

theorem keeps_fireHead {s : State} {i : SlotIx} (h : s.dueHead i = true) : Keeps s (s.fireHead i) :=
  ⟨fun a => tied_fireHead a h, fun a => whole_fireHead a i (tied_fireHead a.tied h) (State.dueHead_armed h)⟩

/-- A member leaves the list and becomes IDLE (R86). -/
theorem keeps_removeMember {s : State} {i : SlotIx} (h : (s.record i).sched = .armed) :
    Keeps s ((s.unlist i).setSched i .idle) := by
  have free : ((s.unlist i).record i).sched ≠ .free := by
    show (s.record i).sched ≠ .free
    rw [h]
    decide
  have tied : Tied none s → Tied none ((s.unlist i).setSched i .idle) := fun a =>
    (tied_unlist a h).parked _ free rfl (.inl rfl)
  refine ⟨tied, fun a => ⟨tied a.tied, a.noted.hush ?_, a.lit.calm ?_⟩⟩
  · refine (hush_unlist s i).trans (hush_retimed _ i _ free ?_ Sched.noConfusion Sched.noConfusion rfl rfl rfl)
    show (s.record i).sched ≠ .damaged
    rw [h]
    decide
  · exact Calm.trans (t := s.unlist i) (.of_table rfl rfl rfl rfl) (calm_setSched _ i .idle)

theorem keeps_execFiring (s : State) : Goes Keeps s (execFiring s) := by
  unfold execFiring
  split
  · split
    · exact .next (.refl s)
    · rename_i m _ _
      have read := keeps_checkedRead s m.slot
      dsimp only
      split
      · split
        · exact .next (read.trans (keeps_fireHead ‹_›))
        · exact .next (read.trans (keeps_listFault _))
      · exact .next read
  · exact .next (.refl s)

theorem keeps_execMarkedHeadRemoval (s : State) : Goes Keeps s (execMarkedHeadRemoval s) := by
  unfold execMarkedHeadRemoval
  split
  · split
    · exact .next (.refl s)
    · rename_i m _ _
      have read := keeps_checkedRead s m.slot
      dsimp only
      split
      · split
        · exact .next (read.trans (keeps_removeMember (State.markedHead_armed ‹_›)))
        · exact .next (read.trans (keeps_listFault _))
      · exact .next read
  · exact .next (.refl s)

theorem keeps_endSearch (s : State) : Keeps s (s.setSearch none) :=
  have tied (h : Tied none s) : Tied none (s.setSearch none) := tied_setSearch h none nofun
  ⟨tied, fun h => ⟨tied h.tied, noted_setSearch h.noted none, h.lit.calm (.of_table rfl rfl rfl rfl)⟩⟩

theorem keeps_execCompanionFiring (s : State) : Goes Keeps s (execCompanionFiring s) := by
  unfold execCompanionFiring
  split
  · exact .next (.refl s)
  · split
    · exact .next (keeps_endSearch s)
    · split
      · exact .next ⟨fun h => tied_consider h _, fun h => whole_consider h _⟩
      · exact .next (keeps_listFault s)

/-! ### Sweeps -/

theorem keeps_execSweepVisit (s : State) : Goes Keeps s (execSweepVisit s) := by
  unfold execSweepVisit
  split
  · exact .next (.refl s)
  · split
    · exact .next (.refl s)
    · exact .next ⟨fun h => tied_visit h _ _, fun h => whole_visit h _ _⟩

theorem keeps_freePlace (s : State) (w : Sweep) : Keeps s (s.freePlace w) := .same rfl rfl rfl rfl rfl

theorem keeps_sweepDone (s : State) (p : Port) (number : SweepNumber) (retired : Nat) (abandoned : Bool) :
    Keeps s (s.createSweepDone p number retired abandoned).driveLines :=
  .settled ((quiet_createSweepDone s p number retired abandoned).trans (moved_driveLines _).quiet)
    (fun h => (noted_createSweepDone h p number retired abandoned).hush (hush_driveLines _)) (lit_driveLines _)

theorem keeps_execTagSweepEnd (s : State) : Goes Keeps s (execTagSweepEnd s) := by
  unfold execTagSweepEnd
  split
  · exact .next (.refl s)
  · split
    · split
      · exact .next ((keeps_freePlace s _).trans (keeps_sweepDone _ _ _ _ _))
      · exact .next (.refl s)
    · exact .next (.refl s)
    · exact .next (.refl s)

theorem keeps_recover (s : State) (p : Port) : Keeps s (s.recover p) :=
  ⟨fun h => h.quiet (quiet_recover s p), fun h => whole_recover h p⟩

theorem keeps_execPortSweepEnd (s : State) : Goes Keeps s (execPortSweepEnd s) := by
  unfold execPortSweepEnd
  split
  · exact .next (.refl s)
  · split
    · split
      · exact .next ((keeps_freePlace s _).trans (keeps_recover _ _))
      · exact .next (.refl s)
    · exact .next (.refl s)
    · exact .next (.refl s)

theorem keeps_execTotalSweepEnd (s : State) : Goes Keeps s (execTotalSweepEnd s) := by
  unfold execTotalSweepEnd
  split
  · exact .next (.refl s)
  · split
    · split
      · exact .next ⟨fun h => tied_endTotal h _, fun h => whole_endTotal h _⟩
      · exact .next (.refl s)
    · exact .next (.refl s)
    · exact .next (.refl s)

/-! ### The client link -/

theorem keeps_receiveBad (s : State) (p : Port) (reason : RejectReason) : Keeps s (s.receiveBad p reason) :=
  ⟨fun h => tied_receiveBad h p reason, fun h => whole_receiveBad h p reason⟩

theorem keeps_execFrameCutOff (p : Port) (s : State) : Goes Keeps s (execFrameCutOff p s) := by
  unfold execFrameCutOff
  split
  · exact .next ((keeps_setReceiver s p _).trans (keeps_receiveBad _ p .cut))
  · exact .next (.refl s)

theorem keeps_execBadFrame (p : Port) (os : List Octet) (s : State) : Goes Keeps s (execBadFrame p os s) := by
  unfold execBadFrame
  split
  · exact .next ((keeps_setReceiver s p _).trans (keeps_receiveBad _ p _))
  all_goals exact .next (.refl s)

theorem keeps_execLinkOpen (p : Port) (os : List Octet) (s : State) : Goes Keeps s (execLinkOpen p os s) := by
  unfold execLinkOpen
  split
  · exact .next ((keeps_setReceiver s p _).trans
      ⟨fun h => tied_receiveLinkOpen h p _, fun h => whole_receiveLinkOpen h p _⟩)
  all_goals exact .next (.refl s)

theorem keeps_execLinkClose (p : Port) (os : List Octet) (s : State) : Goes Keeps s (execLinkClose p os s) := by
  unfold execLinkClose
  split
  · exact .next ((keeps_setReceiver s p _).trans
      ⟨fun h => tied_receiveLinkClose h p, fun h => whole_receiveLinkClose h p⟩)
  all_goals exact .next (.refl s)

theorem keeps_execRequestFrame (p : Port) (os : List Octet) (s : State) :
    Goes Keeps s (execRequestFrame p os s) := by
  unfold execRequestFrame
  split
  · exact .next ((keeps_setReceiver s p _).trans
      ⟨fun h => tied_receiveRequest h p _ _, fun h => whole_receiveRequest h p _ _⟩)
  all_goals exact .next (.refl s)

theorem Link.sent_attention (l : Link) : l.sent.attention = l.attention := by
  unfold Link.sent
  split
  · rfl
  · split <;> rfl

theorem keeps_execUnknownRequestCode (p : Port) (s : State) : Goes Keeps s (execUnknownRequestCode p s) := by
  unfold execUnknownRequestCode
  split
  · exact .next (.refl s)
  · split
    · exact .next (keeps_refuse s p _)
    · exact .next (.refl s)

/-! ### Requests that name a record -/

/-- A request held by the interlock or applied. -/
theorem keeps_interlocked (s : State) (p : Port) (c : RequestCode) (f : List Octet → State)
    (hf : ∀ pl, Keeps s (f pl)) : Goes Keeps s (s.applying p c fun pl => s.interlocked p pl (f pl)) :=
  goes_applying s p c _ (.refl s) fun pl =>
    interlocked_of s p pl _ (keeps_refuse s p _)
      (fun i => (keeps_checkedRead s i).trans (keeps_hold _ p i)) (hf pl)

/-- A request carried out passed every check made. -/
theorem Record.refusal_passed {r : Record} {p : Port} {h : Handle} {a b : Bool} (hr : r.refusal p h a b = none) :
    r.sched ≠ .free ∧ (a = true → r.sched ≠ .damaged) := by
  unfold Record.refusal Record.staleFor at hr
  constructor
  · intro e
    simp [e] at hr
  · intro ha e
    simp [ha, e] at hr
    split_ifs at hr

/-- A request on a record: refused behind its read, or carried out on a record that passed the checks. -/
theorem keeps_onRecord (s : State) (p : Port) (h : Handle) (a b : Bool) (f : State → Record → State)
    (hf : ((s.readSlot h.slot).record h.slot).refusal p h a b = none →
      Keeps s (f (s.readSlot h.slot) ((s.readSlot h.slot).record h.slot))) :
    Keeps s (s.onRecord p h a b f) := by
  unfold State.onRecord
  dsimp only
  split
  · exact (keeps_checkedRead s h.slot).trans (keeps_refuse _ p _)
  · exact hf ‹_›

/-- Where the DAMAGED check is made, a request is carried out on a state whose notices the read has left alone. -/
theorem keeps_onUndamaged (s : State) (p : Port) (h : Handle) (b : Bool) (f : State → Record → State)
    (hf : ∀ t : State, (t.record h.slot).sched ≠ .free → (t.record h.slot).sched ≠ .damaged →
      Keeps t (f t (t.record h.slot))) : Keeps s (s.onRecord p h true b f) := by
  refine keeps_onRecord s p h true b f fun passed => ?_
  obtain ⟨free, damaged⟩ := Record.refusal_passed passed
  have read : s.checkedRead h.slot = s.readSlot h.slot :=
    checkedRead_eq s h.slot (by rw [checkedRead_record]; exact damaged rfl)
  rw [← read] at free damaged ⊢
  exact (keeps_checkedRead s h.slot).trans (hf _ free (damaged rfl))

/-- Retirement behind a read: the notice unit is served for both at its end (R15, log 22). -/
theorem keeps_readRetire (s : State) (i : SlotIx) : Keeps s ((s.readSlot i).retire i) :=
  ⟨fun h => tied_retire (tied_readSlot h i) i,
    fun h => whole_retire (tied_readSlot h.tied i) (noted_readSlot h.noted i) i⟩

theorem keeps_execOpen (p : Port) (s : State) : Goes Keeps s (execOpen p s) := by
  refine goes_applying s p _ _ (.refl s) fun pl => ?_
  split
  · exact keeps_refuse s p _
  · rename_i f _
    refine .ite (fun _ => keeps_refuse s p _) fun _ => ?_
    split
    · exact keeps_refuse s p _
    · rename_i i hi
      refine Keeps.trans ?_ (keeps_accept _ p _)
      have free (h : Tied none s) := (checkedRead_free (lowestFree_free h hi)).1
      exact ⟨fun h => tied_createRecord (tied_checkedRead h i) (free h) p f,
        fun h => whole_createRecord (whole_checkedRead h i) (free h.tied) p f⟩

theorem keeps_execRead (p : Port) (s : State) : Goes Keeps s (execRead p s) := by
  refine goes_applying s p _ _ (.refl s) fun pl => ?_
  split
  · exact keeps_refuse s p _
  · rename_i h _
    exact (keeps_checkedRead s h.slot).trans (.ite (fun _ => keeps_refuse _ p _) fun _ => keeps_accept _ p _)

theorem keeps_execClose (p : Port) (s : State) : Goes Keeps s (execClose p s) := by
  refine keeps_interlocked s p _ _ fun pl => ?_
  split
  · exact keeps_refuseTested s p pl _
  · exact keeps_onRecord s p _ _ _ _ fun _ => (keeps_readRetire s _).trans (keeps_accept _ p _)

theorem keeps_execForceClose (p : Port) (s : State) : Goes Keeps s (execForceClose p s) := by
  refine goes_applying s p _ _ (.refl s) fun pl => ?_
  split
  · exact keeps_refuse s p _
  · refine supervised_of s p _ ?_ (keeps_refuse s p _)
    exact keeps_onRecord s p _ _ _ _ fun _ => (keeps_readRetire s _).trans (keeps_accept _ p _)

/-- SET writes fields of a record that say neither where it lies nor what notice it has (R11). -/
theorem keeps_setFields (s : State) (i : SlotIx) (f : SetFields) : Keeps s (s.setRecord i (f.apply (s.record i))) :=
  have q : Quiet s (s.setRecord i (f.apply (s.record i))) := quiet_setRecord s i _ rfl rfl
  ⟨fun h => h.quiet q, fun h => ⟨h.tied.quiet q, h.noted.hush (hush_modify s i f.apply rfl),
    h.lit.calm (calm_modify s i f.apply rfl)⟩⟩

theorem keeps_execSet (p : Port) (s : State) : Goes Keeps s (execSet p s) := by
  refine keeps_interlocked s p _ _ fun pl => ?_
  split
  · exact keeps_refuseTested s p pl _
  · refine keeps_onUndamaged s p _ _ _ fun t _ _ => ?_
    exact .ite (fun _ => keeps_refuse t p _) fun _ => (keeps_setFields t _ _).trans (keeps_accept _ p _)

/-- A move of a record on the timing path that leaves its notice alone. -/
theorem keeps_retimed {s t : State} (h : Tied none s → Tied none t) (hush : Hush s t) (calm : Calm s t) :
    Keeps s t := ⟨h, fun a => ⟨h a.tied, a.noted.hush hush, a.lit.calm calm⟩⟩

theorem keeps_execArm (p : Port) (s : State) : Goes Keeps s (execArm p s) := by
  refine keeps_interlocked s p _ _ fun pl => ?_
  split
  · exact keeps_refuseTested s p pl _
  · rename_i h form _
    refine keeps_onUndamaged s p h _ _ fun t free damaged => .ite (fun _ => keeps_refuse t p _) fun _ => ?_
    split
    · exact keeps_refuse t p _
    · rename_i d _
      exact (keeps_retimed (fun a => tied_armRecord a free d) (hush_armRecord t h.slot d free damaged)
        (calm_armRecord t h.slot d)).trans (keeps_accept _ p _)

theorem keeps_disarm {s : State} {i : SlotIx} (free : (s.record i).sched ≠ .free)
    (damaged : (s.record i).sched ≠ .damaged) : Keeps s (s.disarm i) :=
  keeps_retimed (fun h => tied_disarm h free) (hush_disarm s i free damaged) (calm_disarm s i)

theorem keeps_withdraw (s : State) (i : SlotIx) : Keeps s (s.withdraw i) :=
  ⟨fun h => tied_withdraw h i, fun h => ⟨tied_withdraw h.tied i, noted_withdraw h.noted i, lit_withdraw h.lit i⟩⟩

theorem keeps_execCancel (p : Port) (s : State) : Goes Keeps s (execCancel p s) := by
  refine keeps_interlocked s p _ _ fun pl => ?_
  split
  · exact keeps_refuseTested s p pl _
  · refine keeps_onUndamaged s p _ _ _ fun t free damaged => ?_
    have disarm := keeps_disarm free damaged
    exact Keeps.trans (.ite (fun _ => disarm.trans (keeps_withdraw _ _)) fun _ => disarm) (keeps_accept _ p _)

/-- PAUSE takes the record off the timing path (R43). -/
theorem keeps_park {s : State} {i : SlotIx} (free : (s.record i).sched ≠ .free)
    (damaged : (s.record i).sched ≠ .damaged) (d : Option Tick) :
    Keeps s ((s.leaveTiming i).modify i fun q => { q with sched := .paused, remaining := d }) := by
  rw [← leaveTiming_record s i i] at free damaged
  refine keeps_retimed (fun h => (tied_leaveTiming h).parked _ free rfl (.inr rfl)) ?_ ?_
  · exact (hush_leaveTiming s i).trans
      (hush_retimed _ i _ free damaged Sched.noConfusion Sched.noConfusion rfl rfl rfl)
  · exact (calm_leaveTiming s i).trans (calm_modify _ i _ rfl)

theorem keeps_execPause (p : Port) (s : State) : Goes Keeps s (execPause p s) := by
  refine keeps_interlocked s p _ _ fun pl => ?_
  split
  · exact keeps_refuseTested s p pl _
  · refine keeps_onUndamaged s p _ _ _ fun t free damaged => .ite (fun _ => ?_) fun _ => keeps_refuse t p _
    exact (keeps_park free damaged _).trans (keeps_accept _ p _)

/-- A record that is in no queue and no list joins the placement queue with a new deadline (R35, R45, R105). -/
theorem keeps_rearm {s : State} {i : SlotIx} (h : (s.record i).sched = .paused ∨ (s.record i).sched = .idle)
    (d : Tick) : Keeps s ((s.setDeadline i d).enqueue i) := by
  have away (x : Sched) (h1 : x ≠ .paused) (h2 : x ≠ .idle) : (s.record i).sched ≠ x := by
    rintro rfl
    exact h.elim h1 h2
  have free := away .free (by decide) (by decide)
  have damaged := away .damaged (by decide) (by decide)
  have same := setDeadline_sched s i d
  refine keeps_retimed (fun a => ?_) ?_ ?_
  · have out := a.opened i (away .queued (by decide) (by decide)) (away .armed (by decide) (by decide))
    exact tied_enqueue (tied_setDeadline out d) (same ▸ free)
  · exact (hush_setDeadline s i d).trans (hush_enqueue _ i (same ▸ free) (same ▸ damaged))
  · exact (calm_setDeadline s i d).trans (calm_enqueue _ i)

theorem keeps_execResume (p : Port) (s : State) : Goes Keeps s (execResume p s) := by
  refine keeps_interlocked s p _ _ fun pl => ?_
  split
  · exact keeps_refuseTested s p pl _
  · refine keeps_onUndamaged s p _ _ _ fun t _ _ => .ite (fun _ => keeps_refuse t p _) fun paused =>
      .ite (fun _ => keeps_refuse t p _) fun _ => .ite (fun _ => keeps_refuse t p _) fun _ => ?_
    exact (keeps_rearm (.inl (not_not.mp paused)) _).trans (keeps_accept _ p _)

/-! ### Delivery -/

theorem mem_takeable {s : State} {p : Port} {n : Nat} {before : List Entry} {e : Entry}
    (h : e ∈ s.takeable p n before) : e ∈ s.notices.queues[p] :=
  List.mem_of_mem_filter (List.mem_of_mem_take h)

theorem Noted.takeable_nodup {l} {s : State} (h : Noted none l s) (p : Port) (n : Nat) (before : List Entry) :
    (s.takeable p n before).Nodup := by
  have once : s.notices.queues[p].Nodup := by
    have inside : s.notices.queues[p].Sublist s.entries := by
      refine (List.sublist_flatten_of_mem ?_).trans ((List.sublist_append_left _ _).trans
        (List.sublist_append_left _ _))
      exact Array.mem_toList_iff.mpr (Array.getElem_mem _)
    exact (h.numbers.of_map _).sublist inside
  exact (once.filter _).sublist (List.take_sublist ..)

/-- TAKE's reads and its deliveries, with the service for both at the end (R99, R100, log 22). -/
theorem keeps_deliver (s : State) (p : Port) (slots : List SlotIx) (n : Nat) (before : List Entry) (b : Bool) :
    Keeps s ((s.readSlots slots).deliverAll p ((s.readSlots slots).takeable p n before) b) :=
  have tied (h : Tied none s) := tied_deliverAll (tied_readSlots slots h) p
    ((s.readSlots slots).takeable p n before) b
  ⟨tied, fun h => ⟨tied h.tied, (noted_deliverAll (noted_readSlots slots h.noted)
    ((noted_readSlots slots h.noted).takeable_nodup p n before) (fun _ => mem_takeable) b), lit_deliverAll _ _ _ _⟩⟩

theorem keeps_execTake (p : Port) (s : State) : Goes Keeps s (execTake p s) := by
  refine goes_applying s p _ _ (.refl s) fun pl => ?_
  split
  · exact keeps_refuse s p _
  · exact (keeps_deliver s p _ _ _ _).trans (keeps_accept _ p _)

theorem Record.holderRefusal_none {r : Record} {p : Port} (h : r.holderRefusal p = none) :
    r.notice = .outstanding ∧ r.holder = some p := by
  unfold Record.holderRefusal at h
  split_ifs at h with outstanding holder
  exact ⟨outstanding, holder⟩

/-- An accepted ACK behind its read (R104, log 22). -/
theorem keeps_readAcknowledge {s : State} {i : SlotIx} {p : Port} (rearm : Option Interval)
    (free : ((s.readSlot i).record i).sched ≠ .free) (held : ((s.readSlot i).record i).holderRefusal p = none) :
    Keeps s ((s.readSlot i).acknowledge p i rearm) := by
  obtain ⟨outstanding, holder⟩ := Record.holderRefusal_none held
  have tied (h : Tied none s) := tied_acknowledge (tied_readSlot h i) p i rearm
  refine ⟨tied, fun h => ⟨tied h.tied, ?_, lit_settle _⟩⟩
  exact noted_acknowledge (noted_readSlot h.noted i) outstanding holder free rearm

theorem keeps_execAck (p : Port) (s : State) : Goes Keeps s (execAck p s) := by
  refine goes_applying s p _ _ (.refl s) fun pl => ?_
  split
  · exact keeps_refuse s p _
  · rename_i h rearm _
    refine keeps_onRecord s p h _ _ _ fun passed => ?_
    split
    · exact (keeps_checkedRead s h.slot).trans (keeps_refuse _ p _)
    · rename_i accepted
      have held := (Option.or_eq_none_iff.mp accepted).1
      exact (keeps_readAcknowledge rearm (Record.refusal_passed passed).1 held).trans (keeps_accept _ p _)

theorem keeps_execRelease (p : Port) (s : State) : Goes Keeps s (execRelease p s) := by
  refine goes_applying s p _ _ (.refl s) fun pl => ?_
  split
  · exact keeps_refuse s p _
  · rename_i h _
    refine keeps_onUndamaged s p h _ _ fun t _ damaged => ?_
    split
    · exact keeps_refuse t p _
    · rename_i held
      obtain ⟨outstanding, holder⟩ := Record.holderRefusal_none held
      refine Keeps.trans (t := t.giveBack p h.slot) ?_ (keeps_accept _ p _)
      exact ⟨fun a => a.quiet (quiet_giveBack t p h.slot), fun a => ⟨a.tied.quiet (quiet_giveBack t p h.slot),
        noted_giveBack a.noted outstanding holder damaged rfl, lit_giveBack a.lit p h.slot⟩⟩

theorem keeps_execAttentionSet (p : Port) (s : State) : Goes Keeps s (execAttentionSet p s) := by
  refine goes_applying s p _ _ (.refl s) fun pl => ?_
  split
  · exact keeps_refuse s p _
  · rename_i v _
    refine Keeps.trans (t := s.setThreshold p v) ?_ (keeps_accept _ p _)
    exact ⟨fun h => h.quiet (.of_table rfl rfl rfl), fun h => whole_setThreshold h p v⟩

/-! ### Supervision and the time base -/

/-- A request that the supervisor right alone stands before, once its payload is well formed. -/
theorem keeps_supervised (s : State) (p : Port) (f : State) (h : Keeps s f) : Keeps s (s.supervised p f) :=
  supervised_of s p f h (keeps_refuse s p _)

theorem keeps_settled (s t : State) (h1 : t.table = s.table) (h2 : t.placement = s.placement)
    (h3 : t.expiry = s.expiry) (h4 : t.notices = s.notices) (h5 : t.links = s.links) : Keeps s t.settle :=
  (Keeps.same h1 h2 h3 h4 h5).trans (.settled (moved_settle t).quiet noted_settle (lit_settle t))

theorem keeps_execPoolSet (p : Port) (s : State) : Goes Keeps s (execPoolSet p s) := by
  refine goes_applying s p _ _ (.refl s) fun pl => ?_
  split
  · exact keeps_refuse s p _
  · refine keeps_supervised s p _ (Keeps.trans ?_ (keeps_accept _ p _))
    exact keeps_settled s _ rfl rfl rfl rfl rfl

theorem keeps_execRetireTag (p : Port) (s : State) : Goes Keeps s (execRetireTag p s) := by
  refine goes_applying s p _ _ (.refl s) fun pl => ?_
  split
  · exact keeps_refuse s p _
  · exact .ite (fun _ => keeps_refuse s p _) fun _ => .ite (fun _ => keeps_refuse s p _) fun _ =>
      (keeps_queueSweep s _).trans (keeps_accept _ p _)

theorem keeps_execClearAll (p : Port) (s : State) : Goes Keeps s (execClearAll p s) := by
  refine goes_applying s p _ _ (.refl s) fun pl => ?_
  split
  · exact keeps_refuse s p _
  · refine keeps_supervised s p _ (.ite (fun _ => keeps_refuse s p _) fun _ => ?_)
    refine Keeps.trans ?_ (keeps_accept _ p _)
    refine Keeps.trans ?_ (keeps_takeSweep _)
    exact .same rfl rfl rfl rfl rfl

theorem keeps_setLimit (s : State) (q : Port) (v : Nat) : Keeps s (s.setLimit q v) :=
  ⟨fun h => h.quiet (quiet_setLimit s q v), fun h => whole_setLimit h q v⟩

theorem keeps_execPortLimitSet (p : Port) (s : State) : Goes Keeps s (execPortLimitSet p s) := by
  refine goes_applying s p _ _ (.refl s) fun pl => ?_
  split
  · exact keeps_refuse s p _
  · exact keeps_supervised s p _ ((keeps_setLimit s _ _).trans (keeps_accept _ p _))

theorem keeps_execPortDisable (p : Port) (s : State) : Goes Keeps s (execPortDisable p s) := by
  refine goes_applying s p _ _ (.refl s) fun pl => ?_
  split
  · exact keeps_refuse s p _
  · rename_i q _
    refine keeps_supervised s p _ (.ite (fun _ => keeps_refuse s p _) fun _ => ?_)
    exact Keeps.trans (t := s.disable q) ⟨fun h => tied_disable h q, fun h => whole_disable h q⟩
      (keeps_accept _ p _)

theorem keeps_execPortEnable (p : Port) (s : State) : Goes Keeps s (execPortEnable p s) := by
  refine goes_applying s p _ _ (.refl s) fun pl => ?_
  split
  · exact keeps_refuse s p _
  · rename_i q _
    refine keeps_supervised s p _ (Keeps.trans (t := s.enable q) ?_ (keeps_accept _ p _))
    exact ⟨fun h => h.quiet (quiet_enable s q), fun h => whole_enable h q⟩

theorem keeps_execHandOver (p : Port) (s : State) : Goes Keeps s (execHandOver p s) := by
  refine goes_applying s p _ _ (.refl s) fun pl => ?_
  split
  · exact keeps_refuse s p _
  · refine keeps_supervised s p _ (.ite (fun _ => ?_) fun _ => keeps_refuse s p _)
    refine Keeps.trans ?_ (keeps_accept _ p _)
    exact .same rfl rfl rfl rfl rfl

/-- A request of the supervisor port whose effect is on blocks that the invariants do not speak of. -/
theorem keeps_acceptAside (s t : State) (p : Port) (b : List Octet) (h1 : t.table = s.table)
    (h2 : t.placement = s.placement) (h3 : t.expiry = s.expiry) (h4 : t.notices = s.notices)
    (h5 : t.links = s.links) : Keeps s (s.supervised p (t.accept p b)) :=
  keeps_supervised s p _ ((Keeps.same h1 h2 h3 h4 h5).trans (keeps_accept t p b))

theorem keeps_execTimeSet (p : Port) (s : State) : Goes Keeps s (execTimeSet p s) := by
  refine goes_applying s p _ _ (.refl s) fun pl => ?_
  split
  · exact keeps_refuse s p _
  · exact keeps_acceptAside s _ p _ rfl rfl rfl rfl rfl

theorem keeps_execTimeRun (p : Port) (s : State) : Goes Keeps s (execTimeRun p s) := by
  refine goes_applying s p _ _ (.refl s) fun pl => ?_
  split
  · exact keeps_refuse s p _
  · exact keeps_acceptAside s _ p _ rfl rfl rfl rfl rfl

theorem keeps_execTimeFreeze (p : Port) (s : State) : Goes Keeps s (execTimeFreeze p s) := by
  refine goes_applying s p _ _ (.refl s) fun pl => ?_
  split
  · exact keeps_refuse s p _
  · exact keeps_acceptAside s _ p _ rfl rfl rfl rfl rfl

theorem keeps_execPrescale (p : Port) (s : State) : Goes Keeps s (execPrescale p s) := by
  refine goes_applying s p _ _ (.refl s) fun pl => ?_
  split
  · exact keeps_refuse s p _
  · exact keeps_acceptAside s _ p _ rfl rfl rfl rfl rfl

theorem keeps_execScrubSet (p : Port) (s : State) : Goes Keeps s (execScrubSet p s) := by
  refine goes_applying s p _ _ (.refl s) fun pl => ?_
  split
  · exact keeps_refuse s p _
  · exact keeps_acceptAside s _ p _ rfl rfl rfl rfl rfl

theorem keeps_execQuotaSet (p : Port) (s : State) : Goes Keeps s (execQuotaSet p s) := by
  refine goes_applying s p _ _ (.refl s) fun pl => ?_
  split
  · exact keeps_refuse s p _
  · exact keeps_acceptAside s _ p _ rfl rfl rfl rfl rfl

theorem keeps_execTimeRead (p : Port) (s : State) : Goes Keeps s (execTimeRead p s) := by
  refine goes_applying s p _ _ (.refl s) fun pl => ?_
  split
  · exact keeps_refuse s p _
  · exact keeps_accept s p _

theorem keeps_execStatus (p : Port) (s : State) : Goes Keeps s (execStatus p s) := by
  refine goes_applying s p _ _ (.refl s) fun pl => ?_
  split
  · exact keeps_refuse s p _
  · exact keeps_accept s p _

theorem keeps_execEcho (p : Port) (s : State) : Goes Keeps s (execEcho p s) := by
  refine goes_applying s p _ _ (.refl s) fun pl => ?_
  split
  · exact keeps_refuse s p _
  · exact keeps_accept s p _

/-! ### Every command and every step -/

/-- Every command keeps both invariants. -/
theorem goes_keeps (s : State) : ∀ c : Instr, Goes Keeps s (exec c s)
  | .deviceReset => keeps_execDeviceReset s
  | .tick => .next (keeps_tickEvent s)
  | .scrubVisit => keeps_execScrubVisit s
  | .listFault finder => keeps_execListFault finder s
  | .placementTake => keeps_execPlacementTake s
  | .placementEnd => keeps_execPlacementEnd s
  | .firing => keeps_execFiring s
  | .companionFiring => keeps_execCompanionFiring s
  | .markedHeadRemoval => keeps_execMarkedHeadRemoval s
  | .sweepStart => .next (keeps_takeSweep s)
  | .sweepVisit => keeps_execSweepVisit s
  | .tagSweepEnd => keeps_execTagSweepEnd s
  | .portSweepEnd => keeps_execPortSweepEnd s
  | .totalSweepEnd => keeps_execTotalSweepEnd s
  | .frameCutOff p => keeps_execFrameCutOff p s
  | .badFrame p os => keeps_execBadFrame p os s
  | .linkOpen p os => keeps_execLinkOpen p os s
  | .linkClose p os => keeps_execLinkClose p os s
  | .requestFrame p os => keeps_execRequestFrame p os s
  | .frameSent p => .next (keeps_modifyLink s p _ Link.sent_state Link.sent_attention)
  | .openRecord p => keeps_execOpen p s
  | .closeRecord p => keeps_execClose p s
  | .readRecord p => keeps_execRead p s
  | .setRecord p => keeps_execSet p s
  | .arm p => keeps_execArm p s
  | .cancel p => keeps_execCancel p s
  | .pause p => keeps_execPause p s
  | .resume p => keeps_execResume p s
  | .take p => keeps_execTake p s
  | .ack p => keeps_execAck p s
  | .release p => keeps_execRelease p s
  | .attentionSet p => keeps_execAttentionSet p s
  | .poolSet p => keeps_execPoolSet p s
  | .retireTag p => keeps_execRetireTag p s
  | .clearAll p => keeps_execClearAll p s
  | .timeRead p => keeps_execTimeRead p s
  | .timeSet p => keeps_execTimeSet p s
  | .timeRun p => keeps_execTimeRun p s
  | .timeFreeze p => keeps_execTimeFreeze p s
  | .prescale p => keeps_execPrescale p s
  | .scrubSet p => keeps_execScrubSet p s
  | .quotaSet p => keeps_execQuotaSet p s
  | .portLimitSet p => keeps_execPortLimitSet p s
  | .portDisable p => keeps_execPortDisable p s
  | .portEnable p => keeps_execPortEnable p s
  | .handOver p => keeps_execHandOver p s
  | .forceClose p => keeps_execForceClose p s
  | .status p => keeps_execStatus p s
  | .echo p => keeps_execEcho p s
  | .frameStart p _ => .next (keeps_setReceiver s p _)
  | .unknownRequestCode p => keeps_execUnknownRequestCode p s

theorem keeps_takeUpset (s : State) : Keeps s s.takeUpset := by
  unfold State.takeUpset
  split
  · exact .refl s
  · rename_i u rest _
    refine Keeps.trans (t := { s with upsets := rest }) (.same rfl rfl rfl rfl rfl) ?_
    exact ⟨fun h => tied_strike h u, fun h => whole_strike h u⟩

theorem keeps_clockTimeBase (s : State) : Keeps s s.clockTimeBase := by
  unfold State.clockTimeBase
  refine .ite (fun _ => .ite (fun _ => ?_) fun _ => keeps_tickEvent s) fun _ => .refl s
  exact .same rfl rfl rfl rfl rfl

theorem keeps_clockPeriod (s : State) : Keeps s s.clockPeriod := by
  refine ((keeps_takeUpset s).trans (keeps_clockTimeBase _)).trans (Keeps.foldl _ (fun t p => ?_) allPorts _)
  exact ⟨fun h => tied_clockPort h p, fun h => whole_clockPort h p⟩

theorem step_tied {s t : State} (h : Tied none s) (ht : step s = .next t) : Tied none t :=
  step_keeps (I := Tied none) (fun _ _ a => a.quiet (.of_table rfl rfl rfl)) (fun s => (keeps_clockPeriod s).tied)
    (fun s c => (goes_keeps s c).imp fun _ => Keeps.tied) h ht

theorem step_whole {s t : State} (h : Whole s) (ht : step s = .next t) : Whole t :=
  step_keeps (I := Whole) (fun _ _ a => a.same rfl rfl rfl rfl rfl) (fun s => (keeps_clockPeriod s).whole)
    (fun s c => (goes_keeps s c).imp fun _ => Keeps.whole) h ht

/-- Settles O4: the table's form by what every command keeps of it, the collections by the invariant `Tied`. -/
theorem tableStaysCanonical : Obligations.TableStaysCanonical := by
  refine ⟨fun s t => step_table, fun s t form queue list slots ht => ?_⟩
  exact ((tied_iff t).mp (step_tied ((tied_iff s).mpr ⟨form, queue, list, slots⟩) ht)).2

/-- Settles O7: the ports' items by what every command keeps of them, the notice store and the attention lines by
the invariant `Whole`. -/
theorem linksStayInRange : Obligations.LinksStayInRange := by
  refine ⟨fun s t => step_linksSound, fun s t form queue list slots notices lines ht => ?_⟩
  have whole := step_whole ((whole_iff s).mpr ⟨form, queue, list, slots, notices, lines⟩) ht
  exact ((whole_iff t).mp whole).2.2.2.2

/-- Settles O8: the reset state is `Whole`, and its time base, ports and links are sound. -/
theorem resetMeetsInvariants : Obligations.ResetMeetsInvariants := by
  obtain ⟨form, collections⟩ := (whole_iff _).mp whole_reset
  exact ⟨form, reset_timeSound, reset_portsAgree, reset_linksSound, collections⟩

end Sys2Proof.Machine
end

