-- ==== Sys2Proof/Proofs/Clock.lean ====
section
/-! The obligations on device reset (R151) and on the period of the reference clock that a step on an empty queue is
(log 2). -/

namespace Sys2Proof.Machine

/-! ### Device reset -/

theorem exec_deviceReset_next (s : State) : exec .deviceReset s =
    .next { State.reset with pending := s.pending, upsets := s.upsets, freeValues := s.freeValues } := rfl

/-- Settles O9: each block of the state that DEVICE_RESET answers is the reset state's. -/
theorem deviceResetClearsEverything : Obligations.DeviceResetClearsEverything := by
  intro s
  have quota (p : Port) : State.reset.portTable.quota[p] = 256 := Vector.getElem_replicate ..
  have limit (p : Port) : State.reset.portTable.limit[p] = 64 := Vector.getElem_replicate ..
  have enabled (p : Port) : State.reset.portTable.enabled[p] = true := Vector.getElem_replicate ..
  have owned (p : Port) : State.reset.table.owned[p] = [] := Vector.getElem_replicate ..
  refine ⟨_, exec_deviceReset_next s, rfl, fun _ => rfl, rfl, fun p => ?owned, rfl, rfl, rfl, rfl, rfl,
    reset_thresholds, fun k => Vector.getElem_replicate .., rfl, rfl, rfl,
    fun p => ⟨quota p, limit p, enabled p⟩, reset_links, rfl, rfl, rfl⟩
  case owned => exact congrArg List.length (owned p)

/-! ### The time base in one period -/

/-- FROZEN and EXHAUSTED the period changes nothing at the time base (R22). -/
theorem clockTimeBase_halted {s : State} (h : s.timeBase.mode ≠ .running) : s.clockTimeBase = s := if_neg h

/-- A period that completes the interval is a TICK (R22). -/
theorem clockTimeBase_tickEvent {s : State} (hm : s.timeBase.mode = .running)
    (hp : s.timeBase.prescaler ≤ s.timeBase.phase + 1) : s.clockTimeBase = s.tickEvent := by
  unfold State.clockTimeBase
  rw [if_pos hm, if_neg (Nat.not_lt.mpr hp)]

/-- Without a tick the time base alone can change. -/
theorem clockTimeBase_untick {s : State}
    (h : ¬ (s.timeBase.mode = .running ∧ s.timeBase.prescaler ≤ s.timeBase.phase + 1)) :
    s.clockTimeBase = { s with timeBase := s.clockTimeBase.timeBase } := by
  by_cases hm : s.timeBase.mode = .running
  · rw [clock_counts hm (Nat.lt_of_not_le fun hp => h ⟨hm, hp⟩)]
    rfl
  · rw [clockTimeBase_halted hm]

/-- The time base after a tick (R22, R23; log 10). -/
theorem TimeBase.advance_eq (b : TimeBase) : b.advance =
    { now := b.now + 1
      mode := if b.now.toNat + 1 = Config.timeMax then .exhausted else .running
      prescaler := match b.pendingPrescaler with | none => b.prescaler | some v => v
      pendingPrescaler := none
      phase := 0 } := by
  unfold TimeBase.advance TimeBase.newInterval
  cases b.pendingPrescaler <;> rfl

/-! ### The ports in one period -/

/-- A clock period at ports that all search changes nothing. -/
theorem clockPorts_searching {s : State} (h : ∀ p : Port, ∃ v, s.links[p].receiver = .searching v) :
    allPorts.foldl State.clockPort s = s := by
  rw [clockPorts_single s 0 fun q _ => h q, clockPort_searching s 0 (h 0)]

theorem Receiver.afterQuiet_ended {bits : List Bool} {quiet : Nat} (h : takeFrame bits ≠ none) :
    (Receiver.receiving bits quiet).afterQuiet = .receiving bits quiet :=
  if_pos (Option.isSome_iff_ne_none.mpr h)

theorem Receiver.afterQuiet_counts {bits : List Bool} {quiet : Nat} (h : takeFrame bits = none)
    (hq : quiet + 1 < 65536) : (Receiver.receiving bits quiet).afterQuiet = .receiving bits (quiet + 1) := by
  show (if (takeFrame bits).isSome then _ else if quiet + 1 < Config.cutOffPeriods then _ else _) = _
  rw [h, if_neg (by simp), if_pos (show quiet + 1 < Config.cutOffPeriods from hq)]

theorem Receiver.afterQuiet_cutOff {bits : List Bool} {quiet : Nat} (h : takeFrame bits = none)
    (hq : 65536 ≤ quiet + 1) : (Receiver.receiving bits quiet).afterQuiet = .searching [] := by
  show (if (takeFrame bits).isSome then _ else if quiet + 1 < Config.cutOffPeriods then _ else _) = _
  rw [h, if_neg (by simp), if_neg (show ¬ quiet + 1 < Config.cutOffPeriods from Nat.not_lt.mpr hq)]

/-- A frame that has begun and not ended is cut off by its row (R152, log 17). -/
theorem exec_frameCutOff_begun {s : State} {p : Port} {bits : List Bool} {quiet : Nat}
    (hr : s.links[p].receiver = .receiving bits quiet) (h : takeFrame bits = none) :
    exec (.frameCutOff p) s = .next (s.cutOff p) := by
  rw [exec_frameCutOff, execFrameCutOff, hr, if_pos]
  show (takeFrame bits).isNone = true
  rw [h]
  rfl

/-- At 65,536 periods without a bit the period of a port is the cut-off of its frame (R152). -/
theorem clockPort_cutOff {s : State} {p : Port} {bits : List Bool} {quiet : Nat}
    (hr : s.links[p].receiver = .receiving bits quiet) (h : takeFrame bits = none) (hq : 65536 ≤ quiet + 1) :
    s.clockPort p = s.cutOff p := by
  unfold State.clockPort
  rw [hr]
  show (if (takeFrame bits).isSome then _ else if quiet + 1 < Config.cutOffPeriods then _ else _) = _
  rw [h, if_neg (by simp), if_neg (show ¬ quiet + 1 < Config.cutOffPeriods from Nat.not_lt.mpr hq)]

/-- Settles O2: the period is the storage error, then the time base, then the ports; each part's own lemma says what
it changes, and the parts before it leave what it reads. -/
theorem idleStepIsClockPeriod : Obligations.IdleStepIsClockPeriod := by
  intro s w ticks hp hw hticks
  subst hw
  obtain ⟨base, scrub, links⟩ := takeUpset_apart s
  have none_strikes (h : s.upsets = []) : s.takeUpset = s := by
    unfold State.takeUpset
    rw [h]
  refine ⟨none_strikes, fun e rest h => by unfold State.takeUpset; rw [h], ⟨base, scrub, links⟩, ?_⟩
  have clockLinks : s.takeUpset.clockTimeBase.links = s.links := by rw [clockTimeBase_eq]; exact links
  have portsBase := clockPorts_timeBase allPorts s.takeUpset.clockTimeBase
  have receiver (p : Port) :
      (allPorts.foldl State.clockPort s.takeUpset.clockTimeBase).links[p].receiver
        = s.links[p].receiver.afterQuiet := by
    rw [clockPorts_receiver, clockLinks]
  have tick (h : ticks) : s.takeUpset.clockTimeBase = s.takeUpset.tickEvent := by
    obtain ⟨hm, hph⟩ := hticks.mp h
    exact clockTimeBase_tickEvent (by rw [base]; exact hm) (by rw [base]; exact hph)
  have untick (h : ¬ ticks) : s.takeUpset.clockTimeBase
      = { s.takeUpset with timeBase := s.takeUpset.clockTimeBase.timeBase } :=
    clockTimeBase_untick (by rw [base]; exact fun x => h (hticks.mpr x))
  have quietPorts (h : ∀ p : Port, ∃ v, s.links[p].receiver = .searching v) :
      allPorts.foldl State.clockPort s.takeUpset.clockTimeBase = s.takeUpset.clockTimeBase :=
    clockPorts_searching fun p => by rw [clockLinks]; exact h p
  refine ⟨s.takeUpset.clockTimeBase, s.clockPeriod, step_of_idle hp, fun h => by rw [tick h]; rfl, untick, rfl,
    portsBase, ?halted, ?counts, ?ticks, ?idle, ?searching, ?receiving⟩
  case halted =>
    intro hm
    rw [← base] at hm
    rw [State.clockPeriod, portsBase, clockTimeBase_halted hm, base]
  case counts =>
    intro hm hph
    rw [State.clockPeriod, portsBase, clock_counts (by rw [base]; exact hm) (by rw [base]; exact hph), base]
    rfl
  case ticks =>
    intro h
    obtain ⟨hm, hph⟩ := hticks.mp h
    rw [State.clockPeriod, portsBase, clock_ticks (by rw [base]; exact hm) (by rw [base]; exact hph), base]
    exact TimeBase.advance_eq _
  case idle =>
    intro h
    have still := quietPorts h
    refine ⟨still, fun hu hn => ?_, fun hu ht => ?_⟩
    · have e : s.clockPeriod = { s with timeBase := s.clockPeriod.timeBase } := by
        rw [State.clockPeriod, still, none_strikes hu]
        have u := untick hn
        rwa [none_strikes hu] at u
      refine ⟨e, ?_⟩
      rw [e]
    · rw [State.clockPeriod, still, tick ht, none_strikes hu]
      rfl
  case searching =>
    intro p v hv
    rw [State.clockPeriod, receiver, hv]
    rfl
  case receiving =>
    intro p bits quiet hr
    rw [State.clockPeriod, receiver, hr]
    refine ⟨Receiver.afterQuiet_ended, Receiver.afterQuiet_counts, fun h hq => ⟨Receiver.afterQuiet_cutOff h hq, ?_⟩⟩
    intro others
    rw [← clockLinks] at hr others
    rw [exec_frameCutOff_begun hr h, clockPorts_single _ p others, clockPort_cutOff hr h hq]

end Sys2Proof.Machine
end

