-- ==== Sys2Proof/Proofs/Requests.lean ====
section
/-! The obligations on frames and on requests in general: what the envelope writes is read back, the answer to a
request, the turn of a request, FORMAT and the supervisor right, the placement interlock, and the checks of a request
that names a record. -/

namespace Sys2Proof.Machine

/-! ### Frames read back -/

theorem header_kind (f : Frame) : f.header.toNat % 16 = f.kind.code := by
  have small : f.kind.code < 16 := by cases f.kind <;> decide
  rw [header_toNat]
  omega

theorem header_seq (f : Frame) : BitVec.ofNat 4 (f.header.toNat / 16) = f.seq := by
  have small : f.kind.code < 16 := by cases f.kind <;> decide
  have quotient : (f.seq.toNat * 16 + f.kind.code) / 16 = f.seq.toNat := by omega
  rw [header_toNat, quotient, BitVec.ofNat_toNat, BitVec.setWidth_eq]

/-- The judgement of a frame whose check code is its own (Table 10-1): its kind and its content decide. -/
theorem judge_checked (f : Frame) (length : Octet) (payload : List Octet) :
    judge f.header length payload (octetsOf 2 (crc16 (f.header :: length :: payload)).toNat) =
      match f.kind with
      | .request => .request f.seq payload
      | .linkOpen =>
        match payload with
        | [w] => if 1 ≤ w.toNat ∧ w.toNat ≤ 4 then .linkOpen w.toNat else .bad .content
        | _ => .bad .content
      | .linkClose => if payload = [] then .linkClose else .bad .content
      | .response | .linkAccept | .linkWait | .reject => .bad .kind := by
  unfold judge
  rw [if_neg (not_not_intro rfl), header_kind, header_seq]
  cases f.kind <;> rfl

/-- Settles O10: the receiver judges the frame that the envelope wrote, and `judge_checked` gives its kind's row. -/
theorem framesReadBack : Obligations.FramesReadBack := by
  refine ⟨fun seq payload rest hp => ?_, fun seq w rest h1 h4 => ?_, fun seq rest => ?_, fun f rest => ?_⟩
  · rw [takeFrame_afterStart _ _ hp, judge_checked]
  · rw [takeFrame_afterStart _ _ (Nat.le_of_ble_eq_true rfl), judge_checked]
    simp only [h1, h4, and_self, if_true]
  · rw [takeFrame_afterStart _ _ (Nat.zero_le _), judge_checked]
    simp only [if_true]
  · show hunt [] (bitsOfOctets (0xA5 :: f.afterStart) ++ rest) = _
    exact hunt_start (bitsOfOctets f.afterStart ++ rest)

/-! ### The answer -/

/-- The first unanswered request takes the condition; the ones ahead of it stay. -/
theorem setNextCondition_append (c : Condition) {q : TakenRequest} (hq : q.unanswered = true)
    (back : List TakenRequest) : ∀ front : List TakenRequest, (∀ x ∈ front, x.condition = .answered) →
      setNextCondition c (front ++ q :: back) = front ++ { q with condition := c } :: back
  | [], _ => if_pos hq
  | x :: front, h => by
    have answered : x.unanswered = false := decide_eq_false (not_not_intro (h x (List.mem_cons_self ..)))
    show (if x.unanswered = true then _ else x :: setNextCondition c (front ++ q :: back)) = _
    rw [answered, setNextCondition_append c hq back front fun y hy => h y (List.mem_cons_of_mem _ hy)]
    rfl

/-- The next request stands behind answered ones alone (R164). -/
theorem nextRequest_split {s : State} {p : Port} {q : TakenRequest} (h : s.nextRequest p = some q) :
    q.unanswered = true ∧ ∃ front back, s.links[p].requests = front ++ q :: back
      ∧ ∀ x ∈ front, x.condition = .answered := by
  obtain ⟨unanswered, front, back, split, ahead⟩ := List.find?_eq_some_iff_append.mp h
  refine ⟨unanswered, front, back, split, fun x hx => ?_⟩
  have := ahead x hx
  simpa [TakenRequest.unanswered] using this

/-- Settles O11: the response is the link's `answer`, whose items are those of the statement. -/
theorem responseIsFormedAndStored : Obligations.ResponseIsFormedAndStored := by
  intro s p q result body hq
  obtain ⟨unanswered, front, back, split, ahead⟩ := nextRequest_split hq
  obtain ⟨others, own⟩ := respond_links hq rfl result body
  refine ⟨s.respond p result body, rfl, s.respond_eq p result body, others, ?_⟩
  rw [own]
  refine ⟨rfl, fun h => ?_, fun h => ?_, ⟨front, back, split, ahead, ?_⟩, rfl⟩
  · show remember _ _ = _
    rw [remember, if_pos (show _ < Config.historySize from h)]
  · show remember _ _ = _
    rw [remember, if_neg (show ¬ _ < Config.historySize from Nat.not_lt.mpr h)]
  · show setNextCondition .answered s.links[p].requests = _
    rw [split, setNextCondition_append .answered unanswered back front ahead]

/-- An answer alone: nothing but the links changes, and the request is answered. -/
theorem answered_refuse {s t : State} (h : Confined s t) {p : Port} {pl : List Octet} (a : s.Asks p pl) (r : Result) :
    s.Answered (t.refuse p r) p r [] := answered_respond a h.links r []

theorem State.refuse_eq (s : State) (p : Port) (r : Result) :
    s.refuse p r = { s with links := (s.refuse p r).links } := s.respond_eq p r []

/-! ### The rows of the requests -/

theorem none_of_format {α : Type} {o : Option α} (h : o.isSome = false) : o = none :=
  Option.isNone_iff_eq_none.mp (by simpa using h)

theorem some_of_format {α : Type} {o : Option α} (h : o.isSome = true) : ∃ a, o = some a :=
  Option.isSome_iff_exists.mp h

/-- What the effect `f` of a request of kind `k` has in common with every other: FORMAT, the supervisor right, the
interlock, and the checks of a record that a handle names (Table 10-5). -/
structure Row (s : State) (p : Port) (k : RequestCode) (f : List Octet → State) : Prop where
  format : k.interlocked = false → ∀ pl, k.formatHolds pl = false → f pl = s.refuse p .format
  interlock : k.interlocked = true → ∃ g : List Octet → State, (∀ pl, f pl = s.interlocked p pl (g pl))
    ∧ ∀ pl, k.formatHolds pl = false → g pl = (s.tested pl).refuse p .format
  right : k.needsRight = true → ∀ pl, k.formatHolds pl = true → s.portTable.supervisor ≠ p →
    f pl = s.refuse p .denied
  checks : k.changesRecord = true → ∀ pl h, k.formatHolds pl = true → s.LetsThrough k pl →
    (k.needsRight = true → s.portTable.supervisor = p) → parseHandle pl 1 = some h →
    ∃ g, f pl = s.onRecord p h k.checksDamage k.checksOwner g

namespace Row

/-- A request that any port may make and that names no record. -/
theorem plain {s : State} {p : Port} {k : RequestCode} {f : List Octet → State} (hi : k.interlocked = false)
    (hr : k.needsRight = false) (hc : k.changesRecord = false)
    (format : ∀ pl, k.formatHolds pl = false → f pl = s.refuse p .format) : Row s p k f where
  format _ := format
  interlock h := by rw [hi] at h; cases h
  right h := by rw [hr] at h; cases h
  checks h := by rw [hc] at h; cases h

/-- A request of the supervisor port that names no record. -/
theorem supervised {s : State} {p : Port} {k : RequestCode} {f : List Octet → State} (hi : k.interlocked = false)
    (hc : k.changesRecord = false) (format : ∀ pl, k.formatHolds pl = false → f pl = s.refuse p .format)
    (right : ∀ pl, k.formatHolds pl = true → ∃ u, f pl = s.supervised p u) : Row s p k f where
  format _ := format
  interlock h := by rw [hi] at h; cases h
  right _ pl hp hs := by
    obtain ⟨u, e⟩ := right pl hp
    rw [e, supervised_denied u hs]
  checks h := by rw [hc] at h; cases h

/-- A request that the interlock holds, and that names a record. -/
theorem held {s : State} {p : Port} {k : RequestCode} {g : List Octet → State} (hi : k.interlocked = true)
    (hr : k.needsRight = false) (format : ∀ pl, k.formatHolds pl = false → g pl = (s.tested pl).refuse p .format)
    (record : ∀ pl h, k.formatHolds pl = true → parseHandle pl 1 = some h →
      ∃ e, g pl = s.onRecord p h k.checksDamage k.checksOwner e) :
    Row s p k fun pl => s.interlocked p pl (g pl) where
  format h := by rw [hi] at h; cases h
  interlock _ := ⟨g, fun _ => rfl, format⟩
  right h := by rw [hr] at h; cases h
  checks _ pl h hp through _ hh := by
    obtain ⟨e, eq⟩ := record pl h hp hh
    exact ⟨e, (interlocked_named _ hi through hh).trans eq⟩

/-- A request that names a record and is not held by the interlock. -/
theorem unheld {s : State} {p : Port} {k : RequestCode} {f : List Octet → State} (hi : k.interlocked = false)
    (hr : k.needsRight = false) (format : ∀ pl, k.formatHolds pl = false → f pl = s.refuse p .format)
    (record : ∀ pl h, k.formatHolds pl = true → parseHandle pl 1 = some h →
      ∃ e, f pl = s.onRecord p h k.checksDamage k.checksOwner e) : Row s p k f where
  format _ := format
  interlock h := by rw [hi] at h; cases h
  right h := by rw [hr] at h; cases h
  checks _ pl h hp _ _ hh := record pl h hp hh

end Row

/-- A payload's handle is the one its request parses. -/
theorem handle_of {pl : List Octet} {h g : Handle} (hh : parseHandle pl 1 = some h) (e : parseHandle pl 1 = some g) :
    g = h := Option.some.inj (e.symm.trans hh)

theorem row_handleOnly {pl : List Octet} {h : Handle} (hp : (parseHandleOnly pl).isSome = true)
    (hh : parseHandle pl 1 = some h) : parseHandleOnly pl = some h := by
  obtain ⟨g, e⟩ := some_of_format hp
  rw [e, handle_of hh (parseHandleOnly_handle e)]

theorem row_arm (s : State) (p : Port) : ∃ f, exec (.arm p) s = s.applying p .arm f ∧ Row s p .arm f := by
  refine ⟨_, Eq.refl (execArm p s), ?_⟩
  refine .held rfl rfl (fun pl hp => ?_) fun pl h hp hh => ?_
  · rw [none_of_format (o := parseArm pl) hp]
  · obtain ⟨⟨g, form⟩, e⟩ := some_of_format (o := parseArm pl) hp
    obtain rfl := handle_of hh (parseArm_handle e)
    rw [e]
    exact ⟨_, rfl⟩

theorem row_cancel (s : State) (p : Port) :
    ∃ f, exec (.cancel p) s = s.applying p .cancel f ∧ Row s p .cancel f := by
  refine ⟨_, Eq.refl (execCancel p s), ?_⟩
  refine .held rfl rfl (fun pl hp => ?_) fun pl h hp hh => ?_
  · rw [none_of_format (o := parseCancel pl) hp]
  · obtain ⟨⟨g, withdraw⟩, e⟩ := some_of_format (o := parseCancel pl) hp
    obtain rfl := handle_of hh (parseCancel_handle e)
    rw [e]
    exact ⟨_, rfl⟩

theorem row_set (s : State) (p : Port) :
    ∃ f, exec (.setRecord p) s = s.applying p .setRecord f ∧ Row s p .setRecord f := by
  refine ⟨_, Eq.refl (execSet p s), ?_⟩
  refine .held rfl rfl (fun pl hp => ?_) fun pl h hp hh => ?_
  · rw [none_of_format (o := parseSet pl) hp]
  · obtain ⟨g, e⟩ := some_of_format (o := parseSet pl) hp
    obtain rfl := handle_of hh (parseSet_handle e)
    rw [e]
    exact ⟨_, rfl⟩

theorem row_close (s : State) (p : Port) :
    ∃ f, exec (.closeRecord p) s = s.applying p .closeRecord f ∧ Row s p .closeRecord f := by
  refine ⟨_, Eq.refl (execClose p s), ?_⟩
  refine .held rfl rfl (fun pl hp => ?_) fun pl h hp hh => ?_
  · rw [none_of_format (o := parseHandleOnly pl) hp]
  · rw [row_handleOnly hp hh]
    exact ⟨_, rfl⟩

theorem row_pause (s : State) (p : Port) : ∃ f, exec (.pause p) s = s.applying p .pause f ∧ Row s p .pause f := by
  refine ⟨_, Eq.refl (execPause p s), ?_⟩
  refine .held rfl rfl (fun pl hp => ?_) fun pl h hp hh => ?_
  · rw [none_of_format (o := parseHandleOnly pl) hp]
  · rw [row_handleOnly hp hh]
    exact ⟨_, rfl⟩

theorem row_resume (s : State) (p : Port) :
    ∃ f, exec (.resume p) s = s.applying p .resume f ∧ Row s p .resume f := by
  refine ⟨_, Eq.refl (execResume p s), ?_⟩
  refine .held rfl rfl (fun pl hp => ?_) fun pl h hp hh => ?_
  · rw [none_of_format (o := parseHandleOnly pl) hp]
  · rw [row_handleOnly hp hh]
    exact ⟨_, rfl⟩

theorem row_ack (s : State) (p : Port) : ∃ f, exec (.ack p) s = s.applying p .ack f ∧ Row s p .ack f := by
  refine ⟨_, Eq.refl (execAck p s), ?_⟩
  refine .unheld rfl rfl (fun pl hp => ?_) fun pl h hp hh => ?_
  · rw [none_of_format (o := parseAck pl) hp]
  · obtain ⟨⟨g, rearm⟩, e⟩ := some_of_format (o := parseAck pl) hp
    obtain rfl := handle_of hh (parseAck_handle e)
    rw [e]
    exact ⟨_, rfl⟩

theorem row_release (s : State) (p : Port) :
    ∃ f, exec (.release p) s = s.applying p .release f ∧ Row s p .release f := by
  refine ⟨_, Eq.refl (execRelease p s), ?_⟩
  refine .unheld rfl rfl (fun pl hp => ?_) fun pl h hp hh => ?_
  · rw [none_of_format (o := parseHandleOnly pl) hp]
  · rw [row_handleOnly hp hh]
    exact ⟨_, rfl⟩

/-- FORCE-CLOSE names a record and needs the supervisor right (R173). -/
theorem row_forceClose (s : State) (p : Port) :
    ∃ f, exec (.forceClose p) s = s.applying p .forceClose f ∧ Row s p .forceClose f := by
  refine ⟨_, Eq.refl (execForceClose p s), ?_⟩
  refine ⟨fun _ pl hp => ?_, nofun, fun _ pl hp hs => ?_, fun _ pl h hp _ hs hh => ?_⟩
  · rw [none_of_format (o := parseHandleOnly pl) hp]
  · obtain ⟨g, e⟩ := some_of_format (o := parseHandleOnly pl) hp
    rw [e]
    exact supervised_denied _ hs
  · rw [row_handleOnly hp hh]
    exact ⟨_, supervised_by _ (hs rfl)⟩

/-- A request row is the application of its request, by the effect of its kind. -/
theorem exec_requestRow {c : Instr} {p : Port} {k : RequestCode} (h : requestRow c = some (p, k)) (s : State) :
    ∃ f, exec c s = s.applying p k f ∧ Row s p k f := by
  cases c <;> cases h
  case arm => exact row_arm s p
  case cancel => exact row_cancel s p
  case setRecord => exact row_set s p
  case closeRecord => exact row_close s p
  case pause => exact row_pause s p
  case resume => exact row_resume s p
  case ack => exact row_ack s p
  case release => exact row_release s p
  case forceClose => exact row_forceClose s p
  case openRecord =>
    refine ⟨_, Eq.refl (execOpen p s), ?_⟩
    exact .plain rfl rfl rfl fun pl hp => by rw [none_of_format (o := parseOpen pl) hp]
  case readRecord =>
    refine ⟨_, Eq.refl (execRead p s), ?_⟩
    exact .plain rfl rfl rfl fun pl hp => by rw [none_of_format (o := parseHandleOnly pl) hp]
  case take =>
    refine ⟨_, Eq.refl (execTake p s), ?_⟩
    exact .plain rfl rfl rfl fun pl hp => by rw [none_of_format (o := parseTake pl) hp]
  case attentionSet =>
    refine ⟨_, Eq.refl (execAttentionSet p s), ?_⟩
    exact .plain rfl rfl rfl fun pl hp => by rw [none_of_format (o := parseThreshold pl) hp]
  case retireTag =>
    refine ⟨_, Eq.refl (execRetireTag p s), ?_⟩
    exact .plain rfl rfl rfl fun pl hp => by rw [none_of_format (o := parseRetireTag pl) hp]
  case timeRead =>
    refine ⟨_, Eq.refl (execTimeRead p s), ?_⟩
    exact .plain rfl rfl rfl fun pl hp => by rw [none_of_format (o := parseNothing pl) hp]
  case status =>
    refine ⟨_, Eq.refl (execStatus p s), ?_⟩
    exact .plain rfl rfl rfl fun pl hp => by rw [none_of_format (o := parseNothing pl) hp]
  case echo =>
    refine ⟨_, Eq.refl (execEcho p s), ?_⟩
    exact .plain rfl rfl rfl fun pl hp => by rw [none_of_format (o := parseEcho pl) hp]
  case poolSet =>
    refine ⟨_, Eq.refl (execPoolSet p s), ?_⟩
    refine .supervised rfl rfl (fun pl hp => by rw [none_of_format (o := parsePoolSet pl) hp]) fun pl hp => ?_
    obtain ⟨_, e⟩ := some_of_format (o := parsePoolSet pl) hp
    rw [e]
    exact ⟨_, rfl⟩
  case clearAll =>
    refine ⟨_, Eq.refl (execClearAll p s), ?_⟩
    refine .supervised rfl rfl (fun pl hp => by rw [none_of_format (o := parseNothing pl) hp]) fun pl hp => ?_
    obtain ⟨_, e⟩ := some_of_format (o := parseNothing pl) hp
    rw [e]
    exact ⟨_, rfl⟩
  case timeSet =>
    refine ⟨_, Eq.refl (execTimeSet p s), ?_⟩
    refine .supervised rfl rfl (fun pl hp => by rw [none_of_format (o := parseTimeSet pl) hp]) fun pl hp => ?_
    obtain ⟨_, e⟩ := some_of_format (o := parseTimeSet pl) hp
    rw [e]
    exact ⟨_, rfl⟩
  case timeRun =>
    refine ⟨_, Eq.refl (execTimeRun p s), ?_⟩
    refine .supervised rfl rfl (fun pl hp => by rw [none_of_format (o := parseNothing pl) hp]) fun pl hp => ?_
    obtain ⟨_, e⟩ := some_of_format (o := parseNothing pl) hp
    rw [e]
    exact ⟨_, rfl⟩
  case timeFreeze =>
    refine ⟨_, Eq.refl (execTimeFreeze p s), ?_⟩
    refine .supervised rfl rfl (fun pl hp => by rw [none_of_format (o := parseNothing pl) hp]) fun pl hp => ?_
    obtain ⟨_, e⟩ := some_of_format (o := parseNothing pl) hp
    rw [e]
    exact ⟨_, rfl⟩
  case prescale =>
    refine ⟨_, Eq.refl (execPrescale p s), ?_⟩
    refine .supervised rfl rfl (fun pl hp => by rw [none_of_format (o := parsePrescale pl) hp]) fun pl hp => ?_
    obtain ⟨_, e⟩ := some_of_format (o := parsePrescale pl) hp
    rw [e]
    exact ⟨_, rfl⟩
  case scrubSet =>
    refine ⟨_, Eq.refl (execScrubSet p s), ?_⟩
    refine .supervised rfl rfl (fun pl hp => by rw [none_of_format (o := parseScrubSet pl) hp]) fun pl hp => ?_
    obtain ⟨_, e⟩ := some_of_format (o := parseScrubSet pl) hp
    rw [e]
    exact ⟨_, rfl⟩
  case quotaSet =>
    refine ⟨_, Eq.refl (execQuotaSet p s), ?_⟩
    refine .supervised rfl rfl (fun pl hp => by rw [none_of_format (o := parseQuotaSet pl) hp]) fun pl hp => ?_
    obtain ⟨_, e⟩ := some_of_format (o := parseQuotaSet pl) hp
    rw [e]
    exact ⟨_, rfl⟩
  case portLimitSet =>
    refine ⟨_, Eq.refl (execPortLimitSet p s), ?_⟩
    refine .supervised rfl rfl (fun pl hp => by rw [none_of_format (o := parsePortLimitSet pl) hp]) fun pl hp => ?_
    obtain ⟨_, e⟩ := some_of_format (o := parsePortLimitSet pl) hp
    rw [e]
    exact ⟨_, rfl⟩
  case portDisable =>
    refine ⟨_, Eq.refl (execPortDisable p s), ?_⟩
    refine .supervised rfl rfl (fun pl hp => by rw [none_of_format (o := parsePortOnly pl) hp]) fun pl hp => ?_
    obtain ⟨_, e⟩ := some_of_format (o := parsePortOnly pl) hp
    rw [e]
    exact ⟨_, rfl⟩
  case portEnable =>
    refine ⟨_, Eq.refl (execPortEnable p s), ?_⟩
    refine .supervised rfl rfl (fun pl hp => by rw [none_of_format (o := parsePortOnly pl) hp]) fun pl hp => ?_
    obtain ⟨_, e⟩ := some_of_format (o := parsePortOnly pl) hp
    rw [e]
    exact ⟨_, rfl⟩
  case handOver =>
    refine ⟨_, Eq.refl (execHandOver p s), ?_⟩
    refine .supervised rfl rfl (fun pl hp => by rw [none_of_format (o := parsePortOnly pl) hp]) fun pl hp => ?_
    obtain ⟨_, e⟩ := some_of_format (o := parsePortOnly pl) hp
    rw [e]
    exact ⟨_, rfl⟩

/-! ### The turn of a request -/

/-- A request that is not its port's next one, or not waiting, is not applied (R164, log 4). -/
theorem applying_waits {s : State} {p : Port} {k : RequestCode} (f : List Octet → State)
    (h : ∀ q, s.nextRequest p = some q → q.condition ≠ .waiting ∨ requestOf q.payload ≠ some k) :
    s.applying p k f = .next s := by
  unfold State.applying
  split
  · rfl
  · rename_i q hq
    rw [if_neg]
    rintro ⟨waiting, code⟩
    exact (h q hq).elim (· waiting) (· code)

/-- Settles O12: every request row is an application, which a request out of its turn does not reach. -/
theorem requestsWaitTheirTurn : Obligations.RequestsWaitTheirTurn := by
  intro c s p k hrow h
  obtain ⟨f, e, _⟩ := exec_requestRow hrow s
  rw [e, applying_waits f h]

/-! ### FORMAT and the supervisor right -/

theorem exec_format {c : Instr} {s : State} {p : Port} {k : RequestCode} {pl : List Octet}
    (hrow : requestRow c = some (p, k)) (ha : s.Asks p pl) (hc : requestOf pl = some k)
    (through : s.LetsThrough k pl) (hf : k.formatHolds pl = false) :
    exec c s = .next ((if k.interlocked then s.tested pl else s).refuse p .format) := by
  obtain ⟨f, e, row⟩ := exec_requestRow hrow s
  rw [e, applying_asks f ha hc]
  cases hi : k.interlocked with
  | false => rw [row.format hi pl hf]; rfl
  | true =>
    obtain ⟨g, held, format⟩ := row.interlock hi
    rw [held, format pl hf, interlocked_refuses hi through]
    rfl

/-- A RETIRE-TAG for another port needs the supervisor right (R128, R168). -/
theorem exec_retireTag_denied {s : State} {p owner : Port} {tag : BitVec 16} {pl : List Octet} (ha : s.Asks p pl)
    (hc : requestOf pl = some .retireTag) (hp : parseRetireTag pl = some (owner, tag)) (ho : owner ≠ p)
    (hs : s.portTable.supervisor ≠ p) : exec (.retireTag p) s = .next (s.refuse p .denied) := by
  rw [exec_retireTag, execRetireTag, applying_asks _ ha hc, hp]
  exact congrArg _ (if_pos ⟨ho, hs⟩)

theorem exec_denied {c : Instr} {s : State} {p : Port} {k : RequestCode} {pl : List Octet}
    (hrow : requestRow c = some (p, k)) (ha : s.Asks p pl) (hc : requestOf pl = some k)
    (hf : k.formatHolds pl = true) (hs : s.portTable.supervisor ≠ p)
    (hr : k.needsRight = true
      ∨ ∃ owner tag, c = .retireTag p ∧ parseRetireTag pl = some (owner, tag) ∧ owner ≠ p) :
    exec c s = .next (s.refuse p .denied) := by
  rcases hr with hr | ⟨owner, tag, rfl, hp, ho⟩
  · obtain ⟨f, e, row⟩ := exec_requestRow hrow s
    rw [e, applying_asks f ha hc, row.right hr pl hf hs]
  · cases hrow
    exact exec_retireTag_denied ha hc hp ho hs

theorem exec_unknownRequestCode_asks {s : State} {p : Port} {pl : List Octet} (ha : s.Asks p pl)
    (hc : requestOf pl = none) : exec (.unknownRequestCode p) s = .next (s.refuse p .format) := by
  obtain ⟨q, next, waiting, rfl⟩ := ha
  rw [exec_unknownRequestCode, execUnknownRequestCode, next]
  exact if_pos ⟨waiting, hc⟩

/-- Settles O13: FORMAT by the parse of the payload, DENIED by the supervisor right, each before every effect. -/
theorem formatThenRight : Obligations.FormatThenRight := by
  refine ⟨fun c s p k pl hrow ha hc through hf => ?_, fun c s p k pl hrow ha hc hf hs hr => ?_,
    fun s p pl ha hc => ?_⟩
  · refine ⟨_, exec_format hrow ha hc through hf, ?_, fun h => ?_, fun i hi hn => ?_⟩
    · cases k.interlocked
      · exact answered_refuse (.refl s) ha .format
      · exact answered_refuse (confined_tested s pl) ha .format
    · have same : (if k.interlocked then s.tested pl else s) = s := by
        rcases h with h | h
        · rw [h]; rfl
        · rw [tested_nameless h, ite_self]
      rw [same]
      exact s.refuse_eq p .format
    · rw [hi, if_pos rfl, tested_named hn]
      exact State.refuse_eq _ p .format
  · exact ⟨_, exec_denied hrow ha hc hf hs hr, s.refuse_eq p .denied, answered_refuse (.refl s) ha .denied⟩
  · exact ⟨_, exec_unknownRequestCode_asks ha hc, s.refuse_eq p .format, answered_refuse (.refl s) ha .format⟩

/-! ### The placement interlock -/

/-- A request that names a PLACING record is held (R63). -/
theorem interlocked_holds {s : State} {p : Port} {pl : List Octet} {i : SlotIx} (f : State)
    (hn : (namedSlotField pl).bind slotOf = some i) (hp : ((s.checkedRead i).record i).sched = .placing) :
    s.interlocked p pl f = (s.checkedRead i).hold p i := by
  obtain ⟨v, hv, hi⟩ := Option.bind_eq_some_iff.mp hn
  unfold State.interlocked
  rw [hv]
  simp only [hi, if_pos hp]

/-- The next request of the port that holds it is the one held (R63, R164). -/
theorem nextRequest_hold {s : State} {p : Port} {q : TakenRequest} (h : s.nextRequest p = some q) (i : SlotIx) :
    (s.hold p i).nextRequest p = some { q with condition := .held i } := by
  obtain ⟨unanswered, front, back, split, ahead⟩ := nextRequest_split h
  have requests : (s.hold p i).links[p].requests = front ++ { q with condition := .held i } :: back := by
    rw [State.hold, State.modifyLink_self]
    show setNextCondition (.held i) s.links[p].requests = _
    rw [split, setNextCondition_append _ unanswered back front ahead]
  refine List.find?_eq_some_iff_append.mpr ⟨rfl, front, back, requests, fun x hx => ?_⟩
  simp [TakenRequest.unanswered, ahead x hx]

/-- Settles O14: the interlock's test finds the record PLACING and holds the request; a held request is not a waiting
one, so no row of its port takes place. -/
theorem interlockHoldsRequests : Obligations.InterlockHoldsRequests := by
  rintro c s s1 p k pl i hrow ha hc hk hn rfl placing
  obtain ⟨f, e, row⟩ := exec_requestRow hrow s
  obtain ⟨g, held, _⟩ := row.interlock hk
  have links : (s.checkedRead i).links = s.links := by
    rw [checkedRead_alive s i (by rw [placing]; decide)]
  refine ⟨(s.checkedRead i).hold p i, ?_, rfl, fun r hr => ?_, ?_, ?_⟩
  · rw [e, applying_asks f ha hc, held, interlocked_holds _ hn placing]
  · rw [State.hold, State.modifyLink_other _ _ _ _ hr, links]
  · rw [State.hold, State.modifyLink_self, links]
  · obtain ⟨q, next, _, payload⟩ := ha
    have next' := nextRequest_hold (i := i) (((confined_checkedRead s i).nextRequest p).trans next)
    refine ⟨⟨_, next', payload, rfl⟩, fun d m hd => requestsWaitTheirTurn d _ p m hd fun x hx => .inl ?_⟩
    obtain rfl := Option.some.inj (next'.symm.trans hx)
    nofun

/-! ### The checks on a record that a handle names -/

theorem Record.refusal_stale {r : Record} {h : Handle} (p : Port) (a b : Bool)
    (stale : r.sched = .free ∨ (r.fault ≠ some .identity ∧ r.generation ≠ h.generation)) :
    r.refusal p h a b = some .stale := by
  unfold Record.refusal Record.staleFor
  rw [if_pos]
  simpa using stale

theorem Record.not_stale {r : Record} {h : Handle} (free : r.sched ≠ .free)
    (known : r.fault = some .identity ∨ r.generation = h.generation) : r.staleFor h = false := by
  unfold Record.staleFor
  simp only [Bool.or_eq_false_iff, Bool.and_eq_false_iff, decide_eq_false_iff_not, not_not]
  exact ⟨free, known⟩

/-- A handle that is not stale: RETIRING, then DAMAGED and NOT-OWNER where they are made (Table 10-5). -/
theorem Record.refusal_fresh {r : Record} {p : Port} {h : Handle} {a b : Bool} (fresh : r.staleFor h = false) :
    (r.mark ≠ none → r.refusal p h a b = some .retiring)
    ∧ (r.mark = none →
      (a = true → r.sched = .damaged → r.refusal p h a b = some .damaged)
      ∧ (b = true → (a = true → r.sched ≠ .damaged) → r.owner ≠ some p → r.refusal p h a b = some .notOwner)) := by
  unfold Record.refusal
  rw [fresh]
  refine ⟨fun hm => ?_, fun hm => ⟨fun ha hd => ?_, fun hb hd ho => ?_⟩⟩
  · simp [Option.isSome_iff_ne_none.mpr hm]
  · simp [hm, ha, hd]
  · have undamaged : ¬ (a && decide (r.sched = .damaged)) = true := by simpa using hd
    simp [hm, undamaged, hb, ho]

/-- Settles O15: a request that reaches its record is `onRecord`, whose refusals are the checks in their order. -/
theorem recordChecksInOrder : Obligations.RecordChecksInOrder := by
  constructor
  · rintro c s p k pl h r hrow ha hc hf through changes right hh rfl
    obtain ⟨f, e, row⟩ := exec_requestRow hrow s
    obtain ⟨g, record⟩ := row.checks changes pl h hf through right hh
    rw [e, applying_asks f ha hc, record]
    refine ⟨fun stale => ?_, fun free known => ?_⟩
    · rw [onRecord_refuses g (Record.refusal_stale p _ _ stale)]
    · obtain ⟨retiring, rest⟩ := Record.refusal_fresh (p := p) (a := k.checksDamage) (b := k.checksOwner)
        (Record.not_stale free known)
      refine ⟨fun hm => ?_, fun hm => ⟨fun made hd => ?_, fun made hd ho => ?_⟩⟩
      · rw [onRecord_refuses g (retiring hm)]
      · rw [onRecord_refuses g ((rest hm).1 made hd)]
      · rw [onRecord_refuses g ((rest hm).2 made hd ho)]
  · rintro s p pl h r ha hc hp rfl stale
    rw [exec_readRecord, execRead, applying_asks _ ha hc, hp]
    refine congrArg _ (if_pos ?_)
    unfold Record.staleFor
    simpa using stale

end Sys2Proof.Machine
end

