-- ==== Sys2Proof/Proofs/TimeBase.lean ====
section
/-! The obligations on the time base and the scrubber: TIME-READ, the requests that write the time base, the tick, and
the scrubber's requests and visits. -/

namespace Sys2Proof.Machine

/-! ### TIME-READ -/

theorem TimeMode.code_eq (m : TimeMode) :
    m.code = (match m with | .frozen => 0 | .running => 1 | .exhausted => 2 : Octet) := by
  cases m <;> rfl

theorem pending_eq (o : Option Nat) : o.getD 0 = (match o with | none => 0 | some v => v) := by
  cases o <;> rfl

theorem inForce_eq (o : Option Nat) (d : Nat) : o.getD d = (match o with | none => d | some v => v) := by
  cases o <;> rfl

/-- The body of TIME-READ, item by item (Table 12-4). -/
theorem TimeBase.report_eq (b : TimeBase) : b.report = octetsOf 8 b.now.toNat
    ++ [(match b.mode with | .frozen => 0 | .running => 1 | .exhausted => 2 : Octet)]
    ++ octetsOf 2 b.prescaler ++ octetsOf 2 (match b.pendingPrescaler with | none => 0 | some v => v) := by
  rw [TimeBase.report, TimeMode.code_eq, pending_eq]

theorem exec_timeRead_malformed {s : State} {p : Port} {pl : List Octet} (h : s.Asks p pl)
    (hc : requestOf pl = some .timeRead) (hl : pl.length ≠ 1) : exec (.timeRead p) s = .next (s.refuse p .format) := by
  have bad : parseNothing pl = none := if_neg hl
  rw [exec_timeRead, execTimeRead, applying_asks _ h hc, bad]

/-- A request that waits still waits in a state with the same links. -/
theorem State.Asks.congr {s t : State} {p : Port} {pl : List Octet} (h : s.Asks p pl) (hl : t.links = s.links) :
    t.Asks p pl := by
  obtain ⟨q, next, rest⟩ := h
  exact ⟨q, by unfold State.nextRequest at *; rw [hl]; exact next, rest⟩

/-- TIME-READ as it is applied in `t`, where the request found in `s` still waits. -/
theorem timeRead_applied {s t : State} {p : Port} {pl : List Octet} (h : s.Asks p pl)
    (hc : requestOf pl = some .timeRead) (hl : pl.length = 1) (links : t.links = s.links) :
    ∃ u, exec (.timeRead p) t = .next u ∧ u = { t with links := u.links }
      ∧ ∃ q, s.nextRequest p = some q ∧ (∀ r : Port, r ≠ p → u.links[r] = s.links[r])
        ∧ u.links[p] = s.links[p].answer q (Result.ok.code :: t.timeBase.report) := by
  have applied : exec (.timeRead p) t = .next (t.accept p t.timeBase.report) := by
    rw [exec_timeRead, execTimeRead, applying_asks _ (h.congr links) hc, parseNothing_one hl]
  obtain ⟨q, next, _⟩ := h
  exact ⟨_, applied, t.accept_eq p _, q, next, respond_links next links .ok _⟩

theorem exec_tick_running {s : State} (h : s.timeBase.mode = .running) : exec .tick s
    = .next { s with timeBase := s.timeBase.advance, scrubber := s.scrubber.countTick } :=
  congrArg Host.Outcome.next (if_pos h)

theorem exec_tick_stopped {s : State} (h : s.timeBase.mode ≠ .running) : exec .tick s = .next s :=
  congrArg Host.Outcome.next (if_neg h)

/-- Settles O35: the application reports the time base as it stands, and a tick that is applied first is one of its
items. -/
theorem timeReadReports : Obligations.TimeReadReports := by
  intro s p
  refine ⟨fun q next h => ?turn, fun pl ha hc => ⟨?malformed, ?reads, ?ticked⟩⟩
  case turn =>
    refine requestsWaitTheirTurn _ s p .timeRead rfl fun x hx => ?_
    obtain rfl := Option.some.inj (next.symm.trans hx)
    exact h
  case malformed => exact exec_timeRead_malformed ha hc
  case reads =>
    intro hl
    have applied := timeRead_applied ha hc hl rfl
    rw [TimeBase.report_eq] at applied
    exact applied
  case ticked =>
    intro running
    refine ⟨_, exec_tick_running running, rfl, rfl, fun hl => ?_⟩
    obtain ⟨t, applied, _, q, next, _, own⟩ := timeRead_applied
      (t := { s with timeBase := s.timeBase.advance, scrubber := s.scrubber.countTick }) ha hc hl rfl
    rw [TimeBase.report_eq] at own
    exact ⟨t, applied, q, next, own⟩

/-! ### The requests that write the time base -/

/-- The answer of a request that writes the time base. -/
theorem accept_withTimeBase {s : State} {p : Port} {pl : List Octet} (h : s.Asks p pl) (b : TimeBase)
    (body : List Octet) : s.Answered ((s.withTimeBase b).accept p body) p .ok body
      ∧ ((s.withTimeBase b).accept p body).timeBase = b
      ∧ (s.withTimeBase b).accept p body
        = { s with timeBase := b, links := ((s.withTimeBase b).accept p body).links } :=
  ⟨answered_of_links (t := s.withTimeBase b) rfl h body, State.accept_timeBase .., State.accept_eq ..⟩

theorem parseTimeSet_of {pl : List Octet} {v : Tick} (hl : pl.length = 9) (hv : v.toNat = fieldAt pl 1 8) :
    parseTimeSet pl = some v := by
  have small : fieldAt pl 1 8 ≤ Config.timeMax := by
    rw [← hv]
    exact Nat.le_of_lt_succ v.isLt
  rw [parseTimeSet, if_pos hl, parseTime, if_pos small, ← hv, BitVec.ofNat_toNat, BitVec.setWidth_eq]

theorem exec_timeSet_asks {s : State} {p : Port} {pl : List Octet} {v : Tick} (h : s.Asks p pl)
    (hs : s.portTable.supervisor = p) (hc : requestOf pl = some .timeSet) (hv : parseTimeSet pl = some v) :
    exec (.timeSet p) s = .next ((s.withTimeBase (s.timeBase.set v)).accept p s.timeBase.prior) := by
  rw [exec_timeSet, execTimeSet, applying_asks _ h hc, hv]
  exact congrArg _ (supervised_by _ hs)

theorem exec_timeFreeze_asks {s : State} {p : Port} {pl : List Octet} (h : s.Asks p pl)
    (hs : s.portTable.supervisor = p) (hc : requestOf pl = some .timeFreeze) (hl : pl.length = 1) :
    exec (.timeFreeze p) s = .next ((s.withTimeBase s.timeBase.freeze).accept p s.timeBase.prior) := by
  rw [exec_timeFreeze, execTimeFreeze, applying_asks _ h hc, parseNothing_one hl]
  exact congrArg _ (supervised_by _ hs)

theorem exec_prescale_asks {s : State} {p : Port} {pl : List Octet} {v : Nat} (h : s.Asks p pl)
    (hs : s.portTable.supervisor = p) (hc : requestOf pl = some .prescale) (hv : parsePrescale pl = some v) :
    exec (.prescale p) s = .next ((s.withTimeBase { s.timeBase with pendingPrescaler := some v }).accept p
      (octetsOf 2 s.timeBase.prescaler)) := by
  rw [exec_prescale, execPrescale, applying_asks _ h hc, hv]
  exact congrArg _ (supervised_by _ hs)

/-- The row of TIME-FREEZE in Table 2-2, from every state but EXHAUSTED. -/
theorem TimeBase.freeze_counting {b : TimeBase} (h : b.mode ≠ .exhausted) : b.freeze = { b with mode := .frozen } := by
  obtain ⟨now, mode, prescaler, pending, phase⟩ := b
  cases mode with
  | frozen => rfl
  | running => rfl
  | exhausted => exact absurd rfl h

theorem TimeBase.freeze_exhausted {b : TimeBase} (h : b.mode = .exhausted) :
    b.freeze = { b with mode := .frozen, phase := 0 } := by
  unfold TimeBase.freeze
  rw [h]

/-- Settles O37: each request answers with the prior time base, and its effect is its row of Table 2-2. -/
theorem timeBaseIsWritten : Obligations.TimeBaseIsWritten := by
  intro s p pl ha hs
  refine ⟨fun v hc hl hv => ?set, fun hc hl => ?freeze, fun v hc hl hv low high => ?prescale⟩
  case set =>
    obtain ⟨answered, written, form⟩ := accept_withTimeBase ha (s.timeBase.set v) s.timeBase.prior
    refine ⟨_, exec_timeSet_asks ha hs hc (parseTimeSet_of hl hv), answered, ?_⟩
    rw [written]
    refine ⟨rfl, rfl, rfl, inForce_eq .., fun frozen => if_pos frozen, fun counting top => ?_,
      fun counting below => ?_, form⟩
    · exact (if_neg counting).trans (if_pos top)
    · exact (if_neg counting).trans (if_neg below.ne)
  case freeze =>
    obtain ⟨answered, written, form⟩ := accept_withTimeBase ha s.timeBase.freeze s.timeBase.prior
    refine ⟨_, exec_timeFreeze_asks ha hs hc hl, answered, ?_⟩
    rw [written]
    exact ⟨TimeBase.freeze_counting, TimeBase.freeze_exhausted, form⟩
  case prescale =>
    have parsed : parsePrescale pl = some v := by
      rw [parsePrescale, if_pos hl, ← hv, parseRange, if_pos ⟨low, high⟩]
    obtain ⟨answered, _, form⟩ := accept_withTimeBase ha { s.timeBase with pendingPrescaler := some v }
      (octetsOf 2 s.timeBase.prescaler)
    exact ⟨_, exec_prescale_asks ha hs hc parsed, answered, form⟩

/-! ### The tick -/

theorem TimeBase.advance_now {b : TimeBase} (h : b.now.toNat < Config.timeMax) :
    b.advance.now.toNat = b.now.toNat + 1 := by
  show (b.now + 1).toNat = _
  have : b.now.toNat + 1 < 2 ^ 56 := by
    unfold Config.timeMax at h
    omega
  rw [BitVec.toNat_add]
  exact Nat.mod_eq_of_lt this

theorem Scrubber.countTick_idle {c : Scrubber} (h : c.interval = 0) : c.countTick = c := if_pos h

theorem Scrubber.countTick_counts {c : Scrubber} (h : c.ticks + 1 < c.interval) :
    c.countTick = { c with ticks := c.ticks + 1 } := by
  rw [Scrubber.countTick, if_neg (by omega), if_pos h]

theorem Scrubber.countTick_due {c : Scrubber} (h : 0 < c.interval) (hd : c.interval ≤ c.ticks + 1) :
    c.countTick = { c with ticks := 0, visitsDue := c.visitsDue + 1 } := by
  rw [Scrubber.countTick, if_neg h.ne', if_neg (by omega)]

/-- Settles O38: the tick advances the time base and counts at the scrubber, each by its own equations. -/
theorem tickAdvancesTime : Obligations.TickAdvancesTime := by
  intro s
  refine ⟨exec_tick_stopped, fun running below => ?_⟩
  have now := TimeBase.advance_now below
  refine ⟨_, exec_tick_running running, now, rfl, inForce_eq .., rfl, fun top => ?_, fun low => ?_,
    Scrubber.countTick_idle, Scrubber.countTick_counts, Scrubber.countTick_due, rfl⟩
  · exact if_pos (now.symm.trans top)
  · exact if_neg (now ▸ low).ne

/-! ### The scrubber -/

theorem exec_scrubSet_asks {s : State} {p : Port} {pl : List Octet} (h : s.Asks p pl)
    (hs : s.portTable.supervisor = p) (hc : requestOf pl = some .scrubSet) (hl : pl.length = 3) :
    exec (.scrubSet p) s = .next ((s.withScrubber { s.scrubber with interval := fieldAt pl 1 2, ticks := 0 }).accept p
      (octetsOf 2 s.scrubber.interval)) := by
  have parsed : parseScrubSet pl = some (fieldAt pl 1 2) := if_pos hl
  rw [exec_scrubSet, execScrubSet, applying_asks _ h hc, parsed]
  exact congrArg _ (supervised_by _ hs)

/-- The cursor's successor, from 1023 to 0 (R140). -/
theorem cursor_successor (i : SlotIx) : i + 1 = if h : i.val + 1 < 1024 then ⟨i.val + 1, h⟩ else 0 := by
  apply Fin.ext
  rw [Fin.val_add]
  split
  · exact Nat.mod_eq_of_lt ‹_›
  · show (i.val + 1) % 1024 = 0
    omega

/-- A failed link of an ARMED record is a list fault while the list is not FAILED (log 14). -/
theorem linkFault_iff (s : State) (i : SlotIx) : (s.linkFailed i && s.faultPossible) = true ↔
    (s.record i).sched = .armed ∧ s.expiry.listState ≠ .failed ∧ ∃ m ∈ s.expiry.list, m.slot = i ∧ m.linkHolds = false := by
  unfold State.linkFailed State.faultPossible
  simp only [Bool.and_eq_true, decide_eq_true_eq, List.any_eq_true, Bool.not_eq_true']
  constructor
  · rintro ⟨⟨armed, m, mem, failed⟩, _, unfailed⟩
    exact ⟨armed, unfailed, m, mem, failed⟩
  · rintro ⟨armed, unfailed, m, mem, failed⟩
    exact ⟨⟨armed, m, mem, failed⟩, List.ne_nil_of_mem mem, unfailed⟩

theorem exec_scrubVisit_due {s : State} (hd : 0 < s.scrubber.visitsDue) (hm : s.timeBase.mode = .running) :
    exec .scrubVisit s = .next s.scrub := by
  rw [exec_scrubVisit, execScrubVisit, if_neg]
  rintro (h | h)
  · exact hd.ne' h
  · exact h hm

/-- Settles O39: the request writes the pace, and a visit is the read of the slot at the cursor with the list fault of
`linkFault_iff` behind it. -/
theorem scrubberVisits : Obligations.ScrubberVisits := by
  intro s
  refine ⟨fun p pl ha hc hl hs => ?_, fun h => if_pos h, ?_⟩
  · refine ⟨_, exec_scrubSet_asks ha hs hc hl, ?_, State.accept_eq ..⟩
    exact answered_of_links (t := s.withScrubber { s.scrubber with interval := fieldAt pl 1 2, ticks := 0 }) rfl ha _
  · rintro s0 s1 i rfl due running e rfl
    rw [← cursor_successor] at e
    have visited : s0 = s.withScrubber s.scrubber.visited := e
    subst visited
    rw [exec_scrubVisit_due due running, ← linkFault_iff]
    exact ⟨fun h => congrArg _ (if_pos h), fun h => congrArg _ (if_neg h)⟩

end Sys2Proof.Machine
end

