-- ==== Sys2Proof/Proofs/Supervision.lean ====
section
/-! The obligations on supervision: POOL-SET, the port table, the enabled state of a port, STATUS and ECHO, and the
requests that queue a sweep. -/

namespace Sys2Proof.Machine

/-! ### The rows of the supervisor's requests -/

theorem exec_poolSet_asks {s : State} {p : Port} {pl : List Octet} {k : Pool} {ports : List Port} (h : s.Asks p pl)
    (hs : s.portTable.supervisor = p) (hc : requestOf pl = some .poolSet) (hp : parsePoolSet pl = some (k, ports)) :
    exec (.poolSet p) s = .next ((s.setPool k ports).settle.accept p
      (octet s.pools[k].length :: s.pools[k].map fun q => octet q.val)) := by
  rw [exec_poolSet, execPoolSet, applying_asks _ h hc, hp]
  exact congrArg _ (supervised_by _ hs)

theorem exec_quotaSet_asks {s : State} {p q : Port} {v : Nat} {pl : List Octet} (h : s.Asks p pl)
    (hs : s.portTable.supervisor = p) (hc : requestOf pl = some .quotaSet) (hp : parseQuotaSet pl = some (q, v)) :
    exec (.quotaSet p) s = .next ((s.withPortTable { s.portTable with
      quota := s.portTable.quota.set q.val v q.isLt }).accept p (octetsOf 2 s.portTable.quota[q])) := by
  rw [exec_quotaSet, execQuotaSet, applying_asks _ h hc, hp]
  exact congrArg _ (supervised_by _ hs)

theorem exec_portLimitSet_asks {s : State} {p q : Port} {v : Nat} {pl : List Octet} (h : s.Asks p pl)
    (hs : s.portTable.supervisor = p) (hc : requestOf pl = some .portLimitSet)
    (hp : parsePortLimitSet pl = some (q, v)) :
    exec (.portLimitSet p) s = .next ((s.setLimit q v).accept p [octet s.portTable.limit[q]]) := by
  rw [exec_portLimitSet, execPortLimitSet, applying_asks _ h hc, hp]
  exact congrArg _ (supervised_by _ hs)

theorem exec_handOver_asks {s : State} {p q : Port} {pl : List Octet} (h : s.Asks p pl)
    (hs : s.portTable.supervisor = p) (hc : requestOf pl = some .handOver) (hp : parsePortOnly pl = some q) :
    exec (.handOver p) s = .next (if s.isUp q then
      (s.withPortTable { s.portTable with supervisor := q }).accept p [octet s.portTable.supervisor.val]
      else s.refuse p .state) := by
  rw [exec_handOver, execHandOver, applying_asks _ h hc, hp]
  exact congrArg _ (supervised_by _ hs)

theorem exec_portDisable_asks {s : State} {p q : Port} {pl : List Octet} (h : s.Asks p pl)
    (hs : s.portTable.supervisor = p) (hc : requestOf pl = some .portDisable) (hp : parsePortOnly pl = some q) :
    exec (.portDisable p) s = .next (if q = p then s.refuse p .state
      else (s.disable q).accept p [s.links[q].state.code]) := by
  rw [exec_portDisable, execPortDisable, applying_asks _ h hc, hp]
  exact congrArg _ (supervised_by _ hs)

theorem exec_portEnable_asks {s : State} {p q : Port} {pl : List Octet} (h : s.Asks p pl)
    (hs : s.portTable.supervisor = p) (hc : requestOf pl = some .portEnable) (hp : parsePortOnly pl = some q) :
    exec (.portEnable p) s = .next ((s.enable q).accept p [s.links[q].state.code]) := by
  rw [exec_portEnable, execPortEnable, applying_asks _ h hc, hp]
  exact congrArg _ (supervised_by _ hs)

/-! ### POOL-SET -/

/-- With nothing held the end of an event changes the links alone. -/
theorem settle_idle_form {s : State} (h : ∀ m : Pool, s.notices.holding[m] = []) :
    s.settle = { s with links := s.settle.links } := by
  obtain ⟨ls, e⟩ := driveLines_eq s
  rw [settle_idle s h, e]

theorem pools_setPool (s : State) (k m : Pool) (ports : List Port) :
    (s.setPool k ports).pools[m] = if m = k then ports else s.pools[m] := by
  split
  · subst m
    exact set_pool_same ..
  · exact set_pool_other _ _ _ _ ‹_›

@[simp] theorem State.accept_entries (s : State) (p : Port) (b : List Octet) : (s.accept p b).entries = s.entries := by
  unfold State.entries
  rw [State.accept_notices]

/-- An answer adds and loses no entry. -/
theorem State.HasEntries.accept {s : State} {l : List Entry} (h : s.HasEntries l) (p : Port) (b : List Octet) :
    (s.accept p b).HasEntries l := by
  unfold State.HasEntries
  rw [State.accept_entries]
  exact h

/-- The end of an event and an answer: what they may change. -/
theorem settle_accept_form (s : State) (p : Port) (b : List Octet) :
    s.settle.accept p b = { s with
      pools := (s.settle.accept p b).pools
      notices := { s.notices with
        queues := (s.settle.accept p b).notices.queues
        holding := (s.settle.accept p b).notices.holding }
      links := (s.settle.accept p b).links } := by
  rw [State.accept_pools, State.accept_notices]
  obtain ⟨po, q, h, ls, e⟩ := settle_shape s
  rw [e]
  exact State.accept_eq ..

/-- Settles O34: the pool is written, and the rest is the end of the event. -/
theorem poolIsSet : Obligations.PoolIsSet := by
  intro s p pl k ports ha hc hp hs
  have confined : Confined s (s.setPool k ports).settle := (confined_setPool s k ports).trans (confined_settle _)
  have pools : ∀ m : Pool, (s.setPool k ports).settle.pools[m].Perm (if m = k then ports else s.pools[m]) :=
    fun m => pools_setPool s k m ports ▸ (fill_settle _).pools m
  refine ⟨_, exec_poolSet_asks ha hs hc hp, confined.answered ha _, ?own, ?each, ?idle, ?served, ?entries, ?form⟩
  case own =>
    rw [State.accept_pools]
    exact (pools k).trans (by rw [if_pos rfl])
  case each =>
    rw [State.accept_pools]
    exact pools
  case idle =>
    intro empty
    have form := settle_idle_form (s := s.setPool k ports) empty
    have order : (s.setPool k ports).settle.pools = (s.setPool k ports).pools := by rw [form]
    rw [State.accept_pools, order]
    refine ⟨?_, fun m hm => ?_, accept_form p _ form⟩
    · rw [pools_setPool, if_pos rfl]
    · rw [pools_setPool, if_neg hm]
  case served => exact accept_served (settle_served _) p _
  case entries => exact (hasEntries_settle (s.setPool k ports)).accept p _
  case form => exact settle_accept_form (s.setPool k ports) p _

/-! ### The port table -/

theorem setLimit_raised {s : State} {q : Port} {v : Nat} (h : s.portTable.limit[q] < v) : s.setLimit q v
    = (s.withPortTable { s.portTable with limit := s.portTable.limit.set q.val v q.isLt }).settle := if_pos h

theorem setLimit_kept {s : State} {q : Port} {v : Nat} (h : v ≤ s.portTable.limit[q]) : s.setLimit q v
    = s.withPortTable { s.portTable with limit := s.portTable.limit.set q.val v q.isLt } :=
  if_neg (Nat.not_lt.mpr h)

/-- A write of a notice limit changes no link but by its attention line. -/
theorem setLimit_links (s : State) (q : Port) (v : Nat) (r : Port) :
    (s.setLimit q v).links[r] = { s.links[r] with attention := (s.setLimit q v).links[r].attention } := by
  rcases Nat.lt_or_ge s.portTable.limit[q] v with raised | kept
  · rw [setLimit_raised raised]
    exact (confined_settle (s.withPortTable _)).links r
  · rw [setLimit_kept kept]
    rfl

theorem hasEntries_setLimit (s : State) (q : Port) (v : Nat) : (s.setLimit q v).HasEntries s.entries := by
  rcases Nat.lt_or_ge s.portTable.limit[q] v with raised | kept
  · rw [setLimit_raised raised]
    exact hasEntries_settle (s.withPortTable _)
  · rw [setLimit_kept kept]
    exact .refl s

theorem setLimit_accept_form (s : State) (q : Port) (v : Nat) (p : Port) (b : List Octet) :
    (s.setLimit q v).accept p b = { s with
      links := ((s.setLimit q v).accept p b).links
      pools := ((s.setLimit q v).accept p b).pools
      notices := { s.notices with
        queues := ((s.setLimit q v).accept p b).notices.queues
        holding := ((s.setLimit q v).accept p b).notices.holding }
      portTable := { s.portTable with limit := s.portTable.limit.set q.val v q.isLt } } := by
  rcases Nat.lt_or_ge s.portTable.limit[q] v with raised | kept
  · rw [setLimit_raised raised]
    exact settle_accept_form (s.withPortTable _) p b
  · rw [setLimit_kept kept, State.accept_pools, State.accept_notices]
    exact State.accept_eq ..

theorem isUp_iff (s : State) (q : Port) : s.isUp q = true ↔ s.links[q].state = .up := decide_eq_true_iff

/-- Settles O58: each request writes its item of the port table, and a raised limit ends the event. -/
theorem portTableIsWritten : Obligations.PortTableIsWritten := by
  intro s p q pl ha hs
  refine ⟨fun v hc hp => ?quota, fun v hc hp => ?limit, fun hc hp => ⟨fun down => ?refused, fun up => ?handed⟩⟩
  case quota =>
    exact ⟨_, exec_quotaSet_asks ha hs hc hp, answered_withPortTable ha _ _, State.accept_eq ..⟩
  case limit =>
    refine ⟨_, exec_portLimitSet_asks ha hs hc hp, answered_respond ha (setLimit_links s q v) .ok _, fun kept => ?_,
      fun raised => ?_, (hasEntries_setLimit s q v).accept p _, setLimit_accept_form s q v p _⟩
    · rw [setLimit_kept kept, State.accept_notices, State.accept_pools]
      exact ⟨rfl, rfl⟩
    · rw [setLimit_raised raised]
      exact accept_served (settle_served _) p _
  case refused => rw [exec_handOver_asks ha hs hc hp, if_neg fun h => down ((isUp_iff s q).mp h)]
  case handed =>
    refine ⟨_, exec_handOver_asks ha hs hc hp, ?_⟩
    rw [if_pos ((isUp_iff s q).mpr up), hs]
    exact ⟨answered_withPortTable ha _ _, State.accept_eq ..⟩

/-! ### The enabled state of a port -/

theorem disable_up {s : State} {q : Port} (h : s.links[q].state = .up) :
    s.disable q = ((s.setEnabled q false).leaveUp q .disabled []).form q linkCloseFrame := by
  unfold State.disable
  rw [h]

/-- A DOWN or RECOVERING port is disabled without a pending window, and its PORT sweep is queued (R160). -/
theorem disable_notUp {s : State} {q : Port} (h : s.links[q].state = .down ∨ s.links[q].state = .recovering) :
    s.disable q = ((s.setEnabled q false).modifyLink q fun l =>
      { l with state := .disabled, pendingWindow := none }).queuePortSweep q := by
  unfold State.disable
  rcases h with h | h <;> rw [h]

theorem disable_disabled {s : State} {q : Port} (h : s.links[q].state = .disabled) : s.disable q = s := by
  unfold State.disable
  rw [h]

theorem enable_disabled {s : State} {q : Port} (h : s.links[q].state = .disabled) :
    s.enable q = (s.setEnabled q true).modifyLink q fun l => { l with state := .down } := by
  unfold State.enable
  rw [h]

theorem enable_enabled {s : State} {q : Port} (h : s.links[q].state ≠ .disabled) : s.enable q = s := by
  unfold State.enable
  cases e : s.links[q].state with
  | disabled => exact absurd e h
  | down => rfl
  | recovering => rfl
  | up => rfl

/-- PORT-ENABLE leaves the requests of every port as they are. -/
theorem enable_requests (s : State) (q r : Port) : (s.enable q).links[r].requests = s.links[r].requests := by
  by_cases h : s.links[q].state = .disabled
  · rw [enable_disabled h, State.modifyLink_get]
    split
    · rfl
    · rfl
  · rw [enable_enabled h]

/-- A port that leaves UP keeps the links of the others but for their attention lines. -/
theorem leaveUp_links_other (s : State) {p q : Port} (x : LinkState) (kept : List Outgoing) (h : q ≠ p) :
    (s.leaveUp p x kept).links[q]
      = { s.links[q] with attention := (s.leaveUp p x kept).links[q].attention } := by
  have links : (s.leaveUp p x kept).links[q]
      = { (s.modifyLink p (·.leave x kept)).links[q] with attention := (s.leaveUp p x kept).links[q].attention } := by
    unfold State.leaveUp
    rw [(confined_settle _).links q, queuePortSweep_links, (confined_emptyPort _ p).links q]
  rwa [State.modifyLink_other _ _ _ _ h] at links

/-- PORT-DISABLE of another port leaves the requests of the requesting port as they are. -/
theorem disable_requests (s : State) {p q : Port} (h : p ≠ q) :
    (s.disable q).links[p].requests = s.links[p].requests := by
  cases e : s.links[q].state with
  | disabled => rw [disable_disabled e]
  | up =>
    rw [disable_up e, State.form, State.modifyLink_other _ _ _ _ h, leaveUp_links_other _ _ _ h]
    rfl
  | down =>
    rw [disable_notUp (.inl e), queuePortSweep_links, State.modifyLink_other _ _ _ _ h]
    rfl
  | recovering =>
    rw [disable_notUp (.inr e), queuePortSweep_links, State.modifyLink_other _ _ _ _ h]
    rfl

/-- A PORT sweep that is not there is queued, and the idle sweep unit starts (R126). -/
theorem queuePortSweep_new {s : State} {q : Port} (h : s.hasPortSweep q = false) :
    exec .sweepStart { s with sweeps := { s.sweeps with
      places := s.sweeps.places ++ [⟨s.sweeps.nextNumber, .port q⟩]
      nextNumber := if s.sweeps.nextNumber = 255 then 1 else s.sweeps.nextNumber + 1 } }
      = .next (s.queuePortSweep q) := by
  have queued : s.queuePortSweep q = s.queueSweep (.port q) := if_neg (by rw [h]; decide)
  rw [queued]
  rfl

theorem queuePortSweep_merged {s : State} {q : Port} (h : s.hasPortSweep q = true) : s.queuePortSweep q = s := if_pos h

/-- Settles O59: the port's link state decides what PORT-DISABLE and PORT-ENABLE do to it. -/
theorem portsAreDisabledAndEnabled : Obligations.PortsAreDisabledAndEnabled := by
  rintro s off p q pl ha hs hp rfl
  refine ⟨fun hc => ⟨fun self => ?own, fun other => ?disable⟩, fun hc => ?enable⟩
  case own => rw [exec_portDisable_asks ha hs hc hp, if_pos self]
  case disable =>
    refine ⟨s.disable q, _, (exec_portDisable_asks ha hs hc hp).trans (congrArg _ (if_neg other)), ?_,
      State.accept_eq .., disable_disabled, disable_up, fun down => ?_⟩
    · rw [linkState_code]
      exact answered_other ha (disable_requests s (Ne.symm other)) _
    · refine ⟨_, rfl, fun there => ?_, fun new => ?_⟩
      · rw [disable_notUp down]
        exact queuePortSweep_merged there
      · rw [disable_notUp down]
        exact queuePortSweep_new new
  case enable =>
    refine ⟨s.enable q, _, exec_portEnable_asks ha hs hc hp, ?_, State.accept_eq .., enable_enabled, enable_disabled⟩
    rw [linkState_code]
    exact answered_other ha (enable_requests s q p) _

/-! ### STATUS and ECHO -/

theorem exec_status_asks {s : State} {p : Port} {pl : List Octet} (h : s.Asks p pl)
    (hc : requestOf pl = some .status) (hl : pl.length = 1) :
    exec (.status p) s = .next (s.accept p (s.statusReport p)) := by
  rw [exec_status, execStatus, applying_asks _ h hc, parseNothing_one hl]

theorem requestOf_nonempty {pl : List Octet} {k : RequestCode} (h : requestOf pl = some k) : 1 ≤ pl.length := by
  cases pl with
  | nil => cases h
  | cons _ _ => exact Nat.succ_pos _

theorem exec_echo_asks {s : State} {p : Port} {pl : List Octet} (h : s.Asks p pl) (hc : requestOf pl = some .echo)
    (hl : pl.length ≤ 250) : exec (.echo p) s = .next (s.accept p (pl.drop 1)) := by
  have parsed : parseEcho pl = some (pl.drop 1) := by
    rw [parseEcho, if_pos ⟨requestOf_nonempty hc, hl⟩, List.drop_one]
  rw [exec_echo, execEcho, applying_asks _ h hc, parsed]

/-- Settles O60: each answer is the acceptance with its body, which is the report item by item. -/
theorem statusAndEchoAnswer : Obligations.StatusAndEchoAnswer := by
  intro s p pl ha
  exact ⟨fun hc hl => ⟨_, exec_status_asks ha hc hl, s.accept_eq p _, answered_of_links rfl ha (s.statusReport p)⟩,
    fun hc hl => ⟨_, exec_echo_asks ha hc hl, s.accept_eq p _, answered_of_links rfl ha (pl.drop 1)⟩⟩

/-! ### RETIRE-TAG and CLEAR-ALL -/

theorem exec_retireTag_asks {s : State} {p owner : Port} {tag : BitVec 16} {pl : List Octet} (h : s.Asks p pl)
    (hc : requestOf pl = some .retireTag) (hp : parseRetireTag pl = some (owner, tag))
    (ho : owner = p ∨ s.portTable.supervisor = p) :
    exec (.retireTag p) s = .next (if 2 ≤ (s.sweeps.places.filter (isTagSweepOf p)).length then s.refuse p .busy
      else (s.queueSweep (.tag owner tag p)).accept p [s.sweeps.nextNumber]) := by
  rw [exec_retireTag, execRetireTag, applying_asks _ h hc, hp]
  refine congrArg _ (if_neg ?_)
  rintro ⟨other, denied⟩
  exact ho.elim other denied

/-- What an accepted CLEAR-ALL queues. -/
def State.queueTotal (s : State) : State :=
  (s.withSweeps { s.sweeps.advanceNumber with total := some ⟨s.sweeps.nextNumber, .total⟩ }).takeSweep

theorem exec_clearAll_asks {s : State} {p : Port} {pl : List Octet} (h : s.Asks p pl)
    (hc : requestOf pl = some .clearAll) (hl : pl.length = 1) (hs : s.portTable.supervisor = p) :
    exec (.clearAll p) s = .next (if s.sweeps.total.isSome then s.refuse p .busy
      else s.queueTotal.accept p [s.sweeps.nextNumber]) := by
  rw [exec_clearAll, execClearAll, applying_asks _ h hc, parseNothing_one hl]
  exact congrArg _ (supervised_by _ hs)

/-- The busy sweep unit takes no sweep (R126). -/
theorem takeSweep_busy {s : State} (h : s.sweeps.current ≠ none) : s.takeSweep = s :=
  if_pos (Option.isSome_iff_ne_none.mpr h)

theorem queueSweep_busy {s : State} (h : s.sweeps.current ≠ none) (kind : SweepKind) :
    s.queueSweep kind = s.withSweeps { s.sweeps.advanceNumber with
      places := s.sweeps.places ++ [⟨s.sweeps.nextNumber, kind⟩] } :=
  takeSweep_busy (s := s.withSweeps { s.sweeps.advanceNumber with
    places := s.sweeps.places ++ [⟨s.sweeps.nextNumber, kind⟩] }) h

theorem queueTotal_busy {s : State} (h : s.sweeps.current ≠ none) :
    s.queueTotal = s.withSweeps { s.sweeps.advanceNumber with total := some ⟨s.sweeps.nextNumber, .total⟩ } :=
  takeSweep_busy (s := s.withSweeps { s.sweeps.advanceNumber with total := some ⟨s.sweeps.nextNumber, .total⟩ }) h

/-- A sweep that is queued, or starts, changes no link but by its attention line. -/
theorem queueSweep_links (s : State) (kind : SweepKind) (r : Port) : (s.queueSweep kind).links[r]
    = { s.links[r] with attention := (s.queueSweep kind).links[r].attention } := takeSweep_links (s.withSweeps _) r

theorem queueTotal_links (s : State) (r : Port) :
    s.queueTotal.links[r] = { s.links[r] with attention := s.queueTotal.links[r].attention } :=
  takeSweep_links (s.withSweeps _) r

/-- Settles O48: each request refuses at its bound, and otherwise queues its sweep, which the idle unit starts. -/
theorem sweepRequestsQueue : Obligations.SweepRequestsQueue := by
  rintro s u p pl next ha rfl
  refine ⟨fun owner tag hc hp ho => ?retire, fun hc hl hs => ?clear⟩
  case retire =>
    rintro rfl
    rw [exec_retireTag_asks ha hc hp ho]
    refine ⟨fun busy => by rw [if_pos busy], fun room => ?_⟩
    rw [if_neg (Nat.not_le.mpr room)]
    exact ⟨_, s.queueSweep (.tag owner tag p), rfl, answered_respond ha (queueSweep_links s _) .ok _,
      State.accept_eq .., rfl, fun busy => queueSweep_busy busy _⟩
  case clear =>
    rintro rfl
    rw [exec_clearAll_asks ha hc hl hs]
    refine ⟨fun busy => by rw [if_pos (Option.isSome_iff_ne_none.mpr busy)], fun room => ?_⟩
    rw [if_neg (by rw [room]; decide)]
    exact ⟨_, s.queueTotal, rfl, answered_respond ha (queueTotal_links s) .ok _, State.accept_eq .., rfl,
      queueTotal_busy⟩

end Sys2Proof.Machine
end

