-- ==== Sys2Proof/Proofs/Records.lean ====
section
/-! The obligations on the record requests: OPEN, READ, SET, CLOSE and FORCE-CLOSE. -/

namespace Sys2Proof.Machine

/-! ### OPEN -/

theorem exec_open_asks {s : State} {p : Port} {pl : List Octet} {f : OpenFields} (h : s.Asks p pl)
    (hc : requestOf pl = some .openRecord) (hp : parseOpen pl = some f) :
    exec (.openRecord p) s = .next (if s.portTable.quota[p] ≤ s.ownedCount p then s.refuse p .quota
      else match s.lowestFree with
        | none => s.refuse p .full
        | some i => ((s.checkedRead i).createRecord p i f).accept p
            (handleOctets i ((s.checkedRead i).record i).generation false ++ [statesOctet .free .clear])) := by
  rw [exec_openRecord, execOpen, applying_asks _ h hc, hp] <;> rfl

/-- OPEN below the quota and with a FREE slot (R7, R8). -/
theorem exec_open_created {s : State} {p : Port} {pl : List Octet} {f : OpenFields} {i : SlotIx} (h : s.Asks p pl)
    (hc : requestOf pl = some .openRecord) (hp : parseOpen pl = some f) (room : s.ownedCount p < s.portTable.quota[p])
    (free : s.lowestFree = some i) :
    exec (.openRecord p) s = .next (((s.checkedRead i).createRecord p i f).accept p
      (octetsOf 2 i.val ++ [((s.checkedRead i).record i).generation, 0x00])) := by
  rw [exec_open_asks h hc hp, if_neg (Nat.not_le.mpr room), free]
  rfl

theorem createRecord_record (s : State) (p : Port) (i : SlotIx) (f : OpenFields) :
    (s.createRecord p i f).record i = f.record p (s.record i).generation := State.record_setRecord_self ..

theorem createRecord_others (s : State) (p : Port) (i : SlotIx) (f : OpenFields) :
    s.SameBut (s.createRecord p i f) i := only_setRecord s i _

theorem createRecord_eq (s : State) (p : Port) (i : SlotIx) (f : OpenFields) :
    s.createRecord p i f = { s with table := (s.createRecord p i f).table } := rfl

theorem createRecord_owned_self (s : State) (p : Port) (i : SlotIx) (f : OpenFields) :
    (s.createRecord p i f).table.owned[p] = insertSlot i s.table.owned[p] := set_port_same ..

theorem createRecord_owned_other (s : State) {p q : Port} (i : SlotIx) (f : OpenFields) (h : q ≠ p) :
    (s.createRecord p i f).table.owned[q] = s.table.owned[q] := set_port_other _ _ _ _ h

/-- A new slot in an ascending list makes it longer by one. -/
theorem insertSlot_length {i : SlotIx} : ∀ {l : List SlotIx}, i ∉ l → (insertSlot i l).length = l.length + 1
  | [], _ => rfl
  | j :: rest, h => by
    have head : i ≠ j := fun e => h (e ▸ List.mem_cons_self ..)
    have tail : i ∉ rest := fun m => h (List.mem_cons_of_mem _ m)
    unfold insertSlot
    by_cases below : i < j
    · rw [if_pos below]
      rfl
    · rw [if_neg below, if_neg head, List.length_cons, insertSlot_length tail, List.length_cons]

theorem slotOf_eq_some {v : Nat} {i : SlotIx} : slotOf v = some i ↔ v = i.val := by
  unfold slotOf
  constructor
  · intro h
    split at h
    · cases h
      rfl
    · cases h
  · rintro rfl
    exact dif_pos i.isLt

/-- The lowest FREE slot of a canonical table is the lowest one outside the occupied set (R7, R139). -/
theorem lowestFree_iff {s : State} (h : s.table.wf) (i : SlotIx) :
    s.lowestFree = some i ↔ i ∉ s.table.occupied ∧ ∀ j, j < i → j ∈ s.table.occupied := by
  obtain ⟨_, _, ascending, _⟩ := h
  obtain ⟨_, outside, below⟩ := leastFrom_spec s.table.occupied 0 ascending fun _ _ => Nat.zero_le _
  rw [State.lowestFree, slotOf_eq_some]
  constructor
  · intro e
    rw [e] at outside below
    refine ⟨fun hi => outside i hi rfl, fun j hj => ?_⟩
    obtain ⟨k, hk, same⟩ := below j.val (Nat.zero_le _) hj
    exact Fin.ext same ▸ hk
  · rintro ⟨free, ahead⟩
    rcases Nat.lt_trichotomy (leastFrom 0 s.table.occupied) i.val with lower | same | higher
    · exact absurd rfl (outside _ (ahead ⟨_, lower.trans i.isLt⟩ lower))
    · exact same
    · obtain ⟨k, hk, same⟩ := below i.val (Nat.zero_le _) higher
      exact absurd (Fin.ext same ▸ hk) free

theorem freeSlots_congr {s t : State} (h : t.table = s.table) : t.freeSlots = s.freeSlots := by
  unfold State.freeSlots
  rw [h]

/-- A record in a new slot leaves one FREE slot fewer (R6). -/
theorem createRecord_freeSlots (s : State) (p : Port) {i : SlotIx} (f : OpenFields) (new : i ∉ s.table.occupied) :
    (s.createRecord p i f).freeSlots = s.freeSlots - 1 := by
  have length : (s.createRecord p i f).table.occupied.length = s.table.occupied.length + 1 := insertSlot_length new
  unfold State.freeSlots
  rw [length, Nat.sub_sub]

/-- Settles O19: the record is created in the lowest FREE slot, and the refusals come in their order. -/
theorem openCreatesRecord : Obligations.OpenCreatesRecord := by
  refine ⟨?created, fun s p pl ha hc parsed => ?refused, fun s i wf => lowestFree_iff wf i⟩
  case created =>
    rintro s s1 p pl f i ha hc hp room free rfl
    have confined : Confined s ((s.checkedRead i).createRecord p i f) :=
      (confined_checkedRead s i).trans (confined_createRecord _ p i f)
    refine ⟨_, exec_open_created ha hc hp room free, confined.answered ha _, ?record, ?others, ?owned, ?rest, ?slots,
      ?form⟩
    case record =>
      rw [State.accept_record, createRecord_record]
      rfl
    case others =>
      intro j hj
      rw [State.accept_record, createRecord_others _ p i f j hj]
    case owned =>
      intro new
      rw [State.ownedCount, State.accept_table, createRecord_owned_self, insertSlot_length new]
      rfl
    case rest =>
      intro q hq
      rw [State.ownedCount, State.accept_table, createRecord_owned_other _ i f hq]
      rfl
    case slots =>
      intro new
      rw [freeSlots_congr (State.accept_table ..), createRecord_freeSlots _ p f new]
    case form =>
      rw [State.accept_table]
      exact accept_form p _ (createRecord_eq (s.checkedRead i) p i f)
  case refused =>
    obtain ⟨f, hp⟩ := some_of_format parsed
    rw [exec_open_asks ha hc hp]
    exact ⟨fun quota => by rw [if_pos quota], fun room full => by rw [if_neg (Nat.not_le.mpr room), full]⟩

/-! ### READ -/

theorem exec_read_asks {s : State} {p : Port} {pl : List Octet} {h : Handle} (ha : s.Asks p pl)
    (hc : requestOf pl = some .readRecord) (hp : parseHandleOnly pl = some h)
    (fresh : ((s.checkedRead h.slot).record h.slot).staleFor h = false) :
    exec (.readRecord p) s
      = .next ((s.checkedRead h.slot).accept p (((s.checkedRead h.slot).record h.slot).report h.slot)) := by
  rw [exec_readRecord, execRead, applying_asks _ ha hc, hp]
  exact congrArg _ (if_neg (by rw [fresh]; decide))

theorem tickOctets_eq (o : Option Tick) : tickOctets o = octetsOf 8 ((o.map BitVec.toNat).getD 0) := by
  cases o <;> rfl

/-- The 34 octets of a timing part (Table 12-6). -/
def Record.timingOctets (r : Record) : List Octet :=
  [octet r.target.code, octet r.cls.code, octet r.urgency.val] ++ octetsOf 4 r.cookie.toNat
    ++ octetsOf 2 r.slack.toNat ++ octetsOf 6 ((r.period.map BitVec.toNat).getD 0)
    ++ [octet r.policy.code, octet r.disposal.code] ++ octetsOf 8 ((r.deadline.map BitVec.toNat).getD 0)
    ++ octetsOf 8 ((r.remaining.map BitVec.toNat).getD 0) ++ [r.overrun]

/-- The report of READ for a record whose parts are known: whether its identity is unknown, and whether its timing
part and its notice are sent as zero octets (R10, log 31). -/
theorem Record.report_eq {r : Record} (slot : SlotIx) {unknown lost noticeLost : Bool}
    (hu : decide (r.fault = some .identity) = unknown)
    (hl : (decide (r.sched = .damaged) && r.timingUntrustworthy) = lost)
    (hn : (decide (r.sched = .damaged) && r.overrunLost) = noticeLost) :
    r.report slot = handleOctets slot r.generation unknown ++ [portOctet r.owner]
      ++ octetsOf 2 (if unknown then 0 else r.tag.toNat)
      ++ (if lost then List.replicate 34 0 else r.timingOctets)
      ++ (if noticeLost then [statesOctet r.sched .clear, 0] else [r.states, portOctet r.holder])
      ++ [r.mark.getD 0, faultPartCode r.fault,
          octet (flagBit (r.deadline.isSome && !lost) 1 + flagBit (r.remaining.isSome && !lost) 2
            + flagBit lost 4 + flagBit unknown 8)] := by
  unfold Record.report
  rw [hu, hl, hn, tickOctets_eq, tickOctets_eq]
  cases lost <;> rfl

theorem Record.report_length (r : Record) (slot : SlotIx) : (r.report slot).length = 45 := by
  rw [Record.report_eq slot rfl rfl rfl]
  generalize decide (r.fault = some .identity) = unknown
  generalize (decide (r.sched = .damaged) && r.timingUntrustworthy) = lost
  generalize (decide (r.sched = .damaged) && r.overrunLost) = noticeLost
  cases unknown <;> cases lost <;> cases noticeLost <;> rfl

/-- Settles O20: the answer is the report, whose shape follows from the three flags of `Record.report_eq`. -/
theorem readReportsRecord : Obligations.ReadReportsRecord := by
  rintro s s1 p pl h r timing ha hc hp rfl rfl free known rfl
  generalize e : (s.checkedRead h.slot).record h.slot = r at free known ⊢
  have fresh := Record.not_stale free known
  have applied := exec_read_asks ha hc hp (e ▸ fresh)
  rw [e] at applied
  refine ⟨_, r.report h.slot, applied, (confined_checkedRead s h.slot).answered ha _, State.accept_eq .., r.report_length _,
    fun sound whole => ?_, fun damaged fault lost => ?_, fun damaged fault kept passing => ?_,
    fun damaged fault lost => ?_, fun damaged fault kept failed => ?_⟩
  · rw [Record.report_eq (unknown := false) (lost := false) (noticeLost := false) h.slot (by simp [whole])
      (by simp [sound]) (by simp [sound]), whole]
    simp [Record.timingOctets, handleOctets, faultPartCode, flagBit, Record.states]
  · rw [Record.report_eq (unknown := false) (lost := true) (noticeLost := false) h.slot (by simp [fault])
      (by simp [damaged, Record.timingUntrustworthy, lost]) (by simp [Record.overrunLost, lost]), fault]
    simp [handleOctets, faultPartCode, flagBit, Record.states, damaged, octet]
  · rw [Record.report_eq (unknown := true) (lost := false) (noticeLost := false) h.slot (by simp [fault])
      (by simp [Record.timingUntrustworthy, kept, passing]) (by simp [Record.overrunLost, passing]), fault]
    simp [Record.timingOctets, handleOctets, faultPartCode, flagBit, Record.states, damaged, octetsOf, octet]
  · rw [Record.report_eq (unknown := true) (lost := true) (noticeLost := false) h.slot (by simp [fault])
      (by simp [damaged, Record.timingUntrustworthy, lost]) (by simp [Record.overrunLost, lost]), fault]
    simp [handleOctets, faultPartCode, flagBit, Record.states, damaged, octetsOf, octet]
  · rw [Record.report_eq (unknown := true) (lost := true) (noticeLost := true) h.slot (by simp [fault])
      (by simp [damaged, Record.timingUntrustworthy, failed])
      (by simp [damaged, Record.overrunLost, fault, kept, failed]), fault]
    simp [handleOctets, faultPartCode, flagBit, damaged, octetsOf, octet]

/-! ### SET -/

/-- A SET on a record that its port may change (R11). -/
theorem exec_set_asks {s : State} {p : Port} {pl : List Octet} {f : SetFields} (ha : s.Asks p pl)
    (hc : requestOf pl = some .setRecord) (hp : parseSet pl = some f) (through : s.LetsThrough .setRecord pl)
    (hr : ((s.checkedRead f.handle.slot).record f.handle.slot).OpenTo p f.handle) :
    exec (.setRecord p) s = .next
      (if f.cls.isSome ∧ ((s.checkedRead f.handle.slot).record f.handle.slot).notice ≠ .clear then
        (s.checkedRead f.handle.slot).refuse p .state
      else ((s.checkedRead f.handle.slot).setRecord f.handle.slot
          (f.apply ((s.checkedRead f.handle.slot).record f.handle.slot))).accept p
        [((s.checkedRead f.handle.slot).record f.handle.slot).states]) := by
  rw [exec_setRecord, execSet, applying_asks _ ha hc, hp, interlocked_named _ rfl through (parseSet_handle hp)]
  exact congrArg Host.Outcome.next (onRecord_open _ hr)

/-- Settles O21: the record is written with `SetFields.apply`, unless the class is selected under a notice. -/
theorem setWritesSelectedFields : Obligations.SetWritesSelectedFields := by
  rintro s s1 p pl f r ha hc hp through rfl rfl hr
  have selected : f.cls.isSome = true ↔ f.cls ≠ none := Option.isSome_iff_ne_none
  rw [exec_set_asks ha hc hp through hr]
  refine ⟨fun cls notice => by rw [if_pos ⟨selected.mpr cls, notice⟩], fun allowed => ?_⟩
  rw [if_neg]
  · refine ⟨_, rfl, ?_, ?_, fun j hj => ?_, ?_⟩
    · exact ((confined_checkedRead s _).trans (confined_setRecord _ _ _)).answered ha _
    · rw [State.accept_record, State.record_setRecord_self, SetFields.apply]
      congr 1
      all_goals split <;> simp [*]
    · rw [State.accept_record, State.record_setRecord_other _ _ _ _ hj]
    · rw [State.accept_table]
      exact State.accept_eq ..
  · rintro ⟨cls, notice⟩
    exact allowed.elim (selected.mp cls) notice

/-! ### CLOSE and FORCE-CLOSE -/

theorem exec_close_asks {s : State} {p : Port} {pl : List Octet} {h : Handle} (ha : s.Asks p pl)
    (hc : requestOf pl = some .closeRecord) (hp : parseHandleOnly pl = some h) (through : s.LetsThrough .closeRecord pl) :
    exec (.closeRecord p) s
      = .next (s.onRecord p h false true fun t r => (t.retire h.slot).accept p [r.states]) := by
  rw [exec_closeRecord, execClose, applying_asks _ ha hc, hp,
    interlocked_named _ rfl through (parseHandleOnly_handle hp)]

theorem exec_forceClose_asks {s : State} {p : Port} {pl : List Octet} {h : Handle} (ha : s.Asks p pl)
    (hc : requestOf pl = some .forceClose) (hp : parseHandleOnly pl = some h) (hs : s.portTable.supervisor = p) :
    exec (.forceClose p) s
      = .next (s.onRecord p h false false fun t r => (t.retire h.slot).accept p [r.states]) := by
  rw [exec_forceClose, execForceClose, applying_asks _ ha hc, hp]
  exact congrArg _ (supervised_by _ hs)

/-- Retirement is refused to no record but a stale, a marked and, by CLOSE, another port's one (Table 1-4). -/
theorem Record.refusal_none {r : Record} {p : Port} {h : Handle} {b : Bool} (fresh : r.staleFor h = false)
    (hm : r.mark = none) (ho : b = true → r.owner = some p) : r.refusal p h false b = none := by
  unfold Record.refusal
  cases b with
  | false => simp [fresh, hm]
  | true => simp [fresh, hm, ho rfl]

/-- With no other record on the blocked list a retirement serves none (R15, R96). -/
theorem retireCore_alone {s : State} {i : SlotIx} (h : s.NoOtherBlocked i) :
    (s.entryOf i = none ∧ s.retireCore i = ((s.leaveTiming i).unblock i).freeSlot i)
      ∨ ∃ place e, s.entryOf i = some (place, e)
        ∧ s.retireCore i = (((s.leaveTiming i).unblock i).dropEntry place e).freeSlot i := by
  rcases retireCore_cases s i with none | ⟨place, e, found, core⟩
  · exact .inl none
  · refine .inr ⟨place, e, found, core.trans (serveBlocked_nil _ ?_)⟩
    rw [freeSlot_notices, (moved_dropEntry _ place e).blocked, leaveTiming_eq]
    exact List.filter_eq_nil_iff.mpr fun b hb => by simpa using h b hb

/-- The state in which the slot of a retired record is freed, when no other record is on the blocked list. -/
structure Retiring (s u : State) (i : SlotIx) : Prop where
  core : s.retireCore i = u.freeSlot i
  placement : u.placement = (s.leaveTiming i).placement
  expiry : u.expiry = (s.leaveTiming i).expiry
  table : u.table = s.table
  kept : s.entryOf i = none → u.HasEntries s.entries
  freed : ∀ place e, s.entryOf i = some (place, e) → u.HasEntries (s.entries.erase e)

theorem retiring_of_alone {s : State} {i : SlotIx} (h : s.NoOtherBlocked i) : ∃ u, Retiring s u i := by
  have entries : ((s.leaveTiming i).unblock i).entries = s.entries := by
    rw [leaveTiming_eq]
    rfl
  have table : ((s.leaveTiming i).unblock i).table = s.table := by
    rw [leaveTiming_eq]
    rfl
  rcases retireCore_alone h with ⟨none, core⟩ | ⟨place, e, found, core⟩
  · refine ⟨_, core, rfl, rfl, table, fun _ => entries ▸ .refl _, fun place e found => ?_⟩
    rw [none] at found
    cases found
  · have moved := moved_dropEntry ((s.leaveTiming i).unblock i) place e
    have listed : e ∈ ((s.leaveTiming i).unblock i).listAt place := by
      have mem := (entryOf_mem found).1
      rw [leaveTiming_eq]
      cases place <;> exact mem
    refine ⟨_, core, moved.placement, moved.expiry, moved.table.trans table, fun none => ?_, fun place' e' found' => ?_⟩
    · rw [none] at found
      cases found
    · rw [found] at found'
      cases found'
      exact entries ▸ hasEntries_dropEntry _ place e listed

/-- What an accepted retirement leaves, when no other record is on the blocked list (R15). -/
theorem retire_alone {s : State} {i : SlotIx} (h : s.NoOtherBlocked i) :
    s.RebuildFollows (s.retire i) i
      ∧ (s.retire i).placement.queue
        = (if (s.record i).sched = .queued then s.placement.queue.erase i else s.placement.queue)
      ∧ (s.retire i).listOrder = (if (s.record i).sched = .armed then s.listOrder.erase i else s.listOrder)
      ∧ (∀ q, (s.record i).owner = some q → (s.retire i).table.owned[q] = s.table.owned[q].erase i)
      ∧ (s.entryOf i = none → (s.retire i).HasEntries s.entries)
      ∧ (∀ place e, s.entryOf i = some (place, e) → (s.retire i).HasEntries (s.entries.erase e)) := by
  obtain ⟨u, core, placement, expiry, table, kept, freed⟩ := retiring_of_alone h
  have retired : s.retire i = (u.freeSlot i).settle := congrArg State.settle core
  have moved := moved_settle (u.freeSlot i)
  have placed : (s.retire i).placement = (s.leaveTiming i).placement := by
    rw [retired, moved.placement, freeSlot_placement, placement]
  have expired : (s.retire i).expiry = (s.leaveTiming i).expiry := by
    rw [retired, moved.expiry, freeSlot_expiry, expiry]
  have entries : (s.retire i).HasEntries u.entries := by
    have freed : (u.freeSlot i).entries = u.entries := by
      unfold State.entries
      rw [freeSlot_notices]
    rw [retired]
    exact freed ▸ hasEntries_settle (u.freeSlot i)
  refine ⟨(leaveTiming_rebuild s i).congr placed expired, ?_, ?_, fun q owner => ?_, fun none => (kept none).trans entries,
    fun place e found => (freed place e found).trans entries⟩
  · rw [placed, leaveTiming_queue]
  · rw [State.listOrder, expired]
    exact leaveTiming_order s i
  · have record : u.record i = s.record i := by rw [State.record, table]; rfl
    rw [retired, moved.table, freeSlot_owned u i q (record ▸ owner), table]

/-- Settles O22: both requests come to the retirement of the record that the read leaves. -/
theorem closeRetiresRecord : Obligations.CloseRetiresRecord := by
  rintro c s s1 p pl h r rfl rfl request ha hp free known hm
  have same := checkedRead_record s h.slot h.slot
  have fresh := Record.not_stale free known
  have applied : exec c s = .next (((s.readSlot h.slot).retire h.slot).accept p
      [((s.readSlot h.slot).record h.slot).states]) := by
    rcases request with ⟨rfl, hc, through, owner⟩ | ⟨rfl, hc, hs⟩
    · rw [exec_close_asks ha hc hp through, onRecord_passes, same]
      rw [same]
      exact Record.refusal_none fresh hm fun _ => owner
    · rw [exec_forceClose_asks ha hc hp hs, onRecord_passes, same]
      rw [same]
      exact Record.refusal_none fresh hm nofun
  have confined := (confined_readSlot s h.slot).trans (confined_retire _ h.slot)
  obtain ⟨blank, occupied, unblocked, carried⟩ := retire_facts (s.readSlot h.slot) h.slot _ rfl
  have near := near_retire (s.readSlot h.slot) h.slot
  refine ⟨_, applied, confined.answered ha _, ?_, ?_, ?_, ?_, fun j hj hb => ?_, ?_, accept_served (retire_served _ _) p _,
    fun alone => ?_⟩
  · rw [State.accept_record, blank]
  · rw [State.accept_table, occupied]
  · rw [State.accept_notices]
    exact unblocked
  · rw [State.accept_placement, carried]
  · rw [State.accept_record, near.records j hj hb]
  · unfold State.Apart
    rw [State.accept_timeBase, State.accept_sweeps, State.accept_portTable]
    exact confined_apart (confined_retire (s.readSlot h.slot) h.slot)
  · obtain ⟨rebuild, queue, order, owned, kept, freed⟩ := retire_alone alone
    refine ⟨rebuild.congr (State.accept_placement ..) (State.accept_expiry ..), ?_, ?_, fun q owner => ?_,
      fun none => (kept none).accept p _, fun place e found => (freed place e found).accept p _⟩
    · rw [State.accept_placement, queue]
    · rw [State.listOrder, State.accept_expiry]
      exact order
    · rw [State.accept_table, owned q owner]

end Sys2Proof.Machine
end

