-- ==== Sys2Proof/Proofs/Arming.lean ====
section
/-! The obligations on ARM, CANCEL, PAUSE and RESUME. -/

namespace Sys2Proof.Machine

/-! ### The requests on a record that its port may change -/

section
variable {s : State} {p : Port} {pl : List Octet} {h : Handle}

theorem exec_arm_asks {form : DeadlineForm} (ha : s.Asks p pl) (hc : requestOf pl = some .arm)
    (hp : parseArm pl = some (h, form)) (through : s.LetsThrough .arm pl)
    (hr : ((s.checkedRead h.slot).record h.slot).OpenTo p h) :
    exec (.arm p) s = .next (if (s.checkedRead h.slot).expiry.listState = .failed then
        (s.checkedRead h.slot).refuse p .listFailed
      else match form.deadline (s.checkedRead h.slot).now with
        | none => (s.checkedRead h.slot).refuse p .range
        | some d => ((s.checkedRead h.slot).armRecord h.slot d).accept p
            [((s.checkedRead h.slot).record h.slot).states]) := by
  rw [exec_arm, execArm, applying_asks _ ha hc, hp, interlocked_named _ rfl through (parseArm_handle hp)]
  exact congrArg Host.Outcome.next (onRecord_open _ hr)

theorem exec_cancel_asks {withdraw : Bool} (ha : s.Asks p pl) (hc : requestOf pl = some .cancel)
    (hp : parseCancel pl = some (h, withdraw)) (through : s.LetsThrough .cancel pl)
    (hr : ((s.checkedRead h.slot).record h.slot).OpenTo p h) :
    exec (.cancel p) s = .next ((if withdraw then ((s.checkedRead h.slot).disarm h.slot).withdraw h.slot
        else (s.checkedRead h.slot).disarm h.slot).accept p [((s.checkedRead h.slot).record h.slot).states]) := by
  rw [exec_cancel, execCancel, applying_asks _ ha hc, hp, interlocked_named _ rfl through (parseCancel_handle hp)]
  exact congrArg Host.Outcome.next (onRecord_open _ hr)

/-- The effect of PAUSE on an ARMED or QUEUED record (R43). -/
def State.suspend (s : State) (i : SlotIx) : State :=
  (s.leaveTiming i).modify i fun r => { r with sched := .paused, remaining := some ((s.record i).left s.now) }

theorem exec_pause_asks (ha : s.Asks p pl) (hc : requestOf pl = some .pause) (hp : parseHandleOnly pl = some h)
    (through : s.LetsThrough .pause pl) (hr : ((s.checkedRead h.slot).record h.slot).OpenTo p h) :
    exec (.pause p) s = .next (if ((s.checkedRead h.slot).record h.slot).sched = .armed
          ∨ ((s.checkedRead h.slot).record h.slot).sched = .queued then
        ((s.checkedRead h.slot).suspend h.slot).accept p [((s.checkedRead h.slot).record h.slot).states]
      else (s.checkedRead h.slot).refuse p .state) := by
  rw [exec_pause, execPause, applying_asks _ ha hc, hp, interlocked_named _ rfl through (parseHandleOnly_handle hp)]
  exact congrArg Host.Outcome.next (onRecord_open _ hr)

/-- The effect of RESUME on a PAUSED record (R45). -/
def State.resumed (s : State) (i : SlotIx) (left : Tick) : State :=
  (s.setDeadline i (BitVec.ofNat 56 (s.now + left.toNat))).enqueue i

theorem exec_resume_asks (ha : s.Asks p pl) (hc : requestOf pl = some .resume) (hp : parseHandleOnly pl = some h)
    (through : s.LetsThrough .resume pl) (hr : ((s.checkedRead h.slot).record h.slot).OpenTo p h) :
    exec (.resume p) s = .next (if ((s.checkedRead h.slot).record h.slot).sched ≠ .paused then
        (s.checkedRead h.slot).refuse p .state
      else if (s.checkedRead h.slot).expiry.listState = .failed then (s.checkedRead h.slot).refuse p .listFailed
      else if Config.timeMax < (s.checkedRead h.slot).now
          + (((s.checkedRead h.slot).record h.slot).remaining.getD 0).toNat then
        (s.checkedRead h.slot).refuse p .range
      else ((s.checkedRead h.slot).resumed h.slot
          (((s.checkedRead h.slot).record h.slot).remaining.getD 0)).accept p
        [((s.checkedRead h.slot).record h.slot).states]) := by
  rw [exec_resume, execResume, applying_asks _ ha hc, hp, interlocked_named _ rfl through (parseHandleOnly_handle hp)]
  exact congrArg Host.Outcome.next (onRecord_open _ hr)

end

theorem checkedRead_now (s : State) (i : SlotIx) : (s.checkedRead i).now = s.timeBase.now.toNat :=
  (confined_checkedRead s i).now

/-! ### ARM -/

/-- A number of ticks up to time max is a deadline (R33). -/
theorem tick_of_toNat {n : Nat} {d : Tick} (h : d.toNat = n) : BitVec.ofNat 56 n = d := by
  rw [← h, BitVec.ofNat_toNat, BitVec.setWidth_eq]

theorem tick_toNat_of_le {n : Nat} (h : n ≤ Config.timeMax) : (BitVec.ofNat 56 n).toNat = n := by
  have : n < 2 ^ 56 := Nat.lt_of_le_of_lt h (by decide)
  rw [BitVec.toNat_ofNat, Nat.mod_eq_of_lt this]

/-- A deadline that is a tick value is no RANGE (R33). -/
theorem DeadlineForm.deadline_given {form : DeadlineForm} {now : Nat} {d : Tick}
    (h : form = .absolute d ∨ ∃ n : Interval, form = .relative n ∧ d.toNat = now + n.toNat) :
    form.deadline now = some d := by
  rcases h with rfl | ⟨n, rfl, e⟩
  · rfl
  · have small : now + n.toNat ≤ Config.timeMax := e ▸ Nat.le_of_lt_succ d.isLt
    rw [DeadlineForm.deadline, if_pos small, tick_of_toNat e]

/-- Settles O23: the arming of `arm_facts`, on the state that the read leaves. -/
theorem armQueuesRecord : Obligations.ArmQueuesRecord := by
  rintro s s1 p pl h form r d ha hc hp through rfl rfl hr unfailed given
  have deadline : form.deadline (s.checkedRead h.slot).now = some d :=
    DeadlineForm.deadline_given (by rw [checkedRead_now]; exact given)
  obtain ⟨record, placed, queue, order, unlisted, expiry, others, form⟩ := arm_facts (s.checkedRead h.slot) h.slot d
  have confined := (confined_checkedRead s h.slot).trans (confined_armRecord _ h.slot d)
  rw [exec_arm_asks ha hc hp through hr, if_neg unfailed, deadline]
  refine ⟨_, rfl, confined.answered ha _, ?_⟩
  rw [State.accept_record, State.accept_placement, State.accept_table, State.listOrder, State.accept_expiry]
  refine ⟨record, placed, queue, order, unlisted, expiry, fun j hj => ?_, accept_form p _ form⟩
  rw [State.accept_record, others j hj]

/-- Settles O24: each refusal is the first test of its request that fails. -/
theorem armingIsRefused : Obligations.ArmingIsRefused := by
  rintro s s1 p pl h r ha rfl rfl hr
  have now := checkedRead_now s h.slot
  refine ⟨fun form hc hp through => ⟨fun failed => ?_, fun unfailed n relative late => ?_⟩,
    fun hc hp through unarmed unqueued => ?_, fun hc hp through => ⟨fun unpaused => ?_, fun paused failed => ?_,
      fun paused unfailed left remaining late => ?_⟩⟩
  · rw [exec_arm_asks ha hc hp through hr, if_pos failed]
  · have range : form.deadline (s.checkedRead h.slot).now = none := by
      rw [relative, now]
      exact if_neg (Nat.not_le.mpr late)
    rw [exec_arm_asks ha hc hp through hr, if_neg unfailed, range]
  · rw [exec_pause_asks ha hc hp through hr, if_neg fun h => h.elim unarmed unqueued]
  · rw [exec_resume_asks ha hc hp through hr, if_pos unpaused]
  · rw [exec_resume_asks ha hc hp through hr, if_neg (not_not_intro paused), if_pos failed]
  · rw [exec_resume_asks ha hc hp through hr, if_neg (not_not_intro paused), if_neg unfailed, if_pos]
    rw [now, remaining]
    exact late

/-! ### CANCEL -/

theorem disarm_record (s : State) (i : SlotIx) :
    (s.disarm i).record i = { s.record i with sched := .idle, remaining := none } := by
  rw [State.disarm, State.record_modify_self, leaveTiming_record]

theorem disarm_others (s : State) (i : SlotIx) : s.SameBut (s.disarm i) i :=
  (only_leaveTiming s i i).trans (only_modify _ i _)

theorem disarm_notices (s : State) (i : SlotIx) : (s.disarm i).notices = s.notices := by
  rw [State.disarm, leaveTiming_eq]
  rfl

theorem disarm_pools (s : State) (i : SlotIx) : (s.disarm i).pools = s.pools := by
  rw [State.disarm, leaveTiming_eq]
  rfl

/-- The withdrawal of a notice that is not there, or is delivered, changes nothing (R42). -/
theorem withdraw_kept {s : State} {i : SlotIx}
    (h : (s.record i).notice = .clear ∨ (s.record i).notice = .outstanding) : s.withdraw i = s := by
  unfold State.withdraw
  rcases h with h | h <;> rw [h]

theorem withdraw_waiting {s : State} {i : SlotIx} (h : (s.record i).notice = .waiting) :
    s.withdraw i = (s.unblock i).setNotice i .clear none := by
  unfold State.withdraw
  rw [h]

theorem withdraw_pending {s : State} {i : SlotIx} {place : EntryPlace} {e : Entry}
    (h : (s.record i).notice = .pending) (found : s.entryOf i = some (place, e)) :
    s.withdraw i = (((s.dropEntry place e).setNotice i .clear none).serveBlocked).settle := by
  unfold State.withdraw
  rw [h, found]

theorem withdraw_unfound {s : State} {i : SlotIx} (h : (s.record i).notice = .pending) (none : s.entryOf i = none) :
    s.withdraw i = s := by
  unfold State.withdraw
  rw [h, none]

theorem withdraw_carried (s : State) (i : SlotIx) : (s.withdraw i).placement.carried = s.placement.carried := by
  cases h : (s.record i).notice with
  | clear => rw [withdraw_kept (.inl h)]
  | outstanding => rw [withdraw_kept (.inr h)]
  | waiting => rw [withdraw_waiting h]; rfl
  | pending =>
    cases found : s.entryOf i with
    | none => rw [withdraw_unfound h found]
    | some x =>
      rw [withdraw_pending h found, (moved_settle _).placement, (aside_serveBlocked _).carried]
      exact congrArg PlacementUnit.carried (moved_dropEntry s x.1 x.2).placement

/-- A withdrawal that serves no other record stays with its own: the queue and the list stand. -/
theorem withdraw_timing {s : State} {i : SlotIx} (h : (s.record i).notice ≠ .pending ∨ s.notices.blocked = []) :
    (s.withdraw i).placement = s.placement ∧ (s.withdraw i).expiry = s.expiry ∧ s.SameBut (s.withdraw i) i := by
  cases hn : (s.record i).notice with
  | clear => rw [withdraw_kept (.inl hn)]; exact ⟨rfl, rfl, .refl i s⟩
  | outstanding => rw [withdraw_kept (.inr hn)]; exact ⟨rfl, rfl, .refl i s⟩
  | waiting => rw [withdraw_waiting hn]; exact ⟨rfl, rfl, only_modify _ i _⟩
  | pending =>
    cases found : s.entryOf i with
    | none => rw [withdraw_unfound hn found]; exact ⟨rfl, rfl, .refl i s⟩
    | some x =>
      have none : ((s.dropEntry x.1 x.2).setNotice i .clear none).notices.blocked = [] :=
        (moved_dropEntry s x.1 x.2).blocked.trans (h.resolve_left fun ne => ne hn)
      have dropped := moved_dropEntry s x.1 x.2
      have settled := moved_settle ((s.dropEntry x.1 x.2).setNotice i .clear Option.none)
      rw [withdraw_pending hn found, serveBlocked_nil _ none]
      refine ⟨settled.placement.trans dropped.placement, settled.expiry.trans dropped.expiry, fun j hj => ?_⟩
      rw [settled.record, State.setNotice, State.record_modify_other _ _ _ _ hj, dropped.record]

/-- What CANCEL leaves when it withdraws a PENDING notice (R42, R96, R118). -/
theorem withdraw_pending_facts {s : State} {i : SlotIx} {place : EntryPlace} {e : Entry}
    (h : (s.record i).notice = .pending) (unblocked : ∀ b ∈ s.notices.blocked, b.slot ≠ i)
    (found : s.entryOf i = some (place, e)) :
    (s.withdraw i).record i = { s.record i with notice := .clear, holder := none } ∧ (s.withdraw i).PoolsServed
      ∧ (s.notices.blocked = [] → (s.withdraw i).HasEntries (s.entries.erase e)) := by
  have dropped := moved_dropEntry s place e
  rw [withdraw_pending h found]
  refine ⟨?_, settle_served _, fun none => ?_⟩
  · rw [settle_record, serveBlocked_record, State.setNotice, State.record_modify_self, dropped.record]
    exact fun b hb => unblocked b (dropped.blocked ▸ hb)
  · rw [serveBlocked_nil ((s.dropEntry place e).setNotice i .clear Option.none) (dropped.blocked.trans none)]
    exact (hasEntries_dropEntry s place e (entryOf_mem found).1).trans (hasEntries_settle _)

/-- What CANCEL leaves before its answer. -/
def State.cancelled (s : State) (i : SlotIx) (withdraw : Bool) : State :=
  if withdraw then (s.disarm i).withdraw i else s.disarm i

theorem near_cancelled (s : State) (i : SlotIx) (withdraw : Bool) : Near i s (s.cancelled i withdraw) :=
  (near_disarm s i).trans (.ite (near_withdraw _ i) (.refl i _))

theorem confined_cancelled (s : State) (i : SlotIx) (withdraw : Bool) : Confined s (s.cancelled i withdraw) :=
  (confined_disarm s i).trans (.ite (confined_withdraw _ i) (.refl _))

theorem cancelled_carried (s : State) (i : SlotIx) (withdraw : Bool) :
    (s.cancelled i withdraw).placement.carried = s.placement.carried := by
  cases withdraw with
  | false => exact leaveTiming_carried s i
  | true => exact (withdraw_carried _ i).trans (leaveTiming_carried s i)

theorem disarm_notice (s : State) (i : SlotIx) : ((s.disarm i).record i).notice = (s.record i).notice := by
  rw [disarm_record]

theorem cancelled_kept {s : State} {i : SlotIx} {withdraw : Bool}
    (h : withdraw = false ∨ (s.record i).notice = .clear ∨ (s.record i).notice = .outstanding) :
    s.cancelled i withdraw = s.disarm i := by
  cases withdraw with
  | false => rfl
  | true => exact withdraw_kept (by rw [disarm_notice]; exact h.resolve_left nofun)

/-- The queue and the list behind a CANCEL that serves no other record (R55, R56, R40). -/
theorem cancelled_timing {s : State} {i : SlotIx} {withdraw : Bool}
    (h : withdraw = false ∨ (s.record i).notice ≠ .pending ∨ s.notices.blocked = []) :
    (s.cancelled i withdraw).placement = (s.leaveTiming i).placement
      ∧ (s.cancelled i withdraw).expiry = (s.leaveTiming i).expiry ∧ s.SameBut (s.cancelled i withdraw) i := by
  cases withdraw with
  | false => exact ⟨rfl, rfl, disarm_others s i⟩
  | true =>
    obtain ⟨placement, expiry, others⟩ := withdraw_timing (s := s.disarm i) (i := i) (by
      rw [disarm_notice, disarm_notices]
      exact h.resolve_left nofun)
    exact ⟨placement, expiry, (disarm_others s i).trans others⟩

/-- Settles O25: the record leaves the timing path, and its notice is withdrawn by its notice state. -/
theorem cancelMakesIdle : Obligations.CancelMakesIdle := by
  rintro s s1 p pl h withdraw r ha hc hp through rfl rfl hr
  have applied := exec_cancel_asks ha hc hp through hr
  generalize e : s.checkedRead h.slot = s1 at applied hr ⊢
  have confined : Confined s s1 := e ▸ confined_checkedRead s h.slot
  have record := disarm_record s1 h.slot
  refine ⟨(s1.cancelled h.slot withdraw).accept p _, applied,
    (confined.trans (confined_cancelled s1 h.slot withdraw)).answered ha _, ?_⟩
  rw [State.accept_record, State.accept_placement, State.accept_notices, State.accept_pools]
  refine ⟨fun j hj hb => ?_, ?_, cancelled_carried s1 h.slot withdraw, fun kept => ?_, fun option waiting => ?_,
    fun option pending unblocked place e found => ?_, fun calm => ?_⟩
  · rw [State.accept_record, (near_cancelled s1 h.slot withdraw).records j hj hb]
  · unfold State.Apart
    rw [State.accept_timeBase, State.accept_sweeps, State.accept_portTable]
    exact confined_apart (confined_cancelled s1 h.slot withdraw)
  · rw [cancelled_kept kept]
    exact ⟨record, disarm_notices s1 h.slot, disarm_pools s1 h.slot⟩
  · have withdrawn : s1.cancelled h.slot withdraw = ((s1.disarm h.slot).unblock h.slot).setNotice h.slot .clear none := by
      rw [option]
      exact withdraw_waiting ((disarm_notice s1 h.slot).trans waiting)
    rw [withdrawn]
    refine ⟨?_, ?_, disarm_pools s1 h.slot⟩
    · rw [State.setNotice, State.record_modify_self]
      exact congrArg (fun r : Record => { r with notice := .clear, holder := none }) record
    · rw [← disarm_notices s1 h.slot]
      rfl
  · have notices := disarm_notices s1 h.slot
    have entries : (s1.disarm h.slot).entries = s1.entries := by
      unfold State.entries
      rw [notices]
    have found' : (s1.disarm h.slot).entryOf h.slot = some (place, e) :=
      (entryOf_congr (by rw [notices]) (by rw [notices]) (by rw [notices]) h.slot).trans found
    obtain ⟨clear, served, freed⟩ := withdraw_pending_facts ((disarm_notice s1 h.slot).trans pending)
      (notices ▸ unblocked) found'
    rw [option]
    refine ⟨clear.trans (by rw [record]), accept_served served p _, fun none => ?_⟩
    exact (entries ▸ freed (notices ▸ none)).accept p _
  · obtain ⟨placement, expiry, others⟩ := cancelled_timing calm
    refine ⟨(leaveTiming_rebuild s1 h.slot).congr ((State.accept_placement ..).trans placement)
      ((State.accept_expiry ..).trans expiry), ?_, ?_, fun j hj => ?_⟩
    · rw [placement, leaveTiming_queue]
    · rw [State.listOrder, State.accept_expiry, expiry]
      exact leaveTiming_order s1 h.slot
    · rw [State.accept_record, others j hj]

/-! ### PAUSE and RESUME -/

theorem suspend_record (s : State) (i : SlotIx) : (s.suspend i).record i
    = { s.record i with sched := .paused, remaining := some ((s.record i).left s.now) } := by
  rw [State.suspend, State.record_modify_self, leaveTiming_record]

theorem suspend_others (s : State) (i : SlotIx) : s.SameBut (s.suspend i) i :=
  (only_leaveTiming s i i).trans (only_modify _ i _)

theorem suspend_eq (s : State) (i : SlotIx) : s.suspend i = { s with
    table := { s.table with cells := (s.suspend i).table.cells }
    placement := (s.leaveTiming i).placement, expiry := (s.leaveTiming i).expiry } := by
  have table : (s.leaveTiming i).table = s.table := by rw [leaveTiming_eq]
  unfold State.suspend
  rw [leaveTiming_eq]
  rfl

/-- The interval left before a deadline, 0 when it has passed (R43). -/
theorem Record.left_toNat {r : Record} {d : Tick} (h : r.deadline = some d) (now : Nat) :
    (r.left now).toNat = d.toNat - now := by
  have due : r.due = d.toNat := by rw [Record.due, h]; rfl
  rw [Record.left, due, tick_toNat_of_le (Nat.le_of_lt_succ (Nat.lt_of_le_of_lt (Nat.sub_le ..) d.isLt))]

theorem resumed_record (s : State) (i : SlotIx) (left : Tick) : (s.resumed i left).record i
    = { s.record i with sched := .queued, deadline := some (BitVec.ofNat 56 (s.now + left.toNat)),
                        remaining := none } := by
  rw [State.resumed, enqueue_record, State.setDeadline, State.record_modify_self]

theorem resumed_others (s : State) (i : SlotIx) (left : Tick) : s.SameBut (s.resumed i left) i :=
  (only_modify s i _).trans (only_enqueue _ i)

theorem resumed_eq (s : State) (i : SlotIx) (left : Tick) : s.resumed i left = { s with
    table := { s.table with cells := (s.resumed i left).table.cells }
    placement := { s.placement with queue := s.placement.queue ++ [i] } } := rfl

theorem confined_suspend (s : State) (i : SlotIx) : Confined s (s.suspend i) :=
  (confined_leaveTiming s i).trans (confined_modify _ i _)

theorem confined_resumed (s : State) (i : SlotIx) (left : Tick) : Confined s (s.resumed i left) :=
  (confined_setDeadline s i _).trans (confined_enqueue _ i)

/-- Settles O26: PAUSE is `suspend` and RESUME is `resumed`, each on the state that the read leaves. -/
theorem pauseAndResumeKeepInterval : Obligations.PauseAndResumeKeepInterval := by
  constructor
  · rintro s s1 p pl h r d ha hc hp through rfl rfl hr timed deadline
    have applied := exec_pause_asks ha hc hp through hr
    have now := checkedRead_now s h.slot
    generalize e : s.checkedRead h.slot = s1 at applied hr timed deadline now ⊢
    have confined : Confined s s1 := e ▸ confined_checkedRead s h.slot
    have form := suspend_eq s1 h.slot
    have placement : (s1.suspend h.slot).placement = (s1.leaveTiming h.slot).placement := rfl
    have expiry : (s1.suspend h.slot).expiry = (s1.leaveTiming h.slot).expiry := rfl
    rw [if_pos timed] at applied
    refine ⟨_, (s1.record h.slot).left s1.now, applied,
      (confined.trans (confined_suspend s1 h.slot)).answered ha _, ?_⟩
    rw [State.accept_record, State.accept_placement, State.accept_table, State.accept_expiry, State.listOrder,
      State.accept_expiry, suspend_record, Record.left_toNat deadline, now]
    refine ⟨rfl, rfl, leaveTiming_queue s1 h.slot, leaveTiming_carried s1 h.slot, ?_, leaveTiming_order s1 h.slot,
      fun j hj => ?_, accept_form p _ form⟩
    · exact (leaveTiming_rebuild s1 h.slot).congr (State.accept_placement ..) (State.accept_expiry ..)
    · rw [State.accept_record, suspend_others s1 h.slot j hj]
  · rintro s s1 p pl h r left ha hc hp through rfl rfl hr paused remaining unfailed room
    have applied := exec_resume_asks ha hc hp through hr
    have now := checkedRead_now s h.slot
    generalize e : s.checkedRead h.slot = s1 at applied hr paused remaining unfailed now ⊢
    have confined : Confined s s1 := e ▸ confined_checkedRead s h.slot
    rw [if_neg (not_not_intro paused), if_neg unfailed, remaining, Option.getD_some, now,
      if_neg (Nat.not_lt.mpr room)] at applied
    refine ⟨_, BitVec.ofNat 56 (s1.now + left.toNat), applied, ?_, ?_⟩
    · rw [← paused]
      exact (confined.trans (confined_resumed s1 h.slot left)).answered ha [(s1.record h.slot).states]
    · rw [State.accept_record, State.accept_placement, State.accept_table, resumed_record, now,
        tick_toNat_of_le room]
      refine ⟨rfl, rfl, rfl, fun j hj => ?_, accept_form p _ (resumed_eq s1 h.slot left)⟩
      rw [State.accept_record, resumed_others s1 h.slot left j hj]

end Sys2Proof.Machine
end

