-- ==== Sys2Proof/Proofs/Storage.lean ====
section
/-! The obligations on checked storage: what a read repairs, the damage of a timing part, and the loss of an identity
with the notice that follows each. -/

namespace Sys2Proof.Machine

/-! ### Repairs -/

theorem Record.identityLost_iff (r : Record) :
    r.identityLost = true ↔ r.copyA = .uncorrectable ∧ r.copyB = .uncorrectable := by
  simp [Record.identityLost]

theorem Record.identityKept {r : Record} (h : ¬ (r.copyA = .uncorrectable ∧ r.copyB = .uncorrectable)) :
    r.identityLost = false := by
  rw [← r.identityLost_iff] at h
  simpa using h

theorem Record.identityKept_of_copy {r : Record} (h : r.copyA ≠ .uncorrectable ∨ r.copyB ≠ .uncorrectable) :
    r.identityLost = false :=
  Record.identityKept fun ⟨a, b⟩ => h.elim (fun ne => ne a) fun ne => ne b

/-- `b` differs from `s` by repairs: the table's cells and the scrubber. -/
structure Mended (s b : State) : Prop where
  form : b = { s with table := { s.table with cells := b.table.cells }, scrubber := b.scrubber }

namespace Mended

theorem table_form {s b : State} (h : Mended s b) : b = { s with table := b.table, scrubber := b.scrubber } := by
  rw [h.form]

theorem notices {s b : State} (h : Mended s b) : b.notices = s.notices := by rw [h.form]

theorem placement {s b : State} (h : Mended s b) : b.placement = s.placement := by rw [h.form]

theorem expiry {s b : State} (h : Mended s b) : b.expiry = s.expiry := by rw [h.form]

theorem portTable {s b : State} (h : Mended s b) : b.portTable = s.portTable := by rw [h.form]

theorem owned {s b : State} (h : Mended s b) : b.table.owned = s.table.owned := by rw [h.form]

theorem isUp {s b : State} (h : Mended s b) (p : Port) : b.isUp p = s.isUp p := by
  rw [h.form]
  rfl

theorem entries {s b : State} (h : Mended s b) : b.entries = s.entries := by
  unfold State.entries
  rw [h.notices]

theorem entryOf {s b : State} (h : Mended s b) (i : SlotIx) : b.entryOf i = s.entryOf i :=
  entryOf_congr (by rw [h.notices]) (by rw [h.notices]) (by rw [h.notices]) i

theorem freeGeneral {s b : State} (h : Mended s b) : b.freeGeneral = s.freeGeneral :=
  freeGeneral_congr (by rw [h.notices]) (by rw [h.notices]) (by rw [h.notices])

end Mended

theorem mended_repairIdentity (s : State) (i : SlotIx) : Mended s (s.repairIdentity i) := ⟨repairIdentity_eq s i⟩

theorem mended_repairTiming (s : State) (i : SlotIx) : Mended s (s.repairTiming i) := ⟨repairTiming_eq s i⟩

/-- Repairs change the correction count alone of the scrubber. -/
theorem repairIdentity_scrubber (s : State) (i : SlotIx) : (s.repairIdentity i).scrubber
    = { s.scrubber with corrections := (s.repairIdentity i).scrubber.corrections } := by
  unfold State.repairIdentity
  dsimp only
  split <;> rfl

theorem repairTiming_scrubber (s : State) (i : SlotIx) : (s.repairTiming i).scrubber
    = { s.scrubber with corrections := (s.repairTiming i).scrubber.corrections } := by
  unfold State.repairTiming
  dsimp only
  split <;> rfl

theorem repairTiming_correctable {s : State} {i : SlotIx} (h : (s.record i).timingCheck = .correctable) :
    s.repairTiming i = (s.setRecord i { s.record i with timingCheck := .passing }).addCorrections 1 := if_pos h

theorem repairTiming_none {s : State} {i : SlotIx} (h : (s.record i).timingCheck ≠ .correctable) :
    s.repairTiming i = s := if_neg h

/-- The correction count after the repair of a timing part (R138). -/
theorem repairTiming_corrections {s : State} {i : SlotIx} (h : s.scrubber.corrections ≤ 65535)
    (readable : (s.record i).timingCheck ≠ .uncorrectable) : (s.repairTiming i).scrubber.corrections
      = min 65535 (s.scrubber.corrections + (if (s.record i).timingCheck = .passing then 0 else 1)) := by
  by_cases correctable : (s.record i).timingCheck = .correctable
  · rw [repairTiming_correctable correctable, if_neg (by rw [correctable]; decide)]
    rfl
  · have passing : (s.record i).timingCheck = .passing := by
      cases e : (s.record i).timingCheck with
      | passing => rfl
      | correctable => exact absurd e correctable
      | uncorrectable => exact absurd e readable
    rw [repairTiming_none correctable, if_pos passing]
    omega

theorem checkedRead_rewrites {s : State} {i : SlotIx} (free : (s.record i).sched = .free)
    (lost : (s.record i).identityLost = true) : s.checkedRead i = s.rewriteFree i := by
  have read : s.readSlot i = s.rewriteFree i := by
    unfold State.readSlot State.readWith
    simp only [free, lost, if_true]
  rw [State.checkedRead, read]
  exact settleSince_eq rfl

/-- Settles O16: each read comes to one repair, whose equations say what it leaves. -/
theorem readRepairs : Obligations.ReadRepairs := by
  refine ⟨checkedRead_sound, ?whole, ?free, ?identity, ?timing⟩
  case whole =>
    rintro s i r rfl live undamaged kept readable
    have read := checkedRead_repairs s i live undamaged (Record.identityKept kept) readable
    have record := record_repairIdentity s i
    have timing : ((s.repairIdentity i).record i).timingCheck = (s.record i).timingCheck := by rw [record]
    refine ⟨_, rfl, ?_⟩
    rw [read]
    refine ⟨(only_repairIdentity s i).trans (only_repairTiming _ i), ?_, ?_, fun bound => ?_, ?_⟩
    · rw [record_repairTiming _ i (timing ▸ readable), record]
    · rw [repairTiming_scrubber, repairIdentity_scrubber]
    · have corrections := repairIdentity_corrections s i bound
      rw [repairTiming_corrections (by omega) (timing ▸ readable), timing, corrections]
      omega
    · rw [(mended_repairTiming _ i).form, (mended_repairIdentity s i).form]
  case free =>
    intro s i free a b
    refine ⟨_, rfl, ?_⟩
    rw [checkedRead_rewrites free ((Record.identityLost_iff _).mpr ⟨a, b⟩)]
    refine ⟨State.record_setRecord_self .., only_setRecord s i _, fun bound => ?_, rfl⟩
    show min Config.correctionMax (s.scrubber.corrections + 1) = _
    unfold Config.correctionMax
    omega
  case identity =>
    rintro s i r rfl kind kept
    refine ⟨_, rfl, ?_⟩
    rw [checkedRead_identity s i kind (Record.identityKept kept)]
    exact ⟨only_repairIdentity s i, record_repairIdentity s i, repairIdentity_scrubber s i,
      repairIdentity_corrections s i, (mended_repairIdentity s i).table_form⟩
  case timing =>
    rintro s i r rfl damaged fault
    have read := checkedRead_timing s i damaged fault
    refine ⟨fun settled => ?_, fun here correctable => ⟨_, rfl, ?_⟩⟩
    · rw [read]
      split
      · rfl
      · exact repairTiming_none (settled.resolve_left ‹_›)
    · rw [read, if_neg fun lost => Bool.false_ne_true (here.symm.trans lost), repairTiming_correctable correctable]
      exact ⟨only_setRecord s i _, State.record_setRecord_self .., rfl, rfl⟩

/-! ### The end of an event that damaged a record -/

theorem grow_settleSince (t s : State) : QueuesGrow t (t.settleSince s) := by
  unfold State.settleSince
  split
  · exact .refl t
  · exact grow_settle t

theorem outstanding_settleSince (t s : State) :
    (t.settleSince s).notices.outstanding = t.notices.outstanding := by
  unfold State.settleSince
  split
  · rfl
  · exact (outs_settle t).out

theorem hasEntries_settleSince (t s : State) : (t.settleSince s).HasEntries t.entries := by
  unfold State.settleSince
  split
  · exact .refl t
  · exact hasEntries_settle t

/-! ### The notice of a damaged record -/

/-- The FAULT notice of a record without one: lost, WAITING, or created (R144). -/
theorem raiseFault_facts {d : State} {i : SlotIx} {q : Port} (hq : d.faultPort (d.record i) = q) :
    (d.isUp q = false → (d.raiseFault i).record i
        = { d.record i with overrun := saturate8 (d.record i).overrun 1, notice := .clear, holder := none })
    ∧ (d.isUp q = true → d.freeGeneral = none →
        (d.raiseFault i).record i = { d.record i with notice := .waiting, holder := none }
        ∧ (d.raiseFault i).notices.blocked
          = d.notices.blocked ++ [⟨i, .damage ((d.record i).fault.getD .timing)⟩])
    ∧ ∀ n, d.isUp q = true → d.freeGeneral = some n →
        (d.raiseFault i).record i = { d.record i with notice := .pending, holder := none, overrun := 0 }
        ∧ { d.faultEntry i (d.record i) false with number := n, stamp := d.notices.stamp, assigned := some q }
          ∈ (d.raiseFault i).notices.queues[q] := by
  subst hq
  refine ⟨fun down => ?_, fun up full => ?_, fun n up free => ?_⟩
  · rw [raiseFault_lost d i down, loseNotice_record]
  · rw [raiseFault_blocked d i up full]
    exact ⟨block_record d i _, rfl⟩
  · rw [raiseFault_created d i up free]
    exact ⟨createFault_record d i n false, createFault_queue d i n false _ rfl⟩

/-- A raised FAULT notice leaves the queue, the list and the owned counts (R144), and the check of the timing part. -/
theorem raiseFault_keeps (d : State) (i : SlotIx) : (d.raiseFault i).placement = d.placement
    ∧ (d.raiseFault i).expiry = d.expiry ∧ (d.raiseFault i).table.owned = d.table.owned
    ∧ ((d.raiseFault i).record i).timingCheck = (d.record i).timingCheck := by
  cases up : d.isUp (d.faultPort (d.record i)) with
  | false => rw [raiseFault_lost d i up, loseNotice_record]; exact ⟨rfl, rfl, rfl, rfl⟩
  | true =>
    cases free : d.freeGeneral with
    | none => rw [raiseFault_blocked d i up free, block_record]; exact ⟨rfl, rfl, rfl, rfl⟩
    | some n =>
      rw [raiseFault_created d i up free, createFault_record]
      have placed := moved_place (d.advanceStamp.setNotice i .pending none |>.modify i fun r => { r with overrun := 0 })
        { d.faultEntry i (d.record i) false with number := n, stamp := d.notices.stamp }
      exact ⟨placed.placement, placed.expiry, (congrArg RecordTable.owned placed.table).trans rfl, rfl⟩

/-- An entry that moves to the port of its record's FAULT notice, or is freed when that port is not UP (Table 9-3). -/
theorem moveToFaultPort_facts {d : State} {i : SlotIx} {place : EntryPlace} {e : Entry} (e' : Entry) (q : Port)
    (listed : e ∈ d.listAt place) (unblocked : ∀ b ∈ d.notices.blocked, b.slot ≠ i) :
    (d.isUp q = true → (d.moveToFaultPort i place e e' q).record i = d.record i
        ∧ { e' with assigned := some q } ∈ (d.moveToFaultPort i place e e' q).notices.queues[q]
        ∧ (d.moveToFaultPort i place e e' q).HasEntries ({ e' with assigned := some q } :: d.entries.erase e))
    ∧ (d.isUp q = false → (d.moveToFaultPort i place e e' q).record i
          = { d.record i with overrun := saturate8 (d.record i).overrun 1, notice := .clear, holder := none }
        ∧ (d.notices.blocked = [] → (d.moveToFaultPort i place e e' q).HasEntries (d.entries.erase e))) := by
  have dropped := moved_dropEntry d place e
  have left := hasEntries_dropEntry d place e listed
  refine ⟨fun up => ?_, fun down => ?_⟩
  · have moved : d.moveToFaultPort i place e e' q = (d.dropEntry place e).joinQueue q e' := if_pos up
    rw [moved]
    exact ⟨dropped.record i, mem_joinQueue _ q e', left.cons (hasEntries_joinQueue _ q e')⟩
  · have freed : d.moveToFaultPort i place e e' q = ((d.dropEntry place e).loseNotice i).serveBlocked :=
      if_neg (by rw [down]; decide)
    rw [freed]
    refine ⟨?_, fun none => ?_⟩
    · rw [serveBlocked_record, loseNotice_record, dropped.record]
      exact fun b hb => unblocked b (dropped.blocked ▸ hb)
    · rw [serveBlocked_nil ((d.dropEntry place e).loseNotice i) (dropped.blocked.trans none)]
      exact left

/-- With no record on the blocked list a moved entry takes no slot from an owned count (R6, R96). -/
theorem moveToFaultPort_owned {d : State} (none : d.notices.blocked = []) (i : SlotIx) (place : EntryPlace)
    (e e' : Entry) (q : Port) : (d.moveToFaultPort i place e e' q).table.owned = d.table.owned := by
  have dropped := moved_dropEntry d place e
  unfold State.moveToFaultPort
  split
  · exact congrArg RecordTable.owned dropped.table
  · rw [serveBlocked_nil ((d.dropEntry place e).loseNotice i) (dropped.blocked.trans none)]
    have table : ((d.dropEntry place e).loseNotice i).table.owned = (d.dropEntry place e).table.owned := rfl
    exact table.trans (congrArg RecordTable.owned dropped.table)

/-! ### What the declaration of damage finds (R143 step 3) -/

theorem foundNotice_outstanding {s : State} {i : SlotIx} {q : Port} {e : Entry}
    (h : s.entryOf i = some (.outstanding q, e)) : s.foundNotice i = (.outstanding, some q) := by
  unfold State.foundNotice
  rw [h]

theorem foundNotice_pending {s : State} {i : SlotIx} {place : EntryPlace} {e : Entry}
    (h : s.entryOf i = some (place, e)) (queued : ∀ q, place ≠ .outstanding q) : s.foundNotice i = (.pending, none) := by
  unfold State.foundNotice
  rw [h]
  cases place with
  | outstanding q => exact absurd rfl (queued q)
  | queued q => rfl
  | holding k => rfl

theorem foundNotice_waiting {s : State} {i : SlotIx} (none : s.entryOf i = none)
    (h : ∃ b ∈ s.notices.blocked, b.slot = i) : s.foundNotice i = (.waiting, Option.none) := by
  unfold State.foundNotice
  rw [none]
  obtain ⟨b, hb, e⟩ := h
  exact if_pos (List.any_eq_true.mpr ⟨b, hb, decide_eq_true e⟩)

section
variable (b : State) (i : SlotIx) (part : FaultPart)

theorem declareDamaged_isUp (q : Port) : (b.declareDamaged i part).isUp q = b.isUp q :=
  (confined_declareDamaged b i part).isUp q

theorem declareDamaged_freeGeneral : (b.declareDamaged i part).freeGeneral = b.freeGeneral := by
  have notices := declareDamaged_notices b i part
  exact freeGeneral_congr (by rw [notices]) (by rw [notices]) (by rw [notices])

theorem declareDamaged_entryOf : (b.declareDamaged i part).entryOf i = b.entryOf i := by
  have notices := declareDamaged_notices b i part
  exact entryOf_congr (by rw [notices]) (by rw [notices]) (by rw [notices]) i

theorem declareDamaged_entries : (b.declareDamaged i part).entries = b.entries := by
  have notices := declareDamaged_notices b i part
  exact entries_congr (by rw [notices]) (by rw [notices]) (by rw [notices])

theorem declareDamaged_fault : ((b.declareDamaged i part).record i).fault = some part := by
  cases part with
  | timing => rw [declareTiming_record]; rfl
  | identity => rw [declareIdentity_record]

theorem declareDamaged_notice : ((b.declareDamaged i part).record i).notice = (b.foundNotice i).1 := by
  cases part with
  | timing => rw [declareTiming_record]
  | identity => rw [declareIdentity_record]

end

/-- The port that the FAULT notice goes to (R144): the owner for fault part TIMING, the supervisor port otherwise. -/
def State.destination (b : State) (i : SlotIx) : FaultPart → Port
  | .timing => ((b.record i).owner).getD b.portTable.supervisor
  | .identity => b.portTable.supervisor

theorem declareDamaged_faultPort (b : State) (i : SlotIx) (part : FaultPart) :
    (b.declareDamaged i part).faultPort ((b.declareDamaged i part).record i) = b.destination i part := by
  have supervisor : (b.declareDamaged i part).portTable = b.portTable := (confined_declareDamaged b i part).portTable
  cases part with
  | timing =>
    rw [State.faultPort, declareTiming_record, supervisor]
    cases owner : (b.record i).owner with
    | none => simp [Record.loseTiming, owner, State.destination]
    | some p => simp [Record.loseTiming, owner, State.destination]
  | identity =>
    rw [State.faultPort, declareIdentity_record, supervisor]
    rfl

/-! ### The notice unit's part of the damage (R143 step 5) -/

section
variable {b : State} {i : SlotIx} {part : FaultPart}

theorem blocked_declareDamaged (unblocked : ∀ x ∈ b.notices.blocked, x.slot ≠ i) :
    (b.declareDamaged i part).notices.blocked = b.notices.blocked := by
  rw [declareDamaged_notices]
  exact map_kept_id part unblocked

/-- A record without a notice gets its FAULT notice (R144). -/
theorem damage_clear (none : b.entryOf i = none) (unblocked : ∀ x ∈ b.notices.blocked, x.slot ≠ i) :
    b.damage i part = (b.declareDamaged i part).raiseFault i := treatNotice_clear b i part none unblocked

/-- An entry that lies in a queue is converted (R145). -/
theorem damage_queued {place : EntryPlace} {e : Entry} (found : b.entryOf i = some (place, e))
    (queued : ∀ q, place ≠ .outstanding q) : b.damage i part = (b.declareDamaged i part).moveToFaultPort i place e
      (e.converted part (b.destination i part)) (b.destination i part) := by
  have notice : ((b.declareDamaged i part).record i).notice = .pending := by
    rw [declareDamaged_notice, foundNotice_pending found queued]
  have entry : (b.declareDamaged i part).entryOf i = some (place, e) := (declareDamaged_entryOf b i part).trans found
  unfold State.damage State.treatNotice
  simp only [notice, entry, declareDamaged_faultPort, declareDamaged_fault, Option.getD_some]

/-- A record on the blocked list or with an OUTSTANDING notice keeps its place or its holder. -/
theorem damage_placed (h : (b.foundNotice i).1 = .waiting ∨ (b.foundNotice i).1 = .outstanding) :
    b.damage i part = b.declareDamaged i part := by
  unfold State.damage State.treatNotice
  rw [← declareDamaged_notice b i part] at h
  rcases h with h | h <;> simp only [h]

theorem damage_clear_facts (none : b.entryOf i = none) (unblocked : ∀ x ∈ b.notices.blocked, x.slot ≠ i)
    {q : Port} (dest : b.destination i part = q) :
    ((b.damage i part).placement = (b.leaveTiming i).placement ∧ (b.damage i part).expiry = (b.leaveTiming i).expiry
      ∧ (b.damage i part).table.owned = (b.declareDamaged i part).table.owned
      ∧ ((b.damage i part).record i).timingCheck = ((b.declareDamaged i part).record i).timingCheck)
    ∧ (b.isUp (q) = false → ((b.damage i part).record i).notice = .clear
        ∧ ((b.damage i part).record i).overrun = saturate8 ((b.declareDamaged i part).record i).overrun 1)
    ∧ (b.isUp (q) = true → b.freeGeneral = Option.none →
        ((b.damage i part).record i).notice = .waiting
        ∧ (b.damage i part).notices.blocked = b.notices.blocked ++ [⟨i, .damage part⟩])
    ∧ ∀ n, b.isUp (q) = true → b.freeGeneral = some n →
        ((b.damage i part).record i).notice = .pending
        ∧ { (b.declareDamaged i part).faultEntry i ((b.declareDamaged i part).record i) false with
              number := n, stamp := b.notices.stamp, assigned := some (q) }
          ∈ (b.damage i part).notices.queues[q] := by
  subst dest
  obtain ⟨lost, waits, created⟩ := raiseFault_facts (declareDamaged_faultPort b i part)
  obtain ⟨placement, expiry, owned, timing⟩ := raiseFault_keeps (b.declareDamaged i part) i
  have stamp : (b.declareDamaged i part).notices.stamp = b.notices.stamp := by rw [declareDamaged_notices]
  rw [declareDamaged_isUp, declareDamaged_freeGeneral] at waits created
  rw [declareDamaged_isUp] at lost
  rw [blocked_declareDamaged unblocked, declareDamaged_fault] at waits
  rw [stamp] at created
  rw [damage_clear none unblocked]
  refine ⟨⟨placement.trans (declareDamaged_placement b i part), expiry.trans (declareDamaged_expiry b i part), owned,
    timing⟩, fun down => ?_, fun up full => ?_, fun n up free => ?_⟩
  · rw [lost down]
    exact ⟨rfl, rfl⟩
  · obtain ⟨record, blocked⟩ := waits up full
    exact ⟨by rw [record], blocked⟩
  · obtain ⟨record, entry⟩ := created n up free
    exact ⟨by rw [record], entry⟩

theorem damage_queued_facts {place : EntryPlace} {e : Entry} (found : b.entryOf i = some (place, e))
    (queued : ∀ q, place ≠ .outstanding q) (unblocked : ∀ x ∈ b.notices.blocked, x.slot ≠ i)
    {q : Port} (dest : b.destination i part = q) :
    (b.isUp (q) = true → ((b.damage i part).record i).notice = .pending
        ∧ { e.converted part (q) with assigned := some (q) }
          ∈ (b.damage i part).notices.queues[q]
        ∧ (b.damage i part).HasEntries
          ({ e.converted part (q) with assigned := some (q) }
            :: b.entries.erase e))
    ∧ (b.isUp (q) = false → ((b.damage i part).record i).notice = .clear
        ∧ ((b.damage i part).record i).overrun = saturate8 ((b.declareDamaged i part).record i).overrun 1
        ∧ (b.notices.blocked = [] → (b.damage i part).HasEntries (b.entries.erase e))) := by
  subst dest
  have entry : (b.declareDamaged i part).entryOf i = some (place, e) := (declareDamaged_entryOf b i part).trans found
  have blocked := blocked_declareDamaged (part := part) unblocked
  obtain ⟨moves, freed⟩ := moveToFaultPort_facts (e.converted part (b.destination i part)) (b.destination i part)
    (entryOf_mem entry).1 (blocked ▸ unblocked)
  rw [declareDamaged_isUp, declareDamaged_entries] at moves freed
  rw [blocked] at freed
  rw [damage_queued found queued]
  refine ⟨fun up => ?_, fun down => ?_⟩
  · obtain ⟨record, mem, entries⟩ := moves up
    exact ⟨by rw [record, declareDamaged_notice, foundNotice_pending found queued], mem, entries⟩
  · obtain ⟨record, entries⟩ := freed down
    exact ⟨by rw [record], by rw [record], entries⟩

end

/-! ### A read that damages -/

/-- The read of slot `i` repairs to `b` and damages the part there (Table 9-1). -/
structure Damaging (s b : State) (i : SlotIx) (part : FaultPart) : Prop where
  mended : Mended s b
  only : s.SameBut b i
  read : s.checkedRead i = (b.damage i part).settleSince s
  kept : part = .timing → (b.record i).identityLost = false

theorem damaging_timing {s : State} {i : SlotIx} (live : (s.record i).sched ≠ .free)
    (undamaged : (s.record i).sched ≠ .damaged)
    (kept : (s.record i).copyA ≠ .uncorrectable ∨ (s.record i).copyB ≠ .uncorrectable)
    (failed : (s.record i).timingCheck = .uncorrectable) : Damaging s (s.repairIdentity i) i .timing where
  mended := mended_repairIdentity s i
  only := only_repairIdentity s i
  read := congrArg (State.settleSince · s) (readSlot_timing s i live undamaged (Record.identityKept_of_copy kept) failed)
  kept := fun _ => by
    rw [record_repairIdentity]
    rfl

theorem damaging_identity {s : State} {i : SlotIx} (live : (s.record i).sched ≠ .free)
    (undamaged : (s.record i).sched ≠ .damaged) (a : (s.record i).copyA = .uncorrectable)
    (b : (s.record i).copyB = .uncorrectable) : Damaging s (s.repairTiming i) i .identity where
  mended := mended_repairTiming s i
  only := only_repairTiming s i
  read := congrArg (State.settleSince · s)
    (readSlot_identity s i live undamaged ((Record.identityLost_iff _).mpr ⟨a, b⟩))
  kept := fun h => by cases h

/-- What a read keeps of the block: its other unblocked records, the time base, the port table and the sweep unit. -/
theorem checkedRead_keeps (s : State) (i : SlotIx) : s.SameUnblocked (s.checkedRead i) i
    ∧ (s.checkedRead i).timeBase = s.timeBase ∧ (s.checkedRead i).portTable = s.portTable
    ∧ (s.checkedRead i).sweeps = s.sweeps :=
  have confined := confined_checkedRead s i
  ⟨(near_checkedRead s i).records, confined.timeBase, confined.portTable, confined.sweeps⟩

namespace Damaging

variable {s b : State} {i : SlotIx} {part : FaultPart}

theorem record (h : Damaging s b i part) (j : SlotIx) : (s.checkedRead i).record j = (b.damage i part).record j := by
  rw [h.read, settleSince_record]

theorem moved (h : Damaging s b i part) : Moved (b.damage i part) (s.checkedRead i) := by
  rw [h.read]
  exact moved_settleSince _ _

theorem queued (h : Damaging s b i part) {q : Port} {e : Entry} (mem : e ∈ (b.damage i part).notices.queues[q]) :
    e ∈ (s.checkedRead i).notices.queues[q] := by
  rw [h.read]
  exact grow_settleSince _ s q e mem

theorem outstanding (h : Damaging s b i part) :
    (s.checkedRead i).notices.outstanding = (b.damage i part).notices.outstanding := by
  rw [h.read]
  exact outstanding_settleSince _ s

theorem hasEntries (h : Damaging s b i part) {l : List Entry} (has : (b.damage i part).HasEntries l) :
    (s.checkedRead i).HasEntries l := by
  rw [h.read]
  exact has.trans (hasEntries_settleSince _ s)

theorem core (h : Damaging s b i part) : ((s.checkedRead i).record i).sched = .damaged
    ∧ ((s.checkedRead i).record i).core = ((b.declareDamaged i part).record i).core := by
  obtain ⟨ruined, core⟩ := damage_core b i part h.kept
  rw [h.record]
  exact ⟨ruined.1, core⟩

theorem fault (h : Damaging s b i part) : ((s.checkedRead i).record i).fault = some part :=
  (congrArg Record.fault h.core.2).trans (declareDamaged_fault b i part)

theorem remaining (h : Damaging s b i part) : ((s.checkedRead i).record i).remaining = none := by
  have core := h.core.2
  cases part with
  | timing =>
    rw [declareTiming_record] at core
    exact congrArg Record.remaining core
  | identity =>
    rw [declareIdentity_record] at core
    exact congrArg Record.remaining core

/-- A record whose notice already has its place keeps it, and nothing else of the notice unit changes (R143 step 5). -/
theorem placed (h : Damaging s b i part)
    (place : (b.foundNotice i).1 = .waiting ∨ (b.foundNotice i).1 = .outstanding) :
    ((s.checkedRead i).record i).notice = (b.foundNotice i).1
      ∧ ((s.checkedRead i).record i).holder = (b.foundNotice i).2
      ∧ s.SameBut (s.checkedRead i) i
      ∧ (s.checkedRead i).notices.blocked
        = s.notices.blocked.map (fun x => if x.slot = i then { x with kept := .damage part } else x)
      ∧ (s.checkedRead i).notices.outstanding = s.notices.outstanding ∧ (s.checkedRead i).HasEntries s.entries := by
  have notices := declareDamaged_notices b i part
  have same : b.damage i part = b.declareDamaged i part := damage_placed place
  have entries : (b.damage i part).entries = s.entries := by
    rw [same, declareDamaged_entries, h.mended.entries]
  refine ⟨?_, ?_, fun j ne => ?_, ?_, ?_, h.hasEntries (by rw [← entries]; exact .refl _)⟩
  · rw [h.record, same, declareDamaged_notice]
  · rw [h.record, same]
    cases part with
    | timing => rw [declareTiming_record]
    | identity => rw [declareIdentity_record]
  · rw [h.record, same, only_declareDamaged b i part j ne, h.only j ne]
  · rw [h.moved.blocked, same, notices, h.mended.notices]
  · rw [h.outstanding, same, notices, h.mended.notices]

end Damaging

/-- What the damage of a timing part leaves of the record, apart from its notice (R143 steps 1 to 4). -/
theorem timing_record {s : State} {i : SlotIx} (h : Damaging s (s.repairIdentity i) i .timing) :
    ((s.checkedRead i).record i).generation = (s.record i).generation
      ∧ ((s.checkedRead i).record i).owner = (s.record i).owner ∧ ((s.checkedRead i).record i).tag = (s.record i).tag
      ∧ ((s.checkedRead i).record i).mark = (s.record i).mark := by
  have core := h.core.2
  rw [declareTiming_record, record_repairIdentity] at core
  have generation := congrArg Record.generation core
  have owner := congrArg Record.owner core
  have tag := congrArg Record.tag core
  have mark := congrArg Record.mark core
  exact ⟨generation, owner, tag, mark⟩

theorem destination_timing {s : State} {i : SlotIx} {p : Port} (owner : (s.record i).owner = some p) :
    (s.repairIdentity i).destination i .timing = p := by
  unfold State.destination
  rw [record_repairIdentity, owner]
  rfl

theorem destination_identity (s : State) (i : SlotIx) :
    (s.repairTiming i).destination i .identity = s.portTable.supervisor :=
  congrArg PortTable.supervisor (mended_repairTiming s i).portTable

/-- A slot whose timing part is damaged leaves the queue, the rebuild part and the list (R55, R56, R143). -/
theorem timing_leaves {s : State} {i : SlotIx} (h : Damaging s (s.repairIdentity i) i .timing)
    (none : s.entryOf i = none) (unblocked : ∀ b ∈ s.notices.blocked, b.slot ≠ i) :
    ((s.checkedRead i).record i).timingCheck = .passing ∧ s.RebuildFollows (s.checkedRead i) i
      ∧ (s.checkedRead i).placement.queue
        = (if (s.record i).sched = .queued then s.placement.queue.erase i else s.placement.queue)
      ∧ (s.checkedRead i).expiry.list
        = (if (s.record i).sched = .armed then unlink i s.expiry.list else s.expiry.list) := by
  have mended := h.mended
  rw [← mended.entryOf] at none
  rw [← mended.notices] at unblocked
  obtain ⟨⟨placement, expiry, -, timing⟩, -⟩ := damage_clear_facts (part := .timing) none unblocked rfl
  have sched : ((s.repairIdentity i).record i).sched = (s.record i).sched := by rw [record_repairIdentity]
  have rebuild := leaveTiming_rebuild (s.repairIdentity i) i
  have queue := leaveTiming_queue (s.repairIdentity i) i
  have list := leaveTiming_list (s.repairIdentity i) i
  unfold State.RebuildFollows at rebuild ⊢
  rw [sched, mended.placement, mended.expiry] at rebuild
  rw [sched, mended.placement] at queue
  rw [sched, mended.expiry] at list
  rw [h.moved.placement, h.moved.expiry, placement, expiry, h.record, timing]
  refine ⟨?_, rebuild, queue, list⟩
  rw [declareTiming_record]
  rfl

/-- Settles O17: the read repairs the identity copies and damages the timing part; the notice unit's part of it is
raised or converted (R144, R145). -/
theorem timingDamage : Obligations.TimingDamage := by
  constructor
  · rintro s i r p rfl live undamaged kept failed owner
    have h := damaging_timing live undamaged kept failed
    have mended := h.mended
    obtain ⟨generation, owned, tag, mark⟩ := timing_record h
    obtain ⟨unblocked, time, ports, sweeps⟩ := checkedRead_keeps s i
    refine ⟨_, rfl, h.core.1, h.fault, generation, owned.trans owner, tag, mark, h.remaining, unblocked, time, ports,
      sweeps, fun none free => ?_⟩
    obtain ⟨check, rebuild, queue, list⟩ := timing_leaves h none free
    rw [← mended.entryOf] at none
    rw [← mended.notices] at free
    obtain ⟨-, lost, waits, created⟩ := damage_clear_facts (part := .timing) none free (destination_timing owner)
    rw [mended.isUp] at lost waits created
    rw [mended.freeGeneral] at waits created
    rw [mended.notices] at waits created
    rw [h.record, h.moved.blocked] at *
    refine ⟨check, rebuild, queue, list, fun down => ?_, waits, fun up n number => ?_⟩
    · obtain ⟨notice, overrun⟩ := lost down
      refine ⟨notice, overrun.trans ?_⟩
      rw [declareTiming_record]
      rfl
    · obtain ⟨notice, entry⟩ := created n up number
      refine ⟨notice, _, h.queued entry, ?_⟩
      have port : (State.declareDamaged (s.repairIdentity i) i .timing).faultPort _ = p :=
        (declareDamaged_faultPort (s.repairIdentity i) i .timing).trans (destination_timing owner)
      unfold State.faultEntry
      rw [port, declareTiming_record, record_repairIdentity]
      exact ⟨rfl, rfl, rfl, rfl, rfl, rfl, rfl, rfl, rfl, rfl, rfl⟩
  · rintro s i r p place e rfl live undamaged kept failed owner found queued unblocked
    have h := damaging_timing live undamaged kept failed
    have mended := h.mended
    refine ⟨_, rfl, h.core.1, ?_⟩
    rw [← mended.entryOf] at found
    rw [← mended.notices] at unblocked
    obtain ⟨moves, freed⟩ := damage_queued_facts (part := .timing) found queued unblocked
      (destination_timing owner)
    rw [mended.isUp, mended.entries] at moves freed
    rw [mended.notices] at freed
    rw [h.record]
    refine ⟨fun up => ?_, fun down => ?_⟩
    · obtain ⟨notice, mem, entries⟩ := moves up
      exact ⟨notice, _, h.queued mem, rfl, h.hasEntries entries⟩
    · obtain ⟨notice, overrun, entries⟩ := freed down
      refine ⟨notice, overrun.trans ?_, fun none => h.hasEntries (entries none)⟩
      rw [declareTiming_record]
      rfl

/-- Steps 1 to 4 of R143 for an identity whose timing part the read repaired: the record, apart from its notice, and
its owned count. -/
theorem identity_record {s : State} {i : SlotIx} (h : Damaging s (s.repairTiming i) i .identity) :
    ((s.checkedRead i).record i).owner = none ∧ ((s.checkedRead i).record i).mark = none := by
  have core := h.core.2
  rw [declareIdentity_record] at core
  have owner := congrArg Record.owner core
  have mark := congrArg Record.mark core
  exact ⟨owner, mark⟩

/-- The repair of a timing part leaves the record's owner and overrun count. -/
theorem repairTiming_fields (s : State) (i : SlotIx) :
    ((s.repairTiming i).record i).owner = (s.record i).owner
      ∧ ((s.repairTiming i).record i).overrun = (s.record i).overrun := by
  by_cases correctable : (s.record i).timingCheck = .correctable
  · have record := record_repairTiming s i (by rw [correctable]; decide)
    rw [record]
    exact ⟨rfl, rfl⟩
  · rw [repairTiming_none correctable]
    exact ⟨rfl, rfl⟩

theorem identity_part {s : State} {i : SlotIx} {p : Port} (live : (s.record i).sched ≠ .free)
    (undamaged : (s.record i).sched ≠ .damaged) (a : (s.record i).copyA = .uncorrectable)
    (b : (s.record i).copyB = .uncorrectable) (owner : (s.record i).owner = some p) (none : s.entryOf i = none)
    (free : ∀ b ∈ s.notices.blocked, b.slot ≠ i) :
    (s.checkedRead i).table.owned[p] = s.table.owned[p].erase i
      ∧ (s.isUp s.portTable.supervisor = false → ((s.checkedRead i).record i).notice = .clear)
      ∧ (s.isUp s.portTable.supervisor = true → s.freeGeneral = Option.none →
          ((s.checkedRead i).record i).notice = .waiting
          ∧ (s.checkedRead i).notices.blocked = s.notices.blocked ++ [⟨i, .damage .identity⟩])
      ∧ (s.isUp s.portTable.supervisor = true → ∀ n, s.freeGeneral = some n →
          ((s.checkedRead i).record i).notice = .pending
          ∧ ∃ e ∈ (s.checkedRead i).notices.queues[s.portTable.supervisor], e.kind = .fault ∧ e.slot = some i
            ∧ e.number = n ∧ e.cls = .plain ∧ e.urgency = 7 ∧ e.faultPart = some .identity
            ∧ ((s.record i).timingCheck ≠ .uncorrectable → (s.record i).timingLost = false →
              e.cookie = (s.record i).cookie ∧ e.overrun = (s.record i).overrun)) := by
  have h := damaging_identity live undamaged a b
  have mended := h.mended
  rw [← mended.entryOf] at none
  rw [← mended.notices] at free
  obtain ⟨⟨-, -, owned, -⟩, lost, waits, created⟩ :=
    damage_clear_facts (part := .identity) none free (destination_identity s i)
  rw [mended.isUp] at lost waits created
  rw [mended.freeGeneral] at waits created
  rw [mended.notices] at waits created
  rw [h.record, h.moved.blocked]
  refine ⟨?_, fun down => (lost down).1, waits, fun up n number => ?_⟩
  · rw [h.moved.table, owned, loseIdentity_owned _ i p ((repairTiming_fields s i).1.trans owner), mended.owned]
  · obtain ⟨notice, entry⟩ := created n up number
    refine ⟨notice, _, h.queued entry, ?_⟩
    unfold State.faultEntry State.faultOverrun
    dsimp only
    refine ⟨rfl, rfl, rfl, rfl, rfl, declareDamaged_fault _ i .identity, fun readable kept => ?_⟩
    have repaired := record_repairTiming s i readable
    have trusted : ((s.repairTiming i).declareDamaged i .identity |>.record i).timingUntrustworthy = false := by
      rw [declareIdentity_record, repaired]
      simp [Record.timingUntrustworthy, kept]
    have overrun : ((s.repairTiming i).declareDamaged i .identity |>.record i).overrunLost = false := by
      rw [declareIdentity_record, repaired]
      simp [Record.overrunLost]
    rw [trusted, overrun, declareIdentity_record, repaired]
    exact ⟨rfl, rfl⟩

theorem identity_converts {s : State} {i : SlotIx} {place : EntryPlace} {e : Entry}
    (h : Damaging s (s.repairTiming i) i .identity) (found : s.entryOf i = some (place, e))
    (queued : ∀ q, place ≠ .outstanding q) (unblocked : ∀ b ∈ s.notices.blocked, b.slot ≠ i) :
    (s.isUp s.portTable.supervisor = true → ((s.checkedRead i).record i).notice = .pending
      ∧ ∃ e' ∈ (s.checkedRead i).notices.queues[s.portTable.supervisor],
        e' = { e with kind := .fault, cls := .plain, urgency := 7, firedDeadline := none, firedAt := none,
                      late := false, early := false, delayed := false, rangeEnd := false, generation := 0,
                      destination := .port s.portTable.supervisor,
                      assigned := some s.portTable.supervisor, faultPart := some .identity }
        ∧ (s.checkedRead i).HasEntries (e' :: s.entries.erase e))
    ∧ (s.isUp s.portTable.supervisor = false → ((s.checkedRead i).record i).notice = .clear
      ∧ ((s.checkedRead i).record i).overrun = saturate8 (s.record i).overrun 1
      ∧ (s.notices.blocked = [] → (s.checkedRead i).HasEntries (s.entries.erase e))) := by
  have mended := h.mended
  rw [← mended.entryOf] at found
  rw [← mended.notices] at unblocked
  obtain ⟨moves, freed⟩ :=
    damage_queued_facts (part := .identity) found queued unblocked (destination_identity s i)
  rw [mended.isUp, mended.entries] at moves freed
  rw [mended.notices] at freed
  rw [h.record]
  refine ⟨fun up => ?_, fun down => ?_⟩
  · obtain ⟨notice, mem, entries⟩ := moves up
    exact ⟨notice, _, h.queued mem, rfl, h.hasEntries entries⟩
  · obtain ⟨notice, overrun, entries⟩ := freed down
    refine ⟨notice, overrun.trans ?_, fun none => h.hasEntries (entries none)⟩
    rw [declareIdentity_record]
    exact congrArg (saturate8 · 1) (repairTiming_fields s i).2

/-- A record whose notice has its place keeps it, whichever part failed (R143 step 5). -/
theorem damage_keeps_place {s b : State} {i : SlotIx} {part : FaultPart} (h : Damaging s b i part) :
    (s.entryOf i = none → (∃ x ∈ s.notices.blocked, x.slot = i) →
      ((s.checkedRead i).record i).notice = .waiting ∧ s.SameBut (s.checkedRead i) i
        ∧ (s.checkedRead i).notices.blocked
          = s.notices.blocked.map (fun x => if x.slot = i then { x with kept := .damage part } else x)
        ∧ (s.checkedRead i).notices.outstanding = s.notices.outstanding ∧ (s.checkedRead i).HasEntries s.entries)
    ∧ ∀ q e, s.entryOf i = some (.outstanding q, e) →
        ((s.checkedRead i).record i).notice = .outstanding ∧ ((s.checkedRead i).record i).holder = some q
          ∧ s.SameBut (s.checkedRead i) i
          ∧ (s.checkedRead i).notices.outstanding = s.notices.outstanding ∧ (s.checkedRead i).HasEntries s.entries := by
  refine ⟨fun none waits => ?_, fun q e found => ?_⟩
  · have waiting : b.foundNotice i = (.waiting, Option.none) :=
      foundNotice_waiting ((h.mended.entryOf i).trans none) (by rw [h.mended.notices]; exact waits)
    obtain ⟨notice, -, only, blocked, outstanding, entries⟩ := h.placed (.inl (by rw [waiting]))
    exact ⟨notice.trans (by rw [waiting]), only, blocked, outstanding, entries⟩
  · have delivered : b.foundNotice i = (.outstanding, some q) :=
      foundNotice_outstanding ((h.mended.entryOf i).trans found)
    obtain ⟨notice, holder, only, -, outstanding, entries⟩ := h.placed (.inr (by rw [delivered]))
    exact ⟨notice.trans (by rw [delivered]), holder.trans (by rw [delivered]), only, outstanding, entries⟩

/-! ### A DAMAGED record whose identity fails too (R146) -/

section
variable (s : State) (i : SlotIx)

theorem declareIdentityLost_faultPort :
    (s.declareIdentityLost i).faultPort ((s.declareIdentityLost i).record i) = s.portTable.supervisor := by
  rw [State.faultPort, declareIdentityLost_record, (confined_declareIdentityLost s i).portTable]

theorem declareIdentityLost_entryOf : (s.declareIdentityLost i).entryOf i = s.entryOf i := by
  have notices := declareIdentityLost_notices s i
  exact entryOf_congr (by rw [notices]) (by rw [notices]) (by rw [notices]) i

theorem declareIdentityLost_entries : (s.declareIdentityLost i).entries = s.entries := by
  have notices := declareIdentityLost_notices s i
  exact entries_congr (by rw [notices]) (by rw [notices]) (by rw [notices])

theorem declareIdentityLost_freeGeneral : (s.declareIdentityLost i).freeGeneral = s.freeGeneral := by
  have notices := declareIdentityLost_notices s i
  exact freeGeneral_congr (by rw [notices]) (by rw [notices]) (by rw [notices])

theorem declareIdentityLost_owned {p : Port} (owner : (s.record i).owner = some p) :
    (s.declareIdentityLost i).table.owned[p] = s.table.owned[p].erase i := by
  show (s.loseIdentity i).table.owned[p] = _
  unfold State.loseIdentity
  rw [owner]
  exact set_port_same _ _ _

end

section
variable {s : State} {i : SlotIx}

theorem escalate_clear (clear : (s.record i).notice = .clear) :
    s.escalate i = (s.declareIdentityLost i).raiseFault i := by
  have notice : ((s.declareIdentityLost i).record i).notice = .clear := by rw [declareIdentityLost_record, clear]
  unfold State.escalate
  simp only [notice]

theorem escalate_pending {place : EntryPlace} {e : Entry} (pending : (s.record i).notice = .pending)
    (found : s.entryOf i = some (place, e)) : s.escalate i = (s.declareIdentityLost i).moveToFaultPort i place e
      (e.escalated s.portTable.supervisor) s.portTable.supervisor := by
  have notice : ((s.declareIdentityLost i).record i).notice = .pending := by rw [declareIdentityLost_record, pending]
  have entry := (declareIdentityLost_entryOf s i).trans found
  unfold State.escalate
  simp only [notice, entry, declareIdentityLost_faultPort]

theorem escalate_rests (clear : (s.record i).notice ≠ .clear)
    (none : (s.record i).notice = .pending → s.entryOf i = none) : s.escalate i = s.declareIdentityLost i := by
  have notice : ((s.declareIdentityLost i).record i).notice = (s.record i).notice := by
    rw [declareIdentityLost_record]
  have entry := declareIdentityLost_entryOf s i
  unfold State.escalate
  cases e : (s.record i).notice with
  | clear => exact absurd e clear
  | pending => simp only [notice, e, entry, none e]
  | waiting => simp only [notice, e]
  | outstanding => simp only [notice, e]

theorem escalate_owned {p : Port} (owner : (s.record i).owner = some p) (none : s.notices.blocked = []) :
    (s.escalate i).table.owned[p] = s.table.owned[p].erase i := by
  have blocked : (s.declareIdentityLost i).notices.blocked = [] := by rw [declareIdentityLost_notices, none]; rfl
  have owned := declareIdentityLost_owned s i owner
  by_cases clear : (s.record i).notice = .clear
  · rw [escalate_clear clear, (raiseFault_keeps _ i).2.2.1, owned]
  · cases found : s.entryOf i with
    | none => rw [escalate_rests clear fun _ => found, owned]
    | some x =>
      by_cases pending : (s.record i).notice = .pending
      · rw [escalate_pending pending found, moveToFaultPort_owned blocked, owned]
      · rw [escalate_rests clear fun h => absurd h pending, owned]

theorem escalate_core (damaged : (s.record i).sched = .damaged) : ((s.escalate i).record i).sched = .damaged
    ∧ ((s.escalate i).record i).core = ((s.declareIdentityLost i).record i).core := by
  have ruined : ((s.declareIdentityLost i).record i).Ruined := by
    rw [declareIdentityLost_record]
    exact ⟨damaged, .inl rfl⟩
  have kept : KeepsRuin i (s.declareIdentityLost i) (s.escalate i) := by
    by_cases clear : (s.record i).notice = .clear
    · rw [escalate_clear clear]
      exact keepsRuin_raiseFault _ i i
    · cases found : s.entryOf i with
      | none => rw [escalate_rests clear fun _ => found]; exact .refl i _
      | some x =>
        by_cases pending : (s.record i).notice = .pending
        · rw [escalate_pending pending found]
          exact keepsRuin_moveToFaultPort _ i i _ _ _ _
        · rw [escalate_rests clear fun h => absurd h pending]; exact .refl i _
  obtain ⟨after, core⟩ := kept ruined
  exact ⟨after.1, core⟩

end

section
variable {s : State} {i : SlotIx} (read : s.checkedRead i = (s.escalate i).settleSince s)
include read

theorem escalates_pending {place : EntryPlace} {e : Entry} (pending : (s.record i).notice = .pending)
    (found : s.entryOf i = some (place, e)) (unblocked : ∀ b ∈ s.notices.blocked, b.slot ≠ i) :
    (s.isUp s.portTable.supervisor = true → ((s.checkedRead i).record i).notice = .pending
      ∧ ∃ e' ∈ (s.checkedRead i).notices.queues[s.portTable.supervisor],
        e' = { e with generation := 0, destination := .port s.portTable.supervisor,
                      assigned := some s.portTable.supervisor, faultPart := some .identity }
        ∧ (s.checkedRead i).HasEntries (e' :: s.entries.erase e))
    ∧ (s.isUp s.portTable.supervisor = false → ((s.checkedRead i).record i).notice = .clear
      ∧ ((s.checkedRead i).record i).overrun = saturate8 (s.record i).overrun 1
      ∧ (s.notices.blocked = [] → (s.checkedRead i).HasEntries (s.entries.erase e))) := by
  have notices := declareIdentityLost_notices s i
  have same : (s.declareIdentityLost i).notices.blocked = s.notices.blocked := by
    rw [notices]
    exact map_kept_id .identity unblocked
  have entry := (declareIdentityLost_entryOf s i).trans found
  have record := declareIdentityLost_record s i
  obtain ⟨moves, freed⟩ := moveToFaultPort_facts (e.escalated s.portTable.supervisor) s.portTable.supervisor
    (entryOf_mem entry).1 (same ▸ unblocked)
  rw [(confined_declareIdentityLost s i).isUp, declareIdentityLost_entries, ← escalate_pending pending found]
    at moves freed
  rw [same] at freed
  rw [read, settleSince_record]
  refine ⟨fun up => ?_, fun down => ?_⟩
  · obtain ⟨after, mem, entries⟩ := moves up
    refine ⟨by rw [after, record, pending], _, grow_settleSince _ s _ _ mem, rfl,
      entries.trans (hasEntries_settleSince _ s)⟩
  · obtain ⟨after, entries⟩ := freed down
    refine ⟨by rw [after], by rw [after, record], fun none => (entries none).trans (hasEntries_settleSince _ s)⟩

theorem escalates_clear (clear : (s.record i).notice = .clear) (unblocked : ∀ b ∈ s.notices.blocked, b.slot ≠ i) :
    (s.isUp s.portTable.supervisor = false → ((s.checkedRead i).record i).notice = .clear
      ∧ ((s.checkedRead i).record i).overrun = saturate8 (s.record i).overrun 1)
    ∧ (s.isUp s.portTable.supervisor = true → s.freeGeneral = none → ((s.checkedRead i).record i).notice = .waiting
      ∧ (s.checkedRead i).notices.blocked = s.notices.blocked ++ [⟨i, .damage .identity⟩])
    ∧ (s.isUp s.portTable.supervisor = true → ∀ n, s.freeGeneral = some n →
      ((s.checkedRead i).record i).notice = .pending
      ∧ ∃ e ∈ (s.checkedRead i).notices.queues[s.portTable.supervisor], e.kind = .fault ∧ e.slot = some i
        ∧ e.number = n ∧ e.faultPart = some .identity ∧ e.destination = .port s.portTable.supervisor) := by
  have notices := declareIdentityLost_notices s i
  have same : (s.declareIdentityLost i).notices.blocked = s.notices.blocked := by
    rw [notices]
    exact map_kept_id .identity unblocked
  have record := declareIdentityLost_record s i
  have port := declareIdentityLost_faultPort s i
  obtain ⟨lost, waits, created⟩ := raiseFault_facts port
  have fault : ((s.declareIdentityLost i).record i).fault = some .identity := by rw [record]
  rw [(confined_declareIdentityLost s i).isUp, ← escalate_clear clear] at lost waits created
  rw [declareIdentityLost_freeGeneral] at waits created
  rw [same, fault] at waits
  rw [read, settleSince_record, (moved_settleSince _ s).blocked]
  refine ⟨fun down => ?_, fun up full => ?_, fun up n free => ?_⟩
  · rw [lost down, record]
    exact ⟨rfl, rfl⟩
  · obtain ⟨after, blocked⟩ := waits up full
    exact ⟨by rw [after], blocked⟩
  · obtain ⟨after, entry⟩ := created n up free
    refine ⟨by rw [after], _, grow_settleSince _ s _ _ entry, ?_⟩
    unfold State.faultEntry
    exact ⟨rfl, rfl, rfl, fault, congrArg Target.port port⟩

theorem escalates_placed (placed : (s.record i).notice = .waiting ∨ (s.record i).notice = .outstanding) :
    ((s.checkedRead i).record i).notice = (s.record i).notice
      ∧ ((s.checkedRead i).record i).holder = (s.record i).holder ∧ s.SameBut (s.checkedRead i) i
      ∧ (s.checkedRead i).notices.outstanding = s.notices.outstanding ∧ (s.checkedRead i).HasEntries s.entries
      ∧ (s.checkedRead i).notices.blocked = s.notices.blocked.map fun b =>
        if b.slot = i then { b with kept := .damage .identity } else b := by
  have notices := declareIdentityLost_notices s i
  have rests : s.escalate i = s.declareIdentityLost i :=
    escalate_rests (by rcases placed with h | h <;> rw [h] <;> decide)
      fun h => by rw [h] at placed; simp at placed
  have entries := hasEntries_settleSince (s.escalate i) s
  rw [rests] at read entries
  rw [← read, declareIdentityLost_entries] at entries
  have moved : Moved (s.declareIdentityLost i) (s.checkedRead i) := by rw [read]; exact moved_settleSince _ _
  have out : (s.checkedRead i).notices.outstanding = (s.declareIdentityLost i).notices.outstanding := by
    rw [read]
    exact outstanding_settleSince _ s
  refine ⟨?_, ?_, fun j ne => ?_, ?_, entries, ?_⟩
  · rw [moved.record, declareIdentityLost_record]
  · rw [moved.record, declareIdentityLost_record]
  · rw [moved.record, only_declareIdentityLost s i j ne]
  · rw [out, notices]
  · rw [moved.blocked, notices]

end

/-- Settles O18: the loss of an identity (R143), the place its notice keeps, and the escalation of a record whose
timing part failed before (R146). -/
theorem identityDamage : Obligations.IdentityDamage := by
  refine ⟨?lost, ?kept, ?escalated⟩
  case lost =>
    rintro s i r p rfl live undamaged a b owner
    have h := damaging_identity live undamaged a b
    obtain ⟨unowned, unmarked⟩ := identity_record h
    obtain ⟨unblocked, time, ports, sweeps⟩ := checkedRead_keeps s i
    exact ⟨_, rfl, h.core.1, h.fault, unowned, unmarked, h.remaining, unblocked, time, ports, sweeps,
      identity_part live undamaged a b owner, fun place e => identity_converts h⟩
  case kept =>
    rintro s i r part rfl live undamaged failed
    rcases failed with ⟨rfl, a, b⟩ | ⟨rfl, kept, failed⟩
    · have h := damaging_identity live undamaged a b
      obtain ⟨waiting, outstanding⟩ := damage_keeps_place h
      exact ⟨_, rfl, h.core.1, h.fault, waiting, outstanding⟩
    · have h := damaging_timing live undamaged kept failed
      obtain ⟨waiting, outstanding⟩ := damage_keeps_place h
      exact ⟨_, rfl, h.core.1, h.fault, waiting, outstanding⟩
  case escalated =>
    rintro s i r q rfl rfl damaged fault a b
    have read : s.checkedRead i = (s.escalate i).settleSince s := congrArg (State.settleSince · s)
      (readSlot_escalates s i damaged fault ((Record.identityLost_iff _).mpr ⟨a, b⟩))
    obtain ⟨still, core⟩ := escalate_core damaged
    rw [declareIdentityLost_record, ← settleSince_record _ s, ← read] at core
    rw [← settleSince_record _ s, ← read] at still
    have part := congrArg Record.fault core
    have unowned := congrArg Record.owner core
    have unmarked := congrArg Record.mark core
    obtain ⟨unblocked, time, ports, sweeps⟩ := checkedRead_keeps s i
    refine ⟨_, rfl, still, part, unowned, unmarked, unblocked, time, ports, sweeps, fun p owner none => ?_,
      fun pending place e found free => escalates_pending read pending found free,
      escalates_clear read, escalates_placed read⟩
    have moved : Moved (s.escalate i) (s.checkedRead i) := by rw [read]; exact moved_settleSince _ _
    rw [moved.table, escalate_owned owner none]

end Sys2Proof.Machine
end

