-- ==== Sys2Proof/Proofs/Descriptor.lean ====
section
/-! The obligation on the notice descriptor (Table 12-5), from what each group of its octets is. -/

namespace Sys2Proof.Machine

theorem Entry.handleOctets_known {e : Entry} {i : SlotIx} (slot : e.slot = some i)
    (known : e.faultPart ≠ some .identity) : e.handleOctets = octetsOf 2 i.val ++ [e.generation] := by
  unfold Entry.handleOctets
  rw [slot]
  simp [Sys2Proof.Machine.handleOctets, known]

theorem Entry.handleOctets_unknown {e : Entry} {i : SlotIx} (slot : e.slot = some i)
    (unknown : e.faultPart = some .identity) : e.handleOctets = octetsOf 2 (i.val + 32768) ++ [0] := by
  unfold Entry.handleOctets
  rw [slot]
  simp [Sys2Proof.Machine.handleOctets, unknown]

theorem tickOctets_none : tickOctets none = List.replicate 8 0 := octetsOf_zero 8

theorem Entry.resultOctets_expiry {e : Entry} {d : Tick} (kind : e.kind = .expiry) (fired : e.firedDeadline = some d) :
    e.resultOctets = octetsOf 8 d.toNat := by
  unfold Entry.resultOctets
  rw [kind, fired]
  rfl

theorem Entry.resultOctets_fault {e : Entry} (kind : e.kind = .fault) : e.resultOctets = List.replicate 8 0 := by
  unfold Entry.resultOctets
  rw [kind]
  exact octetsOf_zero 8

theorem Entry.resultOctets_sweepDone {e : Entry} {number : SweepNumber} (kind : e.kind = .sweepDone)
    (sweep : e.sweepNumber = some number) :
    e.resultOctets = [number] ++ octetsOf 2 e.retired ++ List.replicate 5 0 := by
  unfold Entry.resultOctets
  rw [kind, sweep]
  rfl

/-- The octets of a descriptor without a handle's and a result's own (Table 12-5). -/
theorem Entry.descriptor_of {e : Entry} {code : Octet} {handle result : List Octet} (kind : e.kind.code = code)
    (named : e.handleOctets = handle) (results : e.resultOctets = result) :
    e.descriptor = [code, octet (e.cls.code * 128 + e.urgency.val)] ++ handle ++ octetsOf 4 e.cookie.toNat ++ result
      ++ tickOctets e.firedAt ++ [e.overrun, e.flagsOctet, octet e.destination.code,
        octet ((e.assigned.map Fin.val).getD 0), e.deliveries] := by
  rw [Entry.descriptor, kind, named, results]

/-- Settles O30: per kind of notice, its handle, its result octets and its flags. -/
theorem descriptorLayout : Obligations.DescriptorLayout := by
  refine fun e i d a => ⟨fun kind slot deadline firedAt abandoned part => ?expiry,
    fun kind slot deadline firedAt late early rangeEnd abandoned => ⟨fun part => ?timing, fun part => ?identity⟩,
    fun number kind slot sweep firedAt late early delayed rangeEnd part => ?sweepDone⟩
  case expiry =>
    have flags : e.flagsOctet = octet ((if e.late then 1 else 0) + (if e.early then 2 else 0)
        + (if e.delayed then 4 else 0) + (if e.rangeEnd then 8 else 0)) := by
      simp [Entry.flagsOctet, flagBit, abandoned, part]
    rw [Entry.descriptor_of (congrArg NoticeKind.code kind)
      (Entry.handleOctets_known slot (by rw [part]; decide)) (Entry.resultOctets_expiry kind deadline), firedAt, flags]
    simp [tickOctets, NoticeKind.code]
  case timing =>
    have flags : e.flagsOctet = octet (if e.delayed then 4 else 0) := by
      simp [Entry.flagsOctet, flagBit, late, early, rangeEnd, abandoned, part]
    rw [Entry.descriptor_of (congrArg NoticeKind.code kind)
      (Entry.handleOctets_known slot (by rw [part]; decide)) (Entry.resultOctets_fault kind), firedAt, flags,
      tickOctets_none]
    simp [NoticeKind.code]
  case identity =>
    have flags : e.flagsOctet = octet ((if e.delayed then 4 else 0) + 32) := by
      simp [Entry.flagsOctet, flagBit, late, early, rangeEnd, abandoned, part]
    rw [Entry.descriptor_of (congrArg NoticeKind.code kind)
      (Entry.handleOctets_unknown slot part) (Entry.resultOctets_fault kind), firedAt, flags, tickOctets_none]
    simp [NoticeKind.code]
  case sweepDone =>
    have flags : e.flagsOctet = octet (if e.abandoned then 16 else 0) := by
      simp [Entry.flagsOctet, flagBit, late, early, delayed, rangeEnd, part]
    have handle : e.handleOctets = [0, 0, 0] := by
      unfold Entry.handleOctets
      rw [slot]
      exact octetsOf_zero 3
    rw [Entry.descriptor_of (congrArg NoticeKind.code kind) handle (Entry.resultOctets_sweepDone kind sweep), firedAt,
      flags, tickOctets_none]
    simp [NoticeKind.code]

end Sys2Proof.Machine
end

