-- ==== Sys2Proof/Proofs/Blocked.lean ====
section
/-! The obligation on the head of the blocked list (R96, R97, Table 6-3). -/

namespace Sys2Proof.Machine

/-- The state with the head of its blocked list taken off. -/
def State.headTaken (s : State) (rest : List BlockedPlace) : State :=
  { s with notices := { s.notices with blocked := rest } }

theorem setNotice_eq (s : State) (i : SlotIx) (n : NoticeState) (holder : Option Port) :
    s.setNotice i n holder = s.setRecord i { s.record i with notice := n, holder := holder } := rfl

theorem loseNotice_eq (s : State) (i : SlotIx) : s.loseNotice i = s.setRecord i
    { s.record i with overrun := saturate8 (s.record i).overrun 1, notice := .clear, holder := none } := by
  unfold State.loseNotice State.raiseOverrun State.modify
  rw [setNotice_eq, State.record_setRecord_self, State.setRecord_setRecord]

/-- The rest of the list is served with the same entry when the notices of the state are as they were. -/
theorem serveBlockedFrom_rest {s : State} {n : Nat} {rest : List BlockedPlace} (free : s.freeGeneral = some n)
    (i : SlotIx) (r : Record) : serveBlockedFrom n rest ((s.headTaken rest).setRecord i r)
      = ((s.headTaken rest).setRecord i r).serveBlocked := by
  have still : ((s.headTaken rest).setRecord i r).freeGeneral = some n :=
    (freeGeneral_congr (s := s) rfl rfl rfl).trans free
  unfold State.serveBlocked
  rw [still]
  rfl

/-- What a head that loses its notice leaves to the next (Table 6-3). -/
theorem serveBlocked_loses {s : State} {b : BlockedPlace} {rest : List BlockedPlace} {n : Nat}
    (free : s.freeGeneral = some n) : serveBlockedFrom n rest ((s.headTaken rest).loseNotice b.slot)
    = ((s.headTaken rest).setRecord b.slot { s.record b.slot with
        overrun := saturate8 (s.record b.slot).overrun 1, notice := .clear, holder := none }).serveBlocked := by
  rw [loseNotice_eq]
  exact serveBlockedFrom_rest free _ _

section
variable {s : State} {b : BlockedPlace} {rest : List BlockedPlace} {n : Nat} (blocked : s.notices.blocked = b :: rest)
  (free : s.freeGeneral = some n) (read : s.checkedRead b.slot = s)
include blocked free read

/-- The service of the blocked list by the first condition of Table 6-3 that its head meets. -/
theorem serveBlocked_head : s.serveBlocked = (
    let u := s.headTaken rest
    let r := s.record b.slot
    if r.mark.isSome then serveBlockedFrom n rest (u.setNotice b.slot .clear none)
    else if r.sched = .damaged then
      if s.isUp (s.faultPort r) then u.createFault b.slot n true
      else serveBlockedFrom n rest (u.loseNotice b.slot)
    else if s.reachable r.target then
      match b.kept with
      | .firing d a late rangeEnd => u.create b.slot n (expiryEntry b.slot r d a late false true rangeEnd)
      | .damage _ => serveBlockedFrom n rest (u.setNotice b.slot .clear none)
    else serveBlockedFrom n rest (u.loseNotice b.slot)) := by
  have taken : s.takeBlocked b.slot = s.headTaken rest := by
    rw [takeBlocked_unchanged s b.slot read, blocked]
    rfl
  have served : s.serveBlocked = serveBlockedFrom n (b :: rest) s := by
    unfold State.serveBlocked
    rw [free, blocked]
  exact served.trans ((serveBlockedFrom_cons n b rest _ s taken).trans rfl)

theorem serveBlocked_marked (marked : (s.record b.slot).mark ≠ none) : s.serveBlocked
    = ((s.headTaken rest).setRecord b.slot { s.record b.slot with notice := .clear, holder := none }).serveBlocked := by
  rw [serveBlocked_head blocked free read]
  dsimp only
  rw [if_pos (Option.isSome_iff_ne_none.mpr marked), setNotice_eq]
  exact serveBlockedFrom_rest free _ _

theorem serveBlocked_fault_lost (unmarked : (s.record b.slot).mark = none)
    (damaged : (s.record b.slot).sched = .damaged) (down : s.isUp (s.faultPort (s.record b.slot)) = false) :
    s.serveBlocked = ((s.headTaken rest).setRecord b.slot { s.record b.slot with
      overrun := saturate8 (s.record b.slot).overrun 1, notice := .clear, holder := none }).serveBlocked := by
  rw [serveBlocked_head blocked free read]
  dsimp only
  rw [if_neg (by simp [unmarked]), if_pos damaged, if_neg (by simp [down])]
  exact serveBlocked_loses free

theorem serveBlocked_fault (unmarked : (s.record b.slot).mark = none)
    (damaged : (s.record b.slot).sched = .damaged) (up : s.isUp (s.faultPort (s.record b.slot)) = true) :
    s.serveBlocked = (s.headTaken rest).createFault b.slot n true := by
  rw [serveBlocked_head blocked free read]
  dsimp only
  rw [if_neg (by simp [unmarked]), if_pos damaged, if_pos up]

theorem serveBlocked_unreachable (unmarked : (s.record b.slot).mark = none)
    (undamaged : (s.record b.slot).sched ≠ .damaged) (down : s.reachable (s.record b.slot).target = false) :
    s.serveBlocked = ((s.headTaken rest).setRecord b.slot { s.record b.slot with
      overrun := saturate8 (s.record b.slot).overrun 1, notice := .clear, holder := none }).serveBlocked := by
  rw [serveBlocked_head blocked free read]
  dsimp only
  rw [if_neg (by simp [unmarked]), if_neg undamaged, if_neg (by simp [down])]
  exact serveBlocked_loses free

theorem serveBlocked_expiry (unmarked : (s.record b.slot).mark = none)
    (undamaged : (s.record b.slot).sched ≠ .damaged) (up : s.reachable (s.record b.slot).target = true)
    {d a : Tick} {late rangeEnd : Bool} (kept : b.kept = .firing d a late rangeEnd) : s.serveBlocked
      = (s.headTaken rest).create b.slot n (expiryEntry b.slot (s.record b.slot) d a late false true rangeEnd) := by
  rw [serveBlocked_head blocked free read]
  dsimp only
  rw [if_neg (by simp [unmarked]), if_neg undamaged, if_pos up, kept]

end

/-- Settles O28: the head's read changes nothing, and one condition of Table 6-3 decides it. -/
theorem blockedHeadIsServed : Obligations.BlockedHeadIsServed := by
  refine ⟨fun s i => ⟨checkedRead_sound s i, ?reads⟩, fun s r lost => ?port, ?served⟩
  case reads =>
    obtain ⟨-, -, -, -, timing⟩ := readRepairs
    exact fun damaged fault => (timing s i _ rfl damaged fault).1
  case port =>
    unfold State.faultPort
    rw [lost]
  case served =>
    rintro s t b rest n r blocked free rfl read - rfl
    refine ⟨serveBlocked_marked blocked free read, serveBlocked_fault_lost blocked free read,
      fun unmarked damaged up => ?_, fun unmarked undamaged p target down =>
        serveBlocked_unreachable blocked free read unmarked undamaged ?_,
      fun unmarked undamaged up d a late rangeEnd kept => ?_⟩
    · rw [serveBlocked_fault blocked free read unmarked damaged up]
      refine ⟨create_blocked _ _ _ _, only_createFault (s.headTaken rest) b.slot n true,
        createFault_record (s.headTaken rest) b.slot n true, _,
        createFault_queue (s.headTaken rest) b.slot n true _ rfl, ?_⟩
      exact ⟨rfl, rfl, rfl, rfl, rfl, rfl, rfl, rfl, create_stamp _ _ _ _⟩
    · rw [target]
      exact down
    · rw [serveBlocked_expiry blocked free read unmarked undamaged ((reachable_iff _ _).mpr up) kept]
      exact ⟨create_blocked _ _ _ _, only_create (s.headTaken rest) b.slot n _,
        create_record (s.headTaken rest) b.slot n _, create_stamp _ _ _ _,
        hasEntries_create (s.headTaken rest) b.slot n _⟩

end Sys2Proof.Machine
end

