-- ==== Sys2Proof/Proofs/Queues.lean ====
section
/-! The obligation on the order of the queues and the service of the pools (R90, R92, R115 to R118). -/

namespace Sys2Proof.Machine

/-! ### The order of a queue (R92) -/

/-- `x` may stand before `y` in a queue: the higher urgency, or the lower stamp among equal ones (R92). -/
def Entry.Before (x y : Entry) : Prop := y.urgency < x.urgency ∨ (x.urgency = y.urgency ∧ x.stamp ≤ y.stamp)

theorem Entry.Before.trans {x y z : Entry} (a : x.Before y) (b : y.Before z) : x.Before z := by
  unfold Entry.Before at *
  rcases a with a | ⟨a, c⟩ <;> rcases b with b | ⟨b, d⟩
  · exact .inl (b.trans a)
  · exact .inl (b ▸ a)
  · exact .inl (a ▸ b)
  · exact .inr ⟨a.trans b, c.trans d⟩

/-- An entry that joins in front of another may stand there. -/
theorem Entry.before_of_joins {x e : Entry} (h : x.urgency < e.urgency ∨ (x.urgency = e.urgency ∧ e.stamp < x.stamp)) :
    e.Before x := h.imp id fun ⟨same, older⟩ => ⟨same.symm, older.le⟩

theorem Entry.before_of_passes {x e : Entry}
    (h : ¬ (x.urgency < e.urgency ∨ (x.urgency = e.urgency ∧ e.stamp < x.stamp))) : x.Before e := by
  rw [not_or, not_and, not_lt, not_lt] at h
  obtain ⟨urgent, stamped⟩ := h
  rcases urgent.lt_or_eq with less | same
  · exact .inl less
  · exact .inr ⟨same.symm, stamped same.symm⟩

/-- A queue in order stays in order with one more entry (R92). -/
theorem insertEntry_ordered (e : Entry) : ∀ l : List Entry, l.Pairwise Entry.Before →
    (insertEntry e l).Pairwise Entry.Before
  | [], _ => List.pairwise_singleton _ _
  | x :: l, h => by
    obtain ⟨first, rest⟩ := List.pairwise_cons.mp h
    unfold insertEntry
    split
    next joins =>
      have before := Entry.before_of_joins joins
      refine List.pairwise_cons.mpr ⟨fun y hy => ?_, h⟩
      rcases List.mem_cons.mp hy with rfl | hy
      · exact before
      · exact before.trans (first y hy)
    next passes =>
      refine List.pairwise_cons.mpr ⟨fun y hy => ?_, insertEntry_ordered e l rest⟩
      rcases mem_insertEntry.mp hy with rfl | hy
      · exact Entry.before_of_passes passes
      · exact first y hy

/-! ### The offer to a pool (R115, R116, Table 7-1) -/

theorem accepting_iff (s : State) (q : Port) : s.accepting q = true ↔ s.links[q].state = .up
    ∧ s.notices.queues[q].length + s.notices.outstanding[q].length < s.portTable.limit[q] := by
  unfold State.accepting State.noticeCount
  rw [Bool.and_eq_true, decide_eq_true_eq, isUp_iff]

/-- The first accepting member of a rotation order. -/
theorem find_accepting {s : State} {l front back : List Port} {q : Port} (split : l = front ++ q :: back)
    (passed : ∀ m ∈ front, s.accepting m = false) (accepts : s.accepting q = true) : l.find? s.accepting = some q := by
  rw [split, List.find?_append, List.find?_eq_none.mpr (by simpa using passed)]
  simp [accepts]

theorem find_unaccepting {s : State} {l : List Port} (h : ∀ m ∈ l, s.accepting m = false) :
    l.find? s.accepting = none := List.find?_eq_none.mpr (by simpa using h)

/-- The member that takes an entry moves behind those it stood between (R116). -/
theorem erase_member {s : State} {l front back : List Port} {q : Port} (split : l = front ++ q :: back)
    (passed : ∀ m ∈ front, s.accepting m = false) (accepts : s.accepting q = true) :
    l.erase q ++ [q] = front ++ back ++ [q] := by
  have outside : q ∉ front := fun mem => by
    rw [passed q mem] at accepts
    cases accepts
  rw [split, List.erase_append_right _ outside, List.erase_cons_head]

section
variable {s : State} {k : Pool} {e : Entry}

theorem offer_held (h : s.marked e = true ∨ ∀ m ∈ s.pools[k], s.accepting m = false) :
    s.offer k e = s.joinHolding k e := by
  unfold State.offer
  by_cases marked : s.marked e = true
  · rw [if_pos marked]
  · have refused : ∀ m ∈ s.pools[k], s.accepting m = false := h.resolve_left marked
    rw [if_neg marked, find_unaccepting refused]
    split
    · exact servePool_rests _ k (.inr refused)
    · rfl

theorem offer_behind (held : s.notices.holding[k] ≠ []) (unmarked : s.marked e = false) :
    s.offer k e = (s.joinHolding k e).servePool k := by
  unfold State.offer
  rw [if_neg (by rw [unmarked]; decide), if_pos held]

theorem offer_assigned {q : Port} (none : s.notices.holding[k] = []) (unmarked : s.marked e = false)
    (first : s.pools[k].find? s.accepting = some q) : s.offer k e = s.assign k q e := by
  unfold State.offer
  rw [if_neg (by rw [unmarked]; decide), if_neg (fun h => h none), first]

end

theorem assign_queues (s : State) (k : Pool) (q m : Port) (e : Entry) : (s.assign k q e).notices.queues[m]
    = if m = q then insertEntry { e with assigned := some q } s.notices.queues[m] else s.notices.queues[m] :=
  queues_modifyQueue (s.setPool k _) q m _

/-! ### The service of a pool (R118) -/

/-- A walk of one pool's holding queue takes entries out of it alone, and leaves the other pools. -/
structure ServesPool (k : Pool) (s t : State) : Prop where
  sub : t.notices.holding[k].Sublist s.notices.holding[k]
  others : ∀ m : Pool, m ≠ k → t.pools[m] = s.pools[m] ∧ t.notices.holding[m] = s.notices.holding[m]

theorem ServesPool.refl (k : Pool) (s : State) : ServesPool k s s := ⟨.refl _, fun _ _ => ⟨rfl, rfl⟩⟩

theorem ServesPool.trans {k : Pool} {s t u : State} (a : ServesPool k s t) (b : ServesPool k t u) :
    ServesPool k s u where
  sub := b.sub.trans a.sub
  others := fun m h =>
    have ⟨pools, holding⟩ := a.others m h
    have ⟨pools', holding'⟩ := b.others m h
    ⟨pools'.trans pools, holding'.trans holding⟩

theorem servesPool_assign (s : State) (k : Pool) (p : Port) (e : Entry) :
    ServesPool k s ((s.dropEntry (.holding k) e).assign k p e) where
  sub := by
    rw [holding_assign, holding_dropEntry]
    exact List.erase_sublist
  others := fun m h => ⟨set_pool_other _ _ _ _ h, set_pool_other _ _ _ _ h⟩

theorem servesPool_walk (k : Pool) : ∀ (l : List Entry) (s : State), ServesPool k s (servePoolFrom k l s)
  | [], s => .refl k s
  | e :: rest, s => by
    unfold servePoolFrom
    split
    · exact servesPool_walk k rest s
    · split
      · exact .refl k s
      · exact (servesPool_assign s k _ e).trans (servesPool_walk k rest _)

theorem servesPool (k : Pool) (s : State) : ServesPool k s (s.servePool k) := servesPool_walk k _ s

theorem servePool_form (k : Pool) (s : State) : s.servePool k = { s with
    pools := (s.servePool k).pools, notices := { s.notices with
      queues := (s.servePool k).notices.queues, holding := (s.servePool k).notices.holding } } := by
  obtain ⟨po, q, h, form⟩ := servePoolFrom_shape k s.notices.holding[k] s
  unfold State.servePool
  rw [form]

theorem holding_joinHolding_same (s : State) (k : Pool) (e : Entry) : (s.joinHolding k e).notices.holding[k]
    = insertEntry { e with assigned := none } s.notices.holding[k] := set_pool_same _ _ _

theorem holding_joinHolding_other (s : State) {k m : Pool} (e : Entry) (h : m ≠ k) :
    (s.joinHolding k e).notices.holding[m] = s.notices.holding[m] := set_pool_other _ _ _ _ h

/-- An offer behind held entries joins them and serves the pool (R116, R118). -/
theorem offer_behind_facts {s : State} {k : Pool} {e : Entry} (held : s.notices.holding[k] ≠ [])
    (unmarked : s.marked e = false) :
    (s.offer k e).HasEntries (e :: s.entries)
      ∧ (s.offer k e).notices.holding[k].Sublist (insertEntry { e with assigned := none } s.notices.holding[k])
      ∧ (∀ x ∈ (s.offer k e).notices.holding[k], (s.offer k e).marked x = false →
          ∀ m ∈ (s.offer k e).pools[k], (s.offer k e).accepting m = false)
      ∧ (s.offer k e).pools[k].Perm s.pools[k]
      ∧ (∀ m : Pool, m ≠ k → (s.offer k e).pools[m] = s.pools[m]
          ∧ (s.offer k e).notices.holding[m] = s.notices.holding[m])
      ∧ s.offer k e = { s with pools := (s.offer k e).pools, notices := { s.notices with
          queues := (s.offer k e).notices.queues, holding := (s.offer k e).notices.holding } } := by
  have entries := hasEntries_offer s k e
  rw [offer_behind held unmarked] at entries ⊢
  have serves := servesPool k (s.joinHolding k e)
  have fill : Fill (s.joinHolding k e) ((s.joinHolding k e).servePool k) := fill_servePoolFrom k _ _
  refine ⟨entries, holding_joinHolding_same s k e ▸ serves.sub, fun x hx unmarked => ?_, fill.pools k, fun m h => ?_,
    (servePool_form k _).trans rfl⟩
  · exact servePoolFrom_done k _ _ _ rfl List.filter_sublist.subperm x hx (by rw [← fill.marked x]; exact unmarked)
  · obtain ⟨pools, holding⟩ := serves.others m h
    exact ⟨pools, holding.trans (holding_joinHolding_other s e h)⟩

/-- Settles O27: the order of a queue, the offer to a pool by its cases, the service of a pool entry by entry, and the
end of an event. -/
theorem entriesJoinInOrder : Obligations.EntriesJoinInOrder := by
  refine ⟨⟨fun e l => ⟨insertEntry_perm e l, insertEntry_ordered e l⟩, ?offer⟩, fun s k => ⟨servePool_rests s k, ?assigns,
    fun e held unmarked => ?behind⟩, ?settle⟩
  case offer =>
    rintro s t k e rfl
    refine ⟨accepting_iff s, fun front q back none unmarked split passed accepts => ?_, fun held => ?_,
      offer_behind_facts⟩
    · rw [offer_assigned none unmarked (find_accepting split passed accepts)]
      refine ⟨(set_pool_same _ _ _).trans (erase_member split passed accepts), fun m h => set_pool_other _ _ _ _ h, ?_,
        fun m h => ?_, rfl⟩
      · rw [assign_queues, if_pos rfl]
      · rw [assign_queues, if_neg h]
    · rw [offer_held held]
      exact ⟨holding_joinHolding_same s k e, rfl⟩
  case assigns =>
    intro front e back ahead q behind held passed unmarked members refused accepts
    obtain ⟨served, holding, pools⟩ := servePool_assigns s k held passed unmarked members refused accepts
    have serves := servesPool_assign s k q e
    refine ⟨_, served, holding, pools, fun m h => (serves.others m h).symm, ?_, fun m h => ?_, rfl⟩
    · rw [assign_queues, if_pos rfl]
      rfl
    · rw [assign_queues, if_neg h]
      rfl
  case behind =>
    exact ⟨_, offer_behind held unmarked, holding_joinHolding_same s k e, fun m h => holding_joinHolding_other s e h, rfl⟩
  case settle =>
    rintro s t k e rfl
    obtain ⟨form, lines⟩ := settle_drives s
    refine ⟨⟨s.serveHolding, rfl, form, lines⟩, hasEntries_settle s, settle_served s k e, fun n free => ?_,
      fun none n low => freeNumber_none s _ _ none n (Nat.zero_le n) ?_, fun p n free => ?_,
      fun p none n two => freeNumber_none s _ _ none n ?_ ?_⟩
    · obtain ⟨⟨-, low⟩, unused⟩ := freeNumber_some s _ _ n free
      unfold Config.generalEntries at low
      exact ⟨by omega, unused⟩
    · unfold Config.generalEntries
      omega
    · obtain ⟨⟨low, high⟩, unused⟩ := freeNumber_some s _ _ n free
      unfold Config.generalEntries at low high
      exact ⟨by omega, unused⟩
    · unfold Config.generalEntries
      omega
    · unfold Config.generalEntries
      omega

end Sys2Proof.Machine
end

