-- ==== Sys2Proof/Proofs/Delivery.lean ====
section
/-! The obligation on TAKE (R98 to R100): what the delivery of one entry does, and of several. -/

namespace Sys2Proof.Machine

/-! ### The delivery of one entry (R100) -/

/-- The entry stays with the port that takes it, until it is consumed or given back (R100). -/
def Entry.staysHeld (e : Entry) : Bool := decide (e.kind = .expiry ∧ e.cls = .held ∧ e.slot ≠ none)

section
variable (s : State) (p : Port) {e : Entry} {i : SlotIx}

theorem deliver_unnamed (h : e.kind = .sweepDone ∨ e.slot = none) : s.deliver p e = s.dropEntry (.queued p) e := by
  unfold State.deliver
  rcases h with kind | slot
  · rw [kind]
  · rw [slot]
    cases e.kind <;> rfl

theorem deliver_fault (kind : e.kind = .fault) (slot : e.slot = some i) :
    s.deliver p e = ((s.dropEntry (.queued p) e).setNotice i .clear none).serveBlocked := by
  unfold State.deliver
  rw [kind, slot]

theorem deliver_plain (kind : e.kind = .expiry) (cls : e.cls = .plain) (slot : e.slot = some i) : s.deliver p e
    = (((s.dropEntry (.queued p) e).setNotice i .clear none).dispose i).serveBlocked := by
  unfold State.deliver
  rw [kind, slot, cls]

theorem deliver_held (kind : e.kind = .expiry) (cls : e.cls = .held) (slot : e.slot = some i) : s.deliver p e
    = ((s.dropEntry (.queued p) e).modifyOutstanding p (· ++ [e.delivered])).setNotice i .outstanding (some p) := by
  unfold State.deliver
  rw [kind, slot, cls]

end

/-- A delivery, by what it does with its entry: it frees it, frees it for the record it names, frees it and may retire
the record, or keeps it with the port (the table of R100). -/
theorem deliver_cases (s : State) (p : Port) (e : Entry) :
    (e.staysHeld = false ∧ s.deliver p e = s.dropEntry (.queued p) e ∧ (e.kind = .sweepDone ∨ e.slot = none))
    ∨ (∃ i, e.slot = some i ∧ e.staysHeld = false ∧ e.kind = .fault
        ∧ s.deliver p e = ((s.dropEntry (.queued p) e).setNotice i .clear none).serveBlocked)
    ∨ (∃ i, e.slot = some i ∧ e.staysHeld = false ∧ e.kind = .expiry ∧ e.cls = .plain
        ∧ s.deliver p e = (((s.dropEntry (.queued p) e).setNotice i .clear none).dispose i).serveBlocked)
    ∨ ∃ i, e.slot = some i ∧ e.staysHeld = true
        ∧ s.deliver p e = ((s.dropEntry (.queued p) e).modifyOutstanding p (· ++ [e.delivered])).setNotice i
          .outstanding (some p) := by
  unfold Entry.staysHeld
  cases slot : e.slot with
  | none => exact .inl ⟨by simp, deliver_unnamed s p (.inr slot), .inr rfl⟩
  | some i =>
    cases kind : e.kind with
    | sweepDone => exact .inl ⟨by simp, deliver_unnamed s p (.inl kind), .inl rfl⟩
    | fault => exact .inr (.inl ⟨i, rfl, by simp, rfl, deliver_fault s p kind slot⟩)
    | expiry =>
      cases cls : e.cls with
      | plain => exact .inr (.inr (.inl ⟨i, rfl, by simp, rfl, rfl, deliver_plain s p kind cls slot⟩))
      | held => exact .inr (.inr (.inr ⟨i, rfl, by simp, deliver_held s p kind cls slot⟩))

theorem dispose_notices (s : State) (i : SlotIx) : (s.dispose i).notices = s.notices := by
  unfold State.dispose
  dsimp only
  split
  · exact freeSlot_notices s i
  · rfl

theorem only_freeSlot (s : State) (i : SlotIx) : s.SameBut (s.freeSlot i) i := fun j ne =>
  (State.record_setRecord_other _ i j _ ne).trans (dropOwned_record s (s.record i).owner i j)

theorem only_dispose (s : State) (i : SlotIx) : s.SameBut (s.dispose i) i := by
  unfold State.dispose
  dsimp only
  split
  · exact only_freeSlot s i
  · exact fun _ _ => rfl

/-- With no record waiting for an entry a delivery moves its own entry alone. -/
theorem deliver_notices {s : State} (idle : s.notices.blocked = []) (p : Port) (e : Entry) :
    (s.deliver p e).notices = if e.staysHeld = true
      then ((s.dropEntry (.queued p) e).modifyOutstanding p (· ++ [e.delivered])).notices
      else (s.dropEntry (.queued p) e).notices := by
  rcases deliver_cases s p e with ⟨freed, form, -⟩ | ⟨i, -, freed, -, form⟩ | ⟨i, -, freed, -, -, form⟩ | ⟨i, -, held, form⟩
  · rw [form, if_neg (by simp [freed])]
  · have served := serveBlocked_nil ((s.dropEntry (.queued p) e).setNotice i .clear none) idle
    rw [form, if_neg (by simp [freed]), served]
    rfl
  · have notices := dispose_notices ((s.dropEntry (.queued p) e).setNotice i .clear none) i
    rw [form, if_neg (by simp [freed]), serveBlocked_nil _ (by rw [notices]; exact idle), notices]
    rfl
  · rw [form, if_pos held]
    rfl

/-- The records that a delivery leaves alone: those that its entry does not name and that do not wait for one. -/
theorem deliver_keeps {s : State} {p : Port} {e : Entry} {i : SlotIx} (unblocked : ∀ b ∈ s.notices.blocked, b.slot ≠ i) :
    (∀ b ∈ (s.deliver p e).notices.blocked, b.slot ≠ i)
      ∧ (e.slot ≠ some i → (s.deliver p e).record i = s.record i) := by
  have dropped := moved_dropEntry s (.queued p) e
  have left : ∀ b ∈ (s.dropEntry (.queued p) e).notices.blocked, b.slot ≠ i := by rw [dropped.blocked]; exact unblocked
  have disposed : ∀ j, ∀ b ∈ (((s.dropEntry (.queued p) e).setNotice j .clear none).dispose j).notices.blocked,
      b.slot ≠ i := fun j => by rw [dispose_notices]; exact left
  rcases deliver_cases s p e with ⟨-, form, -⟩ | ⟨j, slot, -, -, form⟩ | ⟨j, slot, -, -, -, form⟩ | ⟨j, slot, -, form⟩
  · rw [form]
    exact ⟨left, fun _ => dropped.record i⟩
  · rw [form]
    refine ⟨serveBlocked_blocked _ i left, fun other => ?_⟩
    have ne : i ≠ j := fun h => other (by rw [slot, h])
    have served := serveBlocked_record ((s.dropEntry (.queued p) e).setNotice j .clear none) i left
    exact served.trans ((only_modify _ j _ i ne).trans (dropped.record i))
  · rw [form]
    refine ⟨serveBlocked_blocked _ i (disposed j), fun other => ?_⟩
    have ne : i ≠ j := fun h => other (by rw [slot, h])
    have alone : (s.dropEntry (.queued p) e).SameBut
        (((s.dropEntry (.queued p) e).setNotice j .clear none).dispose j) j :=
      (only_modify _ j _).trans (only_dispose _ j)
    rw [serveBlocked_record _ i (disposed j), alone i ne, dropped.record]
  · rw [form]
    refine ⟨left, fun other => ?_⟩
    have ne : i ≠ j := fun h => other (by rw [slot, h])
    exact (only_modify _ j _ i ne).trans (dropped.record i)

/-! ### The delivery of several entries -/

theorem deliveries_keep (p : Port) {i : SlotIx} : ∀ (es : List Entry) (s : State),
    (∀ b ∈ s.notices.blocked, b.slot ≠ i) → (∀ b ∈ (es.foldl (State.deliver p) s).notices.blocked, b.slot ≠ i)
      ∧ ((∀ e ∈ es, e.slot ≠ some i) → (es.foldl (State.deliver p) s).record i = s.record i)
  | [], _, unblocked => ⟨unblocked, fun _ => rfl⟩
  | e :: es, s, unblocked => by
    obtain ⟨still, same⟩ := deliver_keeps (p := p) (e := e) unblocked
    obtain ⟨after, kept⟩ := deliveries_keep p es (s.deliver p e) still
    rw [List.foldl_cons]
    refine ⟨after, fun others => ?_⟩
    rw [kept fun x hx => others x (List.mem_cons_of_mem _ hx), same (others e (List.mem_cons_self ..))]

theorem entries_modifyOutstanding (s : State) (p : Port) (x : Entry) :
    (s.modifyOutstanding p (· ++ [x])).entries.Perm (x :: s.entries) := by
  have gain := vector_gain s.notices.outstanding p.val p.isLt (y := s.notices.outstanding[p] ++ [x]) (a := x)
    (List.perm_append_singleton x _)
  have joined := ((gain.append_left s.notices.queues.toList.flatten).trans List.perm_middle).append_right
    s.notices.holding.toList.flatten
  exact joined

/-- The entries after deliveries, with no record waiting for one: those delivered are gone, and those that stay with the
port are back with their counts raised. -/
theorem deliveries_entries (p : Port) : ∀ (es : List Entry) (s : State) (rest : List Entry),
    s.notices.blocked = [] → es.Subperm s.notices.queues[p] → s.entries.Perm (es ++ rest) →
    (es.foldl (State.deliver p) s).entries.Perm (rest ++ (es.filter Entry.staysHeld).map Entry.delivered)
  | [], s, rest, _, _, perm => by simpa using perm
  | e :: es, s, rest, idle, sub, perm => by
    have mem : e ∈ s.notices.queues[p] := sub.subset (List.mem_cons_self ..)
    have dropped : (s.dropEntry (.queued p) e).entries.Perm (es ++ rest) :=
      ((entries_dropEntry s (.queued p) e mem).trans perm).cons_inv
    have notices := deliver_notices idle p e
    have queue : (s.deliver p e).notices.queues[p] = s.notices.queues[p].erase e := by
      have same : (s.deliver p e).notices.queues = (s.dropEntry (.queued p) e).notices.queues := by
        rw [notices]
        split <;> rfl
      rw [same]
      exact set_port_same _ _ _
    have blocked : (s.deliver p e).notices.blocked = [] := by
      rw [notices]
      split <;> exact idle
    have left : es.Subperm (s.deliver p e).notices.queues[p] := by
      have := sub.erase e
      rwa [List.erase_cons_head, ← queue] at this
    rw [List.foldl_cons]
    by_cases held : e.staysHeld = true
    · rw [if_pos held] at notices
      have entries : (s.deliver p e).entries.Perm (es ++ (e.delivered :: rest)) := by
        have same : (s.deliver p e).entries
            = ((s.dropEntry (.queued p) e).modifyOutstanding p (· ++ [e.delivered])).entries :=
          entries_congr (by rw [notices]) (by rw [notices]) (by rw [notices])
        rw [same]
        exact ((entries_modifyOutstanding _ p _).trans (dropped.cons _)).trans List.perm_middle.symm
      have after := deliveries_entries p es (s.deliver p e) _ blocked left entries
      rw [List.filter_cons_of_pos held, List.map_cons]
      exact after.trans List.perm_middle.symm
    · rw [if_neg held] at notices
      have entries : (s.deliver p e).entries.Perm (es ++ rest) := by
        have same : (s.deliver p e).entries = (s.dropEntry (.queued p) e).entries :=
          entries_congr (by rw [notices]) (by rw [notices]) (by rw [notices])
        rw [same]
        exact dropped
      rw [List.filter_cons_of_neg held]
      exact deliveries_entries p es (s.deliver p e) _ blocked left entries

/-! ### The record that one delivered entry names (R19, R100) -/

/-- Of several delivered entries the one that names a record is delivered on a state that has its record as before, and
those behind it leave what it did. -/
theorem deliveries_one (p : Port) {i : SlotIx} {es : List Entry} {e : Entry} {s : State}
    (unblocked : ∀ b ∈ s.notices.blocked, b.slot ≠ i) (one : es.filter (fun x => decide (x.slot = some i)) = [e]) :
    e.slot = some i ∧ ∃ u : State, u.record i = s.record i ∧ (∀ b ∈ u.notices.blocked, b.slot ≠ i)
      ∧ (es.foldl (State.deliver p) s).record i = (u.deliver p e).record i := by
  have names : e.slot = some i := by
    have mem : e ∈ es.filter (fun x => decide (x.slot = some i)) := by rw [one]; exact List.mem_singleton_self e
    exact of_decide_eq_true (List.mem_filter.mp mem).2
  obtain ⟨front, back, rfl, ahead, -, behind⟩ := List.filter_eq_cons_iff.mp one
  rw [List.filter_eq_nil_iff] at behind
  obtain ⟨still, same⟩ := deliveries_keep p (i := i) front s unblocked
  obtain ⟨after, -⟩ := deliver_keeps (p := p) (e := e) still
  obtain ⟨-, kept⟩ := deliveries_keep p back _ after
  refine ⟨names, _, same fun x hx => by simpa using ahead x hx, still, ?_⟩
  rw [List.foldl_append, List.foldl_cons]
  exact kept fun x hx => by simpa using behind x hx

section
variable {s : State} {p : Port} {e : Entry} {i : SlotIx} (slot : e.slot = some i)
  (unblocked : ∀ b ∈ s.notices.blocked, b.slot ≠ i)
include slot

theorem deliver_held_record (kind : e.kind = .expiry) (cls : e.cls = .held) :
    (s.deliver p e).record i = { s.record i with notice := .outstanding, holder := some p } := by
  rw [deliver_held s p kind cls slot]
  exact State.record_modify_self ..

include unblocked

theorem deliver_fault_record (kind : e.kind = .fault) :
    (s.deliver p e).record i = { s.record i with notice := .clear, holder := none } := by
  have served := serveBlocked_record ((s.dropEntry (.queued p) e).setNotice i .clear none) i unblocked
  rw [deliver_fault s p kind slot, served]
  exact State.record_modify_self ..

theorem deliver_plain_record (kind : e.kind = .expiry) (cls : e.cls = .plain) : (s.deliver p e).record i
    = (((s.dropEntry (.queued p) e).setNotice i .clear none).dispose i).record i := by
  rw [deliver_plain s p kind cls slot]
  exact serveBlocked_record _ i (by rw [dispose_notices]; exact unblocked)

end

/-- The disposal test, by its outcome (R19). -/
theorem dispose_record (s : State) (i : SlotIx) : (s.dispose i).record i
    = if (s.record i).disposal = .closeAfter ∧ (s.record i).sched = .idle ∧ (s.record i).period = none
      then { Record.blank with
        generation := if (s.record i).fault = some .identity then 0 else (s.record i).generation + 1 }
      else s.record i := by
  unfold State.dispose
  dsimp only
  split
  · exact freeSlot_record s i
  · rfl

/-! ### TAKE (R99) -/

/-- The response of a TAKE carries what it delivered (R179). -/
theorem exec_take_asks {s : State} {p : Port} {pl : List Octet} {n : Nat} (asks : s.Asks p pl)
    (code : requestOf pl = some .take) (parsed : parseTake pl = some n) {s1 t : State} {es : List Entry}
    (read : s1 = s.readSlots (s.queuedSlots p)) (taken : es = s1.takeable p n s.notices.queues[p])
    (after : t = s1.deliverAll p es (decide (s1.notices ≠ s.notices))) :
    exec (.take p) s = .next (t.accept p (takeBody es (t.more p))) := by
  subst after taken read
  rw [exec_take, execTake, applying_asks _ asks code, parsed]

section
variable {s : State} {p : Port} {es : List Entry} {damaged : Bool}

theorem deliverAll_rests (s : State) (p : Port) : s.deliverAll p [] false = s.driveLines := rfl

/-- The end of a TAKE's event serves the holding queues when room appeared (R118). -/
theorem deliverAll_served (room : (∃ e ∈ es, e.cls = .plain) ∨ damaged = true) :
    (s.deliverAll p es damaged).PoolsServed := by
  have served : (es.any Entry.freedByTake || damaged) = true := by
    rcases room with ⟨e, mem, plain⟩ | rfl
    · rw [List.any_eq_true.mpr ⟨e, mem, decide_eq_true plain⟩, Bool.true_or]
    · exact Bool.or_true _
  unfold State.deliverAll
  rw [if_pos served]
  exact settle_served _

/-- The end of a TAKE's event leaves the outstanding sets, the records and the entries as the deliveries do, and takes
nothing out of a queue. -/
theorem deliverAll_end (s : State) (p : Port) (es : List Entry) (damaged : Bool) :
    (s.deliverAll p es damaged).notices.outstanding = (es.foldl (State.deliver p) s).notices.outstanding
      ∧ QueuesGrow (es.foldl (State.deliver p) s) (s.deliverAll p es damaged)
      ∧ (s.deliverAll p es damaged).HasEntries (es.foldl (State.deliver p) s).entries
      ∧ ∀ i, (s.deliverAll p es damaged).record i = (es.foldl (State.deliver p) s).record i := by
  unfold State.deliverAll
  generalize es.foldl (State.deliver p) s = u
  dsimp only
  split
  · exact ⟨(outs_settle u).out, grow_settle u, hasEntries_settle u, settle_record u⟩
  · obtain ⟨ls, lines⟩ := driveLines_eq u
    exact ⟨by rw [driveLines_notices], grow_driveLines u, hasEntries_driveLines u, fun i => by rw [lines]; rfl⟩

end

/-- What a TAKE delivers stood in the queue. -/
theorem takeable_sublist (s : State) (p : Port) (n : Nat) (before : List Entry) :
    (s.takeable p n before).Sublist s.notices.queues[p] := (List.take_sublist _ _).trans List.filter_sublist

theorem queue_subperm_entries (s : State) (p : Port) : s.notices.queues[p].Subperm s.entries := by
  have mem : s.notices.queues[p] ∈ s.notices.queues.toList := by simp
  unfold State.entries
  rw [List.append_assoc]
  exact (List.sublist_flatten_of_mem mem).subperm.trans (List.sublist_append_left _ _).subperm

/-- Settles O29: the deliveries in queue order, one entry after another (R100), and the end of the event (R118). -/
theorem takeDelivers : Obligations.TakeDelivers := by
  rintro s s1 p pl n es kept asks code parsed read taken rfl
  have confined : Confined s s1 := by
    rw [read]
    exact confined_readSlots s _
  obtain ⟨v, after⟩ : ∃ v, v = s1.deliverAll p es (decide (s1.notices ≠ s.notices)) := ⟨_, rfl⟩
  have delivers := confined_deliverAll s1 p es (decide (s1.notices ≠ s.notices))
  obtain ⟨outstanding, grow, entries, records⟩ := deliverAll_end s1 p es (decide (s1.notices ≠ s.notices))
  obtain ⟨out, others, queued⟩ := deliverAll_outs p es s1
  rw [← after] at delivers outstanding grow entries records
  have answered := (confined.trans delivers).answered asks (takeBody es (v.more p))
  refine ⟨_, exec_take_asks asks code parsed read taken after, ?answer, ?apart, fun empty same => ?rests,
    fun room => accept_served ?served p _, ?outstanding, fun q other => ?others, fun q e mem stays => ?queued,
    fun idle => ?entries, fun i free unnamed => ?frame, fun e i r one same free => ?one⟩
  case answer =>
    have more : octet (v.more p).toNat
        = if v.notices.queues[p].any (fun e => !v.marked e) = true then 1 else 0 := by
      unfold State.more State.deliverable
      cases v.notices.queues[p].any _ <;> rfl
    unfold takeBody at answered ⊢
    simp only [State.accept_notices, accept_marked]
    rw [more] at answered ⊢
    exact answered
  case apart =>
    rw [State.Apart, State.accept_timeBase, State.accept_sweeps, State.accept_portTable]
    exact ⟨delivers.timeBase, delivers.sweeps, delivers.portTable⟩
  case rests =>
    obtain ⟨ls, lines⟩ := driveLines_eq s1
    subst empty
    rw [decide_eq_false (fun h => h same), deliverAll_rests] at after
    exact (accept_form p _ (after.trans lines)).trans rfl
  case served =>
    rw [after]
    exact deliverAll_served (room.imp id decide_eq_true)
  case outstanding =>
    rw [State.accept_notices, outstanding]
    exact out
  case others =>
    rw [State.accept_notices, outstanding]
    exact others q other
  case queued =>
    rw [State.accept_notices]
    exact grow q e (queued q e mem stays)
  case entries =>
    have sub : es.Subperm s1.notices.queues[p] := by
      rw [taken]
      exact (takeable_sublist s1 p n _).subperm
    have split : s1.entries.Perm (es ++ s1.entries.diff es) :=
      (List.subperm_append_diff_self_of_count_le
        (List.subperm_ext_iff.mp (sub.trans (queue_subperm_entries s1 p)))).symm
    have delivered := deliveries_entries p es s1 _ idle sub split
    exact ((State.HasEntries.of_perm delivered).trans entries).accept p _
  case frame =>
    rw [State.accept_record, records]
    exact (deliveries_keep p es s1 free).2 unnamed
  case one =>
    obtain ⟨slot, u, unchanged, still, delivered⟩ := deliveries_one p free one
    rw [State.accept_record, records, delivered, same, ← unchanged]
    refine ⟨deliver_held_record slot, deliver_fault_record slot still, fun kind cls => ?_⟩
    have cleared : ((u.dropEntry (.queued p) e).setNotice i .clear none).record i
        = { u.record i with notice := .clear, holder := none } := State.record_modify_self ..
    rw [deliver_plain_record slot still kind cls, dispose_record, cleared]
    refine ⟨fun stays => if_neg stays, fun disposal idle period sound => ?_⟩
    rw [if_pos ⟨disposal, idle, period⟩]
    dsimp only
    rw [sound, if_neg (by decide)]

end Sys2Proof.Machine
end

