-- ==== Sys2Proof/Proofs/Consume.lean ====
section
/-! The obligations on ACK and RELEASE (R103 to R108, R120). -/

namespace Sys2Proof.Machine

/-! ### The checks of a request on an OUTSTANDING notice (Table 6-4) -/

/-- A record that its handle names passes the checks that ACK and RELEASE share with other requests (Table 10-5). -/
theorem Record.refusal_passes {r : Record} {p : Port} {h : Handle} {a : Bool} (live : r.sched ≠ .free)
    (known : r.fault = some .identity ∨ r.generation = h.generation) (unmarked : r.mark = none)
    (sound : a = true → r.sched ≠ .damaged) : r.refusal p h a false = none := by
  unfold Record.refusal
  rw [Record.not_stale live known]
  simp only [unmarked, Bool.false_eq_true, if_false, Option.isSome_none, Bool.false_and, ite_eq_right_iff, Bool.and_eq_true,
    decide_eq_true_eq, reduceCtorEq, imp_false, not_and]
  exact fun h => sound h

theorem Record.holderRefusal_state {r : Record} {p : Port} (h : r.notice ≠ .outstanding) :
    r.holderRefusal p = some .state := if_neg h

theorem Record.holderRefusal_notHolder {r : Record} {p : Port} (out : r.notice = .outstanding)
    (other : r.holder ≠ some p) : r.holderRefusal p = some .notHolder := by
  unfold Record.holderRefusal
  rw [if_pos out, if_neg other]

theorem Record.holderRefusal_holder {r : Record} {p : Port} (out : r.notice = .outstanding)
    (holder : r.holder = some p) : r.holderRefusal p = none := by
  unfold Record.holderRefusal
  rw [if_pos out, if_pos holder]

/-! ### ACK (R104) -/

section
variable {s : State} {p : Port} {pl : List Octet} {h : Handle} {rearm : Option Interval} {r : Record}

variable (asks : s.Asks p pl) (code : requestOf pl = some .ack) (parsed : parseAck pl = some (h, rearm))
  (passes : ((s.readSlot h.slot).record h.slot).refusal p h false false = none)
include asks code parsed passes

theorem exec_ack_refused {result : Result} (refused : (((s.readSlot h.slot).record h.slot).holderRefusal p).or
    ((s.readSlot h.slot).rearmRefusal rearm) = some result) :
    exec (.ack p) s = .next ((s.checkedRead h.slot).refuse p result) := by
  rw [exec_ack, execAck, applying_asks _ asks code, parsed]
  dsimp only
  rw [onRecord_passes _ (by rw [checkedRead_record]; exact passes), checkedRead_record]
  rw [refused]
  rfl

theorem exec_ack_accepted (accepted : (((s.readSlot h.slot).record h.slot).holderRefusal p).or
    ((s.readSlot h.slot).rearmRefusal rearm) = none) :
    exec (.ack p) s = .next (((s.readSlot h.slot).acknowledge p h.slot rearm).accept p
      [((s.readSlot h.slot).record h.slot).states,
        octet (((s.readSlot h.slot).record h.slot).rearms rearm).toNat]) := by
  rw [exec_ack, execAck, applying_asks _ asks code, parsed]
  dsimp only
  rw [onRecord_passes _ (by rw [checkedRead_record]; exact passes), checkedRead_record]
  rw [accepted]

end

/-- LIST-FAILED, then RANGE, of a rearm interval (Table 6-4). -/
theorem rearmRefusal_some (s : State) (n : Interval) :
    (s.expiry.listState = .failed → s.rearmRefusal (some n) = some .listFailed)
    ∧ (s.expiry.listState ≠ .failed → Config.timeMax < s.now + n.toNat → s.rearmRefusal (some n) = some .range)
    ∧ (s.expiry.listState ≠ .failed → s.now + n.toNat ≤ Config.timeMax → s.rearmRefusal (some n) = none) :=
  ⟨fun failed => if_pos failed, fun sound far => (if_neg sound).trans (if_pos far),
    fun sound near => (if_neg sound).trans (if_neg (Nat.not_lt.mpr near))⟩

theorem Record.rearms_iff (r : Record) (rearm : Option Interval) :
    r.rearms rearm = true ↔ rearm ≠ none ∧ r.sched = .idle ∧ r.period = none := by
  unfold Record.rearms
  rw [Bool.and_eq_true, Bool.and_eq_true, decide_eq_true_eq, Option.isSome_iff_ne_none, Option.isNone_iff_eq_none,
    and_assoc]

theorem octet_rearms (r : Record) (rearm : Option Interval) : octet (r.rearms rearm).toNat
    = if rearm ≠ none ∧ r.sched = .idle ∧ r.period = none then 1 else 0 := by
  by_cases h : r.rearms rearm = true
  · rw [if_pos ((r.rearms_iff rearm).mp h), h]
    rfl
  · rw [if_neg fun c => h ((r.rearms_iff rearm).mpr c), Bool.eq_false_iff.mpr h]
    rfl

section
variable {s : State} {p : Port} {i : SlotIx} {e : Entry}
  (found : s.notices.outstanding[p].find? (fun x => decide (x.slot = some i)) = some e)
include found

theorem consume_form : s.consume p i = (s.dropEntry (.outstanding p) e).setNotice i .clear none := by
  have named : s.notices.outstanding[p].find? (·.names i) = some e := found
  unfold State.consume
  rw [named]

theorem consume_record : (s.consume p i).record i = { s.record i with notice := .clear, holder := none } := by
  rw [consume_form found]
  exact State.record_modify_self ..

theorem consume_outstanding : (s.consume p i).notices.outstanding[p] = s.notices.outstanding[p].erase e
    ∧ ∀ q : Port, q ≠ p → (s.consume p i).notices.outstanding[q] = s.notices.outstanding[q] := by
  rw [consume_form found]
  exact ⟨set_port_same _ _ _, fun q other => set_port_other _ _ _ _ other⟩

theorem consume_entries : (s.consume p i).HasEntries (s.entries.erase e) := by
  rw [consume_form found]
  exact hasEntries_dropEntry s (.outstanding p) e (List.mem_of_find?_eq_some found)

theorem consume_blocked : (s.consume p i).notices.blocked = s.notices.blocked := by
  rw [consume_form found]
  rfl

theorem consume_placement : (s.consume p i).placement = s.placement := by
  rw [consume_form found]
  rfl

end

theorem rearmOrDispose_notices (s : State) (i : SlotIx) (rearm : Option Interval) :
    (s.rearmOrDispose i rearm).notices = s.notices := by
  unfold State.rearmOrDispose
  split
  · rfl
  · exact dispose_notices s i

theorem rearmOrDispose_rearms {s : State} {i : SlotIx} {n : Interval} (idle : (s.record i).sched = .idle)
    (oneShot : (s.record i).period = none) :
    (s.rearmOrDispose i (some n)).record i = { s.record i with
      deadline := some (BitVec.ofNat 56 (s.now + n.toNat)), remaining := none, sched := .queued }
    ∧ (s.rearmOrDispose i (some n)).placement = { s.placement with queue := s.placement.queue ++ [i] } := by
  unfold State.rearmOrDispose
  rw [if_pos (((s.record i).rearms_iff _).mpr ⟨by simp, idle, oneShot⟩), enqueue_record]
  refine ⟨?_, rfl⟩
  unfold State.setDeadline
  rw [State.record_modify_self]
  rfl

theorem rearmOrDispose_keeps {s : State} {i : SlotIx} {rearm : Option Interval} (stays : (s.record i).sched ≠ .idle
    ∨ (s.record i).period ≠ none ∨ (rearm = none ∧ (s.record i).disposal = .keep)) : s.rearmOrDispose i rearm = s := by
  have unarmed : ¬ (s.record i).rearms rearm = true := by
    rw [Record.rearms_iff]
    rintro ⟨given, idle, oneShot⟩
    rcases stays with h | h | ⟨h, -⟩
    · exact h idle
    · exact h oneShot
    · exact given h
  have kept : ¬ ((s.record i).disposal = .closeAfter ∧ (s.record i).sched = .idle ∧ (s.record i).period = none) := by
    rintro ⟨close, idle, oneShot⟩
    rcases stays with h | h | ⟨-, h⟩
    · exact h idle
    · exact h oneShot
    · rw [h] at close
      cases close
  unfold State.rearmOrDispose
  rw [if_neg unarmed]
  exact if_neg kept

theorem rearmOrDispose_disposes (s : State) (i : SlotIx) : s.rearmOrDispose i none = s.dispose i := by
  unfold State.rearmOrDispose
  rw [if_neg]
  rw [Record.rearms_iff]
  exact fun h => h.1 rfl

section
variable {s : State} {p : Port} {i : SlotIx} {rearm : Option Interval}

theorem acknowledge_undamaged (undamaged : (s.record i).sched ≠ .damaged) : s.acknowledge p i rearm
    = (((s.consume p i).rearmOrDispose i rearm).serveBlocked).settle := by
  unfold State.acknowledge
  dsimp only
  rw [if_neg undamaged]

theorem acknowledge_damaged (damaged : (s.record i).sched = .damaged) : s.acknowledge p i rearm
    = ((s.consume p i).serveBlocked.raiseFault i).settle := by
  unfold State.acknowledge
  dsimp only
  rw [if_pos damaged]

theorem acknowledge_served : (s.acknowledge p i rearm).PoolsServed := by
  unfold State.acknowledge
  exact settle_served _

theorem acknowledge_outs : Outs (s.consume p i) (s.acknowledge p i rearm) := by
  by_cases damaged : (s.record i).sched = .damaged
  · rw [acknowledge_damaged damaged]
    exact ((outs_serveBlocked _).trans (outs_raiseFault _ i)).trans (outs_settle _)
  · rw [acknowledge_undamaged damaged]
    have notices := rearmOrDispose_notices (s.consume p i) i rearm
    exact ((Outs.of_notices (by rw [notices]) (by rw [notices])).trans (outs_serveBlocked _)).trans (outs_settle _)

variable {e : Entry} (found : s.notices.outstanding[p].find? (fun x => decide (x.slot = some i)) = some e)
include found

theorem acknowledge_record (undamaged : (s.record i).sched ≠ .damaged)
    (unblocked : ∀ b ∈ s.notices.blocked, b.slot ≠ i) :
    (s.acknowledge p i rearm).record i = ((s.consume p i).rearmOrDispose i rearm).record i := by
  rw [acknowledge_undamaged undamaged, settle_record, serveBlocked_record _ i]
  rw [rearmOrDispose_notices, consume_blocked found]
  exact unblocked

theorem acknowledge_alone (undamaged : (s.record i).sched ≠ .damaged) (idle : s.notices.blocked = []) :
    s.acknowledge p i rearm = ((s.consume p i).rearmOrDispose i rearm).settle := by
  rw [acknowledge_undamaged undamaged, serveBlocked_nil]
  rw [rearmOrDispose_notices, consume_blocked found, idle]

theorem acknowledge_placement (undamaged : (s.record i).sched ≠ .damaged) (idle : s.notices.blocked = []) :
    (s.acknowledge p i rearm).placement = ((s.consume p i).rearmOrDispose i rearm).placement := by
  rw [acknowledge_alone found undamaged idle]
  exact (moved_settle _).placement

theorem acknowledge_entries (undamaged : (s.record i).sched ≠ .damaged) (idle : s.notices.blocked = []) :
    (s.acknowledge p i rearm).HasEntries (s.entries.erase e) := by
  have notices := rearmOrDispose_notices (s.consume p i) i rearm
  rw [acknowledge_alone found undamaged idle]
  exact ((consume_entries found).trans (hasEntries_congr (by rw [notices]) (by rw [notices]) (by rw [notices]))).trans
    (hasEntries_settle _)

/-- The FAULT notice of a DAMAGED record is raised when its OUTSTANDING notice is consumed (R106). -/
theorem acknowledge_faults (damaged : (s.record i).sched = .damaged) (unblocked : ∀ b ∈ s.notices.blocked, b.slot ≠ i) :
    (s.isUp (s.faultPort (s.record i)) = false → (s.acknowledge p i rearm).record i
        = { s.record i with notice := .clear, holder := none, overrun := saturate8 (s.record i).overrun 1 })
    ∧ (s.isUp (s.faultPort (s.record i)) = true → ((s.acknowledge p i rearm).record i).notice = .pending
        ∨ ((s.acknowledge p i rearm).record i).notice = .waiting) := by
  have record : (s.consume p i).serveBlocked.record i = { s.record i with notice := .clear, holder := none } := by
    rw [serveBlocked_record _ i (by rw [consume_blocked found]; exact unblocked), consume_record found]
  have confined := (confined_consume s p i).trans (confined_serveBlocked _)
  have port : (s.consume p i).serveBlocked.faultPort ((s.consume p i).serveBlocked.record i)
      = s.faultPort (s.record i) := by
    rw [record]
    unfold State.faultPort
    rw [confined.portTable]
  obtain ⟨lost, waits, created⟩ := raiseFault_facts port
  rw [confined.isUp, record] at lost waits created
  rw [acknowledge_damaged damaged, settle_record]
  refine ⟨fun down => lost down, fun up => ?_⟩
  cases free : (s.consume p i).serveBlocked.freeGeneral with
  | none => exact .inr (congrArg Record.notice (waits up free).1)
  | some n => exact .inl (congrArg Record.notice (created n up free).1)

end

/-- Settles O31: the refusals in their order, then the consumption of the notice, the rearm or the disposal, and the end
of the event. -/
theorem ackConsumesNotice : Obligations.AckConsumesNotice := by
  rintro s s1 p pl h rearm r asks code parsed rfl rfl live known unmarked
  have passes := Record.refusal_passes (p := p) (a := false) live known unmarked (fun h => by cases h)
  have confined := confined_readSlot s h.slot
  refine ⟨fun other => exec_ack_refused asks code parsed passes (by rw [Record.holderRefusal_state other]; rfl),
    fun out other => exec_ack_refused asks code parsed passes (by rw [Record.holderRefusal_notHolder out other]; rfl),
    fun out holder => ?_⟩
  have held := Record.holderRefusal_holder out holder
  refine ⟨fun n given => ?_, fun e applies found unblocked => ?_⟩
  · obtain ⟨failed, far, -⟩ := rearmRefusal_some (s.readSlot h.slot) n
    rw [confined.now] at far
    subst given
    exact ⟨fun unlisted => exec_ack_refused asks code parsed passes (by rw [held]; exact failed unlisted),
      fun sound range => exec_ack_refused asks code parsed passes (by rw [held]; exact far sound range)⟩
  · have accepted : (((s.readSlot h.slot).record h.slot).holderRefusal p).or
        ((s.readSlot h.slot).rearmRefusal rearm) = none := by
      rw [held]
      cases rearm with
      | none => rfl
      | some n =>
        obtain ⟨sound, near⟩ := applies n rfl
        exact (rearmRefusal_some _ n).2.2 sound (by rw [confined.now]; exact near)
    have acknowledges := confined_acknowledge (s.readSlot h.slot) p h.slot rearm
    have answered := (confined.trans acknowledges).answered asks
      [((s.readSlot h.slot).record h.slot).states, octet (((s.readSlot h.slot).record h.slot).rearms rearm).toNat]
    obtain ⟨erased, others⟩ := consume_outstanding found
    have out' := (acknowledge_outs (s := s.readSlot h.slot) (p := p) (i := h.slot) (rearm := rearm)).out
    have after := consume_record found
    refine ⟨_, exec_ack_accepted asks code parsed passes accepted, ?answer, ?apart, ?frame,
      accept_served acknowledge_served p _, ?erased, fun q other => ?others, fun idle undamaged => ?entries,
      fun n given idle oneShot => ?rearmed, fun given idle oneShot disposal sound => ?retired,
      fun undamaged stays => ?kept, fun damaged down => ?lost, fun damaged up => ?raised⟩
    case answer =>
      rw [Record.states, out, octet_rearms] at answered
      rw [Record.states, out, octet_rearms]
      exact answered
    case apart =>
      rw [State.Apart, State.accept_timeBase, State.accept_sweeps, State.accept_portTable]
      exact ⟨acknowledges.timeBase, acknowledges.sweeps, acknowledges.portTable⟩
    case frame =>
      intro j ne free
      rw [State.accept_record]
      exact (near_acknowledge _ p h.slot rearm).records j ne free
    case erased =>
      rw [State.accept_notices, out']
      exact erased
    case others =>
      rw [State.accept_notices, out']
      exact others q other
    case entries => exact (acknowledge_entries found undamaged idle).accept p _
    case rearmed =>
      subst given
      have undamaged : ((s.readSlot h.slot).record h.slot).sched ≠ .damaged := by rw [idle]; decide
      have now : ((s.readSlot h.slot).consume p h.slot).now = s.timeBase.now.toNat :=
        (confined_consume _ p h.slot).now.trans confined.now
      obtain ⟨record, placement⟩ := rearmOrDispose_rearms (n := n)
        (s := (s.readSlot h.slot).consume p h.slot) (i := h.slot) (by rw [after]; exact idle) (by rw [after]; exact oneShot)
      rw [after, now] at record
      refine ⟨_, tick_toNat_of_le (applies n rfl).2, ?_, fun none => ?_⟩
      · rw [State.accept_record, acknowledge_record found undamaged unblocked, record]
      · rw [State.accept_placement, acknowledge_placement found undamaged none, placement, consume_placement found]
    case retired =>
      subst given
      have undamaged : ((s.readSlot h.slot).record h.slot).sched ≠ .damaged := by rw [idle]; decide
      rw [State.accept_record, acknowledge_record found undamaged unblocked, rearmOrDispose_disposes, dispose_record,
        after, if_pos ⟨disposal, idle, oneShot⟩]
      dsimp only
      rw [sound, if_neg (by decide)]
    case kept =>
      have rests := rearmOrDispose_keeps (s := (s.readSlot h.slot).consume p h.slot) (i := h.slot) (rearm := rearm)
        (by rw [after]; exact stays)
      refine ⟨?_, fun none => ?_⟩
      · rw [State.accept_record, acknowledge_record found undamaged unblocked, rests, after]
      · rw [State.accept_placement, acknowledge_placement found undamaged none, rests, consume_placement found]
    case lost =>
      rw [State.accept_record]
      exact (acknowledge_faults found damaged unblocked).1 ((confined.isUp _).trans down)
    case raised =>
      rw [State.accept_record]
      exact (acknowledge_faults found damaged unblocked).2 ((confined.isUp _).trans up)

/-! ### RELEASE (R107, R108, R120) -/

section
variable {s : State} {p : Port} {pl : List Octet} {h : Handle}

theorem exec_release_refused {result : Result} (asks : s.Asks p pl) (code : requestOf pl = some .release)
    (parsed : parseHandleOnly pl = some h) (undamaged : ((s.checkedRead h.slot).record h.slot).sched ≠ .damaged)
    (passes : ((s.checkedRead h.slot).record h.slot).refusal p h true false = none)
    (refused : ((s.checkedRead h.slot).record h.slot).holderRefusal p = some result) :
    exec (.release p) s = .next ((s.checkedRead h.slot).refuse p result) := by
  rw [exec_release, execRelease, applying_asks _ asks code, parsed]
  dsimp only
  rw [onRecord_passes _ passes, refused, checkedRead_eq s h.slot undamaged]

theorem exec_release_accepted (asks : s.Asks p pl) (code : requestOf pl = some .release)
    (parsed : parseHandleOnly pl = some h) (undamaged : ((s.checkedRead h.slot).record h.slot).sched ≠ .damaged)
    (passes : ((s.checkedRead h.slot).record h.slot).refusal p h true false = none)
    (accepted : ((s.checkedRead h.slot).record h.slot).holderRefusal p = none) : exec (.release p) s
      = .next (((s.checkedRead h.slot).giveBack p h.slot).accept p [((s.checkedRead h.slot).record h.slot).states]) := by
  rw [exec_release, execRelease, applying_asks _ asks code, parsed]
  dsimp only
  rw [onRecord_passes _ passes, accepted, checkedRead_eq s h.slot undamaged]

end

/-- The notice unit and the record after an OUTSTANDING entry has left its holder's set, PENDING again. -/
def State.released (s : State) (p : Port) (i : SlotIx) (e : Entry) : State :=
  (s.dropEntry (.outstanding p) e).setNotice i .pending none

section
variable {s : State} {p : Port} {i : SlotIx} {e : Entry}

theorem released_record (s : State) (p : Port) (i : SlotIx) (e : Entry) :
    (s.released p i e).record i = { s.record i with notice := .pending, holder := none } :=
  State.record_modify_self ..

theorem released_only (s : State) (p : Port) (i : SlotIx) (e : Entry) : s.SameBut (s.released p i e) i :=
  only_modify (s.dropEntry (.outstanding p) e) i _

theorem released_outstanding (s : State) (p : Port) (i : SlotIx) (e : Entry) :
    (s.released p i e).notices.outstanding[p] = s.notices.outstanding[p].erase e
      ∧ ∀ q : Port, q ≠ p → (s.released p i e).notices.outstanding[q] = s.notices.outstanding[q] :=
  ⟨set_port_same _ _ _, fun _ other => set_port_other _ _ _ _ other⟩

section
variable (found : s.notices.outstanding[p].find? (fun x => decide (x.slot = some i)) = some e)
include found

theorem giveBack_port {q : Port} (dest : e.destination = .port q) :
    s.giveBack p i = ((s.released p i e).joinQueue q e).driveLines := by
  have named : s.notices.outstanding[p].find? (·.names i) = some e := found
  unfold State.giveBack
  rw [named]
  dsimp only
  rw [dest]
  rfl

theorem giveBack_pool {k : Pool} (dest : e.destination = .pool k) :
    s.giveBack p i = ((s.released p i e).reoffer k p e).settle := by
  have named : s.notices.outstanding[p].find? (·.names i) = some e := found
  unfold State.giveBack
  rw [named]
  dsimp only
  rw [dest]
  rfl

theorem released_entries : (s.released p i e).HasEntries (s.entries.erase e) :=
  hasEntries_dropEntry s (.outstanding p) e (List.mem_of_find?_eq_some found)

theorem mem_entries_of_found : e ∈ s.entries := by
  have mem := List.mem_of_find?_eq_some found
  have flat : e ∈ s.notices.outstanding.toList.flatten :=
    List.mem_flatten.mpr ⟨s.notices.outstanding[p], by simp, mem⟩
  unfold State.entries
  exact List.mem_append_left _ (List.mem_append_right _ flat)

/-- The end of a RELEASE, with its entry in place again, loses nothing. -/
theorem released_returns {t : State} (h : t.HasEntries (e :: (s.released p i e).entries)) : t.HasEntries s.entries :=
  ((released_entries found).cons h).perm (List.perm_cons_erase (mem_entries_of_found found)).symm

end

end

theorem reoffer_outstanding (s : State) (k : Pool) (p : Port) (e : Entry) :
    (s.reoffer k p e).notices.outstanding = s.notices.outstanding := by
  unfold State.reoffer
  split
  · rw [servePool_form]
    rfl
  · split <;> rfl

/-- Which member a released entry goes to, or that it is held (R120). -/
theorem reoffer_empty {s : State} {k : Pool} (idle : s.notices.holding[k] = []) (p : Port) (e : Entry) :
    (∀ q, s.releaseMember k p = some q → s.reoffer k p e = s.assign k q e)
      ∧ (s.releaseMember k p = none → s.reoffer k p e = s.joinHolding k e) := by
  unfold State.reoffer
  rw [if_neg (fun h => h idle)]
  exact ⟨fun q member => by rw [member], fun none => by rw [none]⟩

section
variable {s : State} {p : Port} {i : SlotIx} {e : Entry}
  (found : s.notices.outstanding[p].find? (fun x => decide (x.slot = some i)) = some e)
include found

theorem giveBack_moved : Moved (s.released p i e) (s.giveBack p i) := by
  cases dest : e.destination with
  | port q =>
    rw [giveBack_port found dest]
    exact (moved_modifyQueue _ q _).trans (moved_driveLines _)
  | pool k =>
    rw [giveBack_pool found dest]
    exact (moved_reoffer _ k p e).trans (moved_settle _)

theorem giveBack_outstanding :
    (s.giveBack p i).notices.outstanding = (s.released p i e).notices.outstanding := by
  cases dest : e.destination with
  | port q =>
    rw [giveBack_port found dest, driveLines_notices]
    rfl
  | pool k =>
    rw [giveBack_pool found dest, (outs_settle _).out, reoffer_outstanding]

theorem giveBack_entries : (s.giveBack p i).HasEntries s.entries := by
  refine released_returns found ?_
  cases dest : e.destination with
  | port q =>
    rw [giveBack_port found dest]
    exact (hasEntries_joinQueue _ q e).trans (hasEntries_driveLines _)
  | pool k =>
    rw [giveBack_pool found dest]
    exact (hasEntries_reoffer _ k p e).trans (hasEntries_settle _)

theorem giveBack_port_facts {q : Port} (dest : e.destination = .port q) :
    (s.giveBack p i).notices.queues[q] = insertEntry { e with assigned := some q } s.notices.queues[q]
      ∧ (∀ m : Port, m ≠ q → (s.giveBack p i).notices.queues[m] = s.notices.queues[m])
      ∧ (s.giveBack p i).notices.holding = s.notices.holding ∧ (s.giveBack p i).pools = s.pools := by
  rw [giveBack_port found dest, driveLines_notices, driveLines_pools]
  exact ⟨set_port_same _ _ _, fun m other => set_port_other _ _ _ _ other, rfl, rfl⟩

theorem giveBack_pool_facts {k : Pool} (dest : e.destination = .pool k) :
    (s.giveBack p i).PoolsServed ∧ ∀ m : Pool, (s.giveBack p i).pools[m].Perm s.pools[m] := by
  rw [giveBack_pool found dest]
  exact ⟨settle_served _, fun m => ((fill_settle _).pools m).trans (reoffer_pools _ k p e m)⟩

/-- The accepting test after the entry has left the outstanding set (R115, R120). -/
theorem released_accepting : (∀ q : Port, q ≠ p → (s.released p i e).accepting q = s.accepting q)
    ∧ ((s.released p i e).accepting p = true ↔ s.isUp p = true
      ∧ s.notices.queues[p].length + s.notices.outstanding[p].length ≤ s.portTable.limit[p]) := by
  obtain ⟨own, others⟩ := released_outstanding s p i e
  have mem := List.mem_of_find?_eq_some found
  refine ⟨fun q other => ?_, ?_⟩
  · unfold State.accepting State.noticeCount
    rw [others q other]
    rfl
  · have length := List.length_erase_of_mem mem
    have some : 0 < s.notices.outstanding[p].length := List.length_pos_of_mem mem
    unfold State.accepting State.noticeCount
    rw [own, Bool.and_eq_true, decide_eq_true_eq, length]
    refine and_congr Iff.rfl ?_
    show s.notices.queues[p].length + _ < s.portTable.limit[p] ↔ _
    omega

/-- The member a released entry goes to: another one that accepts, else the releasing port (R120). -/
theorem released_member (k : Pool) : (∀ q, s.pools[k].find? (fun m => decide (m ≠ p) && s.accepting m) = some q →
      (s.released p i e).releaseMember k p = some q)
    ∧ (s.pools[k].find? (fun m => decide (m ≠ p) && s.accepting m) = none →
      (p ∈ s.pools[k] → (s.released p i e).accepting p = true → (s.released p i e).releaseMember k p = some p)
      ∧ (p ∉ s.pools[k] ∨ (s.released p i e).accepting p = false → (s.released p i e).releaseMember k p = none
        ∧ ∀ q ∈ s.pools[k], (s.released p i e).accepting q = false)) := by
  obtain ⟨others, -⟩ := released_accepting found
  have same : (fun m => decide (m ≠ p) && (s.released p i e).accepting m)
      = fun m => decide (m ≠ p) && s.accepting m := by
    funext m
    by_cases own : m = p
    · simp [own]
    · rw [others m own]
  have pools : (s.released p i e).pools = s.pools := rfl
  unfold State.releaseMember
  rw [same, pools]
  refine ⟨fun q first => by rw [first]; rfl, fun none => ⟨fun member accepts => ?_, fun refused => ?_⟩⟩
  · rw [none, Option.none_or]
    cases first : s.pools[k].find? (fun q => decide (q = p) && (s.released p i e).accepting q) with
    | none =>
      have := List.find?_eq_none.mp first p member
      simp [accepts] at this
    | some q =>
      have := List.find?_some first
      rw [Bool.and_eq_true, decide_eq_true_eq] at this
      rw [this.1]
  · have unaccepting : ∀ q ∈ s.pools[k], (s.released p i e).accepting q = false := fun q mem => by
      by_cases own : q = p
      · subst own
        exact refused.resolve_left fun h => h mem
      · have := List.find?_eq_none.mp none q mem
        rw [others q own]
        simpa [own] using this
    refine ⟨?_, unaccepting⟩
    rw [none, Option.none_or, List.find?_eq_none]
    exact fun q mem => by simp [unaccepting q mem]

section
variable {k : Pool} (dest : e.destination = .pool k) (idle : ∀ m : Pool, s.notices.holding[m] = [])
include dest idle

/-- A released entry that a member takes is the only one that moves, with nothing held (R120). -/
theorem giveBack_assigned {q : Port} (member : (s.released p i e).releaseMember k p = some q) :
    (s.giveBack p i).notices.queues[q] = insertEntry { e with assigned := some q } s.notices.queues[q]
      ∧ (s.giveBack p i).pools[k] = s.pools[k].erase q ++ [q]
      ∧ (s.giveBack p i).notices.holding = s.notices.holding := by
  have settled := settle_idle ((s.released p i e).assign k q e) idle
  rw [giveBack_pool found dest, (reoffer_empty (s := s.released p i e) (idle k) p e).1 q member, settled,
    driveLines_notices, driveLines_pools, assign_queues, if_pos rfl]
  exact ⟨rfl, set_pool_same _ _ _, rfl⟩

/-- A released entry that no member takes is held alone. -/
theorem giveBack_held (member : (s.released p i e).releaseMember k p = none)
    (refused : ∀ q ∈ s.pools[k], (s.released p i e).accepting q = false) :
    (s.giveBack p i).notices.holding[k] = [{ e with assigned := none }] ∧ (s.giveBack p i).pools = s.pools
      ∧ (s.giveBack p i).notices.queues = s.notices.queues := by
  have rests : ∀ m : Pool, ((s.released p i e).joinHolding k e).notices.holding[m] = []
      ∨ ∀ q ∈ ((s.released p i e).joinHolding k e).pools[m],
        ((s.released p i e).joinHolding k e).accepting q = false := fun m => by
    by_cases own : m = k
    · subst own
      exact .inr refused
    · exact .inl ((holding_joinHolding_other (s.released p i e) e own).trans (idle m))
  rw [giveBack_pool found dest, (reoffer_empty (s := s.released p i e) (idle k) p e).2 member,
    settle_unaccepting _ rests, driveLines_notices, driveLines_pools, holding_joinHolding_same]
  refine ⟨?_, rfl, rfl⟩
  have none : (s.released p i e).notices.holding[k] = [] := idle k
  rw [none]
  rfl

end

end

/-- Settles O32: the entry leaves the outstanding set and is placed again by its destination (R107, R108, R120). -/
theorem releaseGivesBack : Obligations.ReleaseGivesBack := by
  rintro s s1 p pl h r asks code parsed rfl rfl live undamaged generation unmarked
  have passes := Record.refusal_passes (p := p) (a := true) live (.inr generation) unmarked fun _ => undamaged
  have confined := confined_checkedRead s h.slot
  refine ⟨fun other => exec_release_refused asks code parsed undamaged passes (Record.holderRefusal_state other),
    fun out other => exec_release_refused asks code parsed undamaged passes (Record.holderRefusal_notHolder out other),
    fun out holder e found => ?_⟩
  have gives := confined_giveBack (s.checkedRead h.slot) p h.slot
  have answered := (confined.trans gives).answered asks [((s.checkedRead h.slot).record h.slot).states]
  have moved := giveBack_moved found
  have outstanding := giveBack_outstanding found
  obtain ⟨erased, others⟩ := released_outstanding (s.checkedRead h.slot) p h.slot e
  obtain ⟨-, own⟩ := released_accepting found
  rw [confined.isUp] at own
  refine ⟨_, exec_release_accepted asks code parsed undamaged passes (Record.holderRefusal_holder out holder), ?answer,
    ?record, fun j ne => ?frame, ?apart, ?placement, ?expiry, ?erased, fun q other => ?others,
    (giveBack_entries found).accept p _, fun q dest => ?port, fun k dest => ?pool, fun k dest idle =>
      ⟨fun q first => ?taken, fun none => ⟨fun member up room => ?returned, fun refused => ?held⟩⟩⟩
  case answer =>
    rw [Record.states, out] at answered
    rw [Record.states, out]
    exact answered
  case record => rw [State.accept_record, moved.record, released_record]
  case frame => rw [State.accept_record, moved.record, released_only _ p h.slot e j ne]
  case apart =>
    rw [State.Apart, State.accept_timeBase, State.accept_sweeps, State.accept_portTable]
    exact ⟨gives.timeBase, gives.sweeps, gives.portTable⟩
  case placement =>
    rw [State.accept_placement]
    exact moved.placement
  case expiry =>
    rw [State.accept_expiry]
    exact moved.expiry
  case erased => rw [State.accept_notices, outstanding, erased]
  case others => rw [State.accept_notices, outstanding, others q other]
  case port =>
    rw [State.accept_notices, State.accept_pools]
    exact giveBack_port_facts found dest
  case pool =>
    obtain ⟨served, pools⟩ := giveBack_pool_facts found dest
    exact ⟨accept_served served p _, by rw [State.accept_pools]; exact pools⟩
  case taken =>
    rw [State.accept_notices, State.accept_pools]
    exact giveBack_assigned found dest idle ((released_member found k).1 q first)
  case returned =>
    rw [State.accept_notices, State.accept_pools]
    exact giveBack_assigned found dest idle (((released_member found k).2 none).1 member (own.mpr ⟨up, room⟩))
  case held =>
    have turned : p ∉ (s.checkedRead h.slot).pools[k]
        ∨ ((s.checkedRead h.slot).released p h.slot e).accepting p = false :=
      refused.imp id fun full => Bool.eq_false_iff.mpr fun accepts => by
        obtain ⟨up, room⟩ := own.mp accepts
        rcases full with down | full
        · rw [up] at down
          cases down
        · omega
    obtain ⟨member, unaccepting⟩ := ((released_member found k).2 none).2 turned
    rw [State.accept_notices, State.accept_pools]
    exact giveBack_held found dest idle member unaccepting

end Sys2Proof.Machine
end

