-- ==== Sys2Proof/Proofs/Placing.lean ====
section
/-! The obligations on list faults and on the taking of a record by the placement unit. -/

namespace Sys2Proof.Machine

/-! ### The end of a rebuild (R149) -/

theorem setSched_record (s : State) (i : SlotIx) (x : Sched) : (s.setSched i x).record i = { s.record i with sched := x } :=
  State.record_modify_self ..

theorem only_setSched (s : State) (i : SlotIx) (x : Sched) : s.SameBut (s.setSched i x) i := only_modify s i _

/-- The end of a rebuild is reported in REBUILDING alone (R149). -/
theorem reportRebuild_stays {s : State} (h : s.expiry.listState ≠ .rebuilding ∨ s.placement.rebuildPart ≠ 0
    ∨ ∃ c, s.placement.carried = some c ∧ c.rebuildMember = true) : s.reportRebuild = s := by
  refine if_neg ?_
  rintro ⟨rebuilding, part, none⟩
  rcases h with h | h | ⟨c, carried, member⟩
  · exact h rebuilding
  · exact h part
  · rw [carried] at none
    exact Bool.false_ne_true (none.symm.trans member)

theorem reportRebuild_ends {s : State} (rebuilding : s.expiry.listState = .rebuilding)
    (part : s.placement.rebuildPart = 0) (idle : s.placement.carried = none) :
    s.reportRebuild = s.withExpiry { s.expiry with listState := .normal, restarts := 0 } :=
  if_pos ⟨rebuilding, part, by rw [idle]; rfl⟩

/-! ### The taking of a record (R57) -/

theorem execPlacementTake_rests {s : State} (h : s.placement.carried ≠ none ∨ s.expiry.listState = .failed
    ∨ s.placement.queue = []) : exec .placementTake s = .next s := by
  rw [exec_placementTake, execPlacementTake]
  split
  next idle =>
    obtain ⟨none, unfailed⟩ := idle
    rw [(h.resolve_left fun h => h none).resolve_left unfailed]
  next => rfl

theorem execPlacementTake_takes {s : State} {i : SlotIx} {rest : List SlotIx} (idle : s.placement.carried = none)
    (unfailed : s.expiry.listState ≠ .failed) (queue : s.placement.queue = i :: rest) :
    exec .placementTake s = .next (s.takeHead i) := by
  rw [exec_placementTake, execPlacementTake, if_pos ⟨idle, unfailed⟩, queue]

section
variable {s : State} {i : SlotIx}

theorem takeHead_damaged (h : ((s.checkedRead i).record i).sched ≠ .queued) : s.takeHead i = s.checkedRead i :=
  if_neg h

theorem takeHead_carries (queued : ((s.checkedRead i).record i).sched = .queued)
    (unmarked : ((s.checkedRead i).record i).mark = none) : s.takeHead i = (s.checkedRead i).carry i := by
  unfold State.takeHead
  dsimp only
  rw [if_pos queued, if_neg (by simp [unmarked])]

theorem takeHead_idles (queued : ((s.checkedRead i).record i).sched = .queued)
    (marked : ((s.checkedRead i).record i).mark ≠ none) :
    s.takeHead i = ((s.checkedRead i).unqueue i).setSched i .idle := by
  unfold State.takeHead
  dsimp only
  rw [if_pos queued, if_pos (Option.isSome_iff_ne_none.mpr marked)]

end

/-- The head that the unit carries (R57). -/
theorem carry_facts {s : State} {i : SlotIx} {rest : List SlotIx} (queue : s.placement.queue = i :: rest) :
    (s.carry i).record i = { s.record i with sched := .placing } ∧ s.SameBut (s.carry i) i
      ∧ (s.carry i).placement = {
          queue := rest
          rebuildPart := s.placement.rebuildPart - 1
          carried := some ⟨i, (s.record i).generation, decide (0 < s.placement.rebuildPart), false⟩ }
      ∧ s.carry i = { s with table := { s.table with cells := (s.carry i).table.cells },
                             placement := (s.carry i).placement } := by
  refine ⟨setSched_record _ i .placing, fun j ne => only_setSched _ i .placing j ne, ?_, rfl⟩
  have removed := removeQueued_head s i rest queue
  have placed : (s.carry i).placement = { (s.removeQueued i).placement with
      carried := some ⟨i, (s.record i).generation, decide (0 < s.placement.rebuildPart), false⟩ } := rfl
  rw [placed, removed]

/-- A marked head that leaves the queue (R57). -/
theorem idle_facts {s : State} {i : SlotIx} {rest : List SlotIx} (idle : s.placement.carried = none)
    (queue : s.placement.queue = i :: rest) :
    ((s.unqueue i).setSched i .idle).record i = { s.record i with sched := .idle }
      ∧ s.SameBut ((s.unqueue i).setSched i .idle) i
      ∧ ((s.unqueue i).setSched i .idle).placement
        = { queue := rest, rebuildPart := s.placement.rebuildPart - 1, carried := none }
      ∧ (s.expiry.listState = .rebuilding → s.placement.rebuildPart ≤ 1 →
          ((s.unqueue i).setSched i .idle).expiry = { s.expiry with listState := .normal, restarts := 0 })
      ∧ (s.expiry.listState ≠ .rebuilding ∨ 1 < s.placement.rebuildPart →
          ((s.unqueue i).setSched i .idle).expiry = s.expiry)
      ∧ (s.unqueue i).setSched i .idle = { s with
          table := { s.table with cells := ((s.unqueue i).setSched i .idle).table.cells },
          placement := ((s.unqueue i).setSched i .idle).placement,
          expiry := ((s.unqueue i).setSched i .idle).expiry } := by
  have removed := removeQueued_head s i rest queue
  have carried : (s.removeQueued i).placement.carried = none := by rw [removed]; exact idle
  have part : (s.removeQueued i).placement.rebuildPart = s.placement.rebuildPart - 1 := by rw [removed]
  obtain ⟨form, -, -⟩ := reportRebuild_facts (s.removeQueued i) carried
  have placement : (s.unqueue i).placement = (s.removeQueued i).placement := by
    unfold State.unqueue
    rw [form]
  have records : ∀ j, (s.unqueue i).record j = s.record j := fun j => by
    unfold State.unqueue
    rw [form]
    rfl
  refine ⟨?_, fun j ne => ?_, ?_, fun rebuilding last => ?_, fun stays => ?_, ?_⟩
  · rw [setSched_record, records]
  · rw [only_setSched _ i .idle j ne, records]
  · show (s.unqueue i).placement = _
    rw [placement, removed]
    dsimp only
    rw [idle]
  · show (s.unqueue i).expiry = _
    unfold State.unqueue
    rw [reportRebuild_ends (s := s.removeQueued i) rebuilding (by rw [part]; omega) carried]
    rfl
  · show (s.unqueue i).expiry = _
    unfold State.unqueue
    rw [reportRebuild_stays (s := s.removeQueued i) (stays.imp id fun more => .inl (by rw [part]; omega))]
    rfl
  · have whole : s.unqueue i = { s with placement := (s.unqueue i).placement, expiry := (s.unqueue i).expiry } := by
      unfold State.unqueue
      rw [form]
      rfl
    generalize s.unqueue i = u at whole
    rw [whole]
    rfl

/-- Settles O40: the head is read, and its record decides what the unit does with it (R57). -/
theorem placementTakesHead : Obligations.PlacementTakesHead := by
  refine fun s s1 i rest r => ⟨execPlacementTake_rests, ?_⟩
  rintro idle unfailed queue rfl rfl
  have takes := execPlacementTake_takes idle unfailed queue
  refine ⟨fun damaged => by rw [takes, takeHead_damaged damaged], fun queued unmarked => ?_, fun queued marked => ?_⟩
  all_goals
    have alive := checkedRead_alive s i (by rw [queued]; decide)
    have placement : (s.checkedRead i).placement = s.placement := by rw [alive]
    have expiry : (s.checkedRead i).expiry = s.expiry := by rw [alive]
  · obtain ⟨record, only, after, form⟩ := carry_facts (s := s.checkedRead i) (by rw [placement]; exact queue)
    rw [placement] at after
    exact ⟨_, takes.trans (congrArg _ (takeHead_carries queued unmarked)), record, only, after, form⟩
  · obtain ⟨record, only, after, ends, stays, form⟩ := idle_facts (s := s.checkedRead i)
      (by rw [placement]; exact idle) (by rw [placement]; exact queue)
    rw [placement] at after ends stays
    rw [expiry] at ends stays
    exact ⟨_, takes.trans (congrArg _ (takeHead_idles queued marked)), record, only, after, ends, stays, form⟩

/-! ### List faults (R148, R150) -/

/-- The state after a list fault's moves and before the report of its end. -/
def State.faulted (s : State) : State :=
  ((s.readAll s.armedSlots).queueAll (s.readAll s.armedSlots).armedSlots).startRebuild
    (s.readAll s.armedSlots).armedSlots s.expiry.afterFault

theorem listFault_reports (s : State) : s.listFault = s.faulted.reportRebuild := rfl

theorem listFault_keeps (s : State) : s.listFault.placement = s.faulted.placement
    ∧ s.listFault.table = s.faulted.table ∧ s.listFault.expiry.list = [] ∧ s.listFault.expiry.firing = none
    ∧ s.listFault = { s.faulted with expiry := s.listFault.expiry } := by
  rw [listFault_reports]
  unfold State.reportRebuild
  split <;> exact ⟨rfl, rfl, rfl, rfl, rfl⟩

theorem faulted_table (s : State) : s.faulted.table
    = ((s.readAll s.armedSlots).queueAll (s.readAll s.armedSlots).armedSlots).table := rfl

theorem faulted_placement (s : State) : s.faulted.placement = { (s.readAll s.armedSlots).placement with
    queue := (s.readAll s.armedSlots).armedSlots ++ (s.readAll s.armedSlots).placement.queue
    rebuildPart := (s.readAll s.armedSlots).armedSlots.length + (s.readAll s.armedSlots).placement.rebuildPart
    carried := (s.readAll s.armedSlots).placement.carried.map fun c =>
      { c with overtaken := true, rebuildMember := true } } := by
  unfold State.faulted State.startRebuild
  rw [(queueAll_facts _ _).1]
  rfl

theorem listFault_form (s : State) : s.listFault = { s.readAll s.armedSlots with
    table := { (s.readAll s.armedSlots).table with cells := s.listFault.table.cells },
    placement := s.listFault.placement, expiry := s.listFault.expiry } := by
  obtain ⟨placement, table, -, -, form⟩ := listFault_keeps s
  rw [table, placement]
  refine form.trans ?_
  unfold State.faulted State.startRebuild
  rw [(queueAll_facts _ _).1]
  rfl

/-- The ARMED slots are in ascending order (R148). -/
theorem armedSlots_sorted {s : State} (wf : s.table.wf) : s.armedSlots.Pairwise (· < ·) := by
  obtain ⟨cells, -⟩ := wf
  unfold State.armedSlots State.listedSlots
  exact (List.pairwise_map.mpr cells).filter _

theorem afterFault_failed {e : Expiry} (rebuilding : e.listState = .rebuilding) (again : 2 ≤ e.restarts) :
    e.afterFault = (.failed, 3) := by
  unfold Expiry.afterFault
  rw [rebuilding]
  exact if_neg (by omega)

theorem afterFault_rebuilding {e : Expiry} (unfailed : e.listState ≠ .failed)
    (h : e.listState = .normal ∨ e.restarts < 2) :
    e.afterFault = (.rebuilding, if e.listState = .normal then 0 else e.restarts + 1) := by
  unfold Expiry.afterFault
  cases state : e.listState with
  | normal => rfl
  | failed => exact absurd state unfailed
  | rebuilding =>
    have few : e.restarts < 2 := h.resolve_left (by rw [state]; decide)
    simp only [reduceCtorEq, if_false]
    rw [if_pos (by omega)]

theorem listFault_failed {s : State} (failed : s.expiry.afterFault = (.failed, 3)) :
    s.listFault.expiry.listState = .failed ∧ s.listFault.expiry.restarts = 3 := by
  have state : s.faulted.expiry.listState = .failed := congrArg Prod.fst failed
  rw [listFault_reports, reportRebuild_stays (.inl (by rw [state]; decide))]
  exact ⟨state, congrArg Prod.snd failed⟩

section
variable {s : State} {n : Nat} (after : s.expiry.afterFault = (.rebuilding, n))
include after

theorem listFault_ends (moved : (s.readAll s.armedSlots).armedSlots = [])
    (part : (s.readAll s.armedSlots).placement.rebuildPart = 0)
    (idle : (s.readAll s.armedSlots).placement.carried = none) :
    s.listFault.expiry.listState = .normal ∧ s.listFault.expiry.restarts = 0 := by
  have placement := faulted_placement s
  rw [listFault_reports, reportRebuild_ends (congrArg Prod.fst after) (by rw [placement, moved, part]; rfl)
    (by rw [placement, idle]; rfl)]
  exact ⟨rfl, rfl⟩

theorem listFault_rebuilds (h : (s.readAll s.armedSlots).armedSlots ≠ []
      ∨ (s.readAll s.armedSlots).placement.rebuildPart ≠ 0 ∨ (s.readAll s.armedSlots).placement.carried ≠ none) :
    s.listFault.expiry.listState = .rebuilding ∧ s.listFault.expiry.restarts = n := by
  have placement := faulted_placement s
  have stays : s.faulted.placement.rebuildPart ≠ 0
      ∨ ∃ c, s.faulted.placement.carried = some c ∧ c.rebuildMember = true := by
    rw [placement]
    dsimp only
    rcases h with moved | part | carried
    · have := List.length_pos_iff.mpr moved
      exact .inl (by omega)
    · exact .inl (by omega)
    · obtain ⟨c, e⟩ := Option.ne_none_iff_exists'.mp carried
      exact .inr ⟨_, by rw [e]; rfl, rfl⟩
  rw [listFault_reports, reportRebuild_stays (.inr stays)]
  exact ⟨congrArg Prod.fst after, congrArg Prod.snd after⟩

end

/-- Settles O42: the reads, the moves, the list state and the end of a rebuild with nothing to place (R148, R150). -/
theorem listFaultRebuilds : Obligations.ListFaultRebuilds := by
  rintro s s1 moved rfl rfl
  refine ⟨fun none finder => ?_, fun listed unfailed => ?_⟩
  · have impossible : s.faultPossible = false := by
      unfold State.faultPossible
      rcases none with list | failed
      · simp [list]
      · simp [failed]
    exact (exec_listFault finder s).trans (if_neg (by simp [impossible]))
  · have possible : s.faultPossible = true := by simp [State.faultPossible, listed, unfailed]
    obtain ⟨placement, table, list, firing, -⟩ := listFault_keeps s
    obtain ⟨-, others, queued⟩ :=
      queueAll_facts (s.readAll s.armedSlots).armedSlots (s.readAll s.armedSlots)
    have records : ∀ i, s.listFault.record i
        = ((s.readAll s.armedSlots).queueAll (s.readAll s.armedSlots).armedSlots).record i := fun i => by
      unfold State.record
      rw [table, faulted_table]
    refine ⟨s.listFault, ?engine, ?scrubber, fun idle => ?idle, fun carried => ?carried, mem_armedSlots s,
      mem_armedSlots _, armedSlots_sorted, fun i mem => (records i).trans (queued i mem),
      fun i out => (records i).trans (others i out), ?queue, ?part, ?overtaken, list, firing,
      fun rebuilding again => listFault_failed (afterFault_failed rebuilding again), fun h =>
        ⟨listFault_ends (afterFault_rebuilding unfailed h), listFault_rebuilds (afterFault_rebuilding unfailed h)⟩,
      listFault_form s⟩
    case engine => exact (exec_listFault _ s).trans (if_pos possible)
    case scrubber => exact (exec_listFault _ s).trans (if_pos possible)
    case idle => simp only [exec_listFault, execListFault, if_pos possible, idle]
    case carried =>
      obtain ⟨c, e⟩ := Option.ne_none_iff_exists'.mp carried
      simp only [exec_listFault, execListFault, if_pos possible, e]
    case queue => rw [placement, faulted_placement]
    case part => rw [placement, faulted_placement]
    case overtaken => rw [placement, faulted_placement]

end Sys2Proof.Machine
end

