-- ==== Sys2Proof/Proofs/PlaceEnd.lean ====
section
/-! The obligation on the end of a placement (R59 to R64): its reads, and the outcome they decide. -/

namespace Sys2Proof.Machine

/-! ### The reads at the end of a placement (R60, R148) -/

theorem State.stillCarried_iff (s : State) (c : Carried) : s.stillCarried c = true
    ↔ (s.record c.slot).sched = .placing ∧ (s.record c.slot).generation = c.generation := by
  unfold State.stillCarried
  rw [Bool.and_eq_true, decide_eq_true_eq, decide_eq_true_eq]

theorem State.insertable_iff (s : State) (c : Carried) : s.insertable c = true ↔ (s.record c.slot).sched = .placing
    ∧ (s.record c.slot).generation = c.generation ∧ (s.record c.slot).mark = none ∧ c.overtaken = false := by
  unfold State.insertable
  rw [Bool.and_eq_true, Bool.and_eq_true, State.stillCarried_iff, Option.isNone_iff_eq_none, Bool.not_eq_true',
    and_assoc, and_assoc]

/-- A record that is not to be inserted has its own read alone. -/
theorem placementReads_alone {s : State} {c : Carried} (h : ¬ (s.readSlot c.slot).insertable c = true) :
    s.placementReads c = (s.checkedRead c.slot, false) := if_neg h

theorem placementReads_walks {s : State} {c : Carried} (h : (s.readSlot c.slot).insertable c = true) :
    s.placementReads c = ((walkFrom ((s.readSlot c.slot).record c.slot).due
        ((s.readSlot c.slot).expiry.list.map Member.slot) (s.readSlot c.slot)).1.settleSince s,
      (walkFrom ((s.readSlot c.slot).record c.slot).due
        ((s.readSlot c.slot).expiry.list.map Member.slot) (s.readSlot c.slot)).2) := if_pos h

/-- A walk whose reads find nothing reads the links of the members that it passes (R148). -/
theorem walk_sound {s : State} (due : Nat) : ∀ l : List Member,
    (∀ m ∈ l, (s.record m.slot).ChecksPass ∧ (s.record m.slot).sched = .armed) →
    walkFrom due (l.map Member.slot) s
      = (s, (l.takeWhile fun m => decide ((s.record m.slot).due ≤ due)).any fun m => !s.linkHolds m.slot)
  | [], _ => rfl
  | m :: l, h => by
    obtain ⟨sound, armed⟩ := h m (List.mem_cons_self ..)
    have rest := walk_sound due l fun x hx => h x (List.mem_cons_of_mem _ hx)
    rw [List.map_cons, walkFrom, readSlot_sound s m.slot sound, if_neg (by simp [armed])]
    by_cases higher : due < (s.record m.slot).due
    · rw [if_pos higher, List.takeWhile_cons_of_neg (by simpa using higher)]
      rfl
    · rw [if_neg higher, List.takeWhile_cons_of_pos (by simpa using higher), List.any_cons]
      cases holds : s.linkHolds m.slot with
      | true =>
        rw [if_pos rfl, rest]
        rfl
      | false => rfl

/-- A listed record's link is its member's, as each slot has one member. -/
theorem linkHolds_member {s : State} (once : s.listOrder.Nodup) {m : Member} (mem : m ∈ s.expiry.list) :
    s.linkHolds m.slot = m.linkHolds := by
  have only : ∀ x ∈ s.expiry.list, x.slot = m.slot → x = m := fun x hx same =>
    List.inj_on_of_nodup_map once hx mem same
  unfold State.linkHolds
  rw [Bool.eq_iff_iff, Bool.not_eq_true', List.any_eq_false]
  refine ⟨fun none => ?_, fun holds x hx => ?_⟩
  · simpa using none m mem
  · rw [Bool.and_eq_true, decide_eq_true_eq]
    rintro ⟨same, failed⟩
    rw [only x hx same, holds] at failed
    cases failed

/-- The reads of a placement with nothing to find (R60, R148). -/
theorem placementReads_sound {s : State} {c : Carried} (sound : (s.record c.slot).ChecksPass)
    (members : ∀ m ∈ s.expiry.list, (s.record m.slot).ChecksPass ∧ (s.record m.slot).sched = .armed) :
    (s.placementReads c).1 = s
      ∧ (s.insertable c = true → s.listOrder.Nodup → ((s.placementReads c).2 = true
        ↔ ∃ m ∈ s.expiry.list.takeWhile fun m => decide ((s.record m.slot).due ≤ (s.record c.slot).due),
          m.linkHolds = false)) := by
  have read := readSlot_sound s c.slot sound
  by_cases insertable : s.insertable c = true
  · have reads := placementReads_walks (s := s) (c := c) (by rw [read]; exact insertable)
    rw [read, walk_sound _ _ members] at reads
    rw [reads]
    refine ⟨settleSince_eq rfl, fun _ once => ?_⟩
    rw [List.any_eq_true]
    refine exists_congr fun m => and_congr_right fun mem => ?_
    rw [linkHolds_member once (List.takeWhile_sublist _ |>.subset mem), Bool.not_eq_true']
  · rw [placementReads_alone (by rw [read]; exact insertable)]
    exact ⟨checkedRead_sound s c.slot sound, fun h => absurd h insertable⟩

/-! ### The outcome (Table 4-1) -/

/-- The state once the first row of Table 4-1 that holds has decided the record, before the unit puts it down. -/
def State.decided (s : State) (c : Carried) : State :=
  if s.stillCarried c then
    if (s.record c.slot).mark.isSome then s.setSched c.slot .idle
    else if c.overtaken then s.returnOvertaken c.slot
    else s.insertArmed c.slot
  else s

theorem endPlacement_decided (s : State) (c : Carried) : s.endPlacement c = ((s.decided c).putDown c).reportRebuild := rfl

section
variable {s : State} {c : Carried}

theorem decided_discarded (h : (s.record c.slot).sched ≠ .placing ∨ (s.record c.slot).generation ≠ c.generation) :
    s.decided c = s := by
  refine if_neg fun still => ?_
  obtain ⟨placing, generation⟩ := (s.stillCarried_iff c).mp still
  exact h.elim (fun h => h placing) fun h => h generation

variable (placing : (s.record c.slot).sched = .placing) (generation : (s.record c.slot).generation = c.generation)
include placing generation

theorem decided_marked (marked : (s.record c.slot).mark ≠ none) : s.decided c = s.setSched c.slot .idle := by
  unfold State.decided
  rw [if_pos ((s.stillCarried_iff c).mpr ⟨placing, generation⟩), if_pos (Option.isSome_iff_ne_none.mpr marked)]

theorem decided_overtaken (unmarked : (s.record c.slot).mark = none) (overtaken : c.overtaken = true) :
    s.decided c = s.returnOvertaken c.slot := by
  unfold State.decided
  rw [if_pos ((s.stillCarried_iff c).mpr ⟨placing, generation⟩), if_neg (by simp [unmarked]), if_pos overtaken]

theorem decided_inserted (unmarked : (s.record c.slot).mark = none) (ahead : c.overtaken = false) :
    s.decided c = s.insertArmed c.slot := by
  unfold State.decided
  rw [if_pos ((s.stillCarried_iff c).mpr ⟨placing, generation⟩), if_neg (by simp [unmarked]), if_neg (by simp [ahead])]

end

/-- A decision changes the carried record, the queue and the list alone. -/
theorem decided_form (s : State) (c : Carried) : s.SameBut (s.decided c) c.slot
    ∧ s.decided c = { s with
      table := { s.table with cells := (s.decided c).table.cells }, placement := (s.decided c).placement,
      expiry := { s.expiry with list := (s.decided c).expiry.list } } := by
  unfold State.decided
  split
  · split
    · exact ⟨only_setSched s c.slot _, rfl⟩
    · split
      · exact ⟨fun j ne => only_setSched _ c.slot .queued j ne, rfl⟩
      · exact ⟨fun j ne => only_setSched _ c.slot .armed j ne, rfl⟩
  · exact ⟨fun _ _ => rfl, rfl⟩

/-- What the end of a placement makes of what was decided (R59, R64, R149). -/
theorem endPlacement_facts (s : State) (c : Carried) :
    (s.endPlacement c).placement = { (s.decided c).placement with carried := none }
      ∧ (s.endPlacement c).table = (s.decided c).table
      ∧ (s.endPlacement c).expiry.list = (s.decided c).expiry.list
      ∧ (∀ q : Port, (s.endPlacement c).links[q] = { s.links[q] with
          requests := s.links[q].requests.map fun x =>
            if x.condition = .held c.slot then { x with condition := .waiting } else x })
      ∧ (s.expiry.listState = .rebuilding → (s.endPlacement c).placement.rebuildPart = 0 →
          (s.endPlacement c).expiry.listState = .normal ∧ (s.endPlacement c).expiry.restarts = 0)
      ∧ (s.expiry.listState ≠ .rebuilding ∨ (s.endPlacement c).placement.rebuildPart ≠ 0 →
          (s.endPlacement c).expiry.listState = s.expiry.listState
            ∧ (s.endPlacement c).expiry.restarts = s.expiry.restarts)
      ∧ s.endPlacement c = { s with
          table := { s.table with cells := (s.endPlacement c).table.cells }, placement := (s.endPlacement c).placement,
          expiry := { (s.endPlacement c).expiry with firing := s.expiry.firing }, links := (s.endPlacement c).links } := by
  obtain ⟨-, form⟩ := decided_form s c
  obtain ⟨report, ends, stays⟩ := reportRebuild_facts ((s.decided c).putDown c) rfl
  rw [← endPlacement_decided] at report ends stays
  have state : ((s.decided c).putDown c).expiry.listState = s.expiry.listState := by
    rw [putDown_eq, form]
  have restarts : ((s.decided c).putDown c).expiry.restarts = s.expiry.restarts := by
    rw [putDown_eq, form]
  have links : (s.decided c).links = s.links := by rw [form]
  have placement : (s.endPlacement c).placement = { (s.decided c).placement with carried := none } := by rw [report]; rfl
  have part : ((s.decided c).putDown c).placement.rebuildPart = (s.endPlacement c).placement.rebuildPart := by
    rw [report]
  rw [state, part] at ends stays
  rw [restarts] at stays
  refine ⟨placement, by rw [report]; rfl, by rw [report]; rfl, fun q => ?_, ends, stays, ?_⟩
  · have mapped : (s.endPlacement c).links = s.links.map fun l =>
        { l with requests := releaseHeld c.slot l.requests } := by
      rw [report, putDown_eq]
      dsimp only
      rw [links]
    rw [mapped]
    exact Vector.getElem_map ..
  · generalize s.decided c = u at report form
    generalize s.endPlacement c = t at report
    rw [report, putDown_eq, form]

theorem returnOvertaken_facts (s : State) (i : SlotIx) :
    (s.returnOvertaken i).record i = { s.record i with sched := .queued }
      ∧ (s.returnOvertaken i).expiry.list = s.expiry.list
      ∧ (s.expiry.listState = .normal → (s.returnOvertaken i).placement.queue = i :: s.placement.queue
        ∧ (s.returnOvertaken i).placement.rebuildPart = s.placement.rebuildPart)
      ∧ (s.expiry.listState ≠ .normal →
        (s.returnOvertaken i).placement.queue
          = s.placement.queue.take s.placement.rebuildPart ++ i :: s.placement.queue.drop s.placement.rebuildPart
        ∧ (s.returnOvertaken i).placement.rebuildPart = s.placement.rebuildPart + 1) := by
  refine ⟨setSched_record _ i .queued, rfl, fun normal => ?_, fun other => ?_⟩
  · have front : (if s.expiry.listState = .normal then 0 else s.placement.rebuildPart) = 0 := if_pos normal
    refine ⟨?_, if_pos normal⟩
    show s.placement.queue.take (if s.expiry.listState = .normal then 0 else s.placement.rebuildPart)
      ++ i :: s.placement.queue.drop (if s.expiry.listState = .normal then 0 else s.placement.rebuildPart) = _
    rw [front]
    rfl
  · have last : (if s.expiry.listState = .normal then 0 else s.placement.rebuildPart) = s.placement.rebuildPart :=
      if_neg other
    refine ⟨?_, if_neg other⟩
    show s.placement.queue.take (if s.expiry.listState = .normal then 0 else s.placement.rebuildPart)
      ++ i :: s.placement.queue.drop (if s.expiry.listState = .normal then 0 else s.placement.rebuildPart) = _
    rw [last]

/-- The record behind every member due no later, and ahead of the first due later (R60). -/
theorem insertArmed_facts (s : State) (i : SlotIx) :
    (s.insertArmed i).record i = { s.record i with sched := .armed } ∧ (s.insertArmed i).placement = s.placement
      ∧ (s.insertArmed i).expiry.list = (s.expiry.list.takeWhile fun m => decide ((s.record m.slot).due ≤ (s.record i).due))
        ++ ⟨i, true⟩ :: s.expiry.list.drop
          (s.expiry.list.takeWhile fun m => decide ((s.record m.slot).due ≤ (s.record i).due)).length :=
  ⟨setSched_record _ i .armed, rfl, insertMember_split _ i _⟩

/-- Settles O41: the reads, then the outcome of Table 4-1, put down and reported (R59 to R64, R148, R149). -/
theorem placementEnds : Obligations.PlacementEnds := by
  rintro s s0 s1 c i r front failed carried rfl rfl reads rfl rfl
  have state : (s.placementReads c).1 = s1 := congrArg Prod.fst reads
  have fault : (s.placementReads c).2 = failed := congrArg Prod.snd reads
  refine ⟨fun h => ?alone, fun placing generation unmarked ahead once sound members => ?walked, fun bad => ?faulted,
    fun good => ?ended⟩
  case alone =>
    have other : ¬ (s.readSlot c.slot).insertable c = true := fun insertable => by
      obtain ⟨placing, generation, unmarked, ahead⟩ := (State.insertable_iff _ c).mp insertable
      rcases h with h | h | h | h
      · exact h placing
      · exact h generation
      · exact h unmarked
      · rw [ahead] at h
        cases h
    rw [placementReads_alone other] at state fault
    exact ⟨fault.symm, state.symm⟩
  case walked =>
    obtain ⟨same, links⟩ := placementReads_sound sound members
    obtain rfl : s1 = s := state.symm.trans same
    rw [← fault]
    exact ⟨rfl, links ((s1.insertable_iff c).mpr ⟨placing, generation, unmarked, ahead⟩) once⟩
  case faulted =>
    simp only [exec_placementEnd, execPlacementEnd, carried, reads, bad, if_true]
  case ended =>
    have ends : exec .placementEnd s = .next (s1.endPlacement c) := by
      simp only [exec_placementEnd, execPlacementEnd, carried, reads, good, Bool.false_eq_true, if_false]
    obtain ⟨only, -⟩ := decided_form s1 c
    obtain ⟨placement, table, list, links, reports, stays, form⟩ := endPlacement_facts s1 c
    have records : ∀ j, (s1.endPlacement c).record j = (s1.decided c).record j := fun j => by
      unfold State.record
      rw [table]
    refine ⟨_, ends, by rw [placement], fun j ne => (records j).trans (only j ne), links, fun gone => ?gone,
      fun placing generation => ⟨fun marked => ?marked, fun unmarked overtaken => ?overtaken,
        fun unmarked ahead => ?inserted⟩, reports, stays, form⟩
    case gone =>
      rw [records, placement, list, decided_discarded gone]
      exact ⟨rfl, rfl, rfl, rfl⟩
    case marked =>
      rw [records, placement, list, decided_marked placing generation marked]
      exact ⟨setSched_record .., rfl, rfl, rfl⟩
    case overtaken =>
      rw [records, placement, list, decided_overtaken placing generation unmarked overtaken]
      exact returnOvertaken_facts s1 c.slot
    case inserted =>
      obtain ⟨record, queue, order⟩ := insertArmed_facts s1 c.slot
      rw [records, placement, list, decided_inserted placing generation unmarked ahead, queue]
      exact ⟨record, rfl, rfl, order⟩

end Sys2Proof.Machine
end

