-- ==== Sys2Proof/Proofs/Expiring.lean ====
section
/-! The obligations on the expiry engine (R70 to R89): the next deadline, the head, the companions and marked heads. -/

namespace Sys2Proof.Machine

/-! ### The next deadline (R77 to R80) -/

/-- The number of periods that SKIP passes is the least, 1 or more, that leaves now behind (R79). -/
theorem skipCount_least {due v now : Nat} (positive : 0 < v) : 1 ≤ skipCount due v now
    ∧ now < due + skipCount due v now * v ∧ ∀ j, 1 ≤ j → j < skipCount due v now → due + j * v ≤ now := by
  unfold skipCount
  split
  next early =>
    refine ⟨le_refl 1, by omega, fun j one less => by omega⟩
  next late =>
    have above : now - due < ((now - due) / v + 1) * v := by
      rw [Nat.mul_comm]
      exact Nat.lt_mul_div_succ _ positive
    refine ⟨Nat.le_add_left .., by omega, fun j _ less => ?_⟩
    have below : j * v ≤ now - due := le_trans (Nat.mul_le_mul_right v (by omega)) (Nat.div_mul_le_self _ v)
    omega

theorem reschedule_periodic {r : Record} {now k : Nat} {v : Interval} (period : r.period = some v)
    (ahead : r.periodsAhead v.toNat now = k) :
    (∀ d : Tick, d.toNat = r.due + k * v.toNat → r.reschedule now = .next d (k - 1))
      ∧ (Config.timeMax < r.due + k * v.toNat → r.reschedule now = .rangeEnd) := by
  have form : r.reschedule now = if r.due + k * v.toNat ≤ Config.timeMax
      then .next (BitVec.ofNat 56 (r.due + k * v.toNat)) (k - 1) else .rangeEnd := by
    unfold Record.reschedule
    rw [period]
    dsimp only
    rw [ahead]
  rw [form]
  refine ⟨fun d e => ?_, fun far => if_neg (Nat.not_le.mpr far)⟩
  have small : r.due + k * v.toNat ≤ Config.timeMax := by
    rw [← e]
    exact Nat.le_of_lt_succ d.isLt
  rw [if_pos small, tick_of_toNat e]

/-- Settles O43: the reschedule is by the period, one of them for ALIGNED and `skipCount` of them for SKIP. -/
theorem nextDeadlineFollowsPolicy : Obligations.NextDeadlineFollowsPolicy := by
  refine fun r now => ⟨fun none => ?_, fun v period => ⟨fun aligned => ?_, fun skip given => ?_⟩⟩
  · unfold Record.reschedule
    rw [none]
  · have one : r.periodsAhead v.toNat now = 1 := by
      unfold Record.periodsAhead
      rw [aligned]
    have next := reschedule_periodic period one
    rwa [Nat.one_mul] at next
  · have count : r.periodsAhead v.toNat now = skipCount r.due v.toNat now := by
      unfold Record.periodsAhead
      rw [skip]
    have positive : 0 < v.toNat := Nat.pos_of_ne_zero fun zero => given (BitVec.eq_of_toNat_eq zero)
    obtain ⟨one, above, least⟩ := skipCount_least (due := r.due) (now := now) positive
    exact ⟨_, one, above, least, reschedule_periodic period count⟩

/-! ### The links that the engine reads (R89, R148) -/

/-- A failed link of a listed record, and none. -/
theorem linkHolds_iff (s : State) (i : SlotIx) :
    ((∃ m ∈ s.expiry.list, m.slot = i ∧ m.linkHolds = false) → s.linkHolds i = false)
      ∧ ((∀ m ∈ s.expiry.list, m.slot = i → m.linkHolds = true) → s.linkHolds i = true) := by
  unfold State.linkHolds
  constructor
  · rintro ⟨m, mem, slot, failed⟩
    rw [Bool.not_eq_false', List.any_eq_true]
    exact ⟨m, mem, by simp [slot, failed]⟩
  · intro holds
    rw [Bool.not_eq_true', List.any_eq_false]
    intro m mem
    rw [Bool.and_eq_true, decide_eq_true_eq, Bool.not_eq_true']
    rintro ⟨slot, failed⟩
    rw [holds m mem slot] at failed
    cases failed

theorem linkHolds_congr {s t : State} (h : t.expiry.list = s.expiry.list) (i : SlotIx) : t.linkHolds i = s.linkHolds i := by
  unfold State.linkHolds
  rw [h]

/-! ### One firing (R71 to R80) -/

/-- What the firing of the record in slot `i` does: the notice by Table 5-2, and the schedule by Table 5-3. -/
structure Fired (s t : State) (i : SlotIx) (r r1 : Record) (early : Bool) : Prop where
  only : s.SameBut t i
  order : t.listOrder = s.listOrder.erase i
  created : r.notice = .clear → s.reachable r.target = true → ∀ n, s.freeGeneral = some n →
    r1 = { r with notice := .pending, holder := none, overrun := 0 } ∧ t.notices.stamp = s.notices.stamp + 1
      ∧ t.notices.blocked = s.notices.blocked
      ∧ t.HasEntries (firedEntry i n r s.timeBase.now early s.notices.stamp :: s.entries)
  waits : r.notice = .clear → s.reachable r.target = true → s.freeGeneral = none →
    r1 = { r with notice := .waiting, holder := none }
      ∧ t.notices = { s.notices with blocked := s.notices.blocked ++ [⟨i, .firing (r.deadline.getD 0)
          s.timeBase.now (decide (r.due < s.timeBase.now.toNat))
          (decide (r.reschedule s.timeBase.now.toNat = .rangeEnd))⟩] }
  lost : r.notice ≠ .clear ∨ s.reachable r.target = false →
    r1 = { r with overrun := saturate8 r.overrun 1 } ∧ t.notices = s.notices ∧ t.pools = s.pools
  rests : r.reschedule s.timeBase.now.toNat = .oneShot ∨ r.reschedule s.timeBase.now.toNat = .rangeEnd →
    t.record i = { r1 with sched := .idle } ∧ t.placement = s.placement
  again : ∀ d passed, r.reschedule s.timeBase.now.toNat = .next d passed →
    t.record i = { r1 with sched := .queued, deadline := some d, overrun := saturate8 r1.overrun passed }
      ∧ t.placement = { s.placement with queue := s.placement.queue ++ [i] }

/-- The search and the attention lines are no part of a firing's outcome. -/
theorem Fired.congr {s t u : State} {i : SlotIx} {r r1 : Record} {early : Bool} (h : Fired s t i r r1 early)
    (table : u.table = t.table) (notices : u.notices = t.notices) (pools : u.pools = t.pools)
    (placement : u.placement = t.placement) (list : u.expiry.list = t.expiry.list) : Fired s u i r r1 early := by
  have records : ∀ j, u.record j = t.record j := fun j => by
    unfold State.record
    rw [table]
  have entries : u.entries = t.entries := by
    unfold State.entries
    rw [notices]
  exact {
    only := fun j ne => (records j).trans (h.only j ne)
    order := (congrArg (List.map Member.slot) list).trans h.order
    created := fun clear up n free => by
      obtain ⟨record, stamp, blocked, has⟩ := h.created clear up n free
      unfold State.HasEntries at has ⊢
      rw [notices, entries]
      exact ⟨record, stamp, blocked, has⟩
    waits := fun clear up full => by
      rw [notices]
      exact h.waits clear up full
    lost := fun none => by
      rw [notices, pools]
      exact h.lost none
    rests := fun plan => by
      rw [records, placement]
      exact h.rests plan
    again := fun d passed plan => by
      rw [records, placement]
      exact h.again d passed plan }

theorem fire_fired (s : State) (i : SlotIx) (early : Bool) :
    ∃ r1, Fired s (s.fire i early) i (s.record i) r1 early := by
  obtain ⟨u, r1, done, form⟩ := fire_done s i early (s.record i) rfl
  obtain ⟨notices, pools, expiry, only, rests, again⟩ :=
    settleSchedule_facts u i ((s.record i).reschedule s.now)
  rw [← form] at notices pools expiry only rests again
  rw [done.recd, done.placement] at rests again
  have entries : (s.fire i early).entries = u.entries := by
    unfold State.entries
    rw [notices]
  refine ⟨r1, ?_⟩
  exact {
    only := fun j ne => (only j ne).trans (done.only j ne)
    order := by
      unfold State.listOrder
      rw [expiry, done.expiry]
      exact unlink_slots i _
    created := fun clear up n free => by
      obtain ⟨record, stamp, blocked, has⟩ := done.created clear up n free
      unfold State.HasEntries at has ⊢
      rw [notices, entries]
      exact ⟨record, stamp, blocked, has⟩
    waits := fun clear up full => by
      rw [notices]
      exact done.blockd clear up full
    lost := fun none => by
      rw [notices, pools]
      exact done.lost none
    rests := rests
    again := again }

/-! ### The head (R70, R86) -/

/-- The engine looks at the head while the list is NORMAL and no firing is in progress. -/
theorem engineReady_iff (s : State) :
    s.engineReady = true ↔ s.expiry.listState = .normal ∧ s.expiry.firing = none := by
  unfold State.engineReady
  rw [Bool.and_eq_true, decide_eq_true_eq, Option.isNone_iff_eq_none]

theorem State.dueHead_iff (s : State) (i : SlotIx) : s.dueHead i = true
    ↔ (s.record i).sched = .armed ∧ (s.record i).due ≤ s.now ∧ (s.record i).mark = none := by
  unfold State.dueHead
  rw [Bool.and_eq_true, Bool.and_eq_true, decide_eq_true_eq, decide_eq_true_eq, Option.isNone_iff_eq_none, and_assoc]

theorem State.markedHead_iff (s : State) (i : SlotIx) : s.markedHead i = true
    ↔ (s.record i).sched = .armed ∧ (s.record i).mark ≠ none := by
  unfold State.markedHead
  rw [Bool.and_eq_true, decide_eq_true_eq, Option.isSome_iff_ne_none]

/-- The engine is not free, or has no head to look at. -/
theorem engine_rests {s : State}
    (h : s.expiry.listState ≠ .normal ∨ s.expiry.firing ≠ none ∨ s.expiry.list = []) :
    exec .firing s = .next s ∧ exec .markedHeadRemoval s = .next s := by
  rw [exec_firing, exec_markedHeadRemoval]
  unfold execFiring execMarkedHeadRemoval
  by_cases ready : s.engineReady = true
  · obtain ⟨normal, idle⟩ := (engineReady_iff s).mp ready
    have empty : s.expiry.list = [] := (h.resolve_left fun h => h normal).resolve_left fun h => h idle
    rw [if_pos ready, if_pos ready, empty]
    exact ⟨rfl, rfl⟩
  · rw [if_neg ready, if_neg ready]
    exact ⟨rfl, rfl⟩

section
variable {s : State} {i : SlotIx} {holds : Bool} {rest : List Member} (normal : s.expiry.listState = .normal)
  (idle : s.expiry.firing = none) (list : s.expiry.list = ⟨i, holds⟩ :: rest)
include normal idle list

theorem exec_firing_head : exec .firing s = if (s.checkedRead i).dueHead i = true then
      if (s.checkedRead i).linkHolds i = true then .next ((s.checkedRead i).fireHead i)
      else .next (s.checkedRead i).listFault
    else .next (s.checkedRead i) := by
  rw [exec_firing, execFiring, if_pos ((engineReady_iff s).mpr ⟨normal, idle⟩), list]

theorem exec_markedHeadRemoval_head : exec .markedHeadRemoval s = if (s.checkedRead i).markedHead i = true then
      if (s.checkedRead i).linkHolds i = true then .next (((s.checkedRead i).unlist i).setSched i .idle)
      else .next (s.checkedRead i).listFault
    else .next (s.checkedRead i) := by
  rw [exec_markedHeadRemoval, execMarkedHeadRemoval, if_pos ((engineReady_iff s).mpr ⟨normal, idle⟩), list]

end

/-- The firing of the head, with the search that it begins (R71, R82). -/
theorem fireHead_fired (s : State) (i : SlotIx) : (∃ r1, Fired s (s.fireHead i) i (s.record i) r1 false)
    ∧ (s.fireHead i).expiry.firing = if s.listOrder.erase i = [] then none
      else some ⟨i, (s.record i).generation, (s.record i).target, (s.listOrder.erase i).take 32, 0⟩ := by
  obtain ⟨r1, fired⟩ := fire_fired s i false
  have order := fired.order
  have window : ((s.fire i false).expiry.list.take Config.windowSize).map Member.slot
      = (s.listOrder.erase i).take 32 := by
    rw [List.map_take]
    exact congrArg (List.take 32) order
  obtain ⟨ls, lines⟩ := driveLines_eq ((s.fire i false).beginSearch i (s.record i))
  have form : s.fireHead i = { (s.fire i false).beginSearch i (s.record i) with links := ls } := lines
  refine ⟨⟨r1, fired.congr ?_ ?_ ?_ ?_ ?_⟩, ?_⟩
  · rw [form]
    rfl
  · rw [form]
    rfl
  · rw [form]
    rfl
  · rw [form]
    rfl
  · rw [form]
    rfl
  · rw [form]
    unfold State.beginSearch
    dsimp only
    rw [window]
    refine if_congr ?_ rfl rfl
    rw [List.take_eq_nil_iff]
    simp

/-- A read of an ARMED record leaves the list and the clock. -/
theorem read_armed {s : State} {i : SlotIx} (armed : ((s.checkedRead i).record i).sched = .armed) :
    (s.checkedRead i).expiry = s.expiry ∧ (s.checkedRead i).timeBase = s.timeBase := by
  have alive := checkedRead_alive s i (by rw [armed]; decide)
  rw [alive]
  exact ⟨rfl, rfl⟩

/-- A target that can receive a notice is one whose port, if it is a port, is UP (Table 5-2). -/
theorem reachable_read (s : State) (i : SlotIx) (target : Target) :
    ((s.checkedRead i).reachable target = true ↔ ∀ p : Port, target = .port p → s.isUp p = true)
      ∧ ((s.checkedRead i).reachable target = false ↔ ∃ p : Port, target = .port p ∧ s.isUp p = false) := by
  have confined := confined_checkedRead s i
  refine ⟨(reachable_iff _ _).trans (forall_congr' fun p => ?_), (unreachable_iff _ _).trans (exists_congr fun p => ?_)⟩
  · rw [confined.isUp]
  · rw [confined.isUp]

/-- Settles O44: the head is read and tested, its link is read, and it fires (R70 to R82). -/
theorem dueHeadFires : Obligations.DueHeadFires := by
  refine fun s s1 i holds rest r late => ⟨fun h => (engine_rests h).1, ?_⟩
  rintro normal idle list rfl rfl rfl
  have head := exec_firing_head normal idle list
  have due := (s.checkedRead i).dueHead_iff i
  have confined := confined_checkedRead s i
  rw [confined.now] at due
  refine ⟨fun h => ?_, fun armed reached unmarked => ?_⟩
  · rw [head, if_neg]
    rw [due]
    rintro ⟨armed, reached, unmarked⟩
    rcases h with h | h | h
    · exact h armed
    · exact absurd h (Nat.not_lt.mpr reached)
    · exact h unmarked
  · obtain ⟨expiry, time⟩ := read_armed armed
    obtain ⟨failed, held⟩ := linkHolds_iff s i
    have link := linkHolds_congr (congrArg Expiry.list expiry) i
    have fires : (s.checkedRead i).dueHead i = true := due.mpr ⟨armed, reached, unmarked⟩
    refine ⟨fun bad => ?_, fun good => ?_⟩
    · rw [head, if_pos fires, if_neg (by rw [link, failed bad]; decide)]
    · obtain ⟨⟨r1, fired⟩, search⟩ := fireHead_fired (s.checkedRead i) i
      have apart := confined_fireHead (s.checkedRead i) i
      obtain ⟨up, down⟩ := reachable_read s i ((s.checkedRead i).record i).target
      obtain ⟨only, order, created, waits, lost, rests, again⟩ := fired
      rw [up] at created waits
      rw [down] at lost
      rw [time] at created waits rests again
      exact ⟨_, r1, by rw [head, if_pos fires, if_pos (by rw [link]; exact held good)], only,
        ⟨apart.timeBase, apart.sweeps, apart.portTable⟩, order, search,
        fun clear reach => ⟨created clear reach, waits clear reach⟩, lost, rests, again⟩

/-- Settles O46: the head is read and tested, its link is read, and it leaves the list as IDLE (R86). -/
theorem markedHeadIsRemoved : Obligations.MarkedHeadIsRemoved := by
  refine fun s s1 i holds rest r => ⟨fun h => (engine_rests h).2, ?_⟩
  rintro normal idle list rfl rfl
  have head := exec_markedHeadRemoval_head normal idle list
  have tested := (s.checkedRead i).markedHead_iff i
  refine ⟨fun h => ?_, fun armed marked => ?_⟩
  · rw [head, if_neg]
    rw [tested]
    rintro ⟨armed, marked⟩
    exact h.elim (fun h => h armed) marked
  · obtain ⟨expiry, -⟩ := read_armed armed
    obtain ⟨failed, held⟩ := linkHolds_iff s i
    have link := linkHolds_congr (congrArg Expiry.list expiry) i
    have leaves : (s.checkedRead i).markedHead i = true := tested.mpr ⟨armed, marked⟩
    refine ⟨fun bad => ?_, fun good => ⟨((s.checkedRead i).unlist i).setSched i .idle, ?_, setSched_record _ i .idle,
      fun j ne => only_setSched _ i .idle j ne, unlink_slots i _, rfl⟩⟩
    · rw [head, if_pos leaves, if_neg (by rw [link, failed bad]; decide)]
    · rw [head, if_pos leaves, if_pos (by rw [link]; exact held good)]

/-! ### Companions (R82 to R85) -/

theorem State.isCompanion_iff (s : State) (f : Firing) (i : SlotIx) : s.isCompanion f i = true
    ↔ (s.record i).sched = .armed ∧ (s.record i).target = f.target ∧ (s.record i).notice = .clear
      ∧ (s.record i).mark = none ∧ s.now < (s.record i).due ∧ (s.record i).due ≤ s.now + (s.record i).slack.toNat
      ∧ s.freeGeneral ≠ none ∧ s.reachable (s.record i).target = true := by
  unfold State.isCompanion
  simp only [Bool.and_eq_true, decide_eq_true_eq, Option.isNone_iff_eq_none, Option.isSome_iff_ne_none, and_assoc,
    Nat.sub_le_iff_le_add]

theorem exec_companionFiring_head {s : State} {f : Firing} {i : SlotIx} {rest : List SlotIx}
    (firing : s.expiry.firing = some f) (window : f.window = i :: rest) : exec .companionFiring s
      = if s.linkHolds i = true then .next (s.consider i) else .next s.listFault := by
  rw [exec_companionFiring, execCompanionFiring, firing]
  dsimp only
  rw [window]

section
variable {s : State} {f : Firing} {i : SlotIx}

theorem consider_ended (firing : (s.checkedRead i).expiry.firing = none) : s.consider i = s.checkedRead i := by
  unfold State.consider
  dsimp only
  rw [firing]

theorem consider_stays (firing : (s.checkedRead i).expiry.firing = some f)
    (other : ¬ (s.checkedRead i).isCompanion f i = true) :
    s.consider i = (s.checkedRead i).setSearch (nextSearch f i false) := by
  unfold State.consider
  dsimp only
  rw [firing]
  exact if_neg other

theorem consider_fires (firing : (s.checkedRead i).expiry.firing = some f)
    (companion : (s.checkedRead i).isCompanion f i = true) : s.consider i
      = ((((s.checkedRead i).setSearch none).fire i true).setSearch (nextSearch f i true)).driveLines := by
  unfold State.consider
  dsimp only
  rw [firing]
  exact if_pos companion

end

/-- The firing of a companion, within the search that goes on (R84). -/
theorem companion_fired (s : State) (i : SlotIx) (search : Option Firing) :
    (∃ r1, Fired s ((((s.setSearch none).fire i true).setSearch search).driveLines) i (s.record i) r1 true)
      ∧ (((s.setSearch none).fire i true).setSearch search).driveLines.expiry.firing = search := by
  obtain ⟨r1, only, order, created, waits, lost, rests, again⟩ := fire_fired (s.setSearch none) i true
  have fired : Fired s ((s.setSearch none).fire i true) i (s.record i) r1 true :=
    ⟨only, order, created, waits, lost, rests, again⟩
  obtain ⟨ls, lines⟩ := driveLines_eq (((s.setSearch none).fire i true).setSearch search)
  generalize (s.setSearch none).fire i true = u at *
  rw [lines]
  exact ⟨⟨r1, fired.congr rfl rfl rfl rfl rfl⟩, rfl⟩

theorem confined_companion (s : State) (i : SlotIx) (search : Option Firing) :
    Confined s ((((s.setSearch none).fire i true).setSearch search).driveLines) :=
  (((confined_setSearch s none).trans (confined_fire _ i true)).trans (confined_setSearch _ search)).trans
    (confined_driveLines _)

/-- Settles O45: the member's link and record are read, and the conditions of Table 5-4 decide (R82 to R85). -/
theorem companionsFireEarly : Obligations.CompanionsFireEarly := by
  refine fun s s1 f i rest r => ⟨fun none => ?_, ?_⟩
  · rw [exec_companionFiring, execCompanionFiring, none]
  rintro firing window rfl rfl
  have head := exec_companionFiring_head firing window
  have companion := (s.checkedRead i).isCompanion_iff f i
  have confined := confined_checkedRead s i
  have now : (s.checkedRead i).now = s.timeBase.now.toNat := confined.now
  obtain ⟨up, down⟩ := reachable_read s i ((s.checkedRead i).record i).target
  obtain ⟨failed, held⟩ := linkHolds_iff s i
  rw [now, up] at companion
  have rests : f.window.erase i = rest := by rw [window, List.erase_cons_head]
  refine ⟨fun bad => by rw [head, if_neg (by rw [failed bad]; decide)], fun good => ?_⟩
  rw [if_pos (held good)] at head
  refine ⟨fun away => ⟨fun ended => by rw [head, consider_ended ended], fun g goes => ?_⟩, fun armed unfit => ?_,
    fun n armed target clear unmarked early near free reach => ?_⟩
  · have other : ¬ (s.checkedRead i).isCompanion g i = true := fun h =>
      away ((State.isCompanion_iff _ g i).mp h).1
    rw [head, consider_stays goes other, nextSearch_iff]
    rfl
  · obtain ⟨expiry, -⟩ := read_armed armed
    have goes : (s.checkedRead i).expiry.firing = some f := by rw [expiry]; exact firing
    have other : ¬ (s.checkedRead i).isCompanion f i = true := by
      rw [companion]
      rintro ⟨-, target, clear, unmarked, early, near, free, reach⟩
      rcases unfit with h | h | h | h | h | h | ⟨p, target', h⟩
      · exact h target
      · exact h clear
      · exact h unmarked
      · omega
      · omega
      · exact free h
      · rw [reach p target'] at h
        cases h
    rw [head, consider_stays goes other, nextSearch_iff, rests]
    rfl
  · obtain ⟨expiry, time⟩ := read_armed armed
    have goes : (s.checkedRead i).expiry.firing = some f := by rw [expiry]; exact firing
    have fits : (s.checkedRead i).isCompanion f i = true :=
      companion.mpr ⟨armed, target, clear, unmarked, early, near, by rw [free]; simp, reach⟩
    obtain ⟨⟨r1, only, order, created, -, -, stays, again⟩, search⟩ :=
      companion_fired (s.checkedRead i) i (nextSearch f i true)
    have apart := confined_companion (s.checkedRead i) i (nextSearch f i true)
    have next := nextSearch_iff f i true
    rw [rests] at next
    obtain ⟨record, stamp, blocked, has⟩ := created clear (up.mpr reach) n free
    have late : decide (((s.checkedRead i).record i).due < s.timeBase.now.toNat) = false :=
      decide_eq_false (Nat.not_lt.mpr early.le)
    unfold firedEntry at has
    rw [time, late] at has
    rw [time] at stays again
    exact ⟨_, r1, by rw [head, consider_fires goes fits], only, ⟨apart.timeBase, apart.sweeps, apart.portTable⟩, order,
      search.trans next, record, stamp, blocked, has, stays, again⟩

end Sys2Proof.Machine
end

