-- ==== Sys2Proof/Proofs/Sweeping.lean ====
section
/-! The obligations on the start of a sweep, its visits, and the ends of TAG and PORT sweeps. -/

namespace Sys2Proof.Machine

/-! ### The start of a sweep (R126, R130) -/

/-- The records of Table 8-1. -/
theorem SweepKind.matchesRecord_iff (k : SweepKind) (r : Record) : k.matchesRecord r = true ↔ r.sched ≠ .free
    ∧ (k = .total ∨ (∃ p, k = .port p ∧ r.owner = some p) ∨ ∃ o g q, k = .tag o g q ∧ r.owner = some o ∧ r.tag = g) := by
  unfold SweepKind.matchesRecord
  rw [Bool.and_eq_true, decide_eq_true_eq]
  refine and_congr_right fun _ => ?_
  cases k with
  | tag o g q =>
    simp only [reduceCtorEq, false_and, exists_false, false_or, SweepKind.tag.injEq, Bool.and_eq_true, decide_eq_true_eq]
    refine ⟨fun ⟨owned, tagged⟩ => ⟨o, g, q, ⟨rfl, rfl, rfl⟩, owned, tagged⟩, ?_⟩
    rintro ⟨_, _, _, ⟨rfl, rfl, rfl⟩, owned⟩
    exact owned
  | port p => simp
  | total => simp

/-- A record that the sweep does not match. -/
theorem SweepKind.not_matchesRecord {k : SweepKind} {r : Record} (h : r.sched = .free
    ∨ (∃ p, k = .port p ∧ r.owner ≠ some p) ∨ ∃ o g q, k = .tag o g q ∧ ¬ (r.owner = some o ∧ r.tag = g)) :
    ¬ k.matchesRecord r = true := by
  rw [SweepKind.matchesRecord_iff]
  rintro ⟨live, matched⟩
  rcases h with free | ⟨p, rfl, other⟩ | ⟨o, g, q, rfl, other⟩
  · exact live free
  · rcases matched with h | ⟨p', h, owner⟩ | ⟨o, g, q, h, -⟩
    · cases h
    · cases h
      exact other owner
    · cases h
  · rcases matched with h | ⟨p, h, -⟩ | ⟨o', g', q', h, owned⟩
    · cases h
    · cases h
    · cases h
      exact other owned

theorem takeSweep_starts {s s0 : State} {w : Sweep} {rest : List Sweep} (idle : s.sweeps.current = none)
    (first : (s.sweeps.total = some w ∧ s0 = { s with sweeps := { s.sweeps with total := none } })
      ∨ (s.sweeps.total = none ∧ s.sweeps.places = w :: rest ∧ s0 = s)) : s.takeSweep = s0.startSweep w := by
  unfold State.takeSweep
  rw [if_neg (by simp [idle])]
  rcases first with ⟨total, rfl⟩ | ⟨total, places, rfl⟩
  · rw [total]
    rfl
  · rw [total, places]

theorem takeSweep_rests {s : State} (h : s.sweeps.current ≠ none ∨ (s.sweeps.total = none ∧ s.sweeps.places = [])) :
    s.takeSweep = s := by
  unfold State.takeSweep
  rcases h with busy | ⟨total, places⟩
  · rw [if_pos (Option.isSome_iff_ne_none.mpr busy)]
  · rw [total, places]
    split <;> rfl

/-- The state once a sweep's start has read and marked the records, before the end of the event (R130). -/
def State.swept (s : State) (w : Sweep) : State :=
  let s1 := s.readSlots s.liveSlots
  let s2 := s1.withSweeps { s1.sweeps with current := some ⟨w, 0, 0⟩ }
  s2.liveSlots.foldl (State.markOne w) s2

theorem startSweep_swept (s : State) (w : Sweep) : s.startSweep w = ((s.swept w).settleSince s).driveLines := rfl

theorem swept_form (s : State) (w : Sweep) : s.swept w = { s.readSlots s.liveSlots with
    table := { (s.readSlots s.liveSlots).table with cells := (s.swept w).table.cells },
    sweeps := { s.sweeps with current := some ⟨w, 0, 0⟩ } } := by
  unfold State.swept
  rw [(markAll_facts w _ _).1, ← (confined_readSlots s s.liveSlots).sweeps]
  rfl

/-- A start marks the records it matches, but for one whose identity failed, and changes nothing else of a record. -/
theorem swept_record (s : State) (w : Sweep) (i : SlotIx) : (s.swept w).record i
    = if w.kind.matchesRecord ((s.readSlots s.liveSlots).record i) = true
        ∧ ((s.readSlots s.liveSlots).record i).fault ≠ some .identity
      then { (s.readSlots s.liveSlots).record i with mark := some w.number }
      else (s.readSlots s.liveSlots).record i := by
  unfold State.swept
  dsimp only
  generalize read : (s.readSlots s.liveSlots).withSweeps
    { (s.readSlots s.liveSlots).sweeps with current := some ⟨w, 0, 0⟩ } = s2
  have records : s2.record i = (s.readSlots s.liveSlots).record i := by
    rw [← read]
    rfl
  obtain ⟨-, others, marked⟩ := markAll_facts w s2.liveSlots s2
  rw [← records]
  by_cases live : i ∈ s2.liveSlots
  · exact marked i live
  · rw [others i live, if_neg]
    rintro ⟨matched, -⟩
    rw [mem_liveSlots] at live
    exact live ((SweepKind.matchesRecord_iff _ _).mp matched).1

section
variable (s : State) (w : Sweep)

theorem startSweep_links (p : Port) : (s.startSweep w).links[p] = { s.links[p] with
    attention := decide (∃ e ∈ (s.startSweep w).notices.queues[p], (s.startSweep w).marked e = false
      ∧ (s.startSweep w).notices.thresholds[p] ≤ e.urgency) } := by
  have links : (s.swept w).links = (s.readSlots s.liveSlots).links := by rw [swept_form]
  obtain ⟨ls, lines⟩ := driveLines_eq ((s.swept w).settleSince s)
  have due := attentionDue_eq ((s.swept w).settleSince s) p
  have notices : (s.startSweep w).notices = ((s.swept w).settleSince s).notices := driveLines_notices _
  have marked : ∀ e, (s.startSweep w).marked e = ((s.swept w).settleSince s).marked e := fun e => by
    rw [startSweep_swept, lines]
    rfl
  rw [notices]
  simp only [marked]
  rw [← due, startSweep_swept, driveLines_links, (confined_settleSince _ s).links p, links,
    (confined_readSlots s _).links p]

theorem startSweep_records (i : SlotIx) : (s.startSweep w).record i = (s.swept w).record i := by
  rw [startSweep_swept, (moved_driveLines _).record, settleSince_record]

theorem startSweep_sweeps : (s.startSweep w).sweeps = { s.sweeps with current := some ⟨w, 0, 0⟩ } := by
  rw [startSweep_swept, (moved_driveLines _).sweeps, (moved_settleSince _ s).sweeps, swept_form]

theorem swept_notices : (s.swept w).notices = (s.readSlots s.liveSlots).notices := by rw [swept_form]

theorem startSweep_quiet (same : (s.readSlots s.liveSlots).notices = s.notices) :
    (s.startSweep w).notices = s.notices ∧ (s.startSweep w).pools = (s.readSlots s.liveSlots).pools := by
  have notices := (swept_notices s w).trans same
  rw [startSweep_swept, settleSince_eq notices, driveLines_notices, driveLines_pools]
  exact ⟨notices, by rw [swept_form]⟩

theorem startSweep_served (changed : (s.readSlots s.liveSlots).notices ≠ s.notices) : (s.startSweep w).PoolsServed := by
  have settled : (s.swept w).settleSince s = (s.swept w).settle := if_neg (by rw [swept_notices]; exact changed)
  rw [startSweep_swept, settled]
  exact fun k => (fill_driveLines _).keep k (settle_served _ k)

theorem startSweep_entries : (s.startSweep w).HasEntries (s.readSlots s.liveSlots).entries := by
  have entries : (s.swept w).entries = (s.readSlots s.liveSlots).entries := by
    unfold State.entries
    rw [swept_notices]
  rw [startSweep_swept, ← entries]
  exact (hasEntries_settleSince _ s).trans (hasEntries_driveLines _)

theorem settleSince_form (t s : State) : t.settleSince s = { t with
    links := (t.settleSince s).links, pools := (t.settleSince s).pools,
    notices := { t.notices with
      queues := (t.settleSince s).notices.queues, holding := (t.settleSince s).notices.holding } } := by
  unfold State.settleSince
  split
  · rfl
  · obtain ⟨po, q, h, ls, form⟩ := settle_shape t
    rw [form]

theorem startSweep_form : s.startSweep w = { s.readSlots s.liveSlots with
    table := { (s.readSlots s.liveSlots).table with cells := (s.startSweep w).table.cells },
    sweeps := (s.startSweep w).sweeps, links := (s.startSweep w).links, pools := (s.startSweep w).pools,
    notices := { (s.readSlots s.liveSlots).notices with
      queues := (s.startSweep w).notices.queues, holding := (s.startSweep w).notices.holding } } := by
  obtain ⟨ls, lines⟩ := driveLines_eq ((s.swept w).settleSince s)
  have started : s.startSweep w = _ := lines
  have settled := settleSince_form (s.swept w) s
  have swept := swept_form s w
  generalize (s.swept w).settleSince s = v at started settled
  generalize s.swept w = u at settled swept
  rw [started, settled, swept]

end

/-- Settles O47: the sweep taken, its reads and marks, and the end of the event. -/
theorem sweepStartMarks : Obligations.SweepStartMarks := by
  refine fun s s0 s1 w rest => ⟨fun h => congrArg _ (takeSweep_rests h), ?_⟩
  rintro idle first rfl
  have records : s0.record = s.record ∧ s0.links = s.links ∧ s0.notices = s.notices := by
    rcases first with ⟨-, rfl⟩ | ⟨-, -, rfl⟩
    · exact ⟨rfl, rfl, rfl⟩
    · exact ⟨rfl, rfl, rfl⟩
  obtain ⟨record, links, notices⟩ := records
  refine ⟨s0.startSweep w, congrArg _ (takeSweep_starts idle first), fun i => ?_, startSweep_sweeps s0 w, ?marks,
    fun p => ?_, fun same => ?_, fun changed => startSweep_served s0 w (by rw [notices]; exact changed),
    startSweep_entries s0 w, startSweep_form s0 w⟩
  · rw [mem_liveSlots, record]
  · rintro i r rfl
    rw [startSweep_records, swept_record]
    refine ⟨fun live kept matched => if_pos ⟨(SweepKind.matchesRecord_iff _ _).mpr ⟨live, matched⟩, kept⟩,
      fun unmatched => if_neg ?_⟩
    rintro ⟨matched, kept⟩
    rcases unmatched with h | h | h | h
    · exact SweepKind.not_matchesRecord (.inl h) matched
    · exact kept h
    · exact SweepKind.not_matchesRecord (.inr (.inl h)) matched
    · exact SweepKind.not_matchesRecord (.inr (.inr h)) matched
  · rw [← links]
    exact startSweep_links s0 w p
  · rw [← notices] at same ⊢
    exact startSweep_quiet s0 w same

/-! ### The walk (R132) -/

/-- The records that a sweep's visit retires (R132). -/
theorem Sweep.retires_iff (w : Sweep) (r : Record) : w.retires r = true
    ↔ r.sched ≠ .free ∧ (r.mark = some w.number ∨ (w.kind = .total ∧ r.fault = some .identity)) := by
  unfold Sweep.retires
  simp only [Bool.and_eq_true, Bool.or_eq_true, decide_eq_true_eq]

theorem slotOf_none {v : Nat} (h : 1024 ≤ v) : slotOf v = none := by
  cases e : slotOf v with
  | none => rfl
  | some i =>
    have := slotOf_eq_some.mp e
    have := i.isLt
    omega

theorem exec_sweepVisit_at {s : State} {run : SweepRun} {i : SlotIx} (current : s.sweeps.current = some run)
    (cursor : run.cursor = i.val) : exec .sweepVisit s = .next (s.visit run i) := by
  simp only [exec_sweepVisit, execSweepVisit, current, slotOf_eq_some.mpr cursor]

theorem visit_leaves {s : State} {run : SweepRun} {i : SlotIx}
    (kept : ¬ run.sweep.retires ((s.readSlot i).record i) = true) : s.visit run i = { s.checkedRead i with
      sweeps := { s.sweeps with current := some { run with cursor := run.cursor + 1 } } } := by
  have sweeps := (confined_checkedRead s i).sweeps
  unfold State.visit
  dsimp only
  rw [Bool.eq_false_iff.mpr kept, ← sweeps]
  rfl

theorem visit_retires {s : State} {run : SweepRun} {i : SlotIx}
    (retired : run.sweep.retires ((s.readSlot i).record i) = true) :
    s.visit run i = ((s.readSlot i).retire i).withSweeps { (s.readSlot i).sweeps with
      current := some { run with retired := run.retired + 1, cursor := run.cursor + 1 } } := by
  have sweeps := (confined_retire (s.readSlot i) i).sweeps
  unfold State.visit
  dsimp only
  rw [retired, ← sweeps]
  rfl

/-- Settles O49: the visit reads its slot, and what the read leaves decides (R132). -/
theorem sweepVisitRetires : Obligations.SweepVisitRetires := by
  refine fun s s1 run i r => ⟨fun none => ?_, fun current past => ?_, ?_⟩
  · simp only [exec_sweepVisit, execSweepVisit, none]
  · simp only [exec_sweepVisit, execSweepVisit, current, slotOf_none past]
  rintro current cursor rfl rfl
  have visited := exec_sweepVisit_at current cursor
  have retires := run.sweep.retires_iff ((s.readSlot i).record i)
  refine ⟨fun kept => ?_, fun live named => ?_⟩
  · rw [visited, visit_leaves]
    rw [retires]
    rintro ⟨live, named⟩
    rcases kept with free | ⟨unmarked, known⟩
    · exact live free
    · rcases named with mark | ⟨total, lost⟩
      · exact unmarked mark
      · exact known.elim (fun h => h total) fun h => h lost
  · obtain ⟨record, occupied, unblocked, carried⟩ := retire_facts (s.readSlot i) i _ rfl
    have confined := confined_retire (s.readSlot i) i
    have near := (near_retire (s.readSlot i) i).records
    have served := retire_served (s.readSlot i) i
    rw [visited, visit_retires (retires.mpr ⟨live, named⟩)]
    generalize (s.readSlot i).retire i = t at *
    exact ⟨_, rfl, rfl, record, occupied, unblocked, carried, near, served, confined.timeBase, confined.portTable⟩

/-! ### The ends of TAG and PORT sweeps (R134, R135) -/

theorem walked_iff (run : SweepRun) : run.walked = true ↔ 1024 ≤ run.cursor := by
  unfold SweepRun.walked
  rw [decide_eq_true_eq]
  rfl

/-- No sweep ends before its walk has visited every slot. -/
theorem sweepEnds_wait {s : State} {run : SweepRun} (current : s.sweeps.current = some run) (h : run.cursor < 1024) :
    exec .tagSweepEnd s = .next s ∧ exec .portSweepEnd s = .next s ∧ exec .totalSweepEnd s = .next s := by
  have walking : run.walked = false := Bool.eq_false_iff.mpr fun walked =>
    absurd ((walked_iff run).mp walked) (Nat.not_le.mpr h)
  rw [exec_tagSweepEnd, exec_portSweepEnd, exec_totalSweepEnd]
  unfold execTagSweepEnd execPortSweepEnd execTotalSweepEnd
  rw [current]
  dsimp only
  rw [walking]
  cases run.sweep.kind <;> exact ⟨rfl, rfl, rfl⟩

theorem exec_tagSweepEnd_walked {s : State} {run : SweepRun} {o q : Port} {g : BitVec 16}
    (current : s.sweeps.current = some run) (kind : run.sweep.kind = .tag o g q) (walked : 1024 ≤ run.cursor) :
    exec .tagSweepEnd s = .next (((s.freePlace run.sweep).createSweepDone q run.sweep.number run.retired
      false).driveLines) := by
  simp only [exec_tagSweepEnd, execTagSweepEnd, current, kind, (walked_iff run).mpr walked, if_true]

theorem exec_portSweepEnd_walked {s : State} {run : SweepRun} {q : Port} (current : s.sweeps.current = some run)
    (kind : run.sweep.kind = .port q) (walked : 1024 ≤ run.cursor) :
    exec .portSweepEnd s = .next ((s.freePlace run.sweep).recover q) := by
  simp only [exec_portSweepEnd, execPortSweepEnd, current, kind, (walked_iff run).mpr walked, if_true]

/-- The end of a TAG sweep frees its place and notifies its port (R94, R134). -/
theorem tagSweepEnd_facts (s : State) (w : Sweep) (q : Port) (retired : Nat) (t : State)
    (h : t = ((s.freePlace w).createSweepDone q w.number retired false).driveLines) :
    t.sweeps = { s.sweeps with places := s.sweeps.places.filter (fun v => decide (v ≠ w)), current := none }
      ∧ (s.isUp q = false ∨ s.freeReserve q = none → t.notices = s.notices)
      ∧ (s.isUp q = true → ∀ n, s.freeReserve q = some n → t.notices.stamp = s.notices.stamp + 1
        ∧ (∀ m : Port, m ≠ q → t.notices.queues[m] = s.notices.queues[m])
        ∧ ∃ e, t.notices.queues[q] = insertEntry e s.notices.queues[q] ∧ e.kind = .sweepDone ∧ e.number = n
          ∧ e.slot = none ∧ e.sweepNumber = some w.number ∧ e.retired = retired
          ∧ e.abandoned = false ∧ e.urgency = 0 ∧ e.cls = .plain ∧ e.destination = .port q
          ∧ e.stamp = s.notices.stamp ∧ e.assigned = some q)
      ∧ (∀ m : Port, t.links[m] = { s.links[m] with attention := t.links[m].attention })
      ∧ t = { s with sweeps := t.sweeps, links := t.links, notices := { s.notices with
              queues := t.notices.queues, stamp := t.notices.stamp } } := by
  obtain ⟨lost, created⟩ := createSweepDone_facts (s.freePlace w) q w.number retired false
  have shape := createSweepDone_shape (s.freePlace w) q w.number retired false
  have notices : t.notices = ((s.freePlace w).createSweepDone q w.number retired false).notices := by
    rw [h, driveLines_notices]
  obtain ⟨ls, lines⟩ := driveLines_eq ((s.freePlace w).createSweepDone q w.number retired false)
  refine ⟨?_, fun none => ?_, fun up n free => ?_, fun m => ?_, ?_⟩
  · rw [h, (moved_driveLines _).sweeps, shape]
    rfl
  · rw [notices, lost none]
    rfl
  · obtain ⟨e, ⟨kind, number, slot, sweep, count, abandoned, urgency, cls, dest, stamp, assigned⟩, form⟩ :=
      created up n free
    rw [notices, form]
    exact ⟨rfl, fun m other => set_port_other _ _ _ _ other, e, set_port_same _ _ _, kind, number, slot, sweep, count,
      abandoned, urgency, cls, dest, stamp, assigned⟩
  · have links : ((s.freePlace w).createSweepDone q w.number retired false).links = s.links := by
      rw [shape]
      rfl
    rw [h, driveLines_links, links]
  · rw [h, lines]
    dsimp only
    generalize (s.freePlace w).createSweepDone q w.number retired false = u at shape
    rw [shape]
    rfl

/-- Settles O50: a TAG sweep's notice, and a PORT sweep's report to a RECOVERING port (R134, R135, R158). -/
theorem tagAndPortSweepsEnd : Obligations.TagAndPortSweepsEnd := by
  refine fun s run q current => ⟨sweepEnds_wait current, fun o g kind walked => ?_, fun kind walked => ?_⟩
  · exact ⟨_, exec_tagSweepEnd_walked current kind walked, tagSweepEnd_facts s run.sweep q run.retired _ rfl⟩
  · refine ⟨(s.freePlace run.sweep).recover q, exec_portSweepEnd_walked current kind walked, ?_, fun settled => ?_,
      fun w recovering pending => ?_⟩
    · unfold State.recover
      split
      · obtain ⟨t, form, -, -, -, -, whole⟩ := comeUp_facts (s.freePlace run.sweep) q
          ((s.freePlace run.sweep).links[q].pendingWindow.getD 1)
        rw [form, whole]
        rfl
      · rfl
    · have rests : (s.freePlace run.sweep).recover q = s.freePlace run.sweep := if_neg settled
      rw [rests]
      rfl
    · have window : (s.freePlace run.sweep).links[q].pendingWindow.getD 1 = w := by
        have same : (s.freePlace run.sweep).links[q].pendingWindow = some w := pending
        rw [same]
        rfl
      have comes : (s.freePlace run.sweep).recover q = (s.freePlace run.sweep).comeUp q w := by
        rw [← window]
        exact if_pos recovering
      obtain ⟨t, form, link, others, entries, idle, whole⟩ := comeUp_facts (s.freePlace run.sweep) q w
      obtain ⟨served, pools⟩ := comeUp_served (s.freePlace run.sweep) q w
      have sweeps : t.sweeps = (s.freePlace run.sweep).sweeps := by rw [whole]
      rw [comes]
      rw [form] at served pools ⊢
      refine ⟨link, others, entries, served, pools, fun none => ?_, ?_⟩
      · rw [sweeps]
        exact idle none
      · rw [sweeps]
        exact whole

end Sys2Proof.Machine
end

