-- ==== Sys2Proof/Proofs/TotalEnd.lean ====
section
/-! The obligation on the end of a TOTAL sweep (R136): the notices it clears, those it creates, and the list it
restores. -/

namespace Sys2Proof.Machine

/-! ### Steps 1 to 3: what is cleared -/

/-- The state behind the first three steps: no record is blocked, SWEEP-DONE entries alone are left, and every pool is
empty. -/
def State.cleared (s : State) : State :=
  s.emptyBlocked.freeNotices.withPools (s.emptyBlocked.freeNotices.pools.map fun _ => [])

/-- The slots whose notices the first two steps clear. -/
def State.noticed (s : State) : List SlotIx :=
  s.notices.blocked.map BlockedPlace.slot ++ s.entries.filterMap Entry.slot

theorem mem_noticed (s : State) (i : SlotIx) : i ∈ s.noticed ↔
    (∃ b ∈ s.notices.blocked, b.slot = i) ∨ ∃ e ∈ s.entries, e.slot = some i := by
  unfold State.noticed
  rw [List.mem_append, List.mem_map, List.mem_filterMap]

theorem cleared_form (s : State) : s.cleared = { clearSlots s.noticed s with
    pools := s.pools.map fun _ => []
    notices := { s.notices with
      blocked := []
      queues := s.notices.queues.map (·.filter isSweepDone)
      outstanding := s.notices.outstanding.map (·.filter isSweepDone)
      holding := s.notices.holding.map (·.filter isSweepDone) } } := by
  have blocked : s.emptyBlocked = (clearSlots (s.notices.blocked.map BlockedPlace.slot) s).withNotices
      { s.notices with blocked := [] } := by
    unfold State.emptyBlocked
    rw [blocked_clearSlots, (clearSlots_facts _ s).1]
  have entries : s.emptyBlocked.entries = s.entries := by
    rw [blocked]
    rfl
  have commute : ∀ (l : List SlotIx) (u : State) (n : NoticeUnit),
      clearSlots l (u.withNotices n) = (clearSlots l u).withNotices n := by
    intro l
    induction l with
    | nil => exact fun _ _ => rfl
    | cons i l ih => exact fun u n => ih (u.setNotice i .clear none) n
  have cleared : clearSlots (s.entries.filterMap Entry.slot) s.emptyBlocked
      = (clearSlots s.noticed s).withNotices { s.notices with blocked := [] } := by
    rw [blocked, commute]
    unfold State.noticed clearSlots
    rw [List.foldl_append]
  have pools : (clearSlots s.noticed s).pools = s.pools := by rw [(clearSlots_facts _ s).1]
  unfold State.cleared State.freeNotices
  rw [entries, entries_clearSlots, cleared, ← pools]
  rfl

section
variable (s : State)

theorem cleared_record (i : SlotIx) : (i ∈ s.noticed →
      s.cleared.record i = { s.record i with notice := .clear, holder := none })
    ∧ (i ∉ s.noticed → s.cleared.record i = s.record i) := by
  obtain ⟨-, others, cleared⟩ := clearSlots_facts s.noticed s
  have records : s.cleared.record i = (clearSlots s.noticed s).record i := by
    rw [cleared_form]
    rfl
  rw [records]
  exact ⟨cleared i, others i⟩

theorem cleared_queues (p : Port) : s.cleared.notices.queues[p] = s.notices.queues[p].filter isSweepDone := by
  rw [cleared_form]
  exact Vector.getElem_map ..

theorem mem_cleared_entries (e : Entry) : e ∈ s.cleared.entries ↔ e ∈ s.entries ∧ e.kind = .sweepDone := by
  have kept : ∀ {n : Nat} (v : Vector (List Entry) n),
      e ∈ (v.map (·.filter isSweepDone)).toList.flatten ↔ e ∈ v.toList.flatten ∧ e.kind = .sweepDone :=
    fun v => ⟨mem_flatten_kept v _ (fun _ => rfl) e, fun ⟨mem, kind⟩ => mem_kept_flatten v _ (fun _ => rfl) e mem kind⟩
  unfold State.entries
  rw [cleared_form]
  simp only [List.mem_append]
  rw [kept, kept, kept]
  constructor
  · rintro ((⟨mem, kind⟩ | ⟨mem, kind⟩) | ⟨mem, kind⟩)
    · exact ⟨.inl (.inl mem), kind⟩
    · exact ⟨.inl (.inr mem), kind⟩
    · exact ⟨.inr mem, kind⟩
  · rintro ⟨(mem | mem) | mem, kind⟩
    · exact .inl (.inl ⟨mem, kind⟩)
    · exact .inl (.inr ⟨mem, kind⟩)
    · exact .inr ⟨mem, kind⟩

theorem cleared_isUp (q : Port) : s.cleared.isUp q = s.isUp q := by
  have links : s.cleared.links = s.links := by
    rw [cleared_form, (clearSlots_facts _ s).1]
  unfold State.isUp
  rw [links]

theorem cleared_sweeps : s.cleared.sweeps = s.sweeps := by rw [cleared_form, (clearSlots_facts _ s).1]

/-- Reserve entries that were FREE are FREE still (R90). -/
theorem cleared_reserve {q : Port} (free : s.freeReserve q ≠ none) : s.cleared.freeReserve q ≠ none := by
  rw [freeReserve_iff] at free ⊢
  obtain ⟨n, two, unused⟩ := free
  exact ⟨n, two, fun e mem => unused e ((mem_cleared_entries s e).mp mem).1⟩

theorem cleared_reserveFree {q : Port}
    (free : ∀ e ∈ s.entries, e.number ≠ 248 + 2 * q.val ∧ e.number ≠ 249 + 2 * q.val) : s.cleared.ReserveFree q :=
  fun e mem => free e ((mem_cleared_entries s e).mp mem).1

/-- The reserve entries that no SWEEP-DONE entry of a port holds are the FREE ones. -/
theorem cleared_reserveLeft (q : Port) : s.cleared.reserveLeft q
    = [248 + 2 * q.val, 249 + 2 * q.val].filter fun n =>
      s.entries.all fun e => decide (e.kind = .sweepDone → e.number ≠ n) := by
  unfold State.reserveLeft
  refine List.filter_congr fun n _ => ?_
  rw [Bool.eq_iff_iff, decide_eq_true_eq, List.all_eq_true]
  simp only [decide_eq_true_eq]
  exact ⟨fun h e mem kind => h e ((mem_cleared_entries s e).mpr ⟨mem, kind⟩), fun h e mem =>
    have ⟨mem, kind⟩ := (mem_cleared_entries s e).mp mem
    h e mem kind⟩

end

/-! ### Steps 4 and 5: the TAG sweeps that are abandoned, and the list -/

/-- The state once every queued TAG sweep has been abandoned. -/
def State.dismissed (s : State) : State := (s.sweeps.places.filter isTagSweep).foldl State.abandon s.cleared

/-- The state that the SWEEP-DONE notice of the TOTAL sweep itself is created in. -/
def State.restored (s : State) : State := s.cleared.abandonTagSweeps.restoreList

theorem restored_form (s : State) : s.restored = { s.dismissed with
    sweeps := { s.sweeps with places := s.sweeps.places.filter fun w => !isTagSweep w }
    expiry := { s.expiry with listState := .normal, restarts := 0 }
    placement := { s.placement with
      rebuildPart := 0
      carried := s.placement.carried.map fun c => { c with rebuildMember := false } } } := by
  have shape := (abandoned_fold (s.sweeps.places.filter isTagSweep) s.cleared).shape
  unfold State.restored State.abandonTagSweeps State.restoreList State.dismissed
  rw [cleared_sweeps]
  generalize (s.sweeps.places.filter isTagSweep).foldl State.abandon s.cleared = u at shape
  have sweeps : u.sweeps = s.sweeps := by rw [shape]; exact cleared_sweeps s
  have expiry : u.expiry = s.expiry := by rw [shape, cleared_form, (clearSlots_facts _ s).1]
  have placement : u.placement = s.placement := by rw [shape, cleared_form, (clearSlots_facts _ s).1]
  rw [← sweeps, ← expiry, ← placement]
  rfl

theorem dismissed_abandoned (s : State) : Abandoned s.cleared s.dismissed := abandoned_fold _ _

theorem endTotal_form (s : State) (run : SweepRun) : s.endTotal run
    = ((s.restored.createSweepDone s.restored.portTable.supervisor run.sweep.number run.retired false).withSweeps
      { s.restored.sweeps with current := none }).driveLines := by
  have shape := createSweepDone_shape s.restored s.restored.portTable.supervisor run.sweep.number run.retired false
  have sweeps : (s.restored.createSweepDone s.restored.portTable.supervisor run.sweep.number run.retired false).sweeps
      = s.restored.sweeps := by rw [shape]
  rw [← sweeps]
  rfl

theorem restored_notices (s : State) : s.restored.notices = s.dismissed.notices := by rw [restored_form]

theorem dismissed_isUp (s : State) (q : Port) : s.dismissed.isUp q = s.isUp q := by
  have links : s.dismissed.links = s.cleared.links := by rw [(dismissed_abandoned s).shape]
  rw [← cleared_isUp s q]
  unfold State.isUp
  rw [links]

theorem restored_isUp (s : State) (q : Port) : s.restored.isUp q = s.isUp q := by
  have links : s.restored.links = s.dismissed.links := by rw [restored_form]
  rw [← dismissed_isUp s q]
  unfold State.isUp
  rw [links]

theorem restored_entries (s : State) : s.restored.entries = s.dismissed.entries := by
  unfold State.entries
  rw [restored_notices]

theorem restored_reserveLeft (s : State) (q : Port) : s.restored.reserveLeft q = s.dismissed.reserveLeft q := by
  unfold State.reserveLeft
  rw [restored_entries]

theorem restored_reserve (s : State) (q : Port) : s.restored.freeReserve q = s.dismissed.freeReserve q := by
  unfold State.freeReserve State.freeNumber
  rw [restored_entries]

theorem restored_supervisor (s : State) : s.restored.portTable.supervisor = s.portTable.supervisor := by
  have ports : s.restored.portTable = s.cleared.portTable := by rw [restored_form, (dismissed_abandoned s).shape]
  rw [ports, cleared_form, (clearSlots_facts _ s).1]

/-- A port's TAG sweeps are among the TAG sweeps. -/
theorem tagSweeps_of (l : List Sweep) (q : Port) :
    (l.filter isTagSweep).filter (isTagSweepOf q) = l.filter (isTagSweepOf q) := by
  rw [List.filter_filter]
  refine List.filter_congr fun w _ => ?_
  unfold isTagSweepOf isTagSweep
  cases w.kind <;> simp

/-! ### What the end leaves -/

section
variable (s : State) (run : SweepRun)

/-- The notice unit behind the end of a TOTAL sweep. -/
theorem endTotal_notices : (s.endTotal run).notices = (s.restored.createSweepDone s.portTable.supervisor
    run.sweep.number run.retired false).notices := by
  rw [endTotal_form, driveLines_notices, restored_supervisor]
  exact State.withSweeps_notices ..

theorem endTotal_grows {q : Port} {e : Entry} (mem : e ∈ s.dismissed.notices.queues[q]) :
    e ∈ (s.endTotal run).notices.queues[q] := by
  rw [endTotal_notices]
  refine createSweepDone_grow s.restored _ _ _ _ q e ?_
  rw [restored_notices]
  exact mem

theorem endTotal_kinds : ∀ e ∈ (s.endTotal run).entries, e.kind = .sweepDone := by
  have entries : (s.endTotal run).entries = (s.restored.createSweepDone s.portTable.supervisor
      run.sweep.number run.retired false).entries := by
    unfold State.entries
    rw [endTotal_notices]
  rw [entries]
  refine createSweepDone_kinds _ _ _ _ _ ?_
  rw [restored_entries]
  exact (dismissed_abandoned s).kinds fun e mem => ((mem_cleared_entries s e).mp mem).2

theorem endTotal_keeps {p : Port} {e : Entry} (mem : e ∈ s.notices.queues[p]) (kind : e.kind = .sweepDone) :
    e ∈ (s.endTotal run).notices.queues[p] := by
  refine endTotal_grows s run ((dismissed_abandoned s).grow p e ?_)
  rw [cleared_queues]
  exact List.mem_filter.mpr ⟨mem, decide_eq_true kind⟩

/-- The end of a TOTAL sweep, with its parts in the words of the state that it found. -/
theorem endTotal_shape : s.endTotal run = { s with
    table := { s.table with cells := s.cleared.table.cells }
    notices := (s.endTotal run).notices
    pools := s.pools.map fun _ => []
    sweeps := { s.sweeps with current := none, places := s.sweeps.places.filter fun w => !isTagSweep w }
    expiry := { s.expiry with listState := .normal, restarts := 0 }
    placement := { s.placement with
      rebuildPart := 0
      carried := s.placement.carried.map fun c => { c with rebuildMember := false } }
    links := (s.endTotal run).links } := by
  obtain ⟨ls, lines⟩ := driveLines_eq ((s.restored.createSweepDone s.restored.portTable.supervisor run.sweep.number
    run.retired false).withSweeps { s.restored.sweeps with current := none })
  have ended : s.endTotal run = _ := (endTotal_form s run).trans lines
  have shape := createSweepDone_shape s.restored s.restored.portTable.supervisor run.sweep.number run.retired false
  have restored := restored_form s
  have dismissed := (dismissed_abandoned s).shape
  have cleared := cleared_form s
  have slots := (clearSlots_facts s.noticed s).1
  generalize s.restored.createSweepDone s.restored.portTable.supervisor run.sweep.number run.retired false = c
    at shape ended
  generalize s.restored = u at shape ended restored
  generalize s.dismissed = v at restored dismissed
  generalize s.cleared = w at dismissed cleared
  generalize clearSlots s.noticed s = x at cleared slots
  rw [ended, shape, restored, dismissed, cleared, slots]
  rfl

theorem endTotal_links (m : Port) :
    (s.endTotal run).links[m] = { s.links[m] with attention := (s.endTotal run).links[m].attention } := by
  have links : ((s.restored.createSweepDone s.restored.portTable.supervisor run.sweep.number run.retired
      false).withSweeps { s.restored.sweeps with current := none }).links = s.links := by
    have shape := createSweepDone_shape s.restored s.restored.portTable.supervisor run.sweep.number run.retired false
    have restored : s.restored.links = s.links := by
      rw [restored_form, (dismissed_abandoned s).shape, cleared_form, (clearSlots_facts _ s).1]
    generalize s.restored.createSweepDone s.restored.portTable.supervisor run.sweep.number run.retired false = c
      at shape
    rw [shape]
    exact restored
  rw [endTotal_form, driveLines_links, links]

theorem endTotal_records (i : SlotIx) : (s.endTotal run).record i = s.cleared.record i := by
  have cells : (s.endTotal run).table.cells = s.cleared.table.cells := by rw [endTotal_shape]
  unfold State.record
  rw [cells]

/-- The blocked list and the thresholds. -/
theorem endTotal_others : (s.endTotal run).notices.blocked = []
    ∧ (s.endTotal run).notices.thresholds = s.notices.thresholds := by
  have shape := createSweepDone_shape s.restored s.portTable.supervisor run.sweep.number run.retired false
  have notices : s.restored.notices.blocked = [] ∧ s.restored.notices.thresholds = s.notices.thresholds := by
    rw [restored_notices, (dismissed_abandoned s).shape, cleared_form]
    exact ⟨rfl, rfl⟩
  rw [endTotal_notices]
  generalize s.restored.createSweepDone s.portTable.supervisor run.sweep.number run.retired false = c at shape
  rw [shape]
  exact notices

end

section
variable {s : State} {q : Port} (run : SweepRun)

/-- The SWEEP-DONE notice of the TOTAL sweep itself (R136 step 6). -/
theorem endTotal_done (super : s.portTable.supervisor = q) (up : s.isUp q = true)
    (free : s.dismissed.freeReserve q ≠ none) :
    ∃ e ∈ (s.endTotal run).notices.queues[q], e.kind = .sweepDone ∧ e.sweepNumber = some run.sweep.number
      ∧ e.abandoned = false ∧ e.retired = run.retired ∧ e.urgency = 0 := by
  subst super
  rw [← restored_reserve] at free
  obtain ⟨n, number⟩ := Option.ne_none_iff_exists'.mp free
  obtain ⟨e, ⟨kind, -, -, sweep, retired, abandoned, urgency, -⟩, form⟩ :=
    (createSweepDone_facts s.restored s.portTable.supervisor run.sweep.number run.retired false).2
      ((restored_isUp s _).trans up) n number
  refine ⟨e, ?_, kind, sweep, abandoned, retired, urgency⟩
  rw [endTotal_notices, form]
  dsimp only
  rw [set_port_same]
  exact mem_insertEntry.mpr (.inl rfl)

theorem endTotal_down (down : s.isUp q = false) : (s.endTotal run).notices.queues[q]
    = s.notices.queues[q].filter fun e => decide (e.kind = .sweepDone) := by
  rw [endTotal_notices, createSweepDone_down _ _ _ _ _ _ ((restored_isUp s q).trans down), restored_notices,
    State.dismissed, abandon_fold_down q _ _ ((cleared_isUp s q).trans down), cleared_queues]
  rfl

theorem endTotal_full (full : s.cleared.reserveLeft q = []) : (s.endTotal run).notices.queues[q]
    = s.notices.queues[q].filter fun e => decide (e.kind = .sweepDone) := by
  obtain ⟨queue, left⟩ := abandon_fold_full q (s.sweeps.places.filter isTagSweep) s.cleared full
  have still : s.restored.reserveLeft q = [] := (restored_reserveLeft s q).trans left
  rw [endTotal_notices, ((createSweepDone_count s.restored s.portTable.supervisor q run.sweep.number run.retired
    false).2.1 (.inr still)).1, restored_notices, State.dismissed, queue, cleared_queues]
  rfl

/-- As many notices as there are FREE reserve entries, and sweeps to report (R94, R136). -/
theorem endTotal_count (up : s.isUp q = true) : (s.endTotal run).notices.queues[q].length
    = (s.notices.queues[q].filter fun e => decide (e.kind = .sweepDone)).length
      + min (s.cleared.reserveLeft q).length ((s.sweeps.places.filter (isTagSweepOf q)).length
        + (if s.portTable.supervisor = q then 1 else 0)) := by
  obtain ⟨queue, left⟩ := abandon_fold_count q (s.sweeps.places.filter isTagSweep) s.cleared
    ((cleared_isUp s q).trans up)
  rw [tagSweeps_of, cleared_queues] at queue
  rw [tagSweeps_of] at left
  have dismissed : s.restored.notices.queues[q].length
      = (s.notices.queues[q].filter isSweepDone).length
        + min (s.cleared.reserveLeft q).length (s.sweeps.places.filter (isTagSweepOf q)).length := by
    rw [restored_notices]
    exact queue
  have rest : (s.restored.reserveLeft q).length
      = (s.cleared.reserveLeft q).length - (s.sweeps.places.filter (isTagSweepOf q)).length := by
    rw [restored_reserveLeft]
    exact left
  have kept : (s.notices.queues[q].filter fun e => decide (e.kind = .sweepDone)).length
      = (s.notices.queues[q].filter isSweepDone).length := rfl
  obtain ⟨-, same, more⟩ :=
    createSweepDone_count s.restored s.portTable.supervisor q run.sweep.number run.retired false
  rw [endTotal_notices, kept]
  by_cases super : s.portTable.supervisor = q
  · rw [if_pos super]
    by_cases none : s.restored.reserveLeft q = []
    · rw [(same (.inr none)).1, dismissed]
      rw [none, List.length_nil] at rest
      omega
    · obtain ⟨added, taken⟩ := more super ((restored_isUp s q).trans up) none
      rw [added, dismissed]
      omega
  · rw [if_neg super, (same (.inl super)).1, dismissed, Nat.add_zero]

end

/-- Settles O51: the steps of R136 one after another, and the notices that fit the reserve entries (R94). -/
theorem totalSweepEnds : Obligations.TotalSweepEnds := by
  intro s run current kind walked
  have ends : exec .totalSweepEnd s = .next (s.endTotal run) := by
    simp only [exec_totalSweepEnd, execTotalSweepEnd, current, kind, (walked_iff run).mpr walked, if_true]
  have shape := endTotal_shape s run
  obtain ⟨blocked, thresholds⟩ := endTotal_others s run
  have pools : (s.endTotal run).pools = s.pools.map fun _ => [] := by rw [shape]
  refine ⟨s.endTotal run, ends, by rw [shape], blocked, fun k => ?pools, endTotal_kinds s run,
    fun p e mem => endTotal_keeps s run mem, fun i named => ?named, fun i free unnamed => ?unnamed, by rw [shape],
    by rw [shape], fun q w more first up free => ?first, fun q w v more both up free => ?second,
    fun p super alone up free => ?done, fun p w super one up free => ?doneToo,
    fun q down => endTotal_down run down, fun q used => endTotal_full run ?full, fun q left wanted up hl hw => ?count,
    endTotal_links s run, thresholds, ?form⟩
  case pools =>
    rw [pools]
    exact Vector.getElem_map ..
  case named =>
    rw [endTotal_records]
    exact (cleared_record s i).1 ((mem_noticed s i).mpr named)
  case unnamed =>
    rw [endTotal_records]
    refine (cleared_record s i).2 fun mem => ?_
    rcases (mem_noticed s i).mp mem with ⟨b, hb, slot⟩ | ⟨e, he, slot⟩
    · exact free b hb slot
    · exact unnamed e he slot
  case first =>
    rw [← tagSweeps_of] at first
    obtain ⟨e, mem, facts⟩ := abandon_fold_entry q w more _ s.cleared first ((cleared_isUp s q).trans up)
      (cleared_reserve s free)
    exact ⟨e, endTotal_grows s run mem, facts⟩
  case second =>
    rw [← tagSweeps_of] at both
    obtain ⟨e, mem, facts⟩ := abandon_fold_second q w v more _ s.cleared both ((cleared_isUp s q).trans up)
      (cleared_reserveFree s free)
    exact ⟨e, endTotal_grows s run mem, facts⟩
  case done =>
    rw [← tagSweeps_of] at alone
    exact endTotal_done run super up (abandon_fold_reserve p _ s.cleared alone (cleared_reserve s free))
  case doneToo =>
    rw [← tagSweeps_of] at one
    exact endTotal_done run super up (abandon_fold_left p w _ s.cleared one (cleared_reserveFree s free))
  case full =>
    rw [cleared_reserveLeft, List.filter_eq_nil_iff]
    intro n two
    obtain ⟨e, mem, kind', number⟩ := used n two
    rw [List.all_eq_true]
    intro all
    exact of_decide_eq_true (all e mem) kind' number
  case count =>
    rw [endTotal_count run up, hl, hw, cleared_reserveLeft]
  case form =>
    generalize s.endTotal run = t at shape
    rw [shape]

end Sys2Proof.Machine
end

