-- ==== Sys2Proof/Proofs/Links.lean ====
section
/-! The client link (spec 10): where a frame begins and is cut off (R152), what a bad frame does (R153 to R155), and
LINK-OPEN, LINK-CLOSE, REQUEST and the end of a sending by link state (Table 10-3, Table 10-4). -/

namespace Sys2Proof.Machine

/-! ### The receiver -/

theorem setReceiver_at (s : State) (p : Port) (r : Receiver) :
    (s.setReceiver p r).links[p] = { s.links[p] with receiver := r } := State.modifyLink_at ..

/-- Further bits reach a port (R152). -/
theorem exec_frameStart_further {s : State} {p : Port} {bits : List Bool} {r : Receiver} (h : s.links[p].receiver = r) :
    exec (.frameStart p bits) s = .next (s.setReceiver p (r.further bits)) := by
  subst h
  rfl

/-- FRAME_CUT_OFF takes no effect where no frame has begun, or the begun one has ended (R152, log 4). -/
theorem exec_frameCutOff_rests {s : State} {p : Port} (h : s.links[p].receiver.begun = false) :
    exec (.frameCutOff p) s = .next s := by
  rw [exec_frameCutOff, execFrameCutOff, h]
  rfl

theorem clockPort_ended {s : State} {p : Port} {bits : List Bool} {quiet : Nat}
    (receiving : s.links[p].receiver = .receiving bits quiet) (ended : takeFrame bits ≠ none) : s.clockPort p = s := by
  unfold State.clockPort
  rw [receiving]
  exact if_pos (Option.isSome_iff_ne_none.mpr ended)

theorem clockPort_counts {s : State} {p : Port} {bits : List Bool} {quiet : Nat}
    (receiving : s.links[p].receiver = .receiving bits quiet) (begun : takeFrame bits = none)
    (few : quiet + 1 < Config.cutOffPeriods) : s.clockPort p = s.setReceiver p (.receiving bits (quiet + 1)) := by
  unfold State.clockPort
  rw [receiving]
  exact (if_neg (by rw [begun]; decide)).trans (if_pos few)

/-- Settles O52: the receiver searches or receives, and a begun frame has ended, is counted or is cut off. -/
theorem framesBeginAndAreCutOff : Obligations.FramesBeginAndAreCutOff := by
  intro s p
  refine ⟨fun bits found quiet receiving => exec_frameStart_further receiving, fun bits window searching short => ?starts,
    fun window searching => ⟨clockPort_searching s p ⟨window, searching⟩, exec_frameCutOff_rests (by rw [searching]; rfl)⟩,
    fun bits quiet receiving => ⟨fun x took => ?ended, fun begun few => clockPort_counts receiving begun few,
      fun begun many => ?cutOff⟩⟩
  case starts =>
    obtain ⟨found, missed⟩ := hunt_facts bits window short
    refine ⟨_, exec_frameStart_further searching, rfl, fun q other => State.modifyLink_away _ _ _ _ other,
      by rw [setReceiver_at], ?_, ?_⟩ <;> rw [setReceiver_at]
    · exact found
    · exact missed
  case ended =>
    have ended : takeFrame bits ≠ none := by rw [took]; exact Option.some_ne_none x
    refine ⟨clockPort_ended receiving ended, exec_frameCutOff_rests ?_⟩
    rw [receiving]
    exact Option.isNone_eq_false_iff.mpr (Option.isSome_iff_ne_none.mpr ended)
  case cutOff => rw [exec_frameCutOff_begun receiving begun, clockPort_cutOff receiving begun many]

/-! ### The rows of frames (log 16) -/

section
variable {s : State} {p : Port} {octets : List Octet} {left : List Bool}

theorem exec_badFrame_bad {reason : RejectReason}
    (took : takeFrame (s.links[p].receiver.held ++ bitsOfOctets octets) = some (.bad reason, left)) :
    exec (.badFrame p octets) s = .next ((s.setReceiver p (hunt [] left)).receiveBad p reason) := by
  rw [exec_badFrame, execBadFrame, Receiver.finish_eq _ _ _ _ took]

theorem exec_linkOpen_good {w : Nat}
    (took : takeFrame (s.links[p].receiver.held ++ bitsOfOctets octets) = some (.linkOpen w, left)) :
    exec (.linkOpen p octets) s = .next ((s.setReceiver p (hunt [] left)).receiveLinkOpen p w) := by
  rw [exec_linkOpen, execLinkOpen, Receiver.finish_eq _ _ _ _ took]

theorem exec_linkClose_good
    (took : takeFrame (s.links[p].receiver.held ++ bitsOfOctets octets) = some (.linkClose, left)) :
    exec (.linkClose p octets) s = .next ((s.setReceiver p (hunt [] left)).receiveLinkClose p) := by
  rw [exec_linkClose, execLinkClose, Receiver.finish_eq _ _ _ _ took]

theorem exec_requestFrame_good {seq : SeqNumber} {payload : List Octet}
    (took : takeFrame (s.links[p].receiver.held ++ bitsOfOctets octets) = some (.request seq payload, left)) :
    exec (.requestFrame p octets) s = .next ((s.setReceiver p (hunt [] left)).receiveRequest p seq payload) := by
  rw [exec_requestFrame, execRequestFrame, Receiver.finish_eq _ _ _ _ took]

theorem exec_badFrame_other
    (other : ∀ reason rest, takeFrame (s.links[p].receiver.held ++ bitsOfOctets octets) ≠ some (.bad reason, rest)) :
    exec (.badFrame p octets) s = .next s := by
  rw [exec_badFrame, execBadFrame, Receiver.finish]
  cases took : takeFrame (s.links[p].receiver.held ++ bitsOfOctets octets) with
  | none => rfl
  | some x =>
    obtain ⟨verdict, rest⟩ := x
    cases verdict with
    | bad reason => exact absurd took (other reason rest)
    | linkOpen _ | linkClose | request _ _ => rfl

theorem exec_linkOpen_other
    (other : ∀ w rest, takeFrame (s.links[p].receiver.held ++ bitsOfOctets octets) ≠ some (.linkOpen w, rest)) :
    exec (.linkOpen p octets) s = .next s := by
  rw [exec_linkOpen, execLinkOpen, Receiver.finish]
  cases took : takeFrame (s.links[p].receiver.held ++ bitsOfOctets octets) with
  | none => rfl
  | some x =>
    obtain ⟨verdict, rest⟩ := x
    cases verdict with
    | linkOpen w => exact absurd took (other w rest)
    | bad _ | linkClose | request _ _ => rfl

theorem exec_linkClose_other
    (other : ∀ rest, takeFrame (s.links[p].receiver.held ++ bitsOfOctets octets) ≠ some (.linkClose, rest)) :
    exec (.linkClose p octets) s = .next s := by
  rw [exec_linkClose, execLinkClose, Receiver.finish]
  cases took : takeFrame (s.links[p].receiver.held ++ bitsOfOctets octets) with
  | none => rfl
  | some x =>
    obtain ⟨verdict, rest⟩ := x
    cases verdict with
    | linkClose => exact absurd took (other rest)
    | bad _ | linkOpen _ | request _ _ => rfl

theorem exec_requestFrame_other
    (other : ∀ n os rest, takeFrame (s.links[p].receiver.held ++ bitsOfOctets octets) ≠ some (.request n os, rest)) :
    exec (.requestFrame p octets) s = .next s := by
  rw [exec_requestFrame, execRequestFrame, Receiver.finish]
  cases took : takeFrame (s.links[p].receiver.held ++ bitsOfOctets octets) with
  | none => rfl
  | some x =>
    obtain ⟨verdict, rest⟩ := x
    cases verdict with
    | request n os => exact absurd took (other n os rest)
    | bad _ | linkOpen _ | linkClose => rfl

end

/-! ### Bad frames -/

section
variable {u : State} {p : Port} {reason : RejectReason}

theorem receiveBad_disabled (h : u.links[p].state = .disabled) : u.receiveBad p reason = u := by
  unfold State.receiveBad
  rw [h]

theorem receiveBad_notUp (h : u.links[p].state = .down ∨ u.links[p].state = .recovering) :
    u.receiveBad p reason = u.form p (rejectFrame reason) := by
  unfold State.receiveBad
  rcases h with h | h <;> rw [h]

/-- A bad frame short of the eighth in a row is counted and answered (R154). -/
theorem receiveBad_counted (h : u.links[p].state = .up) (few : u.links[p].badRun < 7) :
    u.receiveBad p reason
      = (u.modifyLink p fun l => { l with badRun := l.badRun + 1 }).form p (rejectFrame reason) := by
  unfold State.receiveBad
  rw [h]
  exact if_pos (Nat.succ_lt_succ few)

/-- The eighth bad frame in a row takes the port out of UP (R154). -/
theorem receiveBad_eighth (h : u.links[p].state = .up) (many : 7 ≤ u.links[p].badRun) :
    u.receiveBad p reason = (u.leaveUp p .down (keptReject u.links[p] reason)).form p linkCloseFrame := by
  unfold State.receiveBad
  rw [h]
  exact if_neg (Nat.not_lt.mpr (Nat.succ_le_succ many))

end

/-! ### The judgement of a frame (Table 10-1) -/

section
variable {header length : Octet} {payload check : List Octet}

theorem judge_kind (whole : octetsOf 2 (crc16 (header :: length :: payload)).toNat = check)
    (request : header.toNat % 16 ≠ 1) (opens : header.toNat % 16 ≠ 3) (closes : header.toNat % 16 ≠ 6) :
    judge header length payload check = .bad .kind := by
  unfold judge
  rw [if_neg (not_not.mpr whole)]
  split
  · exact absurd ‹_› request
  · exact absurd ‹_› opens
  · exact absurd ‹_› closes
  · rfl

/-- A LINK-OPEN holds one octet, a window of 1 to 4 (Table 12-2). -/
theorem judge_linkOpen_content (whole : octetsOf 2 (crc16 (header :: length :: payload)).toNat = check)
    (opens : header.toNat % 16 = 3) (outside : ∀ w : Octet, payload = [w] → w.toNat = 0 ∨ 4 < w.toNat) :
    judge header length payload check = .bad .content := by
  unfold judge
  rw [if_neg (not_not.mpr whole), opens]
  match payload, outside with
  | [], _ => rfl
  | [w], outside => exact if_neg fun within => by have := outside w rfl; omega
  | _ :: _ :: _, _ => rfl

theorem judge_linkClose_content (whole : octetsOf 2 (crc16 (header :: length :: payload)).toNat = check)
    (closes : header.toNat % 16 = 6) (more : payload ≠ []) : judge header length payload check = .bad .content := by
  unfold judge
  rw [if_neg (not_not.mpr whole), closes]
  exact if_neg more

end

/-- Settles O53: the row is the bad frame's receipt in either form, decided by the link state, and the judgement meets
the conditions of Table 10-1 in their order. -/
theorem badFramesAreRejected : Obligations.BadFramesAreRejected := by
  refine ⟨?rejected, fun s p octets other => exec_badFrame_other fun reason rest => other reason rest,
    fun header length payload check => ⟨fun broken => if_pos broken,
      fun whole => ⟨judge_kind whole, judge_linkOpen_content whole, judge_linkClose_content whole⟩,
      fun rest long => takeFrame_long header length rest long⟩⟩
  rintro c s u p octets reason next row rfl
  have receipt : exec c s = .next ((s.setReceiver p next).receiveBad p reason) := by
    rcases row with ⟨rfl, left, took, rfl⟩ | ⟨rfl, rfl, rfl, bits, quiet, receiving, begun⟩
    · exact exec_badFrame_bad took
    · exact exec_frameCutOff_begun receiving begun
  have link := setReceiver_at s p next
  have state : (s.setReceiver p next).links[p].state = s.links[p].state := by rw [link]
  have badRun : (s.setReceiver p next).links[p].badRun = s.links[p].badRun := by rw [link]
  have transmit : (s.setReceiver p next).links[p].transmit = s.links[p].transmit := by rw [link]
  rw [receipt, ← state, ← badRun, ← transmit]
  refine ⟨fun h => congrArg _ (receiveBad_disabled h), fun h => congrArg _ (receiveBad_notUp h), fun h few => ?_,
    fun h many => ⟨_, congrArg _ (receiveBad_eighth h many), fun room => if_pos room,
      fun full => if_neg (Nat.not_lt.mpr full)⟩⟩
  exact congrArg _ ((receiveBad_counted h few).trans (State.modifyLink_twice ..))

/-! ### LINK-OPEN and LINK-CLOSE (Table 10-3) -/

section
variable {u : State} {p : Port} {w : Nat}

/-- While its PORT sweep is there a port recovers (R157). -/
theorem openFromDown_recovers (there : u.hasPortSweep p = true) : u.openFromDown p w = u.modifyLink p fun l =>
    { l with
      state := .recovering, pendingWindow := some w
      transmit := formOther linkWaitFrame l.transmit } := by
  unfold State.openFromDown
  rw [if_pos there]
  exact State.modifyLink_twice ..

theorem openFromDown_comesUp (gone : u.hasPortSweep p = false) : u.openFromDown p w = u.comeUp p w := by
  unfold State.openFromDown
  exact if_neg (by rw [gone]; decide)

theorem receiveLinkOpen_disabled (h : u.links[p].state = .disabled) :
    u.receiveLinkOpen p w = u.form p (rejectFrame .disabled) := by
  unfold State.receiveLinkOpen
  rw [h]

theorem receiveLinkOpen_down (h : u.links[p].state = .down) : u.receiveLinkOpen p w = u.openFromDown p w := by
  unfold State.receiveLinkOpen
  rw [h]

/-- A RECOVERING port, or a DOWN port with its PORT sweep, recovers with the window asked for (R157). -/
theorem receiveLinkOpen_recovering
    (h : u.links[p].state = .recovering ∨ (u.links[p].state = .down ∧ u.hasPortSweep p = true)) :
    u.receiveLinkOpen p w = u.modifyLink p fun l =>
      { l with
        state := .recovering, pendingWindow := some w
        transmit := formOther linkWaitFrame l.transmit } := by
  rcases h with h | ⟨h, there⟩
  · unfold State.receiveLinkOpen
    rw [h]
    refine (State.modifyLink_twice ..).trans (State.modifyLink_congr _ _ _ _ ?_)
    rw [← h]
  · rw [receiveLinkOpen_down h, openFromDown_recovers there]

/-- In UP a LINK-OPEN is a restart: the port leaves UP, and its PORT sweep makes it recover (R157). -/
theorem receiveLinkOpen_up (h : u.links[p].state = .up) : u.receiveLinkOpen p w = (u.leaveUp p .down []).modifyLink p
    fun l =>
      { l with
        state := .recovering, pendingWindow := some w
        transmit := formOther linkWaitFrame l.transmit } := by
  have restart : u.receiveLinkOpen p w = (u.leaveUp p .down []).openFromDown p w := by
    unfold State.receiveLinkOpen
    rw [h]
  rw [restart, openFromDown_recovers (leaveUp_has u p .down [])]

theorem receiveLinkClose_disabled (h : u.links[p].state = .disabled) : u.receiveLinkClose p = u := by
  unfold State.receiveLinkClose
  rw [h]

theorem receiveLinkClose_notUp (h : u.links[p].state = .down ∨ u.links[p].state = .recovering) :
    u.receiveLinkClose p = u.modifyLink p fun l =>
      { l with
        state := .down
        pendingWindow := if u.links[p].state = .down then l.pendingWindow else none
        transmit := formOther linkCloseFrame l.transmit } := by
  unfold State.receiveLinkClose
  rcases h with h | h <;> rw [h]
  · refine State.modifyLink_congr _ _ _ _ ?_
    rw [← h]
    simp
  · exact State.modifyLink_twice ..

theorem receiveLinkClose_up (h : u.links[p].state = .up) :
    u.receiveLinkClose p = (u.leaveUp p .down []).form p linkCloseFrame := by
  unfold State.receiveLinkClose
  rw [h]

end

/-- Settles O55: the rows of Table 10-3 for LINK-OPEN and LINK-CLOSE, by link state. -/
theorem linksOpenAndClose : Obligations.LinksOpenAndClose := by
  rintro s u p octets left rfl
  have link := setReceiver_at s p (hunt [] left)
  have state : (s.setReceiver p (hunt [] left)).links[p].state = s.links[p].state := by rw [link]
  refine ⟨fun w took => ?opened, fun took => ?closed, exec_linkOpen_other, exec_linkClose_other⟩
  case opened =>
    rw [exec_linkOpen_good took, ← state]
    refine ⟨fun h => congrArg _ (receiveLinkOpen_disabled h), fun h => congrArg _ (receiveLinkOpen_recovering h),
      fun h gone => ?_, fun h => congrArg _ (receiveLinkOpen_up h)⟩
    obtain ⟨t, up, own, others, entries, idle, form⟩ := comeUp_facts (s.setReceiver p (hunt [] left)) p w
    obtain ⟨served, pools⟩ := comeUp_served (s.setReceiver p (hunt [] left)) p w
    rw [up] at served pools
    refine ⟨t, congrArg _ (((receiveLinkOpen_down h).trans (openFromDown_comesUp gone)).trans up), ?_, fun q other => ?_,
      entries, served, pools, idle, form⟩
    · have sent : (s.setReceiver p (hunt [] left)).links[p].transmit = s.links[p].transmit := by rw [link]
      rw [← sent]
      exact own
    · have kept : (s.setReceiver p (hunt [] left)).links[q] = s.links[q] := State.modifyLink_away _ _ _ _ other
      rw [← kept]
      exact others q other
  case closed =>
    rw [exec_linkClose_good took, ← state]
    exact ⟨fun h => congrArg _ (receiveLinkClose_disabled h), fun h => congrArg _ (receiveLinkClose_notUp h),
      fun h => congrArg _ (receiveLinkClose_up h)⟩

/-! ### REQUEST frames (Table 10-4) -/

section
variable {u : State} {p : Port} {seq : SeqNumber} {payload : List Octet}

theorem receiveRequest_disabled (h : u.links[p].state = .disabled) : u.receiveRequest p seq payload = u := by
  unfold State.receiveRequest
  rw [h]

theorem receiveRequest_down (h : u.links[p].state = .down) :
    u.receiveRequest p seq payload = u.form p linkCloseFrame := by
  unfold State.receiveRequest
  rw [h]

theorem receiveRequest_recovering (h : u.links[p].state = .recovering) :
    u.receiveRequest p seq payload = u.form p linkWaitFrame := by
  unfold State.receiveRequest
  rw [h]

theorem receiveRequest_up (h : u.links[p].state = .up) : u.receiveRequest p seq payload
    = (u.modifyLink p fun l => { l with badRun := 0 }).sequenceRequest p seq payload := by
  unfold State.receiveRequest
  rw [h]

/-- A number in the reply history is answered by the stored response. -/
theorem sequenceRequest_replayed {stored : StoredReply}
    (found : u.links[p].history.find? (fun h => decide (h.seq = seq)) = some stored) :
    u.sequenceRequest p seq payload = u.form p ⟨.response, seq, stored.payload⟩ := by
  unfold State.sequenceRequest
  rw [found]
  rfl

/-- A number that is not in the reply history is compared with the expected one. -/
theorem sequenceRequest_new (new : u.links[p].history.find? (fun h => decide (h.seq = seq)) = none) :
    u.sequenceRequest p seq payload = if seq = u.links[p].expected then
        if u.links[p].requests.length < u.links[p].window then u.modifyLink p (·.takeRequest payload)
        else u.form p ⟨.response, seq, [Result.windowFull.code]⟩
      else u.form p ⟨.response, seq, [Result.sequence.code, octet u.links[p].expected.toNat]⟩ := by
  unfold State.sequenceRequest
  rw [new]
  rfl

end

/-- Settles O56: the link state decides, and in UP the first row of Table 10-4 that holds. -/
theorem requestFramesAreSequenced : Obligations.RequestFramesAreSequenced := by
  rintro s u p octets seq payload left rfl
  refine ⟨fun took => ?_, exec_requestFrame_other⟩
  have link := setReceiver_at s p (hunt [] left)
  have state : (s.setReceiver p (hunt [] left)).links[p].state = s.links[p].state := by rw [link]
  rw [exec_requestFrame_good took, ← state]
  refine ⟨fun h => congrArg _ (receiveRequest_disabled h), fun h => congrArg _ (receiveRequest_down h),
    fun h => congrArg _ (receiveRequest_recovering h), fun h => ?_⟩
  rw [receiveRequest_up h]
  have calm := State.modifyLink_at (s.setReceiver p (hunt [] left)) p fun l => { l with badRun := 0 }
  rw [link] at calm
  have twice := State.modifyLink_twice (s.setReceiver p (hunt [] left)) p fun l => { l with badRun := 0 }
  refine ⟨fun stored found => ?_, fun unknown => ?_⟩
  · rw [sequenceRequest_replayed (by rw [calm]; exact found)]
    exact congrArg _ (twice _)
  · have new : s.links[p].history.find? (fun h => decide (h.seq = seq)) = none :=
      List.find?_eq_none.mpr fun h mem => by simpa using unknown h mem
    rw [sequenceRequest_new (by rw [calm]; exact new), calm]
    refine ⟨?_, ?_, ?_⟩
    · rintro rfl room
      rw [if_pos rfl, if_pos room]
      refine congrArg _ ((twice _).trans (State.modifyLink_congr _ _ _ _ ?_))
      rw [link]
      rfl
    · rintro rfl full
      rw [if_pos rfl, if_neg (Nat.not_lt.mpr full)]
      exact congrArg _ (twice _)
    · intro other
      rw [if_neg other]
      exact congrArg _ (twice _)

/-! ### The end of a sending -/

/-- Settles O57: the frame at the head of the transmit queue leaves it, and its place decides. -/
theorem sendingEnds : Obligations.SendingEnds := by
  refine fun s p => ⟨fun idle => ?_, fun o rest sending => ⟨fun response => ?_, fun other => ?_⟩⟩
  · refine congrArg _ (State.modifyLink_id _ _ _ ?_)
    unfold Link.sent
    rw [idle]
  · refine congrArg _ (State.modifyLink_congr _ _ _ _ ?_)
    unfold Link.sent
    rw [sending]
    dsimp only
    rw [response]
  · refine congrArg _ (State.modifyLink_congr _ _ _ _ ?_)
    unfold Link.sent
    rw [sending]
    dsimp only
    rw [other]

end Sys2Proof.Machine
end

