-- ==== Sys2Proof/Proofs/Leaving.lean ====
section
/-! A port that leaves UP (R159): what is left at the port, what happens to its notices (R112, Table 6-5), and the PORT
sweep that follows (R126). -/

namespace Sys2Proof.Machine

/-! ### The notices of a port without a link -/

/-- A port that is not UP and has no notice. -/
def State.Bare (s : State) (p : Port) : Prop :=
  s.isUp p = false ∧ s.notices.queues[p] = [] ∧ s.notices.outstanding[p] = []

theorem State.Bare.shut {s t : State} {p : Port} (bare : s.Bare p) (shut : Shut p s t) : t.Bare p := by
  obtain ⟨down, queue, outstanding⟩ := bare
  obtain ⟨q, o⟩ := shut.kept down
  rw [queue] at q
  rw [outstanding] at o
  exact ⟨(shut.links.isUp p).trans down, List.sublist_nil.mp q, List.sublist_nil.mp o⟩

theorem State.Bare.congr {s t : State} {p : Port} (bare : s.Bare p) (links : t.links = s.links)
    (notices : t.notices = s.notices) : t.Bare p := by
  unfold State.Bare State.isUp
  rw [links, notices]
  exact bare

/-- The start of a sweep gives no notice to a port that is not UP. -/
theorem State.Bare.startSweep {s : State} {p : Port} (bare : s.Bare p) (w : Sweep) : (s.startSweep w).Bare p := by
  have read := bare.shut (shut_readSlots p s.liveSlots s)
  have marked : (s.swept w).Bare p := read.congr (by rw [swept_form]) (swept_notices s w)
  rw [startSweep_swept]
  refine (marked.shut (shut_settleSince p _ s)).shut (.of (confined_driveLines _) ?_ ?_) <;> rw [driveLines_notices]

theorem State.Bare.takeSweep {s : State} {p : Port} (bare : s.Bare p) : s.takeSweep.Bare p := by
  unfold State.takeSweep
  split
  · exact bare
  · split
    · have cleared : (s.withSweeps { s.sweeps with total := none }).Bare p := bare.congr rfl rfl
      exact cleared.startSweep _
    · exact bare.startSweep _
    · exact bare

theorem State.Bare.queuePortSweep {s : State} {p : Port} (bare : s.Bare p) : (s.queuePortSweep p).Bare p := by
  unfold State.queuePortSweep
  split
  · exact bare
  · unfold State.queueSweep
    exact State.Bare.takeSweep (bare.congr rfl rfl)

/-- The end of an event leaves the attention line of a port without notices deasserted (R110). -/
theorem settle_bare_attention {s : State} {p : Port} (bare : s.Bare p) : s.settle.links[p].attention = false := by
  have queue := (bare.shut (shut_settle p s)).2.1
  rw [lit_settle s p, State.attentionDue, queue]
  rfl

/-! ### The treatment of one entry (Table 6-5) -/

section
variable {w : State} {o : Bool} {e : Entry} {i : SlotIx}

/-- A notice that has lost its port is lost: a FAULT notice, or an EXPIRY notice of a record that the port was the
target of, but for an OUTSTANDING one of a DAMAGED record. -/
theorem treatLeaving_lost (blocked : w.notices.blocked = []) (names : e.slot = some i)
    (h : e.kind = .fault ∨ (e.kind = .expiry ∧ (∃ q, e.destination = .port q)
      ∧ ((w.record i).sched ≠ .damaged ∨ o = false))) : w.treatLeaving o e = w.loseNotice i := by
  have served : (w.loseNotice i).serveBlocked = w.loseNotice i := serveBlocked_nil _ blocked
  unfold State.treatLeaving
  rw [names]
  rcases h with fault | ⟨expiry, ⟨q, dest⟩, rest⟩
  · rw [fault]
    exact served
  · rw [expiry, dest]
    refine (if_neg fun both => ?_).trans served
    obtain ⟨damaged, out⟩ := Bool.and_eq_true_iff.mp both
    rcases rest with sound | queued
    · exact sound (of_decide_eq_true damaged)
    · rw [queued] at out
      cases out

theorem treatLeaving_offered {k : Pool} (names : e.slot = some i) (expiry : e.kind = .expiry)
    (dest : e.destination = .pool k) (sound : (w.record i).sched ≠ .damaged) :
    w.treatLeaving o e = (w.setNotice i .pending none).offer k e := by
  unfold State.treatLeaving
  rw [names, expiry, dest]
  exact if_neg fun damaged => sound (of_decide_eq_true damaged)

/-- The FAULT notice of a DAMAGED record is raised in place of its EXPIRY notice, unless that was QUEUED for the port
itself. -/
theorem treatLeaving_raised (blocked : w.notices.blocked = []) (names : e.slot = some i) (expiry : e.kind = .expiry)
    (damaged : (w.record i).sched = .damaged) (h : (∃ k, e.destination = .pool k) ∨ o = true) :
    w.treatLeaving o e = (w.loseNotice i).raiseFault i := by
  have served : (w.loseNotice i).serveBlocked = w.loseNotice i := serveBlocked_nil _ blocked
  unfold State.treatLeaving
  rw [names, expiry]
  cases dest : e.destination with
  | pool k => exact (if_pos (decide_eq_true damaged)).trans (by rw [served])
  | port q =>
    obtain ⟨k, pool⟩ | out := h
    · rw [dest] at pool
      cases pool
    · exact (if_pos (Bool.and_eq_true_iff.mpr ⟨decide_eq_true damaged, out⟩)).trans (by rw [served])

end

/-! ### The treatment of an entry that its read leaves in place -/

section
variable {s1 : State} {place : EntryPlace} {e : Entry} {i : SlotIx}

/-- The overrun count takes the lost notice, and the entry is gone. -/
theorem loseNotice_dropped (mem : e ∈ s1.listAt place) :
    ((s1.dropEntry place e).loseNotice i).record i
        = { s1.record i with notice := .clear, holder := none, overrun := saturate8 (s1.record i).overrun 1 }
      ∧ ((s1.dropEntry place e).loseNotice i).HasEntries (s1.entries.erase e) := by
  refine ⟨?_, hasEntries_dropEntry s1 place e mem⟩
  rw [loseNotice_record, (moved_dropEntry s1 place e).record]

/-- An entry for a pool is offered again (R112). -/
theorem offer_dropped (k : Pool) (mem : e ∈ s1.listAt place) :
    (((s1.dropEntry place e).setNotice i .pending none).offer k e).record i
        = { s1.record i with notice := .pending, holder := none }
      ∧ (((s1.dropEntry place e).setNotice i .pending none).offer k e).HasEntries s1.entries := by
  refine ⟨?_, (hasEntries_offer _ k e).perm (entries_dropEntry s1 place e mem)⟩
  rw [(moved_offer _ k e).record, State.setNotice, State.record_modify_self, (moved_dropEntry s1 place e).record]

/-- The FAULT notice of a DAMAGED record whose entry has left with its port: lost too, or WAITING, or PENDING (R144). -/
theorem raiseFault_dropped (mem : e ∈ s1.listAt place) :
    (s1.isUp (s1.faultPort (s1.record i)) = false →
      (((s1.dropEntry place e).loseNotice i).raiseFault i).record i = { s1.record i with
        notice := .clear, holder := none, overrun := saturate8 (saturate8 (s1.record i).overrun 1) 1 }
      ∧ (((s1.dropEntry place e).loseNotice i).raiseFault i).HasEntries (s1.entries.erase e))
    ∧ (s1.isUp (s1.faultPort (s1.record i)) = true →
      ((((s1.dropEntry place e).loseNotice i).raiseFault i).record i).notice = .waiting
      ∨ (((((s1.dropEntry place e).loseNotice i).raiseFault i).record i).notice = .pending
        ∧ ∃ x ∈ (((s1.dropEntry place e).loseNotice i).raiseFault i).notices.queues[s1.faultPort (s1.record i)],
          x.kind = .fault ∧ x.slot = some i)) := by
  obtain ⟨record, entries⟩ := loseNotice_dropped (i := i) mem
  have confined := (confined_dropEntry s1 place e).trans (confined_loseNotice _ i)
  have port : ((s1.dropEntry place e).loseNotice i).faultPort (((s1.dropEntry place e).loseNotice i).record i)
      = s1.faultPort (s1.record i) := by
    rw [record]
    unfold State.faultPort
    rw [confined.portTable]
  obtain ⟨lost, waits, created⟩ := raiseFault_facts port
  have up := confined.isUp (s1.faultPort (s1.record i))
  rw [up] at lost waits created
  rw [record] at lost
  generalize lose : (s1.dropEntry place e).loseNotice i = d at *
  refine ⟨fun down => ⟨lost down, ?_⟩, fun reached => ?_⟩
  · rw [raiseFault_lost d i (by rw [port, up]; exact down)]
    exact entries
  · cases free : d.freeGeneral with
    | none => exact .inl (congrArg Record.notice (waits reached free).1)
    | some n =>
      obtain ⟨pending, queued⟩ := created n reached free
      exact .inr ⟨congrArg Record.notice pending, _, queued, rfl, rfl⟩

end

/-! ### The port -/

section
variable {s : State} {p : Port}

/-- A port without notices has nothing to empty. -/
theorem emptyPort_bare (queue : s.notices.queues[p] = []) (outstanding : s.notices.outstanding[p] = []) :
    s.emptyPort p = s := by
  unfold State.emptyPort
  rw [queue]
  show s.notices.outstanding[p].foldl _ s = s
  rw [outstanding]
  rfl

/-- A port with one entry, read in `s1`, is emptied by that entry's treatment, which knows the entry's collection. -/
theorem emptyPort_single {s1 : State} {e : Entry} {i : SlotIx} (down : s.isUp p = false) (names : e.slot = some i)
    (read : s1 = s.readSlot i)
    (single : (s.notices.queues[p] = [e] ∧ s.notices.outstanding[p] = [] ∧ e ∈ s1.notices.queues[p])
      ∨ (s.notices.queues[p] = [] ∧ s.notices.outstanding[p] = [e] ∧ e ∈ s1.notices.outstanding[p])) :
    ∃ place o, e ∈ s1.listAt place ∧ (o = true ↔ s.notices.outstanding[p] = [e])
      ∧ s.emptyPort p = (s1.dropEntry place e).treatLeaving o e := by
  have named : s.readNamed e = s1 := by
    unfold State.readNamed
    rw [names, read]
  obtain ⟨queued, outstanding⟩ := leaveOne_read s p e down
  rcases single with ⟨queue, out, mem⟩ | ⟨queue, out, mem⟩
  · refine ⟨.queued p, false, mem, by simp [out], (queued queue out).trans ?_⟩
    rw [State.leaveQueueEntry, named]
    exact if_pos mem
  · refine ⟨.outstanding p, true, mem, by simp [out], (outstanding queue out).trans ?_⟩
    rw [State.leaveOutstandingEntry, named]
    exact if_pos mem

end

/-- The link of a port that has left UP. -/
theorem Link.leave_eq (l : Link) (x : LinkState) (kept : List Outgoing) : l.leave x kept = { l with
    state := x, requests := [], history := [], badRun := 0, pendingWindow := none,
    transmit := (l.transmit.take 1).map (fun o => { o with place := .other }) ++ kept } := rfl

/-- Settles O54: the link is left, the port's notices are emptied, its PORT sweep is queued and the event ends. -/
theorem leavingUpEmptiesPort : Obligations.LeavingUpEmptiesPort := by
  rintro s t p x kept down rfl
  have off : (s.modifyLink p (·.leave x kept)).isUp p = false := by
    unfold State.isUp
    rw [State.modifyLink_at]
    exact decide_eq_false down
  obtain ⟨queue, outstanding, confined, reach⟩ := emptyPort_facts (s.modifyLink p (·.leave x kept)) p off
  have links : ((s.modifyLink p (·.leave x kept)).emptyPort p).links = (s.modifyLink p (·.leave x kept)).links :=
    (aside_emptyPort _ p).links
  have bare : ((s.modifyLink p (·.leave x kept)).emptyPort p).Bare p :=
    ⟨(confined.isUp p).trans off, queue, outstanding⟩
  obtain ⟨-, queueEnd, outstandingEnd⟩ := bare.queuePortSweep.shut (shut_settle p _)
  refine ⟨queueEnd, outstandingEnd, settle_bare_attention bare.queuePortSweep, settle_served _, _, fun there => ?merged,
    fun gone => ⟨_, ?queued, rfl⟩, ?link, fun q other => ?others, queue, outstanding,
    ⟨confined.timeBase, confined.sweeps, confined.portTable⟩, confined.thresholds, fun i free inQueue inSet => ?record,
    fun queued clear i => ?empty, fun e i s1 r names read blocked value single => ?entry⟩
  case merged =>
    have swept : ((s.modifyLink p (·.leave x kept)).emptyPort p).hasPortSweep p = true := by
      rw [State.hasPortSweep, confined.sweeps]
      exact there
    unfold State.leaveUp
    rw [queuePortSweep_merged swept]
  case queued =>
    have swept : ((s.modifyLink p (·.leave x kept)).emptyPort p).hasPortSweep p = false := by
      rw [State.hasPortSweep, confined.sweeps]
      exact gone
    have new := queuePortSweep_new swept
    rwa [confined.sweeps] at new
  case link => rw [links, State.modifyLink_at, Link.leave_eq]
  case others => rw [links, State.modifyLink_away _ _ _ _ other]
  case record =>
    refine reach.records i (fun mem => ?_) free
    rcases List.mem_append.mp mem with mem | mem
    · obtain ⟨e, inside, names⟩ := List.mem_map.mp mem
      exact inQueue e inside names
    · obtain ⟨e, inside, names⟩ := List.mem_map.mp mem
      exact inSet e inside names
  case empty => 
    rw [emptyPort_bare (s := s.modifyLink p (·.leave x kept)) queued clear]
    rfl
  case entry =>
    rw [links] at read
    subst value
    obtain ⟨place, o, mem, held, treated⟩ := emptyPort_single off names read single
    have record := (moved_dropEntry s1 place e).record i
    have nobody : (s1.dropEntry place e).notices.blocked = [] := (moved_dropEntry s1 place e).blocked.trans blocked
    rw [treated]
    refine ⟨fun h => ?_, fun expiry ⟨k, dest⟩ sound => ?_, fun expiry damaged h => ?_⟩
    · rw [treatLeaving_lost nobody names]
      · exact loseNotice_dropped mem
      · rw [record]
        refine h.imp_right fun ⟨expiry, port, rest⟩ => ⟨expiry, port, rest.imp_right fun empty => ?_⟩
        refine Bool.eq_false_iff.mpr fun out => ?_
        have full := empty.symm.trans (held.mp out)
        cases full
    · rw [treatLeaving_offered names expiry dest (by rw [record]; exact sound)]
      exact offer_dropped k mem
    · rw [treatLeaving_raised nobody names expiry (by rw [record]; exact damaged) (h.imp_right held.mpr)]
      exact raiseFault_dropped mem

end Sys2Proof.Machine
end
